-- ==== Sys2Proof/Word.lean ====
section
/-! DEFINITION. The machine word and byte, and the plain widths that every other file uses. -/

namespace Sys2Proof

/-- A 32-bit register value (R78). -/
abbrev Word := BitVec 32

/-- One byte of memory (R4). -/
abbrev Byte := BitVec 8

/-- One code word (R30). -/
abbrev Code := BitVec 64

/-- A thread mask of a warp: bit j names thread j (R407). -/
abbrev Mask := BitVec 128

end Sys2Proof
end

