-- ==== Sys2Proof/Config.lean ====
section
/-! DEFINITION. What the manual leaves open, as constants without a body: nothing can prove a value of them, so a claim
that holds of the model holds whatever they are. Each is named in a log entry. -/

namespace Sys2Proof.Config

/-- The choice between the old and the new value when a result that is not interlocked is read before it is ready
(R289); the argument is State.free and the register's key. -/
opaque freeOld : Nat → Nat → Bool

/-- A word the manual leaves open (a firmware answer, a part of a record): fresh for each value of State.free. -/
opaque freeWord : Nat → BitVec 32

/-- SHA-384 of a byte string (R365, R485): the manual names the function and does not give it. (DESIGN CHOICE, log 79) -/
opaque sha384 : List (BitVec 8) → List (BitVec 8)

/-- Whether an ECDSA P-384 signature over a digest verifies against the keys installed (R365, R490). (DESIGN CHOICE, log 79) -/
opaque ecdsaOk : List (BitVec 8) → List (BitVec 8) → Bool

/-- Byte `k` of the signature the device makes over a digest (R485): only that it is some signature is given. -/
opaque ecdsaSign : List (BitVec 8) → Nat → BitVec 8

/-- Byte `k` of a context image section whose inner layout the manual does not give (R420); the first argument is the
number of the image. -/
opaque imageByte : Nat → Nat → BitVec 8

/-- The word that LINKST returns for a port of a number of lanes (R480): its layout is not given. -/
opaque linkWord : Nat → BitVec 32

/-- The word that PWRQ returns for a die's frequency in 100 MHz units, its cap in watts (0 for none) and its throttle step (R480):
its layout is not given. -/
opaque powerWord : Nat → Nat → Nat → BitVec 32

/-- Byte `k` of a SHA-384 digest that the root firmware holds (R485): 0 of the configuration record, 1 of the root firmware, 2 of a
management firmware image of the version given. -/
opaque deviceDigest : Nat → Nat → Nat → BitVec 8

/-- The order of agents' progress that the manual leaves open is fixed by State.agenda and State.turn; this choice
picks the package's answer where a firmware policy decides (R348, R480), fresh for each value of State.free. -/
opaque freePolicy : Nat → Bool

/-- Which of several elements a replacement displaces (R211, R215): the manual names no policy. The argument is State.free. (DESIGN CHOICE, log 92) -/
opaque freePick : Nat → Nat

/-- Bytes that the binding of a code object of so many entries takes in the dispatcher save area (R85, R351): the manual gives none.
(DESIGN CHOICE, log 24) -/
opaque bindingBytes : Nat → Nat

/-- The length of the launch section of a cut's images (R420), by the number of the cut: the manual says "as needed". (DESIGN CHOICE, log 60) -/
opaque launchSection : Nat → Nat

end Sys2Proof.Config
end

