-- ==== Sys2Proof/Syntax.lean ====
section
/-! DEFINITION. The syntax of the machine: the fields of the code words (R33, R44, R47, R52, R54), and `Instr`, one
constructor for each row of the table of operations and events. -/

namespace Sys2Proof

/-- The fields of an F word, and of word 0 of an L pair, but for format and opcode (R33). -/
structure FWord where
  stall : BitVec 3
  wait : BitVec 12
  sig : BitVec 4
  gn : Bool
  gp : BitVec 4
  lr : BitVec 3
  v : Bool
  i : Bool
  d : BitVec 8
  a : BitVec 8
  b : BitVec 8
  deriving DecidableEq, Repr

/-- Word 1 of an L pair (R44). -/
structure LExt where
  c : BitVec 8
  x24 : BitVec 24
  imm32 : BitVec 32
  deriving DecidableEq, Repr

/-- The fields of a P word (R47). -/
structure PWord where
  stall : BitVec 3
  wait : BitVec 12
  gp : BitVec 4
  gn : Bool
  xop : BitVec 7
  xd : BitVec 7
  xs : BitVec 7
  yop : BitVec 7
  yd : BitVec 7
  ys : BitVec 7
  deriving DecidableEq, Repr

/-- The fields of an ORD prefix word; `low` is bits 48:0 (R52). -/
structure OrdWord where
  order : BitVec 3
  scope : BitVec 3
  colour : BitVec 3
  low : BitVec 49
  deriving DecidableEq, Repr

/-- What meets an uncorrectable error (R459, R461, R463): the cause, the warp of the block, and the address where the record gives one. -/
structure KillMet where
  cause : Nat
  w : Nat
  addr : Nat
  deriving DecidableEq, Repr

/-- What management firmware asks of a die (R15, R497): its clock in units of 100 MHz, and its power cap in watts where it gives one. -/
structure ClockAsk where
  mult : Nat
  cap : Option Nat
  deriving DecidableEq, Repr

/-- The fields of a REP prefix word; `low` is bits 47:0 (R54). -/
structure RepWord where
  count1 : BitVec 4
  dstep : BitVec 2
  astep : BitVec 2
  bstep : BitVec 2
  low : BitVec 48
  deriving DecidableEq, Repr

/-- The logical name of a warp: launch (partition × 2³² + launch identifier), block linear index, whether it belongs to
the shadow of a twin launch, and the warp index in the block (R437, R464). -/
structure WName where
  launch : Nat
  blk : Nat
  shadow : Bool
  w : Nat
  deriving DecidableEq, Repr

/-- One constructor for each row of spec/opcode_table.json. The rows with code words carry the fields of their words.
The other rows are steps of the agents beside the warps: each carries the names of what it acts on, and, where the
outside decides a value (a host write, a measured power), that value. -/
inductive Instr where
  | nop (f : FWord)
  | movF (f : FWord)
  | movL (f : FWord) (x : LExt)
  | iaddF (f : FWord)
  | iaddL (f : FWord) (x : LExt)
  | isubF (f : FWord)
  | isubL (f : FWord) (x : LExt)
  | iaddt (f : FWord) (x : LExt)
  | iadd64 (f : FWord)
  | imulF (f : FWord)
  | imulL (f : FWord) (x : LExt)
  | imulh (f : FWord)
  | imulw (f : FWord)
  | imad (f : FWord) (x : LExt)
  | iminF (f : FWord)
  | iminL (f : FWord) (x : LExt)
  | imaxF (f : FWord)
  | imaxL (f : FWord) (x : LExt)
  | iabs (f : FWord)
  | ineg (f : FWord)
  | isetF (f : FWord)
  | isetL (f : FWord) (x : LExt)
  | sel (f : FWord) (x : LExt)
  | andF (f : FWord)
  | andL (f : FWord) (x : LExt)
  | orF (f : FWord)
  | orL (f : FWord) (x : LExt)
  | xorF (f : FWord)
  | xorL (f : FWord) (x : LExt)
  | andnF (f : FWord)
  | andnL (f : FWord) (x : LExt)
  | not (f : FWord)
  | blut (f : FWord) (x : LExt)
  | shl (f : FWord)
  | shr (f : FWord)
  | sar (f : FWord)
  | rol (f : FWord)
  | funs (f : FWord) (x : LExt)
  | bfe (f : FWord) (x : LExt)
  | bfi (f : FWord) (x : LExt)
  | popc (f : FWord)
  | clz (f : FWord)
  | brev (f : FWord)
  | bpick (f : FWord) (x : LExt)
  | lea (f : FWord) (x : LExt)
  | pset (f : FWord)
  | pmov (f : FWord)
  | faddF (f : FWord)
  | faddL (f : FWord) (x : LExt)
  | fsubF (f : FWord)
  | fsubL (f : FWord) (x : LExt)
  | fmulF (f : FWord)
  | fmulL (f : FWord) (x : LExt)
  | ffmaF (f : FWord)
  | ffmaL (f : FWord) (x : LExt)
  | fmin (f : FWord)
  | fmax (f : FWord)
  | fsetF (f : FWord)
  | fsetL (f : FWord) (x : LExt)
  | fabs (f : FWord)
  | fneg (f : FWord)
  | fdivF (f : FWord)
  | fdivL (f : FWord) (x : LExt)
  | frcp (f : FWord)
  | frsq (f : FWord)
  | fsqrt (f : FWord)
  | fex2 (f : FWord)
  | flg2 (f : FWord)
  | fsinp (f : FWord)
  | fcosp (f : FWord)
  | frnd (f : FWord)
  | fclass (f : FWord)
  | fscl (f : FWord)
  | pkadd (f : FWord)
  | pkmul (f : FWord)
  | pkfmaF (f : FWord)
  | pkfmaL (f : FWord) (x : LExt)
  | pkmin (f : FWord)
  | pkmax (f : FWord)
  | dadd (f : FWord)
  | dmul (f : FWord)
  | dfmaF (f : FWord)
  | dfmaL (f : FWord) (x : LExt)
  | dmin (f : FWord)
  | dmax (f : FWord)
  | dset (f : FWord)
  | cvtif (f : FWord) (x : LExt)
  | cvtfi (f : FWord) (x : LExt)
  | cvtff (f : FWord) (x : LExt)
  | dp4i8 (f : FWord)
  | dp8i4 (f : FWord)
  | dp4f8 (f : FWord)
  | dp8f4 (f : FWord)
  | dp2bf (f : FWord)
  | qnt8 (f : FWord) (x : LExt)
  | qnt4 (f : FWord) (x : LExt)
  | dq8 (f : FWord) (x : LExt)
  | dq4 (f : FWord) (x : LExt)
  | scle (f : FWord) (x : LExt)
  | nrscl (f : FWord) (x : LExt)
  | nrsum (f : FWord) (x : LExt)
  | mma (f : FWord) (x : LExt)
  | mmat (f : FWord) (x : LExt)
  | mzero (f : FWord)
  | mrd (f : FWord)
  | mwr (f : FWord)
  | mdrain (f : FWord) (x : LExt)
  | epld (f : FWord) (x : LExt)
  | eparg (f : FWord)
  | mstat (f : FWord)
  | ld8F (f : FWord)
  | ld8L (f : FWord) (x : LExt)
  | ld16F (f : FWord)
  | ld16L (f : FWord) (x : LExt)
  | ld32F (f : FWord)
  | ld32L (f : FWord) (x : LExt)
  | ld64F (f : FWord)
  | ld64L (f : FWord) (x : LExt)
  | ld128F (f : FWord)
  | ld128L (f : FWord) (x : LExt)
  | st8F (f : FWord)
  | st8L (f : FWord) (x : LExt)
  | st16F (f : FWord)
  | st16L (f : FWord) (x : LExt)
  | st32F (f : FWord)
  | st32L (f : FWord) (x : LExt)
  | st64F (f : FWord)
  | st64L (f : FWord) (x : LExt)
  | st128F (f : FWord)
  | st128L (f : FWord) (x : LExt)
  | prf (f : FWord)
  | cctlWbl1 (f : FWord)
  | cctlInvl1 (f : FWord)
  | cctlInvl2 (f : FWord)
  | cctlWball1 (f : FWord)
  | cctlInvall1 (f : FWord)
  | cctlTlbinv (f : FWord)
  | cctlTlbinvall (f : FWord)
  | ataddF (f : FWord)
  | ataddL (f : FWord) (x : LExt)
  | atminF (f : FWord)
  | atminL (f : FWord) (x : LExt)
  | atmaxF (f : FWord)
  | atmaxL (f : FWord) (x : LExt)
  | atandF (f : FWord)
  | atandL (f : FWord) (x : LExt)
  | atorF (f : FWord)
  | atorL (f : FWord) (x : LExt)
  | atxorF (f : FWord)
  | atxorL (f : FWord) (x : LExt)
  | atxchF (f : FWord)
  | atxchL (f : FWord) (x : LExt)
  | atcas (f : FWord) (x : LExt)
  | atincw (f : FWord) (x : LExt)
  | atdecw (f : FWord) (x : LExt)
  | atbadd (f : FWord) (x : LExt)
  | atfaddF (f : FWord)
  | atfaddL (f : FWord) (x : LExt)
  | red (f : FWord) (x : LExt)
  | fence (f : FWord)
  | raceq (f : FWord)
  | cpy (f : FWord) (x : LExt)
  | cpyw (f : FWord)
  | cptr (f : FWord)
  | cprst (f : FWord)
  | qfence (f : FWord)
  | bcpy (f : FWord) (x : LExt)
  | tmove (f : FWord) (x : LExt)
  | tstat (f : FWord) (x : LExt)
  | tcncl (f : FWord) (x : LExt)
  | cfetch (f : FWord) (x : LExt)
  | cstat (f : FWord)
  | cevict (f : FWord)
  | braF (f : FWord)
  | braL (f : FWord) (x : LExt)
  | brx (f : FWord)
  | jmpf (f : FWord) (x : LExt)
  | callF (f : FWord)
  | callL (f : FWord) (x : LExt)
  | ret (f : FWord)
  | join (f : FWord)
  | exit (f : FWord)
  | poll (f : FWord)
  | wpermF (f : FWord)
  | wpermL (f : FWord) (x : LExt)
  | matchWarp (f : FWord)
  | elect (f : FWord)
  | wred (f : FWord)
  | wscan (f : FWord)
  | ejctl (f : FWord)
  | recall (f : FWord)
  | waitf (f : FWord)
  | yield (f : FWord)
  | sleep (f : FWord)
  | bar (f : FWord)
  | bara (f : FWord)
  | barw (f : FWord)
  | gbar (f : FWord)
  | gbara (f : FWord)
  | gbarw (f : FWord)
  | qbind (f : FWord) (x : LExt)
  | qclose (f : FWord)
  | qpopt (f : FWord)
  | qstat (f : FWord)
  | qfree (f : FWord)
  | edgew (f : FWord) (x : LExt)
  | edger (f : FWord) (x : LExt)
  | edgecl (f : FWord)
  | launch (f : FWord) (x : LExt)
  | lwait (f : FWord)
  | grpq (f : FWord)
  | lstat (f : FWord)
  | trap (f : FWord)
  | eret (f : FWord)
  | owrd (f : FWord)
  | owwr (f : FWord)
  | srd (f : FWord)
  | swr (f : FWord)
  | wresumeRetry (f : FWord) (x : LExt)
  | wresumeDeliver (f : FWord) (x : LExt)
  | wresumeKill (f : FWord) (x : LExt)
  | wstop (f : FWord) (x : LExt)
  | ckpt (f : FWord)
  | ckptQ (f : FWord)
  | ctxsv (f : FWord) (x : LExt)
  | ctxld (f : FWord) (x : LExt)
  | ctxldRoll (f : FWord) (x : LExt)
  | brk (f : FWord)
  | trace (f : FWord)
  | halt (f : FWord)
  | kslotLoad (f : FWord) (x : LExt)
  | kslotZero (f : FWord) (x : LExt)
  | kslotQuery (f : FWord) (x : LExt)
  | scrubCores (f : FWord) (x : LExt)
  | scrubPages (f : FWord) (x : LExt)
  | fwcall (f : FWord) (x : LExt)
  | ord (o : OrdWord)
  | rep (r : RepWord)
  | pairWord (p : PWord)
  | epilogueRow (core : Nat) (quad : Nat)
  | matrixStep (core : Nat) (quad : Nat) (upsets : Nat)
  | qtailWrite (part : Nat) (q : Nat) (val : BitVec 32)
  | queueEnable (part : Nat) (q : Nat) (val : BitVec 32)
  | registerWrite (part : Nat) (off : Nat) (val : BitVec 64) (sup : Bool)
  | launchAccept (part : Nat) (q : Nat)
  | gangStart (lk : Nat) (cluster : Nat)
  | completionRecordWrite (lk : Nat)
  | gangKill (lk : Nat) (blk : Nat) (cause : KillMet)
  | preemption (lk : Nat) (blk : Nat)
  | contextImageWritten (lk : Nat) (blk : Nat)
  | gangRestore (lk : Nat) (blk : Nat) (cluster : Nat)
  | dispatcherBarrierSave (lk : Nat) (blk : Nat)
  | dispatcherEdgeSave (lk : Nat) (blk : Nat)
  | gangMigrate (lk : Nat) (blk : Nat) (package : Nat)
  | checkpointCut (lk : Nat)
  | cowCopy (part : Nat) (gran : Nat)
  | cutCommit (lk : Nat)
  | registerSwap (core : Nat) (quad : Nat)
  | swapOutComplete (w : WName)
  | registerReadmit (core : Nat) (quad : Nat)
  | groupPromotion (w : WName) (pc : Nat)
  | warpAging (w : WName)
  | denHandover (w : WName) (tid : Nat)
  | denRejoin (w : WName) (tid : Nat)
  | denTimeoutRecall (w : WName) (tid : Nat)
  | joinPassLimit (w : WName)
  | queueWaitTimeout (w : WName) (pc : Nat)
  | sleepExpiry (w : WName) (pc : Nat)
  | haltTimeout (w : WName) (pc : Nat)
  | yieldTimeout (w : WName) (pc : Nat)
  | parkedGroupRelease (w : WName) (pc : Nat)
  | faultBacklogDrain (part : Nat)
  | crerrRetry (part : Nat)
  | fqerrRetry (part : Nat)
  | trerrClear (part : Nat)
  | handlerEntry (cause : Nat)
  | loadReply (id : Nat)
  | storePerform (id : Nat)
  | atomicPerform (id : Nat)
  | remoteRequestArrival (id : Nat) (good : Bool)
  | replayTimeout (id : Nat)
  | replyForward (id : Nat)
  | copyBeat (id : Nat)
  | packageCopyBeat (id : Nat)
  | tierMoveStart (part : Nat) (page : Nat)
  | tierMoveLanding (part : Nat) (page : Nat)
  | brickCheckComplete (core : Nat) (lk : Nat) (brick : Nat)
  | brickImplicitFetch (core : Nat) (lk : Nat) (brick : Nat)
  | codeParityRefetch (core : Nat) (lk : Nat) (brick : Nat)
  | codeBreakpointHit (w : WName) (pc : Nat)
  | swapOutModeRecord (lk : Nat) (blk : Nat)
  | singleStepHalt (w : WName)
  | singleStepTimeout (w : WName)
  | traceEnable (part : Nat) (val : BitVec 32)
  | ckcostUpdate (lk : Nat) (blk : Nat)
  | twinCompare (w : WName)
  | collectiveContribution (id : Nat)
  | groupBarrierArrival (id : Nat)
  | clockStepRequest (die : Nat) (mult : ClockAsk)
  | pllRelockComplete (die : Nat)
  | powerWindow (die : Nat) (watts : Nat) (degC : Nat)
  | thermalTrip (die : Nat)
  | supplyDroop (die : Nat)
  | referenceClockLoss (lost : Bool)
  | packageBoot
  | powerLoss
  | functionLevelReset (part : Nat)
  | laneFailure (port : Nat)
  | linkRetrain (port : Nat) (lanes : Nat)
  | ucieModuleFailure (join : Nat)
  | flitAuthFailure (port : Nat)
  | linkKeyRenewal (port : Nat)
  | hostHdmAccess (part : Nat) (va : Nat) (size : Nat) (wdata : Option (List (BitVec 8)))
  | patrolScrub (pa : Nat)
  | correctedError (part : Nat) (ctr : Nat)
  | scrubJobComplete (part : Nat)
  | fwUpdateLoad (version : Nat) (sigOk : Bool)
  | fwUpdateSwitch
  | fwUpdateCommit
  | fwUpdateRollback
  | pinfo (id : Nat)
  | fpooladd (id : Nat)
  | fpooldel (id : Nat)
  | kwrap (id : Nat)
  | attest (id : Nat)
  | linkst (id : Nat)
  | pwrq (id : Nat)
  | coreCycle (die : Nat)
  | referenceTick
  | recallComplete (w : WName) (tid : Nat)
  | reloadComplete (w : WName)
  | zeroisationComplete (slot : Nat)
  deriving DecidableEq, Repr

end Sys2Proof
end

