-- ==== Sys2Proof/Machine/State.lean ====
section
/-! DEFINITION. The state of one Falgil G3 package as plain data: what the manual names, each field with the rule that
names it, and the model's own fields, marked so. Every list that stands for a map is sorted by its key, names no key
twice and holds no entry equal to what an absent key means (Machine/Store.lean). -/

namespace Sys2Proof.Machine

/-- Register state of one handler frame's window (R389). -/
structure Window where
  ewop : Word := 0
  ewd : Word := 0
  ewa : Word := 0
  ewb : Word := 0
  ewc : Word := 0
  ewimm : Word := 0
  ewpc : Word := 0
  ewlen : Word := 0
  ewg : List Word := []
  ewmask : Mask := 0
  cause : Word := 0
  faddr : BitVec 64 := 0
  fmask : Mask := 0
  deriving DecidableEq, Repr

/-- Why a thread's lanes are parked (R217): the page of its access, and the token of the record it waits on (0 while it
waits for a move to land). When it is released (R218) it is `ready` again. -/
structure Park where
  page : Nat
  token : Nat
  deriving DecidableEq, Repr

/-- State of a thread (R280). `retry` is a Blocked thread that stands before an instruction whose condition did not hold
when it was tried, with the stall code of R451; it is tried again; `burrow` is that of an instruction that waits for burrow `n`; `waitf` that of
a WAITF, with the number below which accesses count for it (R312), and `engines` that of a QFENCE, with the number below which entries count for
it (R269). Held is kept beside it in `Thread.held`. -/
inductive TState where
  | ready
  | retry (code : Nat)
  | burrow (push : Bool) (n : Nat)
  | barrier (level idx phase : Nat)
  | join
  | yield
  | sleep
  | waitf (upTo : Nat)
  | engines (upTo : Nat)
  | halt
  | recall
  | eret (retry : Bool)
  | reply (id : Nat)
  | parked (p : Park)
  | ejected
  | exited
  deriving DecidableEq, Repr

/-- A den slot as the thread in it sees it (R292): its party, the join point, its own s registers and flags, whether the
hand-over is complete, whether it has been told to hand back, its den-cycle count, and which den core of the cluster and which slot of it this
is. -/
structure DenSlot where
  party : Nat
  joinPt : Nat
  s : List (Nat × Word)
  flags : List (Nat × Nat)
  running : Bool
  recalled : Bool
  cycles : Nat
  core : Nat
  slot : Nat := 0
  deriving DecidableEq, Repr

/-- An agent whose accesses the memory model orders (R229, R233): a thread, with the two runs of a twin as one (R253); a copy channel by
the block whose view of it is meant (R259); a block's queue of a package copy engine, and of the tier engine. -/
inductive Agent where
  | thr (n : WName) (tid : Nat)
  | chan (lk blk ch : Nat)
  | pkg (lk blk engine : Nat)
  | tier (lk blk : Nat)
  deriving DecidableEq, Repr

/-- What happens before a point (R233): of each agent named, its accesses up to an interval. -/
abbrev Clock := List (Agent × Nat)

/-- The phase of a thread's last arrival on a barrier (R321); `clk` is what the phase orders before its return, once it is complete
(R232). -/
structure Arrival where
  level : Nat
  idx : Nat
  phase : Nat
  clk : Option Clock := none
  deriving DecidableEq, Repr

/-- One thread of a warp (R280, R301): `rk` is the repetition it stands at in a REP group (R57), `held` the depth of the
frame that holds it, 0 for none (R387); `cnt` counts the cycles of a timed wait; `again` says that its group parked and issues again, so that
WAIT is tested again (R218). -/
structure Thread where
  tid : Nat
  st : TState
  pc : Nat
  rk : Nat
  held : Nat
  retd : Nat
  cnt : Nat
  arr : List Arrival
  den : Option DenSlot
  again : Bool := false
  deriving DecidableEq, Repr

/-- One frame of a warp (R78, R386): `v` maps thread × 128 + register to a live value (R79; a key that is absent reads
as zero), `s` a uniform register to its value, `p` a thread to its predicate word, `flags` a completion flag to its
count (R35). `emu` is the K bit of R397; `conv` is the queued matrix
entry that the frame serves, and `back` the threads as they stood when it was delivered (R422). -/
structure Frame where
  v : List (Nat × Word) := []
  s : List (Nat × Word) := []
  p : List (Nat × BitVec 12) := []
  flags : List (Nat × Nat) := []
  win : Window := {}
  emu : Bool := false
  conv : Option Nat := none
  back : List Thread := []
  deriving DecidableEq, Repr

/-- Register swap state of a warp (R86). -/
inductive SwapSt where
  | resident | swappingOut | swapped | readmitting
  deriving DecidableEq, Repr

/-- An accumulator tile (R157): 256 elements row by row, ACCF and RERUNS of R176, whether the emulation segment holds it (R396), and whether
it has been written since the last cut (R179). -/
structure Tile where
  elems : List Word
  accf : Nat
  reruns : Nat
  emu : Bool
  written : Bool := false
  deriving DecidableEq, Repr

/-- A captured matrix operand (R164, R173): registers of the 128 threads, a scratchpad descriptor, or zero. -/
inductive MOper where
  | regs (vals : List Word)
  | scratch (off rp tp rot : Nat)
  | zero
  deriving DecidableEq, Repr

/-- An entry of a warp's matrix queue (R155, R179, R202). `op` is the code of %mstep; `step` counts completed steps, or
rows of a drain; `prog`, `k` and `eregs` are the captured epilogue program and its registers; `raw`, `pc` and `len` are
the group's own words (R422). -/
structure MEntry where
  id : Nat
  op : Nat
  tile : Nat
  a : MOper
  b : MOper
  fmtw : Word
  sa : List Int
  sb : List Int
  z : Bool
  m : Nat
  n : Nat
  ks : Nat
  step : Nat
  dreg : Nat
  depth : Nat
  prog : List Word
  k : List Word
  eregs : List (List Word)
  raw : List Code
  pc : Nat
  len : Nat
  sig : Nat
  deriving DecidableEq, Repr

/-- A party of the memory model (R229): a warp, the threads of one ejection, or an engine. -/
inductive Party where
  | warp (w : WName)
  | den (w : WName) (party : Nat)
  | engine (a : Agent)
  deriving DecidableEq, Repr

/-- What a release leaves for an acquire to find (R232): the party that made it, the interval it ended (R252), its scope, and what happens
before it. -/
structure RelSrc where
  party : Party
  ivl : Nat
  scope : Nat
  clk : Clock
  deriving DecidableEq, Repr

/-- What a thread's program order has come to (R232, R233): the interval its accesses fall in, what happens before them, its release fences,
one for each scope, and the releases that its reads have met, for an acquire fence. -/
structure ThrRace where
  tid : Nat
  ivl : Nat := 1
  clk : Clock := []
  fences : List RelSrc := []
  seen : List RelSrc := []
  deriving DecidableEq, Repr

/-- The interval counter and the acquired-from table of a warp or den party, and whether it is QUIET (R252). -/
structure RaceTab where
  ivl : Nat := 0
  table : List (Party × Nat) := []
  quiet : Bool := false
  deriving DecidableEq, Repr

/-- Race-detector state of a warp (R252, R254, R255): its table and those of its den parties, LOST, OVF, the two peer registers, and the
clocks of its threads. -/
structure RaceSt where
  tab : RaceTab := {}
  dens : List (Nat × RaceTab) := []
  lost : Bool := false
  ovf : Nat := 0
  peer : Word := 0
  info : Word := 0
  thr : List ThrRace := []
  deriving DecidableEq, Repr

/-- What a cause says of itself (R383, R389): path-independent. `after` is the restart point after the group, `unit` the UNIT of
a record in swap-out mode (R441), `peer` the two peer registers of a race (R254), and `trap` says that it goes to the trap vector whatever its code (R401). (DEDUCED, log 43) -/
structure CauseRec where
  cause : Nat
  tids : List Nat
  faddr : Nat := 0
  ewmask : Option Mask := none
  after : Bool := false
  unit : Nat := 0
  pc : Nat := 0
  peer : Option (Word × Word) := none
  trap : Bool := false
  deriving DecidableEq, Repr

/-- A result not yet ready that is not interlocked (R77, R289): its frame depth, the kind of register (0 v, 1 s, 2
predicate word), its key, the value before the write, and the cycles left. -/
structure Hazard where
  depth : Nat
  kind : Nat
  key : Nat
  old : Word
  left : Nat
  deriving DecidableEq, Repr

/-- An instruction outstanding on a completion flag beside the requests, entries and fetches that lower theirs as they complete (R35, R57):
the frame or den thread it issued in, its flag and address, the threads still in it, its requests outstanding under `id`, and the cycles until
the results of its last pass are ready (R77). -/
structure SigHold where
  id : Nat
  depth : Nat
  den : Option Nat
  flag : Nat
  pc : Nat
  tids : List Nat
  reqs : Nat
  left : Nat
  deriving DecidableEq, Repr

/-- Why a warp stands still though resident (R402, R445, R441, R463): the record's token, and what the record was. -/
structure HaltSt where
  token : Nat
  code : Nat
  deriving DecidableEq, Repr

/-- A skip mark (R442). -/
structure SkipMark where
  pc : Nat
  mask : Mask
  deriving DecidableEq, Repr

/-- A store of a twin that waits in the store-check buffer (R464), by physical address, with what its record needs as it leaves
(R466). -/
structure CheckStore where
  addr : Nat
  va : Nat
  tid : Nat
  tracked : Bool
  marked : Bool
  order : Nat
  scope : Nat
  bytes : List Byte
  party : Party
  ivl : Nat
  rels : List RelSrc
  deriving DecidableEq, Repr

/-- One warp (R78, R386). `pend` holds the causes that wait to be delivered, the first to be delivered first (R388, R401). `frames` holds the open frames, the current one first; the last one is frame 0. For a twin (R464 to
R466): `sig` its signature, `checked` its waiting stores, `nstores` the stores since the last compare point, `compare` 0, 1 while
it waits at a compare point, 2 once that has matched, `once` the accesses made once so far, and `twinRes` their results that the
primary has left for the shadow, by number. `stepArm` counts the cycles since a resume in single step, `stepped` is set by the issue of
a whole group (R445). `loopBuf` is the body that a loop buffer holds, from the target to the branch (R93). `since` counts the core cycles
since its last pass began, and `holds` its instructions outstanding on completion flags (R35). -/
structure Warp where
  name : WName
  core : Nat
  quad : Nat
  adm : Nat
  swap : SwapSt
  swaps : Nat
  threads : List Thread
  frames : List Frame
  fpm : Word
  ejmax : Word
  ejto : Word
  qto : Word
  trapvec : Word
  emuvec : Word
  emuacc : Word
  tiles : List Tile
  epStore : List (Nat × Word)
  epk : List (Nat × Word)
  mq : List MEntry
  race : RaceSt
  pend : List CauseRec
  halt : Option HaltSt
  stopReq : Bool
  skip : Option SkipMark
  groupWait : List (Nat × Nat)
  promoted : List Nat
  ableFor : Nat
  aged : Bool
  young : Bool
  joinPasses : List (Nat × Nat)
  latch1 : List (Nat × Word)
  hazards : List Hazard
  lastStall : Nat
  since : Nat
  holds : List SigHold
  sig : BitVec 64
  checked : List CheckStore
  compare : Nat
  nstores : Nat
  once : Nat
  twinRes : List (Nat × List (Nat × List Word))
  loopBuf : Option (Nat × Nat)
  stepArm : Option Nat
  stepped : Bool
  deriving DecidableEq, Repr

/-- A barrier's open phase (R317): `owner` is the warp index for a warp barrier, and at grid and group level 1 for a twin's
shadow run; `count` is the count of the phase's first arrival, and `arrived` the threads that have arrived, each with what happens
before its arrival (R232). -/
structure Bar where
  level : Nat
  owner : Nat
  idx : Nat
  phase : Nat
  count : Nat
  arrived : List (WName × Nat × Clock)
  deriving DecidableEq, Repr

/-- A burrow name of a block (R327). -/
structure Burrow where
  bound : Bool
  base : Nat
  sz : Nat
  head : Word
  tail : Word
  prod : Nat
  cons : Nat
  pmark : List Nat
  cmark : List Nat
  closedw : List Nat
  deriving DecidableEq, Repr

/-- A block: its core, position in the gang, private frame F (R208), scratchpad allocation (R210) and poisoned words of it
(R458), warp and block barriers, burrows, copy pointers (R259) and the edge bindings it closed early (R355). `swritten` names the 128-byte lines of the scratchpad written since the last cut (R420), `wpast` counts the bytes of
each channel before its last CPRST; `engclk` holds, for each queue, the interval at which an entry of the block begins and what happens before
its issue (R232, R252). -/
structure Block where
  launch : Nat
  blk : Nat
  shadow : Bool
  core : Nat
  grank : Nat
  frame : Nat
  scratch : List Host.Cell
  spoison : List Nat
  bars : List Bar
  burrows : List (Nat × Burrow)
  wptr : List (Nat × Word)
  swritten : List Nat := []
  wpast : List (Nat × Nat) := []
  engclk : List (Nat × Nat × Clock) := []
  deriving DecidableEq, Repr

/-- Where a gang is (R412, R434): running, at its stop (all its warps at restart points; `purpose` 0 a pre-emption's image is due, 1 a
cut is due, 2 an image in swap-out mode is due), saved in an image, killed and to start again, or finished. -/
inductive GangSt where
  | running | stopping (purpose : Nat) | saved (image : Nat) | killed | finished
  deriving DecidableEq, Repr

/-- A gang (R347, R351, R419): `rank0` is its first block, `epoch` its save count, `restored` whether the image of that
count has been restored (R425), `credits` the phases passed before a kill (R462), and `lost` its warps whose races may have gone
unreported (R255). -/
structure Gang where
  launch : Nat
  rank0 : Nat
  shadow : Bool
  cluster : Nat
  st : GangSt
  bars : List Bar
  relaunches : Nat
  epoch : Nat
  restored : Bool
  credits : List (WName × Nat × Arrival)
  ckBytes : Nat
  ckWord1 : Word
  marks : List Nat
  lost : List WName := []
  deriving DecidableEq, Repr

/-- A segment register (R203). -/
structure Seg where
  hint : Nat := 0
  atm : Bool := false
  wr : Bool := false
  rd : Bool := false
  kind : Nat := 7
  limit : Nat := 0
  base : Nat := 0
  deriving DecidableEq, Repr

/-- A group table entry (R344), its list read out. -/
structure Group where
  mode : Nat
  first : Nat
  stride : Nat
  count : Nat
  list : List Nat
  deriving DecidableEq, Repr

/-- An edge binding (R353). -/
structure EdgeBind where
  off : Nat
  seg : Nat
  role : Nat
  deriving DecidableEq, Repr

/-- A launch packet as read (R343). -/
structure Packet where
  code : Nat := 0
  entry : Nat := 0
  gang : Nat := 1
  prio : Nat := 0
  qos : Nat := 0
  accum : Nat := 0
  regmax : Nat := 1
  regtyp : Nat := 1
  gridx : Nat := 1
  gridy : Nat := 1
  gridz : Nat := 1
  blkx : Nat := 1
  blky : Nat := 1
  blkz : Nat := 1
  flags : Nat := 0
  smem : Nat := 0
  privw : Nat := 0
  ngrp : Nat := 0
  segtab : Nat := 0
  grptab : Nat := 0
  compl : Nat := 0
  tag : Nat := 0
  deriving DecidableEq, Repr

/-- A code object as bound at acceptance (R361, R363, R366): its code section, the entries resolved at the launch's
level, and what the checker needs (R371); `digests` is empty for an unsigned object. -/
structure CodeObj where
  base : Nat := 0
  codeoff : Nat := 0
  nbrick : Nat := 0
  step : Nat := 0
  entries : List (Option Nat) := []
  lifetime : List Nat := []
  digests : List (List Byte) := []
  level : Nat := 0
  codedig : List Byte := []
  deriving DecidableEq, Repr

/-- A launch and its retained record (R351): `refused` and `word0` are set when it is over. `key` is the key slot a protected
launch is bound to (R483). `before` is what happens before its start and `after` what its end orders (R232, R350); `prev` is the launch that its queue
accepted before it (R348). -/
structure Launch where
  lk : Nat
  part : Nat
  lid : Nat
  pkt : Packet
  segs : List Seg
  groups : List Group
  edges : List EdgeBind
  obj : CodeObj
  key : Nat
  started : Bool
  nextGang : Nat
  doneBlocks : Nat
  relaunch : Nat
  bars : List Bar
  failed : Option (Nat × Nat)
  complDue : Bool
  edgeClosed : List (Nat × Nat)
  groupDies : List (Nat × Nat)
  remote : List Nat
  pktdig : List Byte
  before : Clock := []
  after : Clock := []
  prev : Option Nat := none
  deriving DecidableEq, Repr

/-- State of a brick in a core's code store (R367). -/
inductive BrickSt where
  | fetching (token : Nat)
  | landed
  | failed (reason word : Nat)
  deriving DecidableEq, Repr

/-- A brick of a launch in a core's code store (R367): `words` its 512 words once read, `used` when it was last executed
(R368), `waiters` the flags its CFETCHes lower (R375). -/
structure Brick where
  core : Nat
  lk : Nat
  num : Nat
  slot : Nat
  st : BrickSt
  words : List Code
  used : Nat
  waiters : List (WName × Nat × Nat)
  deriving DecidableEq, Repr

/-- An implicit fetch that waits for a slot of its core (R368, R379), with the flags of restored CFETCHes that wait for it. -/
structure FetchWait where
  core : Nat
  lk : Nat
  num : Nat
  waiters : List (WName × Nat × Nat)
  deriving DecidableEq, Repr

/-- A line of a core's L1 (R211): its physical address ÷ 128, its bytes, whether it is private (write-back), dirty, the key slot it is held
under (R484), and whether it is marked evict-first. -/
structure L1Line where
  core : Nat
  line : Nat
  bytes : List Byte
  priv : Bool
  dirty : Bool
  key : Nat
  early : Bool := false
  deriving DecidableEq, Repr

/-- A translation held by a TLB (R215): its level (0 a core's, 1 a cluster's, 2 the translation cache of a die) and unit, the partition, the page
number by page size, the leaf, and the leaf's own address. -/
structure TlbEnt where
  level : Nat
  unit : Nat
  part : Nat
  page : Nat
  shift : Nat
  leaf : BitVec 64
  leafPa : Nat
  deriving DecidableEq, Repr

/-- Where an access falls: physical memory, or a block's scratchpad (R205). -/
inductive Space where
  | phys
  | scratch (launch blk : Nat) (shadow : Bool)
  deriving DecidableEq, Repr

/-- One thread's access of a request: address in its space, virtual address, size and the bytes a store carries, or the
operands of an atomic; whether the L1 may serve it, whether it may allocate a line there, and whether that line is marked evict-first
(R211). -/
structure Acc where
  tid : Nat
  space : Space
  addr : Nat
  va : Nat
  off : Nat
  size : Nat
  data : List Byte
  ops : List Word
  priv : Bool
  l1 : Bool
  alloc : Bool
  tracked : Bool
  early : Bool := false
  deriving DecidableEq, Repr

/-- What a request in flight does. -/
inductive ReqKind where
  | load (signed : Bool)
  | store
  | atom (op ty sp : Nat)
  | epld (ix n : Nat)
  | coll (sum : Bool) (grp tag base : Nat)
  | arrive (level idx phase : Nat)
  | edgePut (e : Nat)
  | edgeTake (m : Nat)
  | tstat
  | fwcall (fn : Nat) (args : List Word)
  | tmove (left : Nat)
  | scrub (job : Nat)
  | kslot (slot : Nat)
  | fence (rel acq : Bool) (mask pc : Nat)
  | inval
  | reply
  deriving DecidableEq, Repr

/-- A request in flight (R223, R241, R249, R418): the issuing warp and frame, the threads and their accesses, the logical
destination (operand code `dcode`, `dn` registers), the order, scope and colour, the flag to lower, the number of a twin's
access that is made once (R466), the sequence number of a request that leaves its die, the L2 slice that sent it (R249) and the dies that it
passes, its own first (R11), the replays made and whether it is lost until the next (R468), whether its home has performed it (`result` then
holds the reply), the party that issued it (R229), what each of its threads releases or arrives with (R232), and whether it performs in the
order of its group's repetitions (R58). -/
structure Req where
  id : Nat
  w : WName
  depth : Nat
  den : Option Nat
  kind : ReqKind
  tids : List Nat
  accs : List Acc
  dcode : Nat
  dn : Nat
  order : Nat
  scope : Nat
  colour : Nat
  sig : Nat
  once : Nat
  seq : Option Nat
  src : Nat
  route : List Nat
  replays : Nat
  lost : Bool
  done : Bool
  result : List (Nat × List Word)
  rels : List (Nat × RelSrc)
  party : Party
  serial : Bool
  deriving DecidableEq, Repr

/-- A reply a destination slice retains (R249). -/
structure Retained where
  src : Nat
  slice : Nat
  seq : Nat
  result : List (Nat × List Word)
  deriving DecidableEq, Repr

/-- An entry of a copy channel, or of a package copy engine (`ch` = 16 + engine) (R259, R260, R270): `ptr0` is the block's
pointer when beat 0 began (R277), `done` the bytes delivered, `token` the record it is stopped on; `party` and `ivl` are those of its issue,
and `clk` is what happens before it (R232, R268). -/
structure CopyEnt where
  id : Nat
  core : Nat
  ch : Nat
  w : WName
  tid : Nat
  depth : Nat
  ssrc : Nat
  sdst : Nat
  soff : Nat
  doff : Nat
  rb : Nat
  rows : Nat
  sp : Nat
  dp : Nat
  ptr0 : Option Nat
  done : Nat
  sig : Nat
  pc : Nat
  token : Option Nat
  party : Party
  ivl : Nat
  clk : Clock
  deriving DecidableEq, Repr

/-- A tier request, or the move in flight of its page (R271, R272): the target tier, its frame, and for a move in flight
the source tier and source frame. `reqId` is the TMOVE whose flag it holds. -/
structure TierReq where
  part : Nat
  page : Nat
  target : Nat
  place : Nat
  frame : Nat
  lk : Nat
  reqId : Nat
  moving : Bool
  srcTier : Nat
  srcFrame : Nat
  deriving DecidableEq, Repr

/-- A chunk of a cross-rank reduction (R149 to R153): its key, the ranks that have contributed, the running maximum, sum
and exponent, whether it is complete, and the dies whose engines hold an entry. -/
structure Chunk where
  lk : Nat
  sum : Bool
  grp : Nat
  tag : Nat
  idx : Nat
  ranks : List Nat
  maxE : Int
  acc : Int
  exp0 : Int
  mixed : Bool
  complete : Bool
  dies : List Nat
  deriving DecidableEq, Repr

/-- The record of an access (R251, R253): its agent and interval, its party, its kind, the block and thread that %racepeer and %raceinfo
name, and the 64 KiB granule of its virtual address (R427, R430). -/
structure AccRec where
  src : Agent
  ivl : Nat
  party : Party
  kind : Nat
  lk : Nat
  blk : Nat
  ftid : Nat
  den : Bool
  gran : Nat := 0
  deriving DecidableEq, Repr

/-- A tracked sector (R233, R252): its plain stores and its other accesses, each the newest first; `lost` when readers since the last
write have been lost (R253). -/
structure Sector where
  space : Space
  sec : Nat
  stores : List AccRec
  reads : List AccRec
  lost : Bool
  deriving DecidableEq, Repr

/-- A release that an acquire may read (R232), by the bytes that carry it. -/
structure RelRec where
  space : Space
  addr : Nat
  size : Nat
  rel : RelSrc
  deriving DecidableEq, Repr

/-- A fault record's content (R399). -/
structure FRec where
  code : Nat
  orig : Nat
  kind : Nat
  depth : Nat
  token : Nat
  lid : Nat
  blk : Nat
  unit : Nat
  core : Nat
  warp : Nat
  pc : Nat
  addr : Nat
  mask : Mask
  deriving DecidableEq, Repr

/-- A record that has not been answered (R401): what the answer acts on. -/
structure Token where
  token : Nat
  kind : Nat
  code : Nat
  w : WName
  mask : Mask
  pc : Nat
  addr : Nat
  ref : Nat
  core : Nat
  orig : Nat := 0
  deriving DecidableEq, Repr

/-- A completion record that could not be written (R400), with the launch, whose edges stay bound until it is (R353). -/
structure ComplRec where
  lk : Nat
  launch : Launch
  addr : Nat
  bytes : List Byte
  vec : Option Nat
  deriving DecidableEq, Repr

/-- A launch queue's registers (R341): `token` is the record its head slot waits on (R342), `last` the launch accepted last (R348),
and `befores` holds, for the packets that LAUNCH has appended, by sequence number, what happens before their launches' start (R357). -/
structure Queue where
  qbase : Nat := 0
  qtail : Word := 0
  qhead : Word := 0
  vec : Nat := 0
  devl : Bool := false
  en : Bool := false
  token : Option Nat := none
  last : Option Nat := none
  befores : List (Nat × Clock) := []
  deriving DecidableEq, Repr

/-- A watchpoint comparator (R438). -/
structure Watch where
  addr : Nat := 0
  lid : Nat := 0
  val : Bool := false
  acc : Nat := 0
  lg : Nat := 2
  deriving DecidableEq, Repr

/-- A code breakpoint comparator (R438). -/
structure Brkp where
  lid : Nat := 0
  off : Nat := 0
  val : Bool := false
  deriving DecidableEq, Repr

/-- The single-step registers (R438). -/
structure StepReg where
  blk : Nat := 0
  lid : Nat := 0
  en : Bool := false
  warp : Nat := 0
  deriving DecidableEq, Repr

/-- The trace ring registers (R446). -/
structure TraceReg where
  base : Nat := 0
  types : Nat := 0
  tsz : Nat := 7
  terr : Bool := false
  en : Bool := false
  ttail : Word := 0
  thead : Word := 0
  tdrop : Word := 0
  deriving DecidableEq, Repr

/-- One partition (R476, R477): its control registers, queues, fault queue (R399, R407), debug registers, trace ring, error
counters (R470), weights (R479), and what management firmware and the dispatchers keep for it; `heldTrace` holds trace records that wait for a landing, `fqretry` and `crretry`
say that supervisor code has asked for the held writes of a kind to be tried again, and not all have been made (R400). (DESIGN CHOICE, log 22) -/
structure Part where
  id : Nat
  ready : Bool := false
  troot : Nat := 0
  fqvec : Nat := 0
  clusters : List Nat := []
  qhbm : Nat := 0
  qcxl : Nat := 0
  qflash : Nat := 0
  kmask : BitVec 256 := 0
  protok : Bool := false
  crerr : Bool := false
  trerr : Bool := false
  fqerr : Bool := false
  weaddr : Nat := 0
  queues : List (Nat × Queue) := []
  watch : List (Nat × Watch) := []
  brk : List (Nat × Brkp) := []
  step : StepReg := {}
  trace : TraceReg := {}
  err : List (Nat × Word) := []
  lastpa : Nat := 0
  weights : List Nat := [1, 1, 1, 1]
  qosW : List (Nat × Nat) := []
  msix : List (Nat × Nat) := []
  fqbase : Nat := 0
  fqsize : Nat := 4
  fqhead : Word := 0
  fqtail : Word := 0
  backlog : List FRec := []
  tokens : List Token := []
  nextToken : Nat := 1
  heldCompl : List ComplRec := []
  heldTrace : List (Nat × List Byte) := []
  fqretry : Bool := false
  crretry : Bool := false
  pool : List (Nat × Nat × Nat) := []
  ranges : List (Nat × Nat × Nat) := []
  saveArea : Nat := 0
  codeKeys : List (List Byte) := []
  ckptRegion : Nat := 0
  cutSeq : Nat := 0
  service : Option Nat := none
  fabric : List (Nat × Nat) := []
  deriving DecidableEq, Repr

/-- A compute die (R15, R28, R452 to R454, R498): clocks in units of 100 MHz; `ncyAcc` is the 64.16 accumulator. (DESIGN CHOICE, log 21) -/
structure Die where
  id : Nat
  mult : Nat := 17
  relock : Option Nat := none
  heldStep : Option Nat := none
  stretch : Nat := 0
  cap : Nat := 0
  throttle : Nat := 0
  tripped : Bool := false
  cyc : BitVec 64 := 0
  ncyAcc : BitVec 80 := 0
  refcnt : BitVec 64 := 0
  deriving DecidableEq, Repr

/-- A quadrant's counters (R450, R451), the idle count of R84, its 0x81 records (R463), and the entry that its matrix engine has started and
not ended (R155). (DEDUCED, log 57) -/
structure Quad where
  core : Nat
  quad : Nat
  hist : List (Nat × Word) := []
  stall : List (Nat × Word) := []
  poolIdle : Nat := 0
  errs81 : Nat := 0
  out : Bool := false
  issued : Bool := false
  swapOrder : List WName := []
  runs : Option Nat := none
  deriving DecidableEq, Repr

/-- State of a key slot (R484). -/
inductive KeySt where
  | empty | loaded | zeroising
  deriving DecidableEq, Repr

/-- A scrub job (R486, R487). `units` are cores, or frames (4 KiB physical page numbers) in the order of the job. -/
structure ScrubJob where
  id : Nat
  part : Nat
  kind : Nat
  units : List Nat
  done : Nat
  resumed : Bool
  reqId : Nat
  deriving DecidableEq, Repr

/-- Phase of a live firmware update (R493). -/
inductive FwPhase where
  | idle | loaded (version : Nat) | switched (version : Nat)
  deriving DecidableEq, Repr

/-- A Falgil link port (R24, R469, R475). (DESIGN CHOICE, log 27) -/
structure Port where
  id : Nat
  lanes : Nat := 8
  epoch : Nat := 0
  laneErrs : Nat := 0
  replays : Nat := 0
  deriving DecidableEq, Repr

/-- A partition in the hand-over record (R494). -/
structure HandPart where
  id : Nat
  clusters : List Nat
  quotas : List Nat
  weights : List Nat
  qosW : List (Nat × Nat)
  codeKeys : List (List Byte)
  pool : List (Nat × Nat × Nat)
  cutSeq : Nat
  ckptRegion : Nat
  deriving DecidableEq, Repr

/-- A die in the hand-over record (R494): its number, setting, cap, throttle steps, and whether it has tripped. -/
structure HandDie where
  id : Nat
  mult : Nat
  cap : Nat
  throttle : Nat
  tripped : Bool
  deriving DecidableEq, Repr

/-- The hand-over record (R494): its format, the versions of both images, and its fields in the order of the table; of the calls, their
numbers in order. -/
structure HandOver where
  format : Nat
  oldVersion : Nat
  newVersion : Nat
  parts : List HandPart
  records : List Launch
  forwards : List Nat
  fabric : List Port
  peers : List (Nat × Nat × Nat)
  power : List HandDie
  calls : List Nat
  cuts : List (Nat × Bool)
  deriving DecidableEq, Repr

/-- Management firmware as far as the package sees it (R493 to R496), with the hand-over record in its private memory (R494), none before the
first. (DESIGN CHOICE, log 26) -/
structure Fw where
  half : Nat := 0
  version : Nat := 0
  stored : Nat := 0
  phase : FwPhase := .idle
  handover : Option HandOver := none
  deriving DecidableEq, Repr

/-- A key handle handed out by KWRAP (R480, R484). -/
structure Handle where
  handle : Word
  slot : Nat
  used : Bool
  deriving DecidableEq, Repr

/-- The content of a gang image (R419, R420): what restoring needs, and the header fields. `fetches` are the outstanding CFETCHes
(warp, depth, flag, brick; R379). `why` is 0 for a pre-emption,
1 and 2 for a stop under R325 and R356, 3 for swap-out mode, 4 for CTXSV, 5 for an image of a cut that is to be placed again. `regs` names the
registers of its register sections, by frame; `place` is where CTXSV wrote it, and `stale` says that a reply has changed it since (R418). -/
structure Image where
  id : Nat
  kind : Nat
  launch : Nat
  block0 : Nat
  part : Nat
  seq : Nat
  featsv : Word
  live : Word
  nsec : Nat
  size : Nat
  epoch : Nat
  gang : Gang
  blocks : List Block
  warps : List Warp
  copies : List CopyEnt
  fetches : List (WName × Nat × Nat × Nat)
  why : Nat
  regs : List (WName × Nat × Nat) := []
  place : Option Nat := none
  stale : Bool := false
  deriving DecidableEq, Repr

/-- A tracked granule that is not CLEAN (R427): 64 KiB of a partition's virtual space. -/
structure Granule where
  part : Nat
  num : Nat
  cow : Bool
  deriving DecidableEq, Repr

/-- The CKPT that took a cut (R433): its warp, frame depth, destination and threads, and the number under which a twin's shadow
finds its status (R466). -/
structure Taker where
  w : WName
  depth : Nat
  dcode : Nat
  tids : List Nat
  once : Nat
  deriving DecidableEq, Repr

/-- A cut of a group (R426, R429): its number, its launches, whether it is still to be taken (`due`), and once it is taken its
images, gang and launch records, open chunks, memory, poison and translation root as they stood, the granules that its badger has
copied or is still to copy, its BCPY entries and the requests not waited for, whether it is committed, and the CKPT that took it. -/
structure Cut where
  seq : Nat
  part : Nat
  lks : List Nat
  due : Bool
  images : List Image
  gangs : List Gang
  launches : List Launch
  chunks : List Chunk
  mem : List Host.Cell
  poison : List Nat
  troot : Nat
  saved : List Nat
  copies : List CopyEnt
  reqs : List Req
  committed : Bool
  taker : Option Taker
  deriving DecidableEq, Repr

/-- The configuration record of the boot flash (R491). (DESIGN CHOICE, log 20) -/
structure CfgRec where
  magic : Nat := 0x47464352
  recver : Nat := 0
  order : Nat := 1
  step : Nat := 0x10
  mbz : Bool := true
  featen : Nat := 0x7FFF
  plimit : Nat := 2360
  sigOk : Bool := true
  flashFitted : Bool := true
  deriving DecidableEq, Repr

/-- The group being issued (the model's own; R31, R55): the warp, the program counter, the repetition, the den thread
when a den core issues it, its raw words, its prefixes, and whether the attempt found that it cannot issue. (DESIGN CHOICE, log 5) -/
structure Issue where
  w : Option WName := none
  pc : Nat := 0
  rk : Nat := 0
  den : Option Nat := none
  words : List Code := []
  ord : Option OrdWord := none
  rep : Option RepWord := none
  stalled : Bool := false
  deriving DecidableEq, Repr

/-- A thread loses its work to a stop of this kind; the machine's faults. Only a step that has no machine to act on
faults. -/
inductive Fault where
  /-- An instruction is executed with no warp selected, or the selected warp's block or launch is not resident: raised
  by every instruction's meaning; safe, since `step` never selects such a warp. -/
  | noContext
  deriving DecidableEq, Repr

/-- Refusals. -/
inductive Refusal where
  /-- The instruction has no meaning in the model yet: raised by an arm of `exec`; safe. -/
  | notModelled (mnemonic : String)
  deriving DecidableEq, Repr

/-- One Falgil G3 package. `completed` and `ends` hold, of launches that are over, the first word of the record
(R358) and what their end orders (R350); `fetchq` holds the implicit fetches that wait for a slot, the one that has waited longest first (R368); `denTurn` the slot of each den core that the next round begins with, the den core served last at the end (R14). -/
structure State where
  feat : Word
  booted : Bool
  refLost : Bool
  cfgRec : CfgRec
  recverMax : Nat
  dies : List Die
  quads : List Quad
  mem : List Host.Cell
  poison : List Nat
  l1 : List L1Line
  tlb : List TlbEnt
  bricks : List Brick
  parts : List Part
  launches : List Launch
  completed : List (Nat × Word)
  ends : List (Nat × Clock)
  gangs : List Gang
  blocks : List Block
  warps : List Warp
  reqs : List Req
  retained : List Retained
  seqs : List (Nat × Nat)
  copies : List CopyEnt
  tier : List TierReq
  chunks : List Chunk
  sectors : List Sector
  releases : List RelRec
  images : List Image
  cuts : List Cut
  granules : List Granule
  keys : List (Nat × KeySt)
  handles : List Handle
  scrub : List ScrubJob
  fw : Fw
  ports : List Port
  joins : List (Nat × Nat)
  fetchq : List FetchWait
  denTurn : List (Nat × Nat)
  iss : Issue
  agenda : List Instr
  turn : Nat
  tick : Nat
  free : Nat
  nextId : Nat
  deriving DecidableEq, Repr

/-- The package right after reset (R78, R327, R341, R399, R407, R438, R446, R470, R477, R484): nothing resident, every
register at the value its table gives, and at the value a log entry names where the manual gives none. -/
def State.reset : State where
  feat := 0
  booted := false
  refLost := false
  cfgRec := {}
  recverMax := 0
  dies := [{ id := 0 }, { id := 1 }, { id := 2 }, { id := 3 }]
  quads := []
  mem := []
  poison := []
  l1 := []
  tlb := []
  bricks := []
  parts := (List.range 16).map (fun k => { id := k })
  launches := []
  completed := []
  ends := []
  gangs := []
  blocks := []
  warps := []
  reqs := []
  retained := []
  seqs := []
  copies := []
  tier := []
  chunks := []
  sectors := []
  releases := []
  images := []
  cuts := []
  granules := []
  keys := [(0, .loaded)]
  handles := []
  scrub := []
  fw := {}
  ports := (List.range 12).map (fun k => { id := k })
  joins := [(0, 8), (1, 8), (2, 8), (3, 8), (4, 4), (5, 4), (6, 4), (7, 4)]
  fetchq := []
  denTurn := []
  iss := {}
  agenda := []
  turn := 0
  tick := 0
  free := 0
  nextId := 1

end Sys2Proof.Machine
end

