-- ==== Sys2Proof/Machine/Store.lean ====
section
/-! DEFINITION. Sorted association lists (registers, flags, memory) in their one canonical form, bytes in the order of R4,
and the lookups and updates of the parts of State by name. -/

namespace Sys2Proof.Machine

/-- The value at key `k`. -/
def aget {α : Type} : List (Nat × α) → Nat → Option α
  | [], _ => none
  | (j, v) :: xs, k => if j = k then some v else aget xs k

/-- The value at key `k`, `d` where the key is absent. -/
def agetD {α : Type} (xs : List (Nat × α)) (k : Nat) (d : α) : α := (aget xs k).getD d

/-- `xs` with key `k` holding `v`. -/
def aset {α : Type} : List (Nat × α) → Nat → α → List (Nat × α)
  | [], k, v => [(k, v)]
  | (j, u) :: xs, k, v =>
    if k < j then (k, v) :: (j, u) :: xs else if k = j then (k, v) :: xs else (j, u) :: aset xs k v

/-- `xs` without key `k`. -/
def adel {α : Type} : List (Nat × α) → Nat → List (Nat × α)
  | [], _ => []
  | (j, u) :: xs, k => if k = j then adel xs k else (j, u) :: adel xs k

/-- `xs` with key `k` reading as `v`, where an absent key reads as `d`. -/
def aput {α : Type} [DecidableEq α] (d : α) (xs : List (Nat × α)) (k : Nat) (v : α) : List (Nat × α) :=
  if v = d then adel xs k else aset xs k v

/-- Every key is above `k`. -/
def aabove {α : Type} (k : Nat) : List (Nat × α) → Bool
  | [] => true
  | (j, _) :: xs => decide (k < j) && aabove k xs

/-- The keys rise strictly. -/
def asorted {α : Type} : List (Nat × α) → Bool
  | [] => true
  | (k, _) :: xs => aabove k xs && asorted xs

/-- The canonical form of a map whose absent keys read as `d`: keys rise strictly and no entry equals `d`. -/
def acanon {α : Type} [DecidableEq α] (d : α) (xs : List (Nat × α)) : Bool :=
  asorted xs && xs.all (fun e => decide (e.2 ≠ d))

/-- What a byte of memory that nothing has written reads as (DESIGN CHOICE, log 1). -/
def emptyByte : Byte := 0

/-- The canonical form of a memory. -/
def memWf (m : List Host.Cell) : Bool := acanon emptyByte m

/-- The byte at an address. (DESIGN CHOICE, log 1) -/
def readByte (m : List Host.Cell) (a : Nat) : Byte := agetD m a emptyByte

/-- Memory with one byte written. -/
def writeByte (m : List Host.Cell) (a : Nat) (b : Byte) : List Host.Cell := aput emptyByte m a b

/-- The `n` bytes from an address up. -/
def readBytes (m : List Host.Cell) (a : Nat) : Nat → List Byte
  | 0 => []
  | n + 1 => readByte m a :: readBytes m (a + 1) n

/-- Memory with bytes written from an address up. -/
def writeBytes (m : List Host.Cell) (a : Nat) : List Byte → List Host.Cell
  | [] => m
  | b :: bs => writeBytes (writeByte m a b) (a + 1) bs

/-- The number that bytes hold, the first the least significant (R4). -/
def ofBytes : List Byte → Nat
  | [] => 0
  | b :: bs => b.toNat + 256 * ofBytes bs

/-- The `n` bytes of a number, the least significant first (R4). -/
def toBytes (x : Nat) : Nat → List Byte
  | 0 => []
  | n + 1 => BitVec.ofNat 8 x :: toBytes (x / 256) n

/-- A 32-bit or wider number in memory. -/
def readNat (m : List Host.Cell) (a n : Nat) : Nat := ofBytes (readBytes m a n)

/-- Bits `lo + n - 1 : lo` of a number. -/
def bitsOf (x lo n : Nat) : Nat := x / 2 ^ lo % 2 ^ n

/-- Bit `k` of a number. -/
def bitOf (x k : Nat) : Bool := x / 2 ^ k % 2 = 1

/-- A number of `w` bits read as two's complement. -/
def signed (w x : Nat) : Int := if x % 2 ^ w < 2 ^ (w - 1) then (x % 2 ^ w : Nat) else (x % 2 ^ w : Nat) - (2 ^ w : Nat)

/-- Two's complement of an integer in `w` bits (wrap32 and wrap64 of the integer chapter). -/
def wrapTo (w : Nat) (x : Int) : Nat := (x % (2 ^ w : Nat)).toNat

/-- An integer clamped to a range. -/
def clampTo (lo hi x : Int) : Int := if x < lo then lo else if hi < x then hi else x

/-- A thread mask from thread numbers. -/
def maskOf (ts : List Nat) : Mask := ts.foldl (fun m t => m ||| BitVec.ofNat 128 (2 ^ t)) 0

/-- The thread numbers of a mask. -/
def maskTids (m : Mask) : List Nat := (List.range 128).filter (fun t => m.getLsbD t)

/-- Word `k` of a thread mask. -/
def maskWord (m : Mask) (k : Nat) : Word := m.extractLsb' (32 * k) 32

/-- A sorted list of numbers with one inserted, once. -/
def insertNat (n : Nat) : List Nat → List Nat
  | [] => [n]
  | x :: xs => if n < x then n :: x :: xs else if n = x then x :: xs else x :: insertNat n xs

/-- The 128-byte lines that hold `n` bytes from `a` on, entered among others. -/
def addLines (xs : List Nat) (a n : Nat) : List Nat :=
  if n = 0 then xs else (List.range ((a + n - 1) / 128 - a / 128 + 1)).foldl (fun acc k => insertNat (a / 128 + k) acc) xs
/-- Numbers sorted, each once. -/
def sortNat (xs : List Nat) : List Nat := xs.foldl (fun acc n => insertNat n acc) []

/-- `xs` with element `i` replaced. -/
def setAt {α : Type} (xs : List α) (i : Nat) (v : α) : List α := xs.set i v

/-- The least of a list of numbers. -/
def minNat (xs : List Nat) : Option Nat :=
  xs.foldl (fun m x => match m with | none => some x | some y => some (min x y)) none

end Sys2Proof.Machine
end

