-- ==== Sys2Proof/Machine/Clock.lean ====
section
/-! DEFINITION. Clocks of the memory model (R229, R232, R233, R252): what happens before an agent's next access, what a release hands over and
what an acquire receives, the acquired-from tables, and hand-over to and from the den. -/

namespace Sys2Proof.Machine

/-- A warp's name with the two runs of a twin as one (R253). -/
def runOf (n : WName) : WName := { n with shadow := false }
/-- A thread as an agent. -/
def agentOf (n : WName) (t : Nat) : Agent := .thr (runOf n) t

/-! ## Clocks -/

/-- The interval of an agent up to which a clock knows its accesses; 0 for none. -/
def Clock.upTo (k : Clock) (a : Agent) : Nat := ((k.find? (fun e => e.1 == a)).map (·.2)).getD 0
/-- A clock that knows an agent's accesses up to an interval. -/
def Clock.learn (k : Clock) (a : Agent) (n : Nat) : Clock :=
  if k.any (fun e => e.1 == a) then k.map (fun e => if e.1 == a then (a, max e.2 n) else e) else (a, n) :: k
/-- What either clock knows. -/
def Clock.join (j k : Clock) : Clock := k.foldl (fun acc e => acc.learn e.1 e.2) j

/-! ## Threads -/

/-- The clock state of a thread; that of a thread which has neither released nor acquired where none is listed. -/
def RaceSt.thread (r : RaceSt) (t : Nat) : ThrRace := (r.thr.find? (fun x => x.tid == t)).getD { tid := t }
/-- A thread's clock state changed. -/
def RaceSt.modThread (r : RaceSt) (t : Nat) (f : ThrRace → ThrRace) : RaceSt :=
  { r with thr := f (r.thread t) :: r.thr.filter (fun x => x.tid != t) }
/-- Everything that a thread's next release hands over: what happens before it, and its own accesses so far (R232, R233). -/
def RaceSt.before (r : RaceSt) (n : WName) (t : Nat) : Clock := (r.thread t).clk.learn (agentOf n t) (r.thread t).ivl
/-- Threads begin new intervals: what they access from now on is after what they have handed over. -/
def RaceSt.advance (r : RaceSt) (ts : List Nat) : RaceSt := ts.foldl (fun x t => x.modThread t (fun y => { y with ivl := y.ivl + 1 })) r
/-- What a thread does from now on is after all that a clock knows. -/
def RaceSt.receive (r : RaceSt) (t : Nat) (k : Clock) : RaceSt := r.modThread t (fun y => { y with clk := y.clk.join k })

/-! ## Parties -/

/-- The table of a party of the warp: its own, or that of a den party. -/
def RaceSt.tabOf (r : RaceSt) : Party → RaceTab
  | .den _ p => (aget r.dens p).getD {}
  | _ => r.tab
/-- The table of a party of the warp changed. -/
def RaceSt.modTab (r : RaceSt) (p : Party) (f : RaceTab → RaceTab) : RaceSt :=
  match p with
  | .den _ k => { r with dens := aset r.dens k (f (r.tabOf p)) }
  | _ => { r with tab := f r.tab }
/-- An acquire from a party up to an interval enters the table (R252): the ninth entry makes the holder QUIET and sets LOST. -/
def RaceSt.acquired (r : RaceSt) (p src : Party) (j : Nat) : RaceSt :=
  let t := r.tabOf p
  if src == p then r
  else if t.table.any (fun e => e.1 == src) then
    r.modTab p (fun x => { x with table := x.table.map (fun e => if e.1 == src then (src, max e.2 j) else e) })
  else if t.table.length < 8 then r.modTab p (fun x => { x with table := x.table ++ [(src, j)] })
  else { r.modTab p (fun x => { x with quiet := true }) with lost := true, ovf := if r.ovf < 255 then r.ovf + 1 else 255 }
/-- A release of some threads of a party at a scope (R232, R252): what each hands over; the party's interval advances. -/
def RaceSt.release (r : RaceSt) (n : WName) (p : Party) (ts : List Nat) (scope : Nat) : List (Nat × RelSrc) × RaceSt :=
  (ts.map (fun t => (t, { party := p, ivl := (r.tabOf p).ivl, scope := scope, clk := r.before n t })),
    (r.advance ts).modTab p (fun x => { x with ivl := x.ivl + 1 }))
/-- Threads of a party receive a release. -/
def RaceSt.acquire (r : RaceSt) (p : Party) (t : Nat) (e : RelSrc) : RaceSt := (r.receive t e.clk).acquired p e.party e.ivl

/-! ## The den -/

/-- An ejection (R232): every earlier access of the warp happens before every access of the den party. -/
def RaceSt.eject (r : RaceSt) (n : WName) (all few : List Nat) : RaceSt :=
  let k := all.foldl (fun (acc : Clock) t => acc.join (r.before n t)) []
  few.foldl (fun x t => x.receive t k) (r.advance all)
/-- Den threads are back (R232): what they did in the den happens before what the threads `all` of the warp do from now on. -/
def RaceSt.rejoin (r : RaceSt) (n : WName) (back all : List Nat) : RaceSt :=
  if back.isEmpty then r else
  let k := back.foldl (fun (acc : Clock) t => acc.join (r.before n t)) []
  all.foldl (fun x t => x.receive t k) (r.advance back)

end Sys2Proof.Machine
end

