-- ==== Sys2Proof/Machine/Fields.lean ====
section
/-! DEFINITION. The bit fields that entries of the manual name inside the operand and X24 fields, the type codes of
R45, and `encOk`: whether an encoding is one the manual defines (R38, R45, R72). -/

namespace Sys2Proof

/-- Field `d` bits 7:4 (R106, R108). -/
def FWord.dHi (f : FWord) : Nat := f.d.toNat / 16
/-- Field `d` bits 3:0. -/
def FWord.dLo (f : FWord) : Nat := f.d.toNat % 16
/-- Field `a` bits 7:4. -/
def FWord.aHi (f : FWord) : Nat := f.a.toNat / 16
/-- Field `a` bits 3:0. -/
def FWord.aLo (f : FWord) : Nat := f.a.toNat % 16
/-- Field `b` bits 7:4; in the F form of a memory instruction the segment index (R43). -/
def FWord.bHi (f : FWord) : Nat := f.b.toNat / 16
/-- Field `b` bits 3:0; in the F form of a memory instruction the displacement in units (R43). -/
def FWord.bLo (f : FWord) : Nat := f.b.toNat % 16
/-- OFF24 of BRA and CALL, bits 23:0 of the word (R299). -/
def FWord.off24 (f : FWord) : BitVec 24 := f.d ++ f.a ++ f.b

/-- Bits `lo + n - 1 : lo` of X24 as a number. -/
def LExt.xbits (x : LExt) (lo n : Nat) : Nat := x.x24.toNat / 2 ^ lo % 2 ^ n
/-- Type code at X24[4:0] (R96, R240). -/
def LExt.ty0 (x : LExt) : Nat := x.xbits 0 5
/-- Destination type code at X24[12:8] (R131, R144, R148). -/
def LExt.ty8 (x : LExt) : Nat := x.xbits 8 5
/-- Source type code at X24[20:16] (R131, R147). -/
def LExt.ty16 (x : LExt) : Nat := x.xbits 16 5
/-- Rounding mode at X24[1:0] (R45). -/
def LExt.rnd (x : LExt) : Nat := x.xbits 0 2
/-- Cache operator, word 1 bits 33:32 (R211). -/
def LExt.cop (x : LExt) : Nat := x.xbits 0 2
/-- Reduction operation, word 1 bits 40:37 (R240, R245). -/
def LExt.rop (x : LExt) : Nat := x.xbits 5 4
/-- Success predicate of ATBADD, word 1 bits 44:41 (R240). -/
def LExt.sp (x : LExt) : Nat := x.xbits 9 4
/-- Target of TMOVE, word 1 bits 34:32 (R274). -/
def LExt.tgt (x : LExt) : Nat := x.xbits 0 3
/-- Size code of QBIND, X24[3:0] (R328). -/
def LExt.szc (x : LExt) : Nat := x.xbits 0 4
/-- Operation of KSLOT, X24[9:8] (R484). -/
def LExt.ksop (x : LExt) : Nat := x.xbits 8 2
/-- Segment index of a memory operand, word 1 bits 55:52 (R46). -/
def LExt.seg (x : LExt) : Nat := x.xbits 20 4
/-- FAR, word 1 bit 51: the offset is a 64-bit pair (R46). -/
def LExt.far (x : LExt) : Bool := x.xbits 19 1 = 1

/-- The integer types of R45: .i8 .i16 .i32 .i64 .n8 .n16 .n32 .n64. -/
def isIntTy (t : Nat) : Bool := t ≤ 3 || (5 ≤ t && t ≤ 8)
/-- The floating-point types of R131: .f16 .bf16 .f32 .f64. -/
def isFloatTy (t : Nat) : Bool := 10 ≤ t && t ≤ 13
/-- The 8-bit narrow types of R144: .f8a .f8b .i8 .n8. -/
def isNarrow8 (t : Nat) : Bool := t = 14 || t = 15 || t = 0 || t = 5
/-- The 4-bit narrow types of R144: .f4 .i4 .n4. -/
def isNarrow4 (t : Nat) : Bool := t = 16 || t = 4 || t = 9
/-- .i32 .n32 .i64 .n64, the types of ATADD, ATMIN and ATMAX (R240). -/
def isAtomInt (t : Nat) : Bool := t = 2 || t = 7 || t = 3 || t = 8
/-- .n32 .n64, the types of the bitwise atomics, ATXCH and ATCAS (R240). -/
def isAtomBits (t : Nat) : Bool := t = 7 || t = 8
/-- .f32 .f16 .bf16, the types of ATFADD (R240). -/
def isAtomFloat (t : Nat) : Bool := t = 12 || t = 10 || t = 11
/-- The types RED admits for each operation (R245). -/
def redTypeOk (rop t : Nat) : Bool :=
  if rop ≤ 2 then isAtomInt t else if rop ≤ 5 then isAtomBits t else if rop = 6 then isAtomFloat t else false

/-- The format a memory type has 64 bits (R240). -/
def isTy64 (t : Nat) : Bool := t = 3 || t = 8 || t = 13

/-- No variant bit: V = 1 is an undefined encoding (R38). -/
def noV (f : FWord) : Bool := !f.v
/-- No immediate: I = 1 is an undefined encoding (R38). -/
def noI (f : FWord) : Bool := !f.i
/-- X24 has no bit outside the mask of the bits its entry defines (R45). (DEDUCED, log 10) -/
def xMask (x : LExt) (m : Nat) : Bool := x.x24.toNat &&& (0xFFFFFF - m) = 0
/-- IMM32 is not used and must be zero (R45). -/
def immZero (x : LExt) : Bool := x.imm32 = 0
/-- IMM32 is operand B when I = 1 and must be zero otherwise (R45). -/
def immIfI (f : FWord) (x : LExt) : Bool := f.i || x.imm32 = 0

/-- Pair codes of the X half (R49). -/
def xCodeOk (c : Nat) : Bool := c ≤ 0x1A || c = 0x7F
/-- Pair codes of the Y half: the simple subset (R49). -/
def yCodeOk (c : Nat) : Bool :=
  (c ≤ 2 || (4 ≤ c && c ≤ 0xC) || (0x10 ≤ c && c ≤ 0x13) || c = 0x16 || c = 0x17 || c = 0x19) || c = 0x7F

/-- Whether the instruction's V, I, type, operation and must-be-zero fields encode what its entry defines. An
instruction for which this is false has the fate of R72: cause 0x01, or 0x04 for a P word, or 0x05 for a prefix. The
steps of the other agents have no encoding: for them it is true. (DEDUCED, log 10) A QPOPT with B[7:4] other than zero, which R334 forbids without
a cause, is among those refused with 0x01. (DESIGN CHOICE, log 102) -/
def encOk : Instr → Bool
  | .nop f => noV f && noI f
  | .movF f => noV f
  | .movL f x => noV f && xMask x 0 && immIfI f x
  | .iaddF _ => true
  | .iaddL f x => xMask x 0x1F && immIfI f x && decide (x.ty0 = 2 ∨ x.ty0 = 7)
  | .isubF _ => true
  | .isubL f x => xMask x 0x1F && immIfI f x && decide (x.ty0 = 2 ∨ x.ty0 = 7)
  | .iaddt f x => noV f && xMask x 3 && immIfI f x
  | .iadd64 f => noV f
  | .imulF f => noV f
  | .imulL f x => noV f && xMask x 0 && immIfI f x
  | .imulh _ => true
  | .imulw _ => true
  | .imad f x => noV f && xMask x 0 && immIfI f x
  | .iminF _ => true
  | .iminL f x => xMask x 0 && immIfI f x
  | .imaxF _ => true
  | .imaxL f x => xMask x 0 && immIfI f x
  | .iabs f => noI f
  | .ineg f => noI f
  | .isetF f => decide (f.dHi ≤ 9)
  | .isetL f x => xMask x 0 && immIfI f x && decide (f.dHi ≤ 9)
  | .sel f x => xMask x 0xF && immIfI f x
  | .andF f => noV f
  | .andL f x => noV f && xMask x 0 && immIfI f x
  | .orF f => noV f
  | .orL f x => noV f && xMask x 0 && immIfI f x
  | .xorF f => noV f
  | .xorL f x => noV f && xMask x 0 && immIfI f x
  | .andnF f => noV f
  | .andnL f x => noV f && xMask x 0 && immIfI f x
  | .not f => noV f && noI f
  | .blut f x => noV f && noI f && xMask x 0 && decide (x.imm32.toNat < 256)
  | .shl f => noV f
  | .shr f => noV f
  | .sar f => noV f
  | .rol f => noV f
  | .funs f x => xMask x 0 && immIfI f x
  | .bfe f x => xMask x 0 && immIfI f x
  | .bfi f x => noV f && xMask x 0 && immIfI f x
  | .popc f => noV f && noI f
  | .clz f => noV f && noI f
  | .brev f => noV f && noI f
  | .bpick f x => xMask x 0 && immIfI f x
  | .lea f x => xMask x 0x1F && immIfI f x
  | .pset f => noI f && decide (f.aHi = 0) && decide (f.bHi = 0) && decide (f.dHi ≤ 7)
  | .pmov _ => true
  | .faddF _ => true
  | .faddL f x => xMask x 3 && immIfI f x
  | .fsubF _ => true
  | .fsubL f x => xMask x 3 && immIfI f x
  | .fmulF _ => true
  | .fmulL f x => xMask x 3 && immIfI f x
  | .ffmaF _ => true
  | .ffmaL f x => xMask x 3 && immIfI f x
  | .fmin f => noV f
  | .fmax f => noV f
  | .fsetF f => decide (f.dHi ≤ 13)
  | .fsetL f x => xMask x 0 && immIfI f x && decide (f.dHi ≤ 13)
  | .fabs f => noV f && noI f
  | .fneg f => noV f && noI f
  | .fdivF f => noV f
  | .fdivL f x => noV f && xMask x 3 && immIfI f x
  | .frcp f => noV f && noI f
  | .frsq f => noV f && noI f
  | .fsqrt f => noV f && noI f
  | .fex2 f => noV f && noI f
  | .flg2 f => noV f && noI f
  | .fsinp f => noV f && noI f
  | .fcosp f => noV f && noI f
  | .frnd f => noV f && noI f && decide (f.b.toNat < 4)
  | .fclass f => noV f && noI f
  | .fscl f => noV f
  | .pkadd f => noI f
  | .pkmul f => noI f
  | .pkfmaF f => noI f
  | .pkfmaL f x => xMask x 3 && immIfI f x
  | .pkmin f => noI f
  | .pkmax f => noI f
  | .dadd f => noV f && noI f
  | .dmul f => noV f && noI f
  | .dfmaF f => noV f && noI f
  | .dfmaL f x => noV f && noI f && xMask x 3 && immZero x
  | .dmin f => noV f && noI f
  | .dmax f => noV f && noI f
  | .dset f => noI f && decide (f.dHi ≤ 13)
  | .cvtif f x => noV f && noI f && xMask x 0x1F1F03 && immZero x && decide (isIntTy x.ty16 = true) && decide (isFloatTy x.ty8 = true)
  | .cvtfi f x => noV f && noI f && xMask x 0x1F1F03 && immZero x && decide (isFloatTy x.ty16 = true) && decide (isIntTy x.ty8 = true)
  | .cvtff f x => noV f && noI f && xMask x 0x1F1F03 && immZero x && decide (isFloatTy x.ty16 = true) && decide (isFloatTy x.ty8 = true)
  | .dp4i8 f => noI f
  | .dp8i4 f => noI f
  | .dp4f8 f => noI f
  | .dp8f4 f => noV f && noI f
  | .dp2bf f => noV f && noI f
  | .qnt8 f x => xMask x 0x1F03 && immIfI f x && decide (isNarrow8 x.ty8 = true)
  | .qnt4 f x => xMask x 0x1F03 && immIfI f x && decide (isNarrow4 x.ty8 = true)
  | .dq8 f x => noV f && xMask x 0x1F0003 && immIfI f x && decide (isNarrow8 x.ty16 = true)
  | .dq4 f x => noV f && xMask x 0x1F0003 && immIfI f x && decide (isNarrow4 x.ty16 = true)
  | .scle f x => noI f && xMask x 0x1F00 && immZero x && decide (isNarrow8 x.ty8 = true ∨ isNarrow4 x.ty8 = true)
  | .nrscl f x => noV f && noI f && xMask x 0xFFFF
  | .nrsum f x => noV f && noI f && xMask x 0xFFFF
  | .mma f x => noI f && xMask x 0xFFFF && immZero x
  | .mmat f x => noI f && xMask x 0xFFF && immZero x
  | .mzero f => noV f && noI f
  | .mrd f => noV f && noI f
  | .mwr f => noV f && noI f
  | .mdrain f x => noI f && xMask x 0x3F && immZero x
  | .epld f x => noV f && noI f && xMask x 0xF80FFF
  | .eparg f => noV f
  | .mstat f => noV f && noI f
  | .ld8F f => noI f
  | .ld8L f x => noI f && xMask x 0xF80003
  | .ld16F f => noI f
  | .ld16L f x => noI f && xMask x 0xF80003
  | .ld32F f => noI f && noV f
  | .ld32L f x => noI f && noV f && xMask x 0xF80003
  | .ld64F f => noI f && noV f
  | .ld64L f x => noI f && noV f && xMask x 0xF80003
  | .ld128F f => noI f && noV f
  | .ld128L f x => noI f && noV f && xMask x 0xF80003
  | .st8F f => noI f && noV f
  | .st8L f x => noI f && noV f && xMask x 0xF80003 && decide (x.cop = 0 ∨ x.cop = 3)
  | .st16F f => noI f && noV f
  | .st16L f x => noI f && noV f && xMask x 0xF80003 && decide (x.cop = 0 ∨ x.cop = 3)
  | .st32F f => noI f && noV f
  | .st32L f x => noI f && noV f && xMask x 0xF80003 && decide (x.cop = 0 ∨ x.cop = 3)
  | .st64F f => noI f && noV f
  | .st64L f x => noI f && noV f && xMask x 0xF80003 && decide (x.cop = 0 ∨ x.cop = 3)
  | .st128F f => noI f && noV f
  | .st128L f x => noI f && noV f && xMask x 0xF80003 && decide (x.cop = 0 ∨ x.cop = 3)
  | .prf f => noI f
  | .cctlWbl1 f => noV f && noI f && decide (f.d = 0)
  | .cctlInvl1 f => noV f && noI f && decide (f.d = 1)
  | .cctlInvl2 f => noV f && noI f && decide (f.d = 2)
  | .cctlWball1 f => noV f && noI f && decide (f.d = 3)
  | .cctlInvall1 f => noV f && noI f && decide (f.d = 4)
  | .cctlTlbinv f => noV f && noI f && decide (f.d = 5)
  | .cctlTlbinvall f => noV f && noI f && decide (f.d = 6)
  | .ataddF f => noI f && noV f
  | .ataddL f x => noV f && noI f && xMask x 0xF8001F && decide (isAtomInt x.ty0 = true)
  | .atminF f => noI f
  | .atminL f x => noV f && noI f && xMask x 0xF8001F && decide (isAtomInt x.ty0 = true)
  | .atmaxF f => noI f
  | .atmaxL f x => noV f && noI f && xMask x 0xF8001F && decide (isAtomInt x.ty0 = true)
  | .atandF f => noI f && noV f
  | .atandL f x => noV f && noI f && xMask x 0xF8001F && decide (isAtomBits x.ty0 = true)
  | .atorF f => noI f && noV f
  | .atorL f x => noV f && noI f && xMask x 0xF8001F && decide (isAtomBits x.ty0 = true)
  | .atxorF f => noI f && noV f
  | .atxorL f x => noV f && noI f && xMask x 0xF8001F && decide (isAtomBits x.ty0 = true)
  | .atxchF f => noI f && noV f
  | .atxchL f x => noV f && noI f && xMask x 0xF8001F && decide (isAtomBits x.ty0 = true)
  | .atcas f x => noV f && noI f && xMask x 0xF8001F && decide (isAtomBits x.ty0 = true)
  | .atincw f x => noV f && noI f && xMask x 0xF8001F && decide (x.ty0 = 7)
  | .atdecw f x => noV f && noI f && xMask x 0xF8001F && decide (x.ty0 = 7)
  | .atbadd f x => noV f && noI f && xMask x 0xF81E1F && decide (x.ty0 = 7)
  | .atfaddF f => noI f && noV f
  | .atfaddL f x => noV f && noI f && xMask x 0xF8001F && decide (isAtomFloat x.ty0 = true)
  | .red f x => noV f && noI f && xMask x 0xF801FF && decide (redTypeOk x.rop x.ty0 = true)
  | .fence f => noV f && noI f && decide (1 ≤ f.d.toNat) && decide (f.d.toNat ≤ 4) && decide (f.a.toNat ≤ 5)
  | .raceq f => noI f
  | .cpy f x => noV f && noI f && xMask x 0xFF && immZero x
  | .cpyw f => noV f
  | .cptr f => noV f && noI f
  | .cprst f => noV f && noI f
  | .qfence f => noV f && noI f
  | .bcpy f x => noV f && noI f && xMask x 0xFF && immZero x
  | .tmove f x => noV f && noI f && xMask x 0xF8003F && decide (x.tgt = 1 ∨ x.tgt = 4 ∨ x.tgt = 5)
  | .tstat f x => noV f && noI f && xMask x 0xF80000
  | .tcncl f x => noV f && noI f && xMask x 0xF80000
  | .cfetch f x => noV f && noI f && xMask x 0
  | .cstat f => noV f && noI f
  | .cevict f => noV f && noI f
  | .braF f => noV f && noI f
  | .braL f x => noI f && decide (x.imm32.toNat % 8 = 0) && decide (f.v = true ∨ x.x24 = 0)
  | .brx f => noV f && noI f
  | .jmpf f x => noV f && noI f && xMask x 0 && decide (x.imm32.toNat < 65536)
  | .callF f => noV f && noI f
  | .callL f x => noV f && noI f && xMask x 0 && decide (x.imm32.toNat % 8 = 0)
  | .ret f => noV f && noI f
  | .join f => noV f && noI f
  | .exit f => noV f && noI f
  | .poll f => noI f && decide (f.a.toNat < 32) && decide (f.v = true ∨ f.dHi ≤ 2)
  | .wpermF _ => true
  | .wpermL f x => noV f && xMask x 0x1F && immIfI f x
  | .matchWarp f => noV f && noI f
  | .elect f => noV f && noI f && decide (f.dHi = 0)
  | .wred f => noV f && noI f && decide (f.b.toNat ≤ 10)
  | .wscan f => noI f && decide (f.b.toNat ≤ 10)
  | .ejctl _ => true
  | .recall f => noV f && noI f
  | .waitf f => noI f && decide (f.bHi = 0)
  | .yield f => noV f && noI f
  | .sleep f => noV f
  | .bar f => noV f
  | .bara f => noV f
  | .barw f => noV f
  | .gbar f => noV f && noI f
  | .gbara f => noV f && noI f
  | .gbarw f => noV f && noI f
  | .qbind f x => noV f && noI f && xMask x 0xFFF && decide (x.szc ≤ 10)
  | .qclose f => noV f && noI f
  | .qpopt f => noV f && noI f && decide (f.bHi = 0)
  | .qstat f => noV f && noI f
  | .qfree f => noV f && noI f
  | .edgew f x => noV f && noI f && xMask x 0x1F && immZero x
  | .edger f x => noV f && noI f && xMask x 0x1FF && immZero x
  | .edgecl f => noV f && noI f && decide (f.d.toNat < 8)
  | .launch f x => noV f && noI f && xMask x 0xF8000F
  | .lwait f => noV f && noI f
  | .grpq f => noV f && decide (f.a.toNat ≤ 2)
  | .lstat f => noV f && noI f && decide (f.a.toNat ≤ 6)
  | .trap f => noV f && noI f && decide (f.bHi = 0)
  | .eret f => noI f
  | .owrd f => noV f && noI f && decide (f.b.toNat % 8 ≤ 4) && decide (f.b.toNat < 128)
  | .owwr f => noV f && decide (f.d.toNat % 8 ≤ 4) && decide (f.d.toNat < 128)
  | .srd f => noV f && noI f && decide (f.aHi = 0)
  | .swr f => noV f && decide (f.dHi = 0)
  | .wresumeRetry f x => noV f && noI f && decide (x.x24 = 0) && decide (x.imm32.toNat < 256)
  | .wresumeDeliver f x => noV f && noI f && decide (x.x24 = 1) && decide (x.imm32.toNat < 256)
  | .wresumeKill f x => noV f && noI f && decide (x.x24 = 2) && decide (x.imm32.toNat < 256)
  | .wstop f x => noV f && noI f && xMask x 0x1F && immZero x
  | .ckpt f => noI f && decide (f.v = false)
  | .ckptQ f => noI f && decide (f.v = true)
  | .ctxsv f x => noV f && noI f && xMask x 0xF80000
  | .ctxld f x => noI f && decide (f.v = false) && xMask x 0xF80000
  | .ctxldRoll f x => noI f && decide (f.v = true) && xMask x 0 && immZero x && decide (x.c = 0xC8)
  | .brk f => noV f && noI f
  | .trace f => noI f
  | .halt f => noV f
  | .kslotLoad f x => noV f && noI f && xMask x 0x3FF && decide (x.ksop = 0) && immZero x
  | .kslotZero f x => noV f && noI f && xMask x 0x3FF && decide (x.ksop = 1) && immZero x
  | .kslotQuery f x => noV f && noI f && xMask x 0x3FF && decide (x.ksop = 2) && immZero x
  | .scrubCores f x => noV f && noI f && decide (x.x24 = 0) && immZero x
  | .scrubPages f x => noV f && noI f && decide (x.x24 = 1)
  | .fwcall f x => noV f && noI f && xMask x 0 && decide (x.imm32.toNat < 65536)
  | .ord o => decide (o.order.toNat ≤ 4) && decide (o.scope.toNat ≤ 5) && decide (o.low = 0)
  | .rep r => decide (r.low = 0)
  | .pairWord p => xCodeOk p.xop.toNat && yCodeOk p.yop.toNat
  | .epilogueRow _ _ => true
  | .matrixStep _ _ _ => true
  | .qtailWrite _ _ _ => true
  | .queueEnable _ _ _ => true
  | .registerWrite _ _ _ _ => true
  | .launchAccept _ _ => true
  | .gangStart _ _ => true
  | .completionRecordWrite _ => true
  | .gangKill _ _ _ => true
  | .preemption _ _ => true
  | .contextImageWritten _ _ => true
  | .gangRestore _ _ _ => true
  | .dispatcherBarrierSave _ _ => true
  | .dispatcherEdgeSave _ _ => true
  | .gangMigrate _ _ _ => true
  | .checkpointCut _ => true
  | .cowCopy _ _ => true
  | .cutCommit _ => true
  | .registerSwap _ _ => true
  | .swapOutComplete _ => true
  | .registerReadmit _ _ => true
  | .groupPromotion _ _ => true
  | .warpAging _ => true
  | .denHandover _ _ => true
  | .denRejoin _ _ => true
  | .denTimeoutRecall _ _ => true
  | .joinPassLimit _ => true
  | .queueWaitTimeout _ _ => true
  | .sleepExpiry _ _ => true
  | .haltTimeout _ _ => true
  | .yieldTimeout _ _ => true
  | .parkedGroupRelease _ _ => true
  | .faultBacklogDrain _ => true
  | .crerrRetry _ => true
  | .fqerrRetry _ => true
  | .trerrClear _ => true
  | .handlerEntry _ => true
  | .loadReply _ => true
  | .storePerform _ => true
  | .atomicPerform _ => true
  | .remoteRequestArrival _ _ => true
  | .replayTimeout _ => true
  | .replyForward _ => true
  | .copyBeat _ => true
  | .packageCopyBeat _ => true
  | .tierMoveStart _ _ => true
  | .tierMoveLanding _ _ => true
  | .brickCheckComplete _ _ _ => true
  | .brickImplicitFetch _ _ _ => true
  | .codeParityRefetch _ _ _ => true
  | .codeBreakpointHit _ _ => true
  | .swapOutModeRecord _ _ => true
  | .singleStepHalt _ => true
  | .singleStepTimeout _ => true
  | .traceEnable _ _ => true
  | .ckcostUpdate _ _ => true
  | .twinCompare _ => true
  | .collectiveContribution _ => true
  | .groupBarrierArrival _ => true
  | .clockStepRequest _ _ => true
  | .pllRelockComplete _ => true
  | .powerWindow _ _ _ => true
  | .thermalTrip _ => true
  | .supplyDroop _ => true
  | .referenceClockLoss _ => true
  | .packageBoot => true
  | .powerLoss => true
  | .functionLevelReset _ => true
  | .laneFailure _ => true
  | .linkRetrain _ _ => true
  | .ucieModuleFailure _ => true
  | .flitAuthFailure _ => true
  | .linkKeyRenewal _ => true
  | .hostHdmAccess _ _ _ _ => true
  | .patrolScrub _ => true
  | .correctedError _ _ => true
  | .scrubJobComplete _ => true
  | .fwUpdateLoad _ _ => true
  | .fwUpdateSwitch => true
  | .fwUpdateCommit => true
  | .fwUpdateRollback => true
  | .pinfo _ => true
  | .fpooladd _ => true
  | .fpooldel _ => true
  | .kwrap _ => true
  | .attest _ => true
  | .linkst _ => true
  | .pwrq _ => true
  | .coreCycle _ => true
  | .referenceTick => true
  | .recallComplete _ _ => true
  | .reloadComplete _ => true
  | .zeroisationComplete _ => true

end Sys2Proof
end

