-- ==== Sys2Proof/Machine/Ops.lean ====
section
/-! DEFINITION. The named operations every meaning is written with: parts of State by name, registers of a frame,
translation (R214 to R216), records to memory (R399, R400, R446), taking an exception and returning from it (R382 to R389,
R394), and the context of the group being issued. -/

namespace Sys2Proof.Machine

/-! ## Parts of State by name -/

/-- The partition of a launch key. -/
def partOf (lk : Nat) : Nat := lk / 2 ^ 32
/-- The launch identifier of a launch key (R342). -/
def lidOf (lk : Nat) : Nat := lk % 2 ^ 32
/-- The die of a core (R12). -/
def dieOf (core : Nat) : Nat := core / 240
/-- The cluster of a core (R12). -/
def clusterOf (core : Nat) : Nat := core / 4

/-- A warp by its logical name. -/
def findWarp (s : State) (n : WName) : Option Warp := s.warps.find? (fun w => decide (w.name = n))
/-- State with a warp changed. -/
def modWarp (s : State) (n : WName) (f : Warp → Warp) : State :=
  { s with warps := s.warps.map (fun w => if w.name = n then f w else w) }
/-- A block of a launch. -/
def findBlock (s : State) (lk blk : Nat) (sh : Bool) : Option Block :=
  s.blocks.find? (fun b => decide (b.launch = lk) && decide (b.blk = blk) && decide (b.shadow = sh))
/-- State with a block changed. -/
def modBlock (s : State) (lk blk : Nat) (sh : Bool) (f : Block → Block) : State :=
  { s with blocks := s.blocks.map (fun b => if b.launch = lk ∧ b.blk = blk ∧ b.shadow = sh then f b else b) }
/-- A launch's retained record. -/
def findLaunch (s : State) (lk : Nat) : Option Launch := s.launches.find? (fun l => decide (l.lk = lk))
/-- State with a launch changed. -/
def modLaunch (s : State) (lk : Nat) (f : Launch → Launch) : State :=
  { s with launches := s.launches.map (fun l => if l.lk = lk then f l else l) }
/-- The blocks of a launch's gangs (R343). -/
def gangSize (s : State) (lk : Nat) : Nat := match findLaunch s lk with | some l => l.pkt.gang | none => 1
/-- The gang that holds a block. -/
def findGang (s : State) (lk blk : Nat) (sh : Bool) : Option Gang :=
  s.gangs.find? (fun g => decide (g.launch = lk) && decide (g.shadow = sh) && decide (g.rank0 ≤ blk) &&
    decide (blk < g.rank0 + gangSize s lk))
/-- State with a gang changed. -/
def modGang (s : State) (lk rank0 : Nat) (sh : Bool) (f : Gang → Gang) : State :=
  { s with gangs := s.gangs.map (fun g => if g.launch = lk ∧ g.rank0 = rank0 ∧ g.shadow = sh then f g else g) }
/-- A partition, in its reset state where State lists none of that number. -/
def findPart (s : State) (p : Nat) : Part := (s.parts.find? (fun q => decide (q.id = p))).getD { id := p }
/-- State with a partition changed. -/
def modPart (s : State) (p : Nat) (f : Part → Part) : State :=
  { s with parts := s.parts.map (fun q => if q.id = p then f q else q) }
/-- A die. -/
def findDie (s : State) (d : Nat) : Die := (s.dies.find? (fun x => decide (x.id = d))).getD { id := d }
/-- State with a die changed. -/
def modDie (s : State) (d : Nat) (f : Die → Die) : State :=
  { s with dies := s.dies.map (fun x => if x.id = d then f x else x) }
/-- The counters of a quadrant that State does not list: it has had no warp, so every core cycle counted in %hist0 (R450). -/
def idleQuad (s : State) (core q : Nat) : Quad :=
  { core := core, quad := q, hist := aput 0 [] 0 ((findDie s (dieOf core)).cyc.extractLsb' 0 32) }
/-- A quadrant's counters. -/
def findQuad (s : State) (core q : Nat) : Quad :=
  (s.quads.find? (fun x => decide (x.core = core) && decide (x.quad = q))).getD (idleQuad s core q)
/-- State with a quadrant changed. -/
def modQuad (s : State) (core q : Nat) (f : Quad → Quad) : State :=
  if s.quads.any (fun x => decide (x.core = core) && decide (x.quad = q)) then
    { s with quads := s.quads.map (fun x => if x.core = core ∧ x.quad = q then f x else x) }
  else { s with quads := s.quads ++ [f (idleQuad s core q)] }
/-- A request in flight. -/
def findReq (s : State) (id : Nat) : Option Req := s.reqs.find? (fun r => decide (r.id = id))
/-- State with a request changed. -/
def modReq (s : State) (id : Nat) (f : Req → Req) : State :=
  { s with reqs := s.reqs.map (fun r => if r.id = id then f r else r) }
/-- State without a request. -/
def dropReq (s : State) (id : Nat) : State := { s with reqs := s.reqs.filter (fun r => decide (r.id ≠ id)) }
/-- A number that nothing else of the state has, and the state that has used it. -/
def freshId (s : State) : Nat × State := (s.nextId, { s with nextId := s.nextId + 1 })
/-- The warps of a block. -/
def blockWarps (s : State) (lk blk : Nat) (sh : Bool) : List Warp :=
  s.warps.filter (fun w => decide (w.name.launch = lk) && decide (w.name.blk = blk) && decide (w.name.shadow = sh))
/-- Warps of a block of a launch (R343). -/
def Launch.warpsPerBlock (l : Launch) : Nat := (l.pkt.blkx * l.pkt.blky * l.pkt.blkz + 127) / 128
/-- Blocks of a launch (R343). -/
def Launch.nblk (l : Launch) : Nat := l.pkt.gridx * l.pkt.gridy * l.pkt.gridz
/-- Bit `k` of a launch's FLAGS (R343). -/
def Launch.flag (l : Launch) (k : Nat) : Bool := bitOf l.pkt.flags k
/-- FLAGS bits 0 to 6 (R343). -/
def Launch.relaunchable (l : Launch) : Bool := l.flag 0
/-- FLAGS.twin. -/
def Launch.twin (l : Launch) : Bool := l.flag 1
/-- FLAGS.protected. -/
def Launch.protected_ (l : Launch) : Bool := l.flag 4
/-- The key slot that a protected launch is bound to (R483). -/
def Launch.bound (l : Launch) : Option Nat := if l.protected_ then some l.key else none
/-- Whether a launch is the partition's service context, whose warps run at supervisor privilege (R381). -/
def isSup (s : State) (lk : Nat) : Bool := decide ((findPart s (partOf lk)).service = some lk)
/-- The warp keeps a segment register, unbound beyond the table (R203). -/
def Launch.segAt (l : Launch) (k : Nat) : Seg := l.segs.getD k {}

/-! ## Frames and registers -/

/-- The open handler frames above frame 0 (R397). -/
def Warp.depth (w : Warp) : Nat := w.frames.length - 1
/-- The current frame. -/
def Warp.cur (w : Warp) : Frame := w.frames.headD {}
/-- The frame at a depth. -/
def Warp.frameAt (w : Warp) (d : Nat) : Frame := w.frames.getD (w.frames.length - 1 - d) {}
/-- A warp with the frame at a depth changed. -/
def Warp.modFrame (w : Warp) (d : Nat) (f : Frame → Frame) : Warp :=
  { w with frames := w.frames.mapIdx (fun i fr => if i + d + 1 = w.frames.length then f fr else fr) }
/-- A thread that has not exited. -/
def Warp.thread (w : Warp) (t : Nat) : Option Thread := w.threads.find? (fun x => decide (x.tid = t))
/-- A warp with a thread changed. -/
def Warp.modThread (w : Warp) (t : Nat) (f : Thread → Thread) : Warp :=
  { w with threads := w.threads.map (fun x => if x.tid = t then f x else x) }
/-- A warp with several threads changed. -/
def Warp.modThreads (w : Warp) (ts : List Nat) (f : Thread → Thread) : Warp :=
  { w with threads := w.threads.map (fun x => if ts.contains x.tid then f x else x) }
/-- v register `r` of thread `t`; zero where it is not live (R79). -/
def Frame.getV (fr : Frame) (t r : Nat) : Word := agetD fr.v (t * 128 + r) 0
/-- A write to a v register joins the live set (R79). -/
def Frame.setV (fr : Frame) (t r : Nat) (x : Word) : Frame := { fr with v := aset fr.v (t * 128 + r) x }
/-- A last read takes a v register from the live set (R37, R79). -/
def Frame.killV (fr : Frame) (t r : Nat) : Frame := { fr with v := adel fr.v (t * 128 + r) }
/-- EXIT empties a thread's live set (R79). -/
def Frame.killThread (fr : Frame) (t : Nat) : Frame :=
  { fr with v := fr.v.filter (fun e => decide (e.1 / 128 ≠ t)), p := adel fr.p t }
/-- s register `r` of the warp. -/
def Frame.getS (fr : Frame) (r : Nat) : Word := agetD fr.s r 0
/-- Write an s register. -/
def Frame.setS (fr : Frame) (r : Nat) (x : Word) : Frame := { fr with s := aput 0 fr.s r x }
/-- A thread's predicate word (R78). -/
def Frame.getP (fr : Frame) (t : Nat) : BitVec 12 := agetD fr.p t 0
/-- Write a thread's predicate word. -/
def Frame.setP (fr : Frame) (t : Nat) (x : BitVec 12) : Frame := { fr with p := aput 0 fr.p t x }
/-- One bit of a predicate word changed. -/
def setBit12 (x : BitVec 12) (k : Nat) (b : Bool) : BitVec 12 :=
  if b then x ||| BitVec.ofNat 12 (2 ^ k) else x &&& ~~~ BitVec.ofNat 12 (2 ^ k)
/-- Write predicate `k` of a thread. -/
def Frame.setPred (fr : Frame) (t k : Nat) (b : Bool) : Frame := fr.setP t (setBit12 (fr.getP t) k b)
/-- A completion flag's count (R35). -/
def Frame.getFlag (fr : Frame) (k : Nat) : Nat := agetD fr.flags k 0
/-- One more instruction outstanding on a flag. -/
def Frame.incFlag (fr : Frame) (k : Nat) : Frame := { fr with flags := aput 0 fr.flags k (fr.getFlag k + 1) }
/-- One instruction on a flag has completed. -/
def Frame.decFlag (fr : Frame) (k : Nat) : Frame := { fr with flags := aput 0 fr.flags k (fr.getFlag k - 1) }
/-- The v registers that some thread of a frame holds live: the physical registers of the frame (R81). -/
def Frame.heldRegs (fr : Frame) : List Nat := fr.v.foldl (fun acc e => insertNat (e.1 % 128) acc) []
/-- A thread's den slot changed. -/
def Thread.modDen (t : Thread) (f : DenSlot → DenSlot) : Thread := { t with den := t.den.map f }

/-- A warp with the holds under an id changed (R35, R57). -/
def Warp.modHold (w : Warp) (id : Nat) (f : SigHold → SigHold) : Warp := { w with holds := w.holds.map (fun h => if h.id = id then f h else h) }
/-- Add one to flag `k` of the frame at a depth, or of a den thread's slot; 15 names no flag (R33, R292). The number 16 + `id` stands for the
outstanding requests of the hold `id` (R57). (DEDUCED, log 89) -/
def raiseFlag (w : Warp) (d : Nat) (den : Option Nat) (k : Nat) : Warp :=
  if k ≥ 16 then w.modHold (k - 16) (fun h => { h with reqs := h.reqs + 1 }) else if k ≥ 12 then w else
  match den with
  | none => w.modFrame d (fun fr => fr.incFlag k)
  | some t => w.modThread t (fun x => x.modDen (fun y => { y with flags := aput 0 y.flags k (agetD y.flags k 0 + 1) }))
/-- A warp changed where it is: resident, or in the image of its saved gang (R418). -/
def modWarpAny (s : State) (n : WName) (f : Warp → Warp) : State :=
  if s.warps.any (fun w => decide (w.name = n)) then modWarp s n f
  else
    let g (w : Warp) : Warp := if w.name = n then f w else w
    { s with images := s.images.map (fun im =>
        { im with warps := im.warps.map g, stale := im.stale || (im.place.isSome && im.warps.any (fun w => decide (w.name = n))) }) }

/-- CRC-64 of one more byte: polynomial 0x42F0_E1EB_A9EA_3693, not reflected (R419, R464). -/
def crcByte (c : BitVec 64) (b : Byte) : BitVec 64 :=
  (List.range 8).foldl (fun x _ => if x.msb then (x <<< 1) ^^^ 0x42F0E1EBA9EA3693 else x <<< 1) (c ^^^ (b.zeroExtend 64 <<< 56))
/-- CRC-64 of bytes, from a given value on. -/
def crcBytes (c : BitVec 64) (bs : List Byte) : BitVec 64 := bs.foldl crcByte c

/-- Take one from a flag, or from a hold, when its instruction has completed (R35, R57). (DEDUCED, log 89) -/
def lowerFlag (w : Warp) (d : Nat) (den : Option Nat) (k : Nat) : Warp :=
  if k ≥ 16 then w.modHold (k - 16) (fun h => { h with reqs := h.reqs - 1 }) else if k ≥ 12 then w else
  match den with
  | none => w.modFrame d (fun fr => fr.decFlag k)
  | some t => w.modThread t (fun x => x.modDen (fun y => { y with flags := aput 0 y.flags k (agetD y.flags k 0 - 1) }))

/-! ## Physical memory -/

/-- Where a flash copy's bytes are kept: outside every physical address of R213 (log 2). -/
def flashBase : Nat := 2 ^ 52
/-- A physical address served by HBM4 (R213). -/
def isHbm (pa : Nat) : Bool := decide (pa < 576 * 2 ^ 30)
/-- A physical address served at a CXL port (R213). -/
def isCxl (pa : Nat) : Bool := decide (0x040000000000 ≤ pa) && decide (pa < 0x080000000000)
/-- The home slice of an HBM4 physical address (R213). -/
def homeSlice (pa : Nat) : Nat :=
  let die := pa / (144 * 2 ^ 30)
  let c := pa % (144 * 2 ^ 30) / 256
  die * 96 + c % 3 * 32 + ((c / 3 % 32) ^^^ (c / 96 % 32))
/-- The die of a physical address's home. -/
def homeDie (pa : Nat) : Nat := homeSlice pa / 96

/-! ## Translation -/

/-- What an access is, for the rights and tier tests of R216. -/
inductive Access where
  | load | store | atomic | code | record
  deriving DecidableEq, Repr

/-- What a translation gives: the physical address; or that the access parks, with the cause of its record or none while a
move is under way (R216). -/
inductive Xlate where
  | ok (pa : Nat)
  | park (page : Nat) (cause : Option Nat)
  deriving DecidableEq, Repr

/-- A leaf found by a walk: its entry, where the entry lies, and the page's size as a power of two. -/
structure LeafAt where
  pte : BitVec 64
  pa : Nat
  shift : Nat
  deriving DecidableEq, Repr

/-- The address of a table, or of a page, in an entry: bits 51:12. -/
def pteFrame (e : BitVec 64) : Nat := bitsOf e.toNat 12 40 * 4096

/-- Walk from a table at level `n + 1` (R214). Entries are 8 bytes; an entry with V = 0 ends the walk. An entry of level
4 or 5 with LEAF = 1 is taken as a leaf whose bits are wrong (R216). (DEDUCED, log 13) -/
def walkFrom (m : List Host.Cell) (va table : Nat) : Nat → Option LeafAt
  | 0 => none
  | n + 1 =>
    let shift := 12 + 9 * n
    let pa := table + 8 * bitsOf va shift 9
    let e := BitVec.ofNat 64 (readNat m pa 8)
    if !e.getLsbD 0 then none
    else if n = 0 || e.getLsbD 7 then some { pte := e, pa := pa, shift := shift }
    else walkFrom m va (pteFrame e) n

/-- The units whose TLBs an access of a core goes by, in order, with their level and size (R215). -/
def tlbUnits (core : Nat) : List (Nat × Nat × Nat) := [(0, core, 64), (1, clusterOf core, 2048), (2, dieOf core, 16384)]
/-- The translation of an address that a TLB holds. -/
def tlbAt (s : State) (level unit p va : Nat) : Option TlbEnt :=
  s.tlb.find? (fun t => decide (t.level = level) && decide (t.unit = unit) && decide (t.part = p) && decide (t.page = va / 2 ^ t.shift))
/-- The leaf that translates a virtual address of a partition: for an access of a core, one that its TLBs hold stays in use (R215); else a
walk from TROOT. (DEDUCED, log 13) -/
def findLeaf (s : State) (p va : Nat) (core : Option Nat := none) : Option LeafAt :=
  match core.bind (fun k => (tlbUnits k).findSome? (fun u => tlbAt s u.1 u.2.1 p va)) with
  | some t => some { pte := t.leaf, pa := t.leafPa, shift := t.shift }
  | none => walkFrom s.mem va (findPart s p).troot 5

/-- KEY of a leaf. (DESIGN CHOICE, log 73) -/
def pteKey (e : BitVec 64) : Nat := bitsOf e.toNat 56 8
/-- The state of a key slot (R484). (DESIGN CHOICE, log 25, DESIGN CHOICE, log 73) -/
def keyState (s : State) (k : Nat) : KeySt := (aget s.keys k).getD .empty
/-- TIER of a leaf. -/
def pteTier (e : BitVec 64) : Nat := bitsOf e.toNat 53 3
/-- The must-be-zero bits of a leaf of a given page size (R214). FRAME is not tested where it holds the source of a move or a flash locator
(R216). -/
def pteMbzOk (e : BitVec 64) (shift : Nat) : Bool :=
  !e.getLsbD 52 && decide (bitsOf e.toNat 8 4 = 0) && decide (shift ≤ 30) &&
  (pteTier e == 2 || pteTier e == 5 || decide (bitsOf e.toNat 12 (shift - 12) = 0))

/-- A frame lies in the ranges management firmware gave the partition in a tier (1 HBM4, 4 CXL, 5 flash), each kept as its tier, base and
length (R216, R273). -/
def inRanges (s : State) (p tier pa size : Nat) : Bool :=
  (findPart s p).ranges.any (fun r => decide (r.1 = tier) && decide (r.2.1 ≤ pa) && decide (pa + size ≤ r.2.1 + r.2.2))

/-- A 4 KiB frame that a scrub job which is not complete holds (R487). -/
def heldFrame (s : State) (pa : Nat) : Bool :=
  s.scrub.any (fun j => j.kind == 1 && decide (j.done < j.units.length) && j.units.contains (pa / 4096))
/-- How an access meets its leaf (R216). `prot` is the slot that a protected context is bound to (R483). An access whose KEY slot
is EMPTY parks with 0x14 (R484). -/
def meetLeaf (s : State) (p va : Nat) (k : Access) (prot : Option Nat) (l : LeafAt) : Xlate :=
  let e := l.pte
  let tier := pteTier e
  let page := va / 2 ^ l.shift * 2 ^ l.shift
  let off := va % 2 ^ l.shift
  let pa := bitsOf e.toNat 12 40 * 4096 + off
  let rd := e.getLsbD 1
  let wr := e.getLsbD 2
  let right := match k with
    | .load => rd | .store => wr | .atomic => rd && wr | .code => rd && e.getLsbD 3 | .record => wr
  if tier = 0 then .park page (some 0x13)
  else if tier = 7 || !pteMbzOk e l.shift then .park page (some 0x14)
  else if !right || (e.getLsbD 4 && decide (prot ≠ some (pteKey e))) || decide (keyState s (pteKey e) = .empty) then .park page (some 0x14)
  else if tier = 2 then .park page none
  else if tier = 5 then .park page (some 0x15)
  else if !(if tier = 4 then isCxl pa else isHbm pa) || !inRanges s p (if tier = 4 then 4 else 1) (pa - off) (2 ^ l.shift) || heldFrame s pa then .park page (some 0x14)
  else if tier = 3 && (k != .load && k != .code) then .park page none
  else .ok pa

/-- Translate an access of a partition (R214 to R216), by the TLBs of a core where it makes it. -/
def xlate (s : State) (p va : Nat) (k : Access) (prot : Option Nat) (core : Option Nat := none) : Xlate :=
  match findLeaf s p va core with
  | none => .park (va / 4096 * 4096) (some 0x13)
  | some l => meetLeaf s p va k prot l

/-- An element taken out of a list, which one being a free choice. -/
def freeOut {α : Type} (free : Nat) (xs : List α) : List α := xs.eraseIdx (Config.freePick free % max 1 xs.length)
/-- A translation enters a TLB (R215); where the TLB is full it displaces one that the manual does not name. (DESIGN CHOICE, log 92) -/
def tlbPut (free : Nat) (tlb : List TlbEnt) (size : Nat) (e : TlbEnt) : List TlbEnt :=
  let here (t : TlbEnt) : Bool := t.level == e.level && t.unit == e.unit
  let same (t : TlbEnt) : Bool := here t && t.part == e.part && t.page == e.page && t.shift == e.shift
  let mine := (tlb.filter here).filter (fun t => !same t)
  e :: (if mine.length < size then mine else freeOut free mine) ++ tlb.filter (fun t => !here t)
/-- ACCD and, on a store, DIRTY set in the leaf, in memory and in the copies the TLBs hold; the core's TLBs hold the translation from now
on (R214, R215). (DESIGN CHOICE, log 92) -/
def touchLeaf (s : State) (p va : Nat) (wr : Bool) (core : Option Nat := none) : State :=
  match findLeaf s p va core with
  | none => s
  | some l =>
    let units : List (Nat × Nat × Nat) := match core with | some k => tlbUnits k | none => []
    let bits : BitVec 64 := if wr then 0x60 else 0x20
    let held := s.tlb.map (fun t => if t.part = p ∧ t.leafPa = l.pa then { t with leaf := t.leaf ||| bits } else t)
    { s with
      mem := writeBytes s.mem l.pa (toBytes (readNat s.mem l.pa 8 ||| (if wr then 0x60 else 0x20)) 8)
      tlb := units.foldl (fun tlb u =>
        tlbPut s.free tlb u.2.2 { level := u.1, unit := u.2.1, part := p, page := va / 2 ^ l.shift, shift := l.shift, leaf := l.pte ||| bits, leafPa := l.pa }) held }

/-- Drop every held translation of a page, or of the whole partition (R227). -/
def dropTlb (s : State) (p : Nat) (va : Option Nat) : State :=
  { s with tlb := s.tlb.filter (fun t => !(decide (t.part = p) &&
      (match va with | none => true | some a => decide (t.page = a / 2 ^ t.shift)))) }

/-! ## Poison, granules and the L1 as a write reaches physical memory -/

/-- The poison granules of physical memory that a run of bytes touches (R458). -/
def granulesOf (pa n : Nat) : List Nat := if n = 0 then [] else (List.range ((pa + n - 1) / 64 - pa / 64 + 1)).map (· + pa / 64)
/-- Whether a read of physical bytes meets poison. -/
def isPoisoned (s : State) (pa n : Nat) : Bool := (granulesOf pa n).any (fun g => s.poison.contains g)
/-- A write clears the poison of every granule it covers whole (R460). -/
def clearPoison (s : State) (pa n : Nat) : State :=
  { s with poison := s.poison.filter (fun g => !(decide (pa ≤ g * 64) && decide (g * 64 + 64 ≤ pa + n))) }
/-- Mark the granules of a run of bytes poisoned (R458). -/
def markPoison (s : State) (pa n : Nat) : State :=
  { s with poison := (granulesOf pa n).foldl (fun acc g => insertNat g acc) s.poison }
/-- The L1 line of a core that holds a physical address. -/
def findLine (s : State) (core pa : Nat) : Option L1Line :=
  s.l1.find? (fun l => decide (l.core = core) && decide (l.line = pa / 128))
/-- Bytes replaced inside a line. -/
def patchLine (l : L1Line) (pa : Nat) (bs : List Byte) : List Byte :=
  l.bytes.mapIdx (fun i b => if l.line * 128 + i < pa then b else bs.getD (l.line * 128 + i - pa) b)
/-- Bytes written at their home: physical memory changes, poison covered whole is cleared. -/
def writePhys (s : State) (pa : Nat) (bs : List Byte) : State :=
  clearPoison { s with mem := writeBytes s.mem pa bs } pa bs.length
/-- A line's bytes go home (R211). -/
def writeBackLine (s : State) (l : L1Line) : State :=
  if l.dirty then { s with mem := writeBytes s.mem (l.line * 128) l.bytes } else s
/-- Write back the dirty lines that a test names, and drop them or leave them clean. -/
def flushLines (s : State) (f : L1Line → Bool) (drop : Bool) : State :=
  let s1 := s.l1.foldl (fun acc l => if f l then writeBackLine acc l else acc) s
  if drop then { s1 with l1 := s1.l1.filter (fun l => !f l) }
  else { s1 with l1 := s1.l1.map (fun l => if f l then { l with dirty := false } else l) }
/-- The set of the L1 that a line falls in: 128 sets of 8 ways (R211). (DESIGN CHOICE, log 92) -/
def l1Set (line : Nat) : Nat := line % 128
/-- A line enters a core's L1 (R211). Where its set is full, it displaces a line marked evict-first, or else one that the manual does not name;
a dirty line goes home. (DESIGN CHOICE, log 92) -/
def putLine (s : State) (ln : L1Line) : State :=
  let mine := s.l1.filter (fun x => decide (x.core = ln.core) && decide (l1Set x.line = l1Set ln.line))
  if mine.length < 8 then { s with l1 := ln :: s.l1 }
  else
    let first := if mine.any (·.early) then mine.filter (·.early) else mine
    let kept := freeOut s.free first
    let out := first.filter (fun x => !kept.contains x)
    flushLines s (fun x => out.contains x) true |> fun t => { t with l1 := ln :: t.l1 }
/-- An acquire of gang scope or wider, or a barrier of that scope: the core's L1 drops its lines that are not private (R236,
R319). -/
def dropShared (s : State) (core : Nat) : State :=
  { s with l1 := s.l1.filter (fun l => !(decide (l.core = core) && !l.priv)) }

/-- A write of any agent to a tracked granule of a partition makes it DIRTY (R427). -/
def markGranule (s : State) (p va : Nat) : State :=
  if s.granules.any (fun g => decide (g.part = p) && decide (g.num = va / 65536)) then s
  else { s with granules := s.granules ++ [{ part := p, num := va / 65536, cow := false }] }
/-- A granule that is COW holds writes (R427). -/
def isCow (s : State) (p va : Nat) : Bool :=
  s.granules.any (fun g => decide (g.part = p) && decide (g.num = va / 65536) && g.cow)

/-! ## Records to memory -/

/-- Count an event in one of a partition's error counters, which saturate (R470): 0 CEHBM, 1 CEL2, 2 CECORE, 3 CSREF, 4 MRERUN,
5 E2ERPL, 6 POISON, 7 KILLS, 8 TWINMM. -/
def countErr (s : State) (p k : Nat) : State :=
  modPart s p (fun q =>
    let n := agetD q.err k 0
    { q with err := aput 0 q.err k (if n = 0xFFFFFFFF then n else n + 1) })

/-- Raise an MSI-X vector of a partition, kept as a count (R346, R400, R477). -/
def raiseMsi (s : State) (p v : Nat) : State :=
  modPart s p (fun q => { q with msix := aset q.msix (v % 16) (agetD q.msix (v % 16) 0 + 1) })

/-- What a record write comes to (R400). -/
inductive RecOut where
  | done (s : State) | wait | fail

/-- Write a record's bytes through the partition's translation with the rights of supervisor code (R400): a page that is
moving is waited for; one that cannot be written makes the write fail. The bytes lie in one page. -/
def writeRec (s : State) (p va : Nat) (bs : List Byte) : RecOut :=
  match xlate s p va .record none with
  | .ok pa => .done (markGranule (writePhys (touchLeaf s p va true) pa bs) p va)
  | .park _ none => .wait
  | .park _ (some _) => .fail

/-- The 64 bytes of a fault record (R399). -/
def FRec.bytes (r : FRec) : List Byte :=
  toBytes (r.code * 2 ^ 24 + r.orig * 2 ^ 16 + r.kind * 2 ^ 12 + r.depth * 2 ^ 10) 4 ++ toBytes r.token 4 ++
  toBytes r.lid 4 ++ toBytes r.blk 4 ++ toBytes (r.unit * 2 ^ 16 + r.core * 2 ^ 4 + r.warp) 4 ++ toBytes r.pc 4 ++
  toBytes r.addr 8 ++ toBytes r.mask.toNat 16 ++ toBytes 0 16

/-- The 32 bytes of a trace record (R447). -/
def traceBytes (type code depth die lid blk pc time data tid : Nat) : List Byte :=
  toBytes (type * 2 ^ 28 + code * 2 ^ 20 + depth * 2 ^ 18 + die * 2 ^ 16) 4 ++ toBytes lid 4 ++ toBytes blk 4 ++
  toBytes pc 4 ++ toBytes time 8 ++ toBytes data 4 ++ toBytes (tid * 2 ^ 21) 4

/-- A trace record that is not written is counted in TDROP (R446). -/
def traceDrop (s : State) (p : Nat) : State :=
  modPart s p (fun x => { x with trace := { x.trace with
    tdrop := if x.trace.tdrop = 0xFFFFFFFF then x.trace.tdrop else x.trace.tdrop + 1 } })
/-- Write the trace records that wait, the oldest first, as far as their pages have landed (R400); one whose page cannot be written is dropped,
with TERR and the vector. -/
def drainTrace (s : State) (p : Nat) : Nat → State
  | 0 => s
  | n + 1 =>
    match (findPart s p).heldTrace with
    | [] => s
    | r :: rest =>
      match writeRec s p r.1 r.2 with
      | .wait => s
      | .done s' =>
        drainTrace (modPart s' p (fun x => { x with heldTrace := rest, trace := { x.trace with ttail := x.trace.ttail + 1 } })) p n
      | .fail =>
        drainTrace (raiseMsi (modPart (traceDrop s p) p (fun x =>
          { x with heldTrace := rest, trerr := true, weaddr := r.1, trace := { x.trace with terr := true } })) p (findPart s p).fqvec) p n
/-- One trace record (R446): dropped where the ring is full; else it is written in its turn, at once unless its page is moving. -/
def traceRec (s : State) (p type code depth core : Nat) (lk blk pc data tid : Nat) : State :=
  let q := findPart s p
  if !q.trace.en || !bitOf q.trace.types type then s else
  let n := q.trace.ttail.toNat + q.heldTrace.length
  if (q.trace.ttail - q.trace.thead).toNat + q.heldTrace.length ≥ 2 ^ q.trace.tsz then traceDrop s p else
  let die := dieOf core
  let bs := traceBytes type code depth die (lidOf lk) blk pc (findDie s die).refcnt.toNat data tid
  drainTrace (modPart s p (fun x => { x with heldTrace := x.heldTrace ++ [(q.trace.base + 32 * (n % 2 ^ q.trace.tsz), bs)] })) p (q.heldTrace.length + 1)

/-- Whether the fault queue and its backlog have room for one more record (R399). -/
def fqRoom (s : State) (p : Nat) : Bool := decide ((findPart s p).backlog.length < 4096)

/-- Write the oldest records that wait, as far as the ring has room and its pages can be written (R399, R400). After a write that could not be
made they wait until supervisor code asks again; its bit clears when all have been made. -/
def drainBacklog (s : State) (p : Nat) : Nat → State
  | 0 => s
  | n + 1 =>
    let q := findPart s p
    match q.backlog with
    | [] => if q.fqretry then modPart s p (fun x => { x with fqerr := false, fqretry := false }) else s
    | r :: rest =>
      if (q.fqerr && !q.fqretry) || (q.fqtail - q.fqhead).toNat ≥ 2 ^ q.fqsize then s else
      let va := q.fqbase + 64 * (q.fqtail.toNat % 2 ^ q.fqsize)
      match writeRec s p va r.bytes with
      | .done s' =>
        let s2 := modPart s' p (fun x => { x with backlog := rest, fqtail := x.fqtail + 1 })
        drainBacklog (if q.fqtail = q.fqhead then raiseMsi s2 p q.fqvec else s2) p n
      | .wait => s
      | .fail => raiseMsi (modPart s p (fun x => { x with fqerr := true, fqretry := false, weaddr := va })) p q.fqvec

/-- A fault record enters the queue in order (R399), with its trace record of TYPE 2. (DESIGN CHOICE, log 23) -/
def pushRecord (s : State) (p core : Nat) (lk : Nat) (r : FRec) : State :=
  let s1 := modPart s p (fun q => { q with backlog := q.backlog ++ [r] })
  let s2 := drainBacklog s1 p 4100
  traceRec s2 p 2 r.code r.depth core lk r.blk r.pc r.token
    (r.warp * 128 + ((maskTids r.mask).headD 0))

/-- A new token of a partition (R399): tokens run from 1 and skip 0, which is never valid (R461). (DESIGN CHOICE, log 23) -/
def newToken (s : State) (p : Nat) : Nat × State :=
  let n := (findPart s p).nextToken
  (n, modPart s p (fun q => { q with nextToken := if n + 1 ≥ 2 ^ 32 then 1 else n + 1 }))

/-! ## The group being issued -/

/-- The context of the group that the latch names: the warp, its launch, block and gang, and the group's threads (R281,
R36); `den` is the den thread, whose warp shows only frame 0, in which every den thread runs (R291). -/
structure Ctx where
  w : Warp
  l : Launch
  b : Block
  g : Gang
  den : Option Nat
  pc : Nat
  rk : Nat
  grp : List Nat

/-- A thread that may be picked to issue on the lanes: ready, or trying again what it could not do before. -/
def TState.tries : TState → Bool
  | .ready => true
  | .retry _ => true
  | .burrow _ _ => true
  | .join => true
  | .halt => true
  | .recall => true
  | .eret _ => true
  | .waitf _ => true
  | .engines _ => true
  | _ => false
/-- The reasons a thread standing at an instruction counts as Blocked (R280): barriers, burrows, edges, matrix and collective
instructions (16), WAITF and RECALL; not those of the issue gate. (DEDUCED, log 42) -/
def TState.blocked : TState → Bool
  | .ready => false
  | .retry c => c == 4 || c == 5 || c == 8 || c == 11 || c == 12 || c == 16
  | .parked _ => false
  | .ejected => false
  | .exited => false
  | .engines _ => false
  | _ => true

/-- The threads of a warp's group at a program counter and repetition in the current frame (R281). -/
def groupAt (w : Warp) (pc rk : Nat) : List Nat :=
  (w.threads.filter (fun t => t.st.tries && decide (t.held = 0) && decide (t.pc = pc) && decide (t.rk = rk) &&
    t.den.isNone)).map (·.tid)

/-- The context that the latch names, if its warp, block, launch and gang are there. -/
def ctxOf (s : State) : Option Ctx :=
  match s.iss.w with
  | none => none
  | some n =>
    match findWarp s n, findLaunch s n.launch, findBlock s n.launch n.blk n.shadow, findGang s n.launch n.blk n.shadow with
    | some w, some l, some b, some g =>
      some { w := match s.iss.den with | some _ => { w with frames := w.frames.drop w.depth } | none => w
             l := l, b := b, g := g, den := s.iss.den, pc := s.iss.pc, rk := s.iss.rk
             grp := match s.iss.den with | some t => [t] | none => groupAt w s.iss.pc s.iss.rk }
    | _, _, _, _ => none

/-- The group's length in words. -/
def groupLen (s : State) : Nat := s.iss.words.length

/-- The attempt found that the group cannot issue: its threads wait before it in a state that is tried again (R286, R451), and the
latch says so. (DEDUCED, log 34) -/
def stallAs (s : State) (c : Ctx) (st : TState) : State :=
  let s1 := modWarp s c.w.name (fun w => w.modThreads c.grp (fun t => if t.den.isSome then t
    else { t with st := st, cnt := if t.st = st then t.cnt else 0 }))
  { s1 with iss := { s1.iss with stalled := true } }
/-- The same with a stall code of R451; code 0 leaves the threads ready (the gate of R286 itself). (DEDUCED, log 34) -/
def stall (s : State) (c : Ctx) (code : Nat) : State :=
  if code = 0 then { s with iss := { s.iss with stalled := true } } else stallAs s c (.retry code)

/-- Threads go on to an address, ready, at repetition 0. -/
def gotoPc (w : Warp) (ts : List Nat) (pc : Nat) : Warp :=
  w.modThreads ts (fun t => { t with pc := pc, rk := 0, cnt := 0, again := false, st := if t.den.isSome then .ejected else .ready })

/-! ## The den -/

/-- The threads of a warp that have not exited. -/
def aliveTids (w : Warp) : List Nat := (w.threads.filter (fun t => t.st != .exited)).map (·.tid)
/-- Recall ejected threads of a warp (R295): each becomes a Ready thread at its own program counter, Held while a handler frame
is open (R387); its registers are already the home registers. What it did in the den happens before what the warp does now (R232). -/
def recallThreads (w : Warp) (ts : List Nat) : Warp :=
  let back := (w.threads.filter (fun t => t.den.isSome && ts.contains t.tid)).map (·.tid)
  let w1 := w.modThreads ts (fun t => match t.den with
    | none => t
    | some _ => { t with den := none, held := if w.depth = 0 then 0 else 1, st := match t.st with | .parked p => .parked p | _ => .ready })
  { w1 with race := w.race.rejoin w.name back (aliveTids w) }

/-- Tell ejected threads of a warp to hand back (R295): they issue nothing more in the den, and RECALL_COMPLETE returns them. -/
def askRecall (w : Warp) (ts : List Nat) : Warp := w.modThreads ts (fun t => t.modDen (fun y => { y with recalled := true }))

/-- The ejected threads of a warp. -/
def ejectedTids (w : Warp) : List Nat := (w.threads.filter (fun t => t.den.isSome)).map (·.tid)

/-! ## The operand window -/

/-- The instruction word of a group: the first word that is not a prefix (R31). -/
def instrWord (ws : List Code) : Option (Code × Option Code) :=
  match ws.dropWhile (fun w => w.extractLsb' 62 2 == 2#2) with
  | [] => none
  | w :: rest => some (w, rest.head?)
/-- A group holds a prefix of a type (R389). -/
def hasPrefix (ws : List Code) (ty : Nat) : Bool :=
  (ws.takeWhile (fun w => w.extractLsb' 62 2 == 2#2)).any (fun w => decide ((w.extractLsb' 58 4).toNat = ty))

/-- %ewlen (R389). -/
def ewlenOf (ws : List Code) (rk : Nat) : Word :=
  BitVec.ofNat 32 (ws.length + (if hasPrefix ws 0 then 8 else 0) + (if hasPrefix ws 1 then 16 else 0) + rk % 16 * 32)

/-- Word `i` of the raw words, 32 bits at a time (R389). -/
def rawWords (ws : List Code) : List Word :=
  (List.range 8).map (fun i => ((ws.getD (i / 2) 0).extractLsb' (32 * (i % 2)) 32))

/-- The window of a group (R389): decoded fields of its instruction word, its raw words, and the cause. -/
def windowOf (ws : List Code) (pc rk : Nat) (cause path : Nat) (faddr : Nat) (fm em : Mask) : Window :=
  let base : Window :=
    { ewpc := BitVec.ofNat 32 pc, ewlen := ewlenOf ws rk, ewg := rawWords ws, ewmask := em
      cause := BitVec.ofNat 32 (path * 256 + cause), faddr := BitVec.ofNat 64 faddr, fmask := fm }
  match instrWord ws with
  | none => base
  | some (w, w1) =>
    let n := w.toNat
    let fmt := bitsOf n 62 2
    if fmt = 1 then
      { base with
        ewop := BitVec.ofNat 32 (15 * 2 ^ 24 + bitsOf n 59 3 * 2 ^ 21 + bitsOf n 42 1 * 2 ^ 17 + bitsOf n 43 4 * 2 ^ 13 +
          1 * 2 ^ 9 + bitsOf n 35 7)
        ewd := BitVec.ofNat 32 (bitsOf n 28 7), ewa := BitVec.ofNat 32 (bitsOf n 21 7)
        ewb := BitVec.ofNat 32 (bitsOf n 7 7), ewc := BitVec.ofNat 32 (bitsOf n 0 7), ewimm := BitVec.ofNat 32 (bitsOf n 14 7) }
    else
      let x := (w1.getD 0).toNat
      { base with
        ewop := BitVec.ofNat 32 (bitsOf n 34 4 * 2 ^ 24 + bitsOf n 50 3 * 2 ^ 21 + bitsOf n 26 3 * 2 ^ 18 + bitsOf n 33 1 * 2 ^ 17 +
          bitsOf n 29 4 * 2 ^ 13 + bitsOf n 24 1 * 2 ^ 12 + bitsOf n 25 1 * 2 ^ 11 + fmt * 2 ^ 9 + bitsOf n 53 9)
        ewd := BitVec.ofNat 32 (bitsOf n 16 8), ewa := BitVec.ofNat 32 (bitsOf n 8 8), ewb := BitVec.ofNat 32 (bitsOf n 0 8)
        ewc := if fmt = 3 then BitVec.ofNat 32 (bitsOf x 56 8 + bitsOf x 32 24 * 256) else 0
        ewimm := if fmt = 3 then BitVec.ofNat 32 x
          else if bitsOf n 24 1 = 1 then (BitVec.ofNat 8 n).signExtend 32 else 0 }

/-! ## Taking an exception -/

/-- The path of a cause (R410): 0 emulation, 1 trap, 2 supervisor. -/
def pathOf (x : Nat) : Nat :=
  if x ≤ 5 then 0
  else if x = 0x0E || x = 0x13 || x = 0x14 || x = 0x15 || x = 0x60 || (0x70 ≤ x && x ≤ 0x73) || (0x80 ≤ x && x ≤ 0x85) ||
    x = 0xA1 || x = 0xA2 then 2 else 1

/-- A vector register's code offset and whether it is enabled (R409). -/
def vecOff (v : Word) : Nat := v.toNat / 8 * 8
/-- EN of a vector register. -/
def vecOn (v : Word) : Bool := v.getLsbD 0

/-- What a cause says of itself, and where its threads restart. -/
structure Raise where
  cause : Nat
  tids : List Nat
  faddr : Nat := 0
  ewmask : Option Mask := none
  peer : Option (Word × Word) := none

/-- What no frame at a depth or above it has anything to do with: results not ready and outstanding instructions of frames that are closed. -/
def Warp.dropDepth (w : Warp) (d : Nat) : Warp :=
  { w with hazards := w.hazards.filter (fun h => decide (h.depth < d)), holds := w.holds.filter (fun h => decide (h.depth < d)) }
/-- The peer registers as a delivery of 0x30 leaves them (R254). -/
def Warp.setPeer (w : Warp) (p : Option (Word × Word)) : Warp :=
  match p with | some (a, b) => { w with race := { w.race with peer := a, info := b } } | none => w

/-- Open a handler frame (R385): the delivering set runs from the vector of the path in a frame of its own, every other thread that
no frame holds becomes Held beneath it. A frame that serves a queued matrix entry keeps all threads as they stand (R422). -/
def openFrame (w : Warp) (path : Nat) (ws : List Code) (pc rk : Nat) (r : Raise) (conv : Option Nat) : Warp :=
  let vec := if path = 0 then w.emuvec else w.trapvec
  let fm := maskOf r.tids
  let d := w.depth + 1
  let w1 := recallThreads w r.tids
  let fr : Frame :=
    { win := windowOf ws pc rk r.cause path r.faddr fm (r.ewmask.getD fm), emu := path == 0, conv := conv
      back := if conv.isSome then w1.threads else [] }
  { w1.dropDepth d with
    frames := fr :: w1.frames
    threads := w1.threads.map (fun t =>
      if r.tids.contains t.tid then { t with pc := vecOff vec, rk := 0, st := .ready, cnt := 0, held := 0 }
      else if t.held = 0 && t.den.isNone then { t with held := d } else t) }

/-- Park threads with a record on the supervisor path (R382, R399), which names `named` of them (R221). The token names the record. -/
def parkWithRecord (s : State) (w : Warp) (core : Nat) (r : Raise) (code orig pc kind unit page : Nat) (named : List Nat := r.tids) : State :=
  let p := partOf w.name.launch
  let (tok, s1) := newToken s p
  let s2 := modWarp s1 w.name (fun x => x.modThreads r.tids (fun t =>
    { t with st := .parked { page := page, token := tok }, again := true }))
  let tk : Token :=
    { token := tok, kind := kind, code := code, w := w.name, mask := maskOf named
      pc := pc, addr := r.faddr, ref := 0, core := core, orig := orig }
  let s3 := modPart s2 p (fun q => { q with tokens := q.tokens ++ [tk] })
  pushRecord s3 p core w.name.launch
    { code := code, orig := orig, kind := kind, depth := w.depth, token := tok, lid := lidOf w.name.launch
      blk := w.name.blk, unit := unit, core := 0, warp := w.name.w, pc := pc, addr := r.faddr, mask := maskOf named }

/-- Deliver a cause on a path for threads of a warp that stand at `pc` with the group words `ws` (R382 to R385): to the vector of
the path; to the supervisor where the path is the supervisor's, where the vector is disabled, or as 0x60 where two frames are open
(R384). `none` where the record would find no room (R399). -/
def deliverOn (path : Nat) (s : State) (n : WName) (ws : List Code) (pc rk : Nat) (r : Raise) (conv : Option Nat) : Option State :=
  match findWarp s n with
  | none => some s
  | some w =>
    let vec := if path = 0 then w.emuvec else w.trapvec
    let toSup := path = 2 || !vecOn vec || w.depth ≥ 2
    if toSup then
      if !fqRoom s (partOf n.launch) then none else
      let nest := path ≠ 2 && vecOn vec
      let s1 := modWarp s n (fun x => (recallThreads x r.tids).setPeer r.peer)
      some (parkWithRecord s1 w w.core r (if nest then 0x60 else r.cause) (if nest then r.cause else 0) pc 0 0 (r.faddr / 4096 * 4096))
    else
      let s1 := modWarp s n (fun x => (openFrame x path ws pc rk r conv).setPeer r.peer)
      some (traceRec s1 (partOf n.launch) 1 r.cause (w.depth + 1) w.core n.launch n.blk pc (r.faddr % 2 ^ 32)
        (n.w * 128 + (r.tids.headD 0)))
/-- Deliver a cause on the path of its code (R410). -/
def deliver (s : State) (n : WName) (ws : List Code) (pc rk : Nat) (r : Raise) (conv : Option Nat) : Option State :=
  deliverOn (pathOf r.cause) s n ws pc rk r conv

/-- A cause kept pending in the warp, with its threads where they stand; it is delivered before the warp starts another pass
(R388, R399). (DEDUCED, log 54) -/
def pendCause (s : State) (c : Ctx) (r : Raise) : State :=
  if !c.w.pend.isEmpty then modWarp s c.w.name (fun w => askRecall w c.grp) else
  let pc : CauseRec := { cause := r.cause, tids := r.tids, faddr := r.faddr, ewmask := r.ewmask, after := true, pc := c.pc, peer := r.peer }
  modWarp s c.w.name (fun w => { recallThreads w r.tids with pend := [pc] })
/-- A den thread's warp has a handler frame open, so its cause waits until the frame closes (R387). (DEDUCED, log 54) -/
def laterDen (s : State) (c : Ctx) : Bool := match findWarp s c.w.name with | some w => decide (w.depth > 0) | none => false
/-- TAKE AN EXCEPTION for the group being issued, with the restart point before it: nothing of the group has been performed. A
group whose record finds no room stalls (R399). A den thread is recalled, and raises its cause when it issues again on the lanes
(R293, R295); a race it is refused for and an enabled exception are delivered as it is recalled, for it alone (R251, R116). -/
def raise (s : State) (c : Ctx) (r : Raise) : State :=
  if c.den.isSome && r.cause != 0x30 && !(decide (0x40 ≤ r.cause) && decide (r.cause ≤ 0x48)) then modWarp s c.w.name (fun w => askRecall w c.grp)
  else if c.den.isSome && laterDen s c then pendCause s c r
  else match deliver s c.w.name s.iss.words c.pc c.rk r none with
    | some s' => s'
    | none => stall s c 13

/-- Take an exception with the restart point after the group: its threads have gone on already (R50, R439). Where no
record finds room the cause stays pending in the warp and is delivered first (R388, R399). -/
def raiseAfter (s : State) (c : Ctx) (r : Raise) : State :=
  if c.den.isSome && laterDen s c then pendCause s c r
  else match deliver s c.w.name s.iss.words c.pc c.rk r none with
    | some s' => s'
    | none => pendCause s c r

/-- A hit delivered in swap-out mode (R441): the gang is to stop, and its image to be written, before any record is; the warp
keeps what the record will say. Nothing of the group is performed. -/
def swapOutHit (s : State) (c : Ctx) (r : CauseRec) : State :=
  if c.den.isSome then modWarp s c.w.name (fun w => askRecall w c.grp) else
  let s1 := modWarp s c.w.name (fun w => recallThreads { w with pend := r :: w.pend } r.tids)
  let s2 := modGang s1 c.g.launch c.g.rank0 c.g.shadow (fun g =>
    { g with st := match g.st with | .running => .stopping 2 | x => x })
  { s2 with iss := { s2.iss with stalled := true } }

/-! ## Returning from an exception -/

/-- A frame that served a queued matrix entry closes (R422): the threads that have not exited stand where they stood, and the
entry is retired, unless an ERET.retry asks for it again. (DEDUCED, log 56) -/
def closeConv (w : Warp) (fr g : Frame) (rest : List Frame) : Warp :=
  let again := w.threads.any (fun t => match t.st with | .eret true => true | _ => false)
  let w1 : Warp :=
    { w.dropDepth (w.frames.length - 1) with
      frames := g :: rest
      threads := w.threads.map (fun t => if t.st = .exited then t else (fr.back.find? (fun b => b.tid == t.tid)).getD t) }
  if again then w1
  else match w1.mq with
    | [] => w1
    | e :: es => lowerFlag { w1 with mq := es } e.depth none e.sig
/-- Close the current frame (R394, R387): its registers are gone, the threads that it held are released to the state beneath
the hold, and each thread of the delivering set resumes by its own ERET. -/
def closeFrame (w : Warp) : Warp :=
  match w.frames with
  | fr :: g :: rest =>
    let d := w.frames.length - 1
    let pc0 := fr.win.ewpc.toNat
    let len := fr.win.ewlen.toNat % 8
    let k := fr.win.ewlen.toNat / 32 % 16
    if fr.conv.isSome then closeConv w fr g rest else
    { w.dropDepth d with
      frames := g :: rest
      threads := w.threads.map (fun t =>
        if t.held = d then { t with held := 0 }
        else if t.held ≠ 0 then t
        else match t.st with
          | .eret true => { t with st := .ready, pc := pc0, rk := k, cnt := 0 }
          | .eret false => { t with st := .ready, pc := pc0 + 8 * len, rk := 0, cnt := 0 }
          | _ => t) }
  | _ => w

/-- Whether the current handler frame may close: every thread of its delivering set that has not exited stands at an ERET, and
nothing of the frame is outstanding (R394). -/
def frameDone (s : State) (w : Warp) : Bool :=
  decide (w.frames.length ≥ 2) &&
  w.threads.all (fun t => decide (t.held ≠ 0) || t.den.isSome || (match t.st with | .eret _ => true | .exited => true | _ => false)) &&
  s.reqs.all (fun r => !(decide (r.w = w.name) && decide (r.depth = w.depth))) &&
  s.copies.all (fun e => !(decide (e.w = w.name) && decide (e.depth = w.depth))) &&
  s.bricks.all (fun b => b.waiters.all (fun e => !(decide (e.1 = w.name) && decide (e.2.1 = w.depth)))) &&
  w.mq.all (fun e => decide (e.depth ≠ w.depth))

end Sys2Proof.Machine
end

