-- ==== Sys2Proof/Machine/Operands.lean ====
section
/-! DEFINITION. Operand forms: the operand codes of R39, register pairs and groups (R41, R220, R297), the uniform path (R40),
stepped operands (R55), last-read marks (R37), the .regs limit (R42), recorded registers (R118, R156, R223) and results
that are not interlocked (R77, R289). -/

namespace Sys2Proof.Machine

/-- v0 to v127. -/
def isV (c : Nat) : Bool := decide (c < 0x80)
/-- s0 to s63. -/
def isS (c : Nat) : Bool := decide (0x80 ≤ c) && decide (c < 0xC0)
/-- q0 to q7. -/
def isQ (c : Nat) : Bool := decide (0xC0 ≤ c) && decide (c < 0xC8)
/-- The code zero. -/
def opZero : Nat := 0xC8
/-- An s register or zero. -/
def isSZ (c : Nat) : Bool := isS c || c == opZero
/-- An s register, zero or a uniform code 0xCD to 0xD1 (R310, R321). -/
def isUniCode (c : Nat) : Bool := isSZ c || (decide (0xCD ≤ c) && decide (c ≤ 0xD1))

/-- How an entry uses its operand fields: the registers it writes through D and reads through D, A, B and C (0 for a field it
does not use), and what else R73 and R293 need to know of it. -/
structure Use where
  /-- Registers written through D. -/
  d : Nat := 0
  /-- Registers read through D. -/
  dr : Nat := 0
  a : Nat := 0
  b : Nat := 0
  c : Nat := 0
  /-- q operands are admitted (R39). -/
  q : Bool := true
  /-- An s destination is admitted (R40). -/
  s : Bool := true
  /-- The code zero may stand where a pair or group is named. -/
  zero : Bool := true
  /-- Executed on a den core (R293). -/
  den : Bool := false
  /-- The bit of %feat without which it is disabled (R2). -/
  feat : Option Nat := none
  /-- The results are interlocked: an instruction that names them waits (R118, R140, R288). -/
  lock : Bool := false
  /-- Supervisor (R70). -/
  sup : Bool := false
  /-- The entry's own conditions of cause 0x07. -/
  bad : Bool := false
  /-- Predicates that the entry's fields name (R118). -/
  preds : List Nat := []
  /-- It writes a predicate, and runs once where its sources are uniform (R91). -/
  pw : Bool := false
  /-- It acts once per warp, for the lowest-numbered issuing thread, as on the uniform path (R258). -/
  solo : Bool := false

/-- One operand field in use: 0 D, 1 A, 2 B, 3 C, its code, and the registers it names. -/
structure Fld where
  which : Nat
  code : Nat
  n : Nat
  read : Bool
  write : Bool

/-- The operand fields in use. With I = 1, B is an immediate (R38, R45). -/
def fieldsOf (u : Use) (f : FWord) (x : Option LExt) : List Fld :=
  (if u.d + u.dr > 0 then [{ which := 0, code := f.d.toNat, n := max u.d u.dr, read := decide (u.dr > 0), write := decide (u.d > 0) }] else []) ++
  (if u.a > 0 then [{ which := 1, code := f.a.toNat, n := u.a, read := true, write := false }] else []) ++
  (if u.b > 0 && !f.i then [{ which := 2, code := f.b.toNat, n := u.b, read := true, write := false }] else []) ++
  (match x with
    | some e => if u.c > 0 then [{ which := 3, code := e.c.toNat, n := u.c, read := true, write := false }] else []
    | none => [])

/-- The step of a field in a REP group (R54); C is not stepped (R55). (DEDUCED, log 11) -/
def repStep (r : Option RepWord) (which : Nat) : Nat :=
  match r with
  | none => 0
  | some p => if which = 0 then p.dstep.toNat else if which = 1 then p.astep.toNat else if which = 2 then p.bstep.toNat else 0
/-- Repetitions of a group (R54). -/
def repCount (r : Option RepWord) : Nat := match r with | none => 1 | some p => p.count1.toNat + 1
/-- The instruction word with the operand codes of repetition `k` (R55). (DEDUCED, log 11) -/
def stepF (f : FWord) (r : Option RepWord) (k : Nat) : FWord :=
  match r with
  | none => f
  | some p =>
    { f with
      d := f.d + BitVec.ofNat 8 (k * p.dstep.toNat)
      a := f.a + BitVec.ofNat 8 (k * p.astep.toNat)
      b := if f.i then f.b else f.b + BitVec.ofNat 8 (k * p.bstep.toNat) }

/-- Whether a group of `n` registers at a code is one that may be named: whole, and starting at a multiple of `n`. (DEDUCED, log 17) -/
def groupOk (code n : Nat) : Bool :=
  if isV code then code % n == 0 && decide (code + n ≤ 0x80)
  else isS code && (code - 0x80) % n == 0 && decide (code + n ≤ 0xC0)

/-- Whether a field names an operand it may name at one repetition (R39, R41, R56). The code zero may stand for a pair or group but where the
entry asks for registers, as DQ8, DQ4, MATCH and POLL.mask do. (DEDUCED, log 17) -/
def fldOk (u : Use) (r : Option RepWord) (k : Nat) (fl : Fld) : Bool :=
  let code := fl.code + k * repStep r fl.which
  let classOk := repStep r fl.which == 0 || (isV fl.code && isV code) || (isS fl.code && isS code)
  classOk &&
  (if fl.write then decide (code ≤ 0xC8) else decide (code ≤ 0xD1)) &&
  (u.q || !isQ code) &&
  (fl.n == 1 || (u.zero && code == opZero) || groupOk code fl.n)

/-- An instruction on the uniform path (R40): D is written and names an s register. -/
def isUniform (u : Use) (f : FWord) : Bool := decide (u.d > 0) && isS f.d.toNat

/-- An instruction that writes a predicate from sources that are all uniform, and so runs once (R91, R106, R119). -/
def predUniform (u : Use) (f : FWord) (x : Option LExt) : Bool := u.pw && (fieldsOf u f x).all (fun fl => isUniCode fl.code)
/-- The threads that a cause of an instruction names (R116, R383): on the uniform path the lowest of them. -/
def namedBy (u : Use) (f : FWord) (x : Option LExt) (ts : List Nat) : List Nat := if predUniform u f x then ts.take 1 else ts

/-- Conditions of cause 0x07 that follow from the operand fields, over every repetition (R39 to R41, R56). -/
def operandsBad (u : Use) (f : FWord) (x : Option LExt) (r : Option RepWord) : Bool :=
  let fs := fieldsOf u f x
  u.bad || (List.range (repCount r)).any (fun k => fs.any (fun fl => !fldOk u r k fl)) ||
  (isUniform u f && (!u.s || fs.any (fun fl => fl.read && (isV fl.code || isQ fl.code)))) ||
  (!u.s && decide (u.d > 0) && isS f.d.toNat)

/-- A v register at or above the .regs maximum, over every repetition (R42). -/
def regsBeyond (u : Use) (f : FWord) (x : Option LExt) (r : Option RepWord) (maxr : Nat) : Bool :=
  (fieldsOf u f x).any (fun fl => isV fl.code &&
    (List.range (repCount r)).any (fun k => decide (fl.code + k * repStep r fl.which + fl.n > maxr)))

/-! ## Recorded registers -/

/-- The operand codes from one up. -/
def codesFrom (c n : Nat) : List Nat := (List.range n).map (· + c)

/-- The v registers that an epilogue word STR writes (R191): its offset and its width. -/
def strCodes (base : Nat) (wd : Word) : List Nat :=
  if bitsOf wd.toNat 26 6 ≠ 15 then []
  else let b := base + bitsOf wd.toNat 2 7
    if wd.toNat % 4 = 0 then [b, b + 1] else [b]
/-- The registers that a queued matrix entry will write (R156, R199): those of MRD, or of the STR words of a drain. -/
def entryDests (e : MEntry) : List Nat :=
  if e.op = 3 then [e.dreg, e.dreg + 1] else if e.op = 6 then (e.prog.map (strCodes e.dreg)).flatten else []

/-- The registers of a warp's frame that are recorded until a reply or a matrix entry writes them (R118, R156, R223), as
operand codes; a predicate `k` as 256 + `k`. (DEDUCED, log 30) -/
def recorded (s : State) (w : Warp) (depth : Nat) : List Nat :=
  (s.reqs.filter (fun r => decide (r.w = w.name) && decide (r.depth = depth))).foldl (fun acc r =>
    acc ++ (if isV r.dcode || isS r.dcode then codesFrom r.dcode r.dn else []) ++
    (match r.kind with
      | .atom _ _ sp => if sp < 12 then [256 + sp] else []
      | .edgeTake k => if k < 12 then [256 + k] else []
      | _ => [])) [] ++
  (w.mq.filter (fun e => decide (e.depth = depth))).foldl (fun acc e => acc ++ entryDests e) []

/-- The registers an instruction names at a repetition, as operand codes. -/
def namedCodes (u : Use) (f : FWord) (x : Option LExt) : List Nat :=
  (fieldsOf u f x).foldl (fun acc fl => if isV fl.code || isS fl.code then acc ++ codesFrom fl.code fl.n else acc) [] ++
  u.preds.map (· + 256)

/-! ## Results not yet ready -/

/-- The eighths that hold one of these threads, ascending: the cycles of their pass (R75). -/
def eighths (ts : List Nat) : List Nat := (List.range 8).filter (fun e => ts.any (fun t => t / 16 == e))
/-- The cycle of a pass over these threads in which thread `t` is served (R75). -/
def passPos (ts : List Nat) (t : Nat) : Nat := ((eighths ts).takeWhile (fun e => decide (e < t / 16))).length

/-- The hazards left when a pass begins that is at least `dist` cycles after the one before (R34, R77). -/
def ageHazards (hs : List Hazard) (dist : Nat) : List Hazard :=
  (hs.filter (fun h => decide (h.left > dist))).map (fun h => { h with left := h.left - dist })

/-- The value that a read returns among unready writes of one register, the newest first: the value after a write, or, as a
free choice, the one before it, which an older unready write may concern in turn (R289). (DEDUCED, log 8) -/
def hazardPick (free key : Nat) : List Hazard → Word → Word
  | [], cur => cur
  | h :: hs, cur => if Config.freeOld free (key * 64 + hs.length) then hazardPick free key hs h.old else cur

/-- A read of a register whose newest results may not be ready (R289). (DEDUCED, log 8) -/
def hazardRead (s : State) (w : Warp) (depth kind key pos : Nat) (cur : Word) : Word :=
  hazardPick s.free (kind * 2 ^ 20 + key)
    (w.hazards.filter (fun h => decide (h.depth = depth) && decide (h.kind = kind) && decide (h.key = key) && decide (h.left > pos))) cur

/-! ## Reading operands -/

/-- A special operand of a thread (R39). -/
def specialVal (c : Ctx) (t code : Nat) : Nat :=
  let i := c.w.name.w * 128 + t
  let p := c.l.pkt
  match code with
  | 0xC9 => t
  | 0xCA => i % p.blkx
  | 0xCB => i / p.blkx % p.blky
  | 0xCC => i / (p.blkx * p.blky)
  | 0xCD => c.w.name.blk % p.gridx
  | 0xCE => c.w.name.blk / p.gridx % p.gridy
  | 0xCF => c.w.name.blk / (p.gridx * p.gridy)
  | 0xD0 => c.w.name.w
  | 0xD1 => c.b.grank
  | _ => 0

/-- An s register as an issue sees it: a den thread reads its slot's own copy (R292). -/
def readS (s : State) (w : Warp) (den : Option Nat) (r : Nat) : Word :=
  match den with
  | none => hazardRead s w w.depth 1 r 0 (w.cur.getS r)
  | some t => match (w.thread t).bind (·.den) with | some y => agetD y.s r 0 | none => 0

/-- A v register of a thread as an issue of the threads `ts` sees it. -/
def readV (s : State) (w : Warp) (den : Option Nat) (ts : List Nat) (t r : Nat) : Word :=
  match den with
  | none => hazardRead s w w.depth 0 (t * 128 + r) (passPos ts t) (w.cur.getV t r)
  | some _ => w.cur.getV t r

/-- A bit as a word. -/
def bitWord (b : Bool) : Word := if b then 1 else 0
/-- A thread's predicate word as an issue of the threads `ts` sees it, each predicate with its own readiness. -/
def readP (s : State) (w : Warp) (den : Option Nat) (ts : List Nat) (t : Nat) : BitVec 12 :=
  let cur := w.cur.getP t
  if den.isSome || w.hazards.isEmpty then cur else
  (List.range 12).foldl (fun x k => setBit12 x k
    ((hazardRead s w w.depth 2 (t * 16 + k) (passPos ts t) (bitWord (cur.getLsbD k))).getLsbD 0)) 0

/-- One register or special operand, not a q operand. -/
def readCode (s : State) (c : Ctx) (w : Warp) (ts : List Nat) (t code : Nat) : Word :=
  if isV code then readV s w c.den ts t code
  else if isS code then readS s w c.den (code - 0x80)
  else BitVec.ofNat 32 (specialVal c t code)

/-- The `n` registers from a code up; the code zero reads as zeros. -/
def readGroup (s : State) (c : Ctx) (w : Warp) (ts : List Nat) (t code n : Nat) : List Word :=
  if n = 1 then [readCode s c w ts t code]
  else if code = opZero then List.replicate n 0
  else (List.range n).map (fun k => readCode s c w ts t (code + k))

/-- Operand B of an instruction that takes it as a uniform value: an s register, zero or a uniform code, or the sign-extended
immediate (R310, R321). -/
def uniformB (s : State) (c : Ctx) (f : FWord) : Word :=
  if f.i then f.b.signExtend 32 else readCode s c c.w [c.grp.headD 0] (c.grp.headD 0) f.b.toNat

/-! ## Writing operands -/

/-- A write of a v register through an issue of `ts`: it is ready 4 cycles after its eighth begins (R77). -/
def writeV (w : Warp) (den : Option Nat) (ts : List Nat) (t r : Nat) (x : Word) : Warp :=
  let w1 := { w with frames := (w.cur.setV t r x) :: w.frames.tail }
  if den.isSome then w1 else
  let h : Hazard := { depth := w.depth, kind := 0, key := t * 128 + r, old := w.cur.getV t r, left := 4 + passPos ts t }
  { w1 with hazards := h :: w.hazards }
/-- A write of an s register, under the latency of eighth 0 (R91). -/
def writeS (w : Warp) (r : Nat) (x : Word) : Warp :=
  let w1 := { w with frames := (w.cur.setS r x) :: w.frames.tail }
  let h : Hazard := { depth := w.depth, kind := 1, key := r, old := w.cur.getS r, left := 4 }
  { w1 with hazards := h :: w.hazards }
/-- A write of one predicate (R92). -/
def writePred (w : Warp) (den : Option Nat) (ts : List Nat) (t k : Nat) (b : Bool) : Warp :=
  let w1 := { w with frames := (w.cur.setPred t k b) :: w.frames.tail }
  if den.isSome then w1 else
  let h : Hazard :=
    { depth := w.depth, kind := 2, key := t * 16 + k, old := bitWord ((w.cur.getP t).getLsbD k), left := 4 + passPos ts t }
  { w1 with hazards := h :: w.hazards }
/-- A write of one register by operand code; the code zero discards it. -/
def writeCode (w : Warp) (den : Option Nat) (ts : List Nat) (t code : Nat) (x : Word) : Warp :=
  if isV code then writeV w den ts t code x else if isS code then writeS w (code - 0x80) x else w
/-- The registers written from `w` to `v` are interlocked: nothing issues that reads them before they are ready (R118). (DEDUCED, log 30) -/
def interlock (w v : Warp) : Warp :=
  let new := v.hazards.take (v.hazards.length - w.hazards.length)
  { v with hazards := w.hazards.filter (fun h => !new.any (fun k => decide (k.depth = h.depth) && decide (k.kind = h.kind) && decide (k.key = h.key))) }
/-- Writes of registers from an operand code up. -/
def writeGroup (w : Warp) (den : Option Nat) (ts : List Nat) (t code : Nat) : List Word → Warp
  | [] => w
  | x :: xs => writeGroup (writeCode w den ts t code x) den ts t (if code = opZero then code else code + 1) xs

/-- A last read of the registers of a field by one thread (R37). -/
def killGroup (w : Warp) (t code n : Nat) : Warp :=
  if isV code then
    { w with frames := ((List.range n).foldl (fun fr k => fr.killV t (code + k)) w.cur) :: w.frames.tail }
  else w

/-- Whether the mark of a field applies at this repetition (R37, R57): bit 2 of LR is A's, bit 1 B's, bit 0 D's. -/
def markApplies (f : FWord) (r : Option RepWord) (rk : Nat) (fl : Fld) : Bool :=
  let bit := if fl.which = 1 then f.lr.getLsbD 2 else if fl.which = 2 then f.lr.getLsbD 1
    else if fl.which = 0 then f.lr.getLsbD 0 else false
  bit && fl.read && (repStep r fl.which != 0 || rk + 1 == repCount r)

/-- The last-read marks of an issue, for its issuing threads (R37). -/
def applyMarks (w : Warp) (u : Use) (f : FWord) (x : Option LExt) (r : Option RepWord) (rk : Nat) (ts : List Nat) : Warp :=
  ((fieldsOf u f x).filter (markApplies f r rk)).foldl (fun w1 fl => ts.foldl (fun w2 t => killGroup w2 t fl.code fl.n) w1) w

/-! ## The register pool -/

/-- Physical registers of the frame of a warp at a depth (R81, R83): those that some thread holds live, and the destinations that an
instruction in flight took at its issue. -/
def heldAt (s : State) (w : Warp) (d : Nat) : List Nat :=
  ((recorded s w d).filter (fun c => isV c)).foldl (fun acc r => insertNat r acc) (w.frameAt d).heldRegs
/-- Physical registers of a bank that a warp holds over its open frames (R80, R81). -/
def heldInBank (s : State) (w : Warp) (odd : Nat) : Nat :=
  ((List.range w.frames.length).map (fun d => ((heldAt s w d).filter (fun r => r % 2 == odd)).length)).foldl (· + ·) 0

/-- Physical registers of a bank of a quadrant in use: a warp swapped out holds none (R86). -/
def bankUsed (s : State) (core quad odd : Nat) : Nat :=
  ((s.warps.filter (fun v => decide (v.core = core) && decide (v.quad = quad) && v.swap != .swapped)).map
    (fun v => heldInBank s v odd)).foldl (· + ·) 0
/-- Whether a quadrant's pool can meet the new mappings that writes of these v registers of the frame at a depth need (R81, R83). -/
def poolFits (s : State) (w : Warp) (d : Nat) (regs : List Nat) : Bool :=
  let held := heldAt s w d
  let need := (regs.filter (fun r => !held.contains r)).eraseDups
  need.isEmpty || [0, 1].all (fun odd =>
    let n := (need.filter (fun r => r % 2 == odd)).length
    n == 0 || decide (bankUsed s w.core w.quad odd + n ≤ 256))
/-- The same for the frame that issues. -/
def poolOk (s : State) (w : Warp) (regs : List Nat) : Bool := poolFits s w w.depth regs

end Sys2Proof.Machine
end

