-- ==== Sys2Proof/Machine/Flags.lean ====
section
/-! DEFINITION. Every flag the machine computes: the IEEE exceptions and the mode register %fpm (R113 to R116), and the test
of the completion flags that WAIT, SIG and WAITF name (R35, R286, R312). -/

namespace Sys2Proof.Machine

/-- The five IEEE exceptions: bit 0 invalid, 1 division by zero, 2 overflow, 3 underflow, 4 inexact (R113). -/
abbrev Exc := BitVec 5

/-- No exception. -/
def excNone : Exc := 0
/-- Invalid. -/
def excInvalid : Exc := 1
/-- Division by zero. -/
def excDivZero : Exc := 2
/-- Overflow. -/
def excOverflow : Exc := 4
/-- Underflow. -/
def excUnderflow : Exc := 8
/-- Inexact. -/
def excInexact : Exc := 16

/-- FTZ32 of %fpm. -/
def fpmFtz32 (m : Word) : Bool := m.getLsbD 8
/-- FTZ16 of %fpm. -/
def fpmFtz16 (m : Word) : Bool := m.getLsbD 9
/-- FTZ64 of %fpm. -/
def fpmFtz64 (m : Word) : Bool := m.getLsbD 10
/-- NOVF of %fpm. -/
def fpmNovf (m : Word) : Bool := m.getLsbD 5
/-- TE of %fpm. -/
def fpmTe (m : Word) : Exc := m.extractLsb' 0 5
/-- %fpm with exceptions accrued in AF (R114). -/
def fpmAccrue (m : Word) (e : Exc) : Word := m ||| (e.zeroExtend 32 <<< 16)
/-- The fields of %fpm that a write sets (R113, R406): reserved fields stay zero. -/
def fpmWrite (x : Word) : Word := x &&& 0x001F073F

/-- The enabled exceptions among those signalled. -/
def excEnabled (m : Word) (e : Exc) : Exc := e &&& fpmTe m
/-- The cause of the lowest code among enabled exceptions (R116). -/
def excCause (e : Exc) : Option Nat :=
  if e.getLsbD 0 then some 0x40 else if e.getLsbD 1 then some 0x41 else if e.getLsbD 2 then some 0x42
  else if e.getLsbD 3 then some 0x43 else if e.getLsbD 4 then some 0x44 else none

/-- The scheduling fields and guard of an instruction (R33, R47). -/
structure Sched where
  stall : Nat
  wait : BitVec 12
  sig : Nat
  gn : Bool
  gp : Nat
  deriving DecidableEq, Repr

/-- Those of an F word or word 0 of an L pair. -/
def schedF (f : FWord) : Sched :=
  { stall := f.stall.toNat, wait := f.wait, sig := f.sig.toNat, gn := f.gn, gp := f.gp.toNat }
/-- Those of a P word, which carries no SIG (R48). -/
def schedP (p : PWord) : Sched :=
  { stall := p.stall.toNat, wait := p.wait, sig := 15, gn := p.gn, gp := p.gp.toNat }

/-- GP or SIG of 12 to 14, or GP = 15 with GN = 1: cause 0x07 for the whole group (R72, R383). -/
def Sched.bad (q : Sched) : Bool :=
  (decide (12 ≤ q.gp) && decide (q.gp ≤ 14)) || (decide (12 ≤ q.sig) && decide (q.sig ≤ 14)) || (q.gp == 15 && q.gn)

/-- Whether a predicate word passes a guard (R36). -/
def Sched.passes (q : Sched) (p : BitVec 12) : Bool := if q.gp ≥ 12 then !q.gn else p.getLsbD q.gp != q.gn

/-- An outstanding instruction that has completed for every thread of it (R35). -/
def SigHold.ended (h : SigHold) : Bool := h.tids.isEmpty && h.reqs == 0 && h.left == 0
/-- The outstanding instructions that a warp counts on a flag of a frame, or of a den thread's slot, beside those in the flag itself. (DEDUCED, log 89) -/
def heldOn (w : Warp) (depth : Nat) (den : Option Nat) (k : Nat) : Nat :=
  (w.holds.filter (fun h => h.flag == k && h.depth == depth && h.den == den && !h.ended)).length
/-- A completion flag as an issue sees it: a den thread has its own (R35, R292). -/
def flagCount (w : Warp) (den : Option Nat) (k : Nat) : Nat :=
  (match den with
    | none => w.cur.getFlag k
    | some t => match (w.thread t).bind (·.den) with | some y => agetD y.flags k 0 | none => 0) + heldOn w w.depth den k

/-- Every flag of a mask is clear (R33, R286). -/
def flagsClear (w : Warp) (den : Option Nat) (m : BitVec 12) : Bool :=
  (List.range 12).all (fun k => !m.getLsbD k || flagCount w den k == 0)

/-- The flags that an instruction waits on and signals let it issue (R35, R286). -/
def flagsReady (w : Warp) (den : Option Nat) (q : Sched) : Bool :=
  flagsClear w den q.wait && (decide (q.sig ≥ 12) || decide (flagCount w den q.sig < 15))

end Sys2Proof.Machine
end

