-- ==== Sys2Proof/Machine/Burrow.lean ====
section
/-! DEFINITION. The operations of a burrow: what an instruction with q operands pops and pushes, when it waits, and the causes
it raises (R327 to R332, R338). -/

namespace Sys2Proof.Machine

/-- A burrow of a block. -/
def Block.burrow (b : Block) (n : Nat) : Burrow :=
  (aget b.burrows n).getD { bound := false, base := 0, sz := 0, head := 0, tail := 0, prod := 0, cons := 0, pmark := [],
                            cmark := [], closedw := [] }
/-- Elements a burrow holds at most (R327). -/
def Burrow.cap (q : Burrow) : Nat := 16 * 2 ^ q.sz
/-- Elements it holds now. -/
def Burrow.occ (q : Burrow) : Nat := (q.tail - q.head).toNat
/-- It is bound and no producer is open (R327). -/
def Burrow.closed (q : Burrow) : Bool := q.bound && q.prod == 0
/-- A block with a burrow changed; an unbound burrow is not listed. -/
def Block.setBurrow (b : Block) (n : Nat) (q : Burrow) : Block :=
  { b with burrows := if q.bound then aset b.burrows n q else adel b.burrows n }
/-- Byte offset in the scratchpad of the element counted `k` from binding (R327). -/
def Burrow.elemOff (q : Burrow) (k : Nat) : Nat := q.base + 4 * (k % q.cap)

/-- The q operands an instruction pops, by field, in the order of R329: A, B, C, then D where it is read. -/
def qPops (u : Use) (f : FWord) (x : Option LExt) : List (Nat × Nat) :=
  let fs := (fieldsOf u f x).filter (fun fl => fl.read && isQ fl.code)
  ((fs.filter (fun fl => fl.which != 0)) ++ (fs.filter (fun fl => fl.which == 0))).map (fun fl => (fl.which, fl.code - 0xC0))
/-- The q operand it pushes. -/
def qPush (u : Use) (f : FWord) : Option Nat := if u.d > 0 && isQ f.d.toNat then some (f.d.toNat - 0xC0) else none

/-- Elements that the pops take from burrow `n` with `k` issuing threads. (DEDUCED, log 12) -/
def popsOf (pops : List (Nat × Nat)) (n k : Nat) : Nat := (pops.filter (fun p => p.2 == n)).length * k

/-- The cause that the q operands raise at issue (R330), with the burrow's number; in the order 0x52, 0x57, 0x50. -/
def qCause (b : Block) (wi : Nat) (pops : List (Nat × Nat)) (push : Option Nat) (k : Nat) : Option (Nat × Nat) :=
  let ns := sortNat (pops.map (·.2) ++ push.toList)
  let firstOf (f : Nat → Bool) (cause : Nat) : Option (Nat × Nat) := (ns.find? f).map (fun n => (cause, n))
  let isPush (n : Nat) : Bool := push == some n
  let misuse (n : Nat) : Bool :=
    let q := b.burrow n
    decide (popsOf pops n k > q.cap) ||
    (isPush n && (decide (k > q.cap) || q.closedw.contains wi || q.prod == 0 ||
      (q.cons == 0 && decide (q.occ - popsOf pops n k + k > q.cap))))
  let drained (n : Nat) : Bool := let q := b.burrow n; decide (popsOf pops n k > q.occ) && q.closed
  (firstOf (fun n => !(b.burrow n).bound) 0x52).orElse (fun _ =>
  (firstOf misuse 0x57).orElse (fun _ => firstOf drained 0x50))

/-- What the q operands wait for while they cannot perform: whether a push, and the burrow (R329). -/
def qStall (b : Block) (pops : List (Nat × Nat)) (push : Option Nat) (k : Nat) : Option (Bool × Nat) :=
  match pops.find? (fun p => decide (popsOf pops p.2 k > (b.burrow p.2).occ)) with
  | some p => some (false, p.2)
  | none =>
    match push with
    | none => none
    | some n => if (b.burrow n).occ - popsOf pops n k + k > (b.burrow n).cap then some (true, n) else none

/-- The 32-bit element of a burrow counted `i` from binding. -/
def elemAt (b : Block) (q : Burrow) (i : Nat) : Word := BitVec.ofNat 32 (readNat b.scratch (q.elemOff i) 4)

/-- Pop elements for one field: each thread in ascending order takes one. -/
def popField (b : Block) (wi n : Nat) (ts : List Nat) : Block × List (Nat × Word) :=
  let q := b.burrow n
  let vals := ts.mapIdx (fun i t => (t, elemAt b q ((q.head + BitVec.ofNat 32 i).toNat)))
  (b.setBurrow n { q with head := q.head + BitVec.ofNat 32 ts.length, cmark := insertNat wi q.cmark }, vals)

/-- Pop for every field in order; the values by field and thread. (DEDUCED, log 12) -/
def popAll (b : Block) (wi : Nat) (ts : List Nat) : List (Nat × Nat) → Block × List ((Nat × Nat) × Word)
  | [] => (b, [])
  | (which, n) :: rest =>
    let (b1, vals) := popField b wi n ts
    let (b2, more) := popAll b1 wi ts rest
    (b2, vals.map (fun v => ((which, v.1), v.2)) ++ more)

/-- Push elements in order at the tail. -/
def pushAll (b : Block) (wi n : Nat) (xs : List Word) : Block :=
  let q := b.burrow n
  let mem := (xs.mapIdx (fun i x => (i, x))).foldl (fun m e =>
    writeBytes m (q.elemOff ((q.tail + BitVec.ofNat 32 e.1).toNat)) (toBytes e.2.toNat 4)) b.scratch
  let words := (List.range xs.length).map (fun i => q.elemOff ((q.tail + BitVec.ofNat 32 i).toNat) / 4)
  { b with
    scratch := mem, swritten := words.foldl (fun acc k => insertNat (k / 32) acc) b.swritten
    spoison := b.spoison.filter (fun k => !words.contains k) }.setBurrow n { q with tail := q.tail + BitVec.ofNat 32 xs.length, pmark := insertNat wi q.pmark }

/-- Whether a pop would take a poisoned element (R459). -/
def popsPoison (b : Block) (pops : List (Nat × Nat)) (k : Nat) : Bool :=
  pops.any (fun p => let q := b.burrow p.2
    (List.range (popsOf pops p.2 k)).any (fun i => b.spoison.contains (q.elemOff ((q.head + BitVec.ofNat 32 i).toNat) / 4)))

/-- The name under which the transfer of a burrow's element counted `k` is kept among the releases: no scratchpad byte has it. -/
def qKey (q : Burrow) (n k : Nat) : Nat := 2 ^ 20 + n * 2 ^ 15 + k % q.cap
/-- The transfers that pops take. -/
def popKeys (b : Block) (pops : List (Nat × Nat)) (k : Nat) : List Nat :=
  ((sortNat (pops.map (·.2))).map (fun n =>
    let q := b.burrow n
    (List.range (popsOf pops n k)).map (fun i => qKey q n (q.head + BitVec.ofNat 32 i).toNat))).flatten
/-- The transfers that a push of `k` elements makes. -/
def pushKeys (b : Block) (n k : Nat) : List Nat :=
  let q := b.burrow n
  (List.range k).map (fun i => qKey q n (q.tail + BitVec.ofNat 32 i).toNat)

/-- PROD falls by one for a warp that closes its producer role, once (R332); a burrow with neither is unbound. -/
def closeProducer (b : Block) (wi n : Nat) : Block :=
  let q := b.burrow n
  if !q.bound || q.closedw.contains wi then b
  else
    let q1 := { q with closedw := insertNat wi q.closedw, prod := q.prod - 1 }
    b.setBurrow n (if q1.prod == 0 && q1.cons == 0 then { q1 with bound := false } else q1)
/-- The exit of a warp's last thread: its open roles close (R332). -/
def exitBurrow (b : Block) (wi n : Nat) : Block :=
  let b1 := if (b.burrow n).pmark.contains wi then closeProducer b wi n else b
  let q := b1.burrow n
  if q.bound && q.cmark.contains wi then
    let q1 := { q with cons := q.cons - 1, cmark := q.cmark.filter (· ≠ wi) }
    b1.setBurrow n (if q1.prod == 0 && q1.cons == 0 then { q1 with bound := false } else q1)
  else b1

end Sys2Proof.Machine
end

