-- ==== Sys2Proof/Machine/Race.lean ====
section
/-! DEFINITION. Synchronisation edges and the race detector (R229 to R233, R251 to R257): scopes, what a release leaves at its bytes and an
acquire takes from them, and the records of a sector. -/

namespace Sys2Proof.Machine

/-! ## Scopes -/

/-- The launch and block of an agent: an engine belongs to the instances of the block whose thread issued its entry (R230). -/
def Agent.block : Agent → Nat × Nat
  | .thr n _ => (n.launch, n.blk)
  | .chan lk blk _ => (lk, blk)
  | .pkg lk blk _ => (lk, blk)
  | .tier lk blk => (lk, blk)
/-- The launch and block of a party. -/
def Party.block : Party → Nat × Nat
  | .warp n => (n.launch, n.blk)
  | .den n _ => (n.launch, n.blk)
  | .engine a => a.block
/-- The warp a party belongs to, with the two runs of a twin as one (R253). -/
def Party.warpName : Party → Option WName
  | .warp n => some (runOf n)
  | .den n _ => some (runOf n)
  | .engine _ => none

/-- Whether a scope covers two parties (R230); device scope and wider cover every party of the package. The entries of an engine's queue come
from several warps of their block, so no warp's own scope covers it. (DEDUCED, log 35) -/
def covers (s : State) (scope : Nat) (p q : Party) : Bool :=
  let a := p.block
  let b := q.block
  if scope ≥ 3 then true
  else if scope = 0 then (match p.warpName, q.warpName with | some m, some n => decide (m = n) | _, _ => false)
  else if scope = 1 then decide (a = b)
  else decide (a.1 = b.1) && decide (a.2 / max 1 (gangSize s a.1) = b.2 / max 1 (gangSize s b.1))

/-- The party of an issue (R229): the warp, or the den party of an ejected thread; the two runs of a twin are one (R253). -/
def partyOf (w : Warp) (den : Option Nat) : Party :=
  match den with
  | none => .warp (runOf w.name)
  | some t => match (w.thread t).bind (·.den) with
    | some y => .den (runOf w.name) y.party
    | none => .warp (runOf w.name)

/-! ## What a warp's detector state comes to -/

/-- The warp's detector state changed. -/
def modRace (s : State) (n : WName) (f : RaceSt → RaceSt) : State := modWarp s n (fun w => { w with race := f w.race })
/-- The same where the warp is, in the image of its saved gang too (R256, R418). -/
def modRaceAny (s : State) (n : WName) (f : RaceSt → RaceSt) : State := modWarpAny s n (fun w => { w with race := f w.race })

/-! ## Accesses in flight -/

/-- A request that writes. -/
def Req.writes (r : Req) : Bool :=
  match r.kind with | .store => true | .atom _ _ _ => true | .edgePut _ => true | .edgeTake _ => true | _ => false
/-- A request that accesses memory. -/
def Req.accesses (r : Req) : Bool :=
  match r.kind with | .store => true | .atom _ _ _ => true | .load _ => true | .epld _ _ => true | .edgePut _ => true | .edgeTake _ => true | _ => false
/-- An access of some threads of a warp, issued before a number, is still to perform. -/
def accessesLeft (s : State) (n : WName) (upTo : Nat) (ts : List Nat) : Bool :=
  s.reqs.any (fun r => decide (r.w = n) && decide (r.id < upTo) && r.accesses && !r.done && r.tids.any (fun t => ts.contains t))

/-! ## Releases at their bytes -/

/-- Whether a release lies on some of these bytes. -/
def RelRec.meets (r : RelRec) (sp : Space) (addr size : Nat) : Bool :=
  decide (r.space = sp) && decide (r.addr < addr + size) && decide (addr < r.addr + r.size)
/-- What is left of a release whose bytes a write replaces. -/
def RelRec.outside (r : RelRec) (sp : Space) (addr size : Nat) : List RelRec :=
  if !r.meets sp addr size then [r]
  else
    (if r.addr < addr then [{ r with size := addr - r.addr }] else []) ++
    (if addr + size < r.addr + r.size then [{ r with addr := addr + size, size := r.addr + r.size - (addr + size) }] else [])
/-- A write that is no read-modify-write ends the releases that a later read of its bytes could take its value from (R232). -/
def raceOverwrite (s : State) (sp : Space) (addr size : Nat) : State :=
  { s with releases := (s.releases.map (fun r => r.outside sp addr size)).flatten }
/-- A release hands over all that an older one at the same bytes does. -/
def RelRec.subsumes (r old : RelRec) : Bool :=
  decide (old.space = r.space) && decide (old.addr = r.addr) && decide (old.size = r.size) && old.rel.party == r.rel.party &&
  decide (old.rel.scope = r.rel.scope) && old.rel.clk.all (fun e => decide (e.2 ≤ r.rel.clk.upTo e.1))
/-- A release at some bytes (R232): an acquire that reads them has what it hands over. -/
def raceDeposit (s : State) (sp : Space) (addr size : Nat) (e : RelSrc) : State :=
  let r : RelRec := { space := sp, addr := addr, size := size, rel := e }
  { s with releases := r :: s.releases.filter (fun old => !r.subsumes old) }
/-- The releases that a read of some bytes meets. -/
def releasesAt (s : State) (sp : Space) (addr size : Nat) : List RelSrc := (s.releases.filter (fun r => r.meets sp addr size)).map (·.rel)
/-- The releases met that an acquire of a party at a scope takes: both scopes cover both parties (R232). -/
def taken (s : State) (p : Party) (scope : Nat) (met : List RelSrc) : List RelSrc :=
  met.filter (fun e => covers s scope e.party p && covers s e.scope e.party p)
/-- An acquire by a thread of a party (R232, R252). -/
def raceAcquire (s : State) (p : Party) (n : WName) (t : Nat) (sp : Space) (addr size scope : Nat) : State :=
  let es := taken s p scope (releasesAt s sp addr size)
  if es.isEmpty then s else modRaceAny s n (fun r => es.foldl (fun x e => x.acquire p t e) r)

/-- Pushes to a burrow, or to an edge, are releases: each element carries that of the thread that pushed it until it is taken (R338, R354). -/
def pushEdges (s : State) (p : Party) (n : WName) (ts : List Nat) (sp : Space) (scope : Nat) (keys : List Nat) : State :=
  if keys.isEmpty || ts.isEmpty then s else
  match findWarp s n with
  | none => s
  | some w =>
    let (rels, race) := w.race.release n p ts scope
    let s1 := (keys.zip (keys.mapIdx (fun i _ => i))).foldl (fun acc k =>
      match rels[k.2 % ts.length]? with
      | some e => raceDeposit (raceOverwrite acc sp k.1 1) sp k.1 1 e.2
      | none => acc) s
    modRace s1 n (fun _ => race)
/-- A pop is an acquire of each element by the thread that takes it (R338). -/
def popEdges (s : State) (p : Party) (n : WName) (ts : List Nat) (sp : Space) (scope : Nat) (keys : List Nat) : State :=
  if ts.isEmpty then s else
  (keys.zip (keys.mapIdx (fun i _ => i))).foldl (fun acc k => raceAcquire acc p n (ts.getD (k.2 % ts.length) 0) sp k.1 1 scope) s

/-- Threads of a warp return from a barrier (R232, R252, R319): what the phase orders before their return happens before what they do now; the
warp's table drops the entries of parties the scope covers, and a grid barrier ends QUIET. -/
def raceReturn (s : State) (n : WName) (back : List (Nat × Clock)) (scope : Nat) (grid : Bool) : State :=
  modRace s n (fun r =>
    let r1 := back.foldl (fun x e => x.receive e.1 e.2) r
    { r1 with tab := { r1.tab with quiet := r1.tab.quiet && !grid, table := r1.tab.table.filter (fun e => !covers s scope e.1 (.warp n)) } })

/-! ## Records of sectors -/

/-- Kinds of an access for R254: 0 plain load, 1 plain store, 2 marked load, 3 marked store, 4 atomic, 5 copy-channel write, 6
package copy or tier write. -/
def kindIsPlainStore (k : Nat) : Bool := k == 1 || k == 5 || k == 6
/-- An access that writes. -/
def kindWrites (k : Nat) : Bool := k == 1 || k == 3 || k == 4 || k == 5 || k == 6

/-- The sector that holds a byte (32 bytes, R233). -/
def findSector (s : State) (sp : Space) (addr : Nat) : Option Sector :=
  s.sectors.find? (fun x => decide (x.space = sp) && decide (x.sec = addr / 32))
/-- Whether a recorded access happens before the next access of an agent with this clock. -/
def AccRec.ordered (r : AccRec) (a : Agent) (k : Clock) : Bool := r.src == a || decide (r.ivl ≤ k.upTo r.src)
/-- Whether a pair of parties is one that the detector passes over (R253): one party, or two of one warp neither of which is a den party. -/
def sameParty (p q : Party) : Bool :=
  p == q || (match p, q with | .warp m, .warp n => decide (runOf m = runOf n) | _, _ => false)

/-- The first recorded access that an access of a thread of this kind would race with (R233, R251, R253): of another party, of the same launch,
at least one a plain store, neither before the other. -/
def raceWith (s : State) (w : Warp) (den : Option Nat) (t kind : Nat) (sp : Space) (addr : Nat) : Option AccRec :=
  match findSector s sp addr with
  | none => none
  | some x =>
    let p := partyOf w den
    (x.stores ++ x.reads).find? (fun r =>
      decide (r.lk = w.name.launch) && !sameParty r.party p && (kindIsPlainStore kind || kindIsPlainStore r.kind) &&
      !r.ordered (agentOf w.name t) (w.race.thread t).clk)

/-- The number of reader parties among records. -/
def readerParties (rs : List AccRec) : Nat := ((rs.filter (fun r => !kindWrites r.kind)).map (·.party)).eraseDups.length
/-- An access enters its sector's record (R251, R253); `k` is what happens before it. A plain store stands for the accesses that happen before
it, since what races with one of them races with it, and a thread's later access for its earlier one of the same kind. A third reader party
since the last write loses the readers since then. (DEDUCED, log 35) -/
def raceRecord (s : State) (r : AccRec) (k : Clock) (sp : Space) (addr : Nat) : State :=
  let sec := addr / 32
  let old := (findSector s sp addr).getD { space := sp, sec := sec, stores := [], reads := [], lost := false }
  let later (x : AccRec) : Bool := decide (x.lk ≠ r.lk) || !x.ordered r.src k
  let new : Sector :=
    if kindIsPlainStore r.kind then
      { space := sp, sec := sec, lost := false, stores := r :: old.stores.filter later, reads := old.reads.filter later }
    else
      let rest := old.reads.filter (fun x => !(x.src == r.src && x.kind == r.kind))
      if kindWrites r.kind then { old with reads := r :: rest, lost := false }
      else if old.lost then old
      else if readerParties (r :: rest.takeWhile (fun x => !kindWrites x.kind)) > 2 then
        { old with reads := rest.dropWhile (fun x => !kindWrites x.kind), lost := true }
      else { old with reads := r :: rest }
  { s with sectors := new :: s.sectors.filter (fun x => !(decide (x.space = sp) && decide (x.sec = sec))) }

/-- %racepeer and %raceinfo as a delivery of 0x30 sets them (R254): the first access and the kind of the second. -/
def racePeer (r : AccRec) (second : Nat) : Word × Word :=
  let eng := r.kind = 5 || r.kind = 6
  (BitVec.ofNat 32 ((if eng then 2 ^ 31 else 0) + r.blk % 2 ^ 31),
    BitVec.ofNat 32 (r.kind % 16 * 2 ^ 28 + second % 16 * 2 ^ 24 + (if r.den then 2 ^ 23 else 0) + r.ftid % 2 ^ 11))

end Sys2Proof.Machine
end

