-- ==== Sys2Proof/Machine/Issue.lean ====
section
/-! DEFINITION. The issue of one group as every instruction makes it: the guard, the conditions of R286, the causes of R73, one
repetition (R55, R57), the end of the pass, and the shape of the instructions that compute registers from registers. -/

namespace Sys2Proof.Machine

/-- What the issue of an instruction needs to know before it performs. -/
structure Spec where
  q : Sched
  /-- Executed on a den core (R293). -/
  den : Bool
  /-- The first cause of R73 that it meets. -/
  cause : Option Nat
  /-- Registers (as operand codes, predicates as 256 + k) it reads or writes. -/
  named : List Nat
  /-- v registers it writes. -/
  dests : List Nat
  /-- It runs on the uniform path (R40). -/
  uni : Bool := false

/-- The first cause of 0x02, 0x0E, 0x07 and 0x0B that an F or L instruction meets (R73). -/
def causeOf (s : State) (c : Ctx) (u : Use) (f : FWord) (x : Option LExt) : Option Nat :=
  if (match u.feat with | some k => !s.feat.getLsbD k | none => false) then some 0x02
  else if u.sup && !isSup s c.l.lk then some 0x0E
  else if (schedF f).bad || operandsBad u f x s.iss.rep then some 0x07
  else if regsBeyond u f x s.iss.rep c.l.pkt.regmax then some 0x0B
  else none

/-- The Spec of an F word or L pair at the repetition being issued. (DEDUCED, log 43) -/
def specOf (s : State) (c : Ctx) (u : Use) (f : FWord) (x : Option LExt) : Spec :=
  let f' := stepF f s.iss.rep c.rk
  { q := (schedF f)
    den := u.den && !isUniform u f && (fieldsOf u f x).all (fun fl => !isQ fl.code)
    cause := causeOf s c u f x
    named := namedCodes u f' x
    dests := if u.d > 0 && isV f'.d.toNat then codesFrom f'.d.toNat u.d else []
    uni := u.solo || isUniform u f || predUniform u f' x }

/-- The issuing threads of a group (R36): those that pass the guard; every thread of it where the guard or SIG is itself a
reserved encoding (R383). After the first repetition of a REP group they are the group (R55). -/
def issuing (s : State) (c : Ctx) (q : Sched) : List Nat :=
  if q.bad || c.rk > 0 then c.grp else c.grp.filter (fun t => q.passes (readP s c.w c.den c.grp t))

/-- The scheduling fields as a repetition uses them (R55, R57, R218): after the first, the guard is behind the group, and so are WAIT and
SIG unless it parked and is issued again. -/
def Ctx.sched (c : Ctx) (q : Sched) : Sched :=
  if c.rk = 0 then q
  else if c.w.threads.any (fun t => c.grp.contains t.tid && t.again) then { q with gn := false, gp := 15 }
  else { q with wait := 0, sig := 15, gn := false, gp := 15 }
/-- The flags that a group waits on and signals let it issue, and nothing is still to write its guard (R118, R286). -/
def gateOpen (s : State) (c : Ctx) (q : Sched) : Bool :=
  flagsReady c.w c.den q && (decide (q.gp ≥ 12) || !(recorded s c.w c.w.depth).contains (256 + q.gp))

/-! ## The length of a pass -/

/-- The cycles of an instruction's pass for each eighth, and the cycles from the beginning of an eighth until its results are ready (R77,
R117, R140, R288). -/
def rateOf (ws : List Code) : Nat × Nat :=
  match instrWord ws with
  | none => (1, 4)
  | some (w, x) =>
    let o := bitsOf w.toNat 53 9
    let long := (x.getD 0).toNat
    let f64 := decide (0x05F ≤ o) && decide (o ≤ 0x061) && (decide (bitsOf long 40 8 = 13) || decide (bitsOf long 48 8 = 13))
    if bitsOf w.toNat 62 2 = 1 then (1, 4)
    else if (0x049 ≤ o && o ≤ 0x050) || (0x059 ≤ o && o ≤ 0x05E) || f64 || o = 0x086 || o = 0x088 then (4, 16)
    else if o = 0x085 || o = 0x087 then (2, 8) else (1, 4)
/-- An instruction that issues in one pass of eight eighths for the whole warp (R159). -/
def wholePass (ws : List Code) : Bool :=
  match instrWord ws with
  | none => false
  | some (w, _) => let o := bitsOf w.toNat 53 9; bitsOf w.toNat 62 2 != 1 && decide (0x0A0 ≤ o) && decide (o ≤ 0x0A7)
/-- The cycles that a pass over some threads lasts (R75, R117, R140, R159). -/
def passCycles (ws : List Code) (tids : List Nat) : Nat := if wholePass ws then 8 else (rateOf ws).1 * (eighths tids).length
/-- The cycles from the beginning of a pass until the results of its last eighth are ready (R288): warp collectives count from its end. -/
def readyIn (ws : List Code) (tids : List Nat) : Nat :=
  match instrWord ws with
  | none => 4
  | some (w, _) =>
    let o := bitsOf w.toNat 53 9
    let r := rateOf ws
    if bitsOf w.toNat 62 2 != 1 && decide (0x127 ≤ o) && decide (o ≤ 0x12C) then
      passCycles ws tids + (if decide (o ≥ 0x12B) && decide (8 ≤ bitsOf w.toNat 0 4) then 16 else 12)
    else passCycles ws tids - r.1 + r.2
/-- The cycles that a pass is from the next at least: STALL, the cycles it lasts, and between repetitions its results (R34, R75, R290). -/
def passDist (q : Sched) (ws : List Code) (tids : List Nat) (more : Bool) : Nat :=
  max (max q.stall 1) (if more then readyIn ws tids else passCycles ws tids)

/-! ## Outstanding instructions -/

/-- An outstanding instruction of a group of these threads at an address on a flag. -/
def SigHold.names (h : SigHold) (w : Warp) (den : Option Nat) (flag pc : Nat) (tids : List Nat) : Bool :=
  h.depth == w.depth && h.den == den && h.flag == flag && h.pc == pc && h.tids.any (fun t => tids.contains t)
/-- An instruction of a warp that names a flag has issued, or goes on (R35, R57): the threads `tids` of it, of which `inside` are still in
it, `left` cycles until its results are ready, `reqs` requests more outstanding, and the number `id` under which they are counted. -/
def noteHold (w : Warp) (den : Option Nat) (flag pc : Nat) (tids inside : List Nat) (left id reqs : Nat) : Warp :=
  if flag ≥ 12 || tids.isEmpty then w
  else if w.holds.any (fun h => h.names w den flag pc tids) then
    { w with holds := w.holds.map (fun h => if h.names w den flag pc tids then
        { h with tids := h.tids.filter (fun t => !tids.contains t) ++ inside, left := max h.left left, reqs := h.reqs + reqs } else h) }
  else if inside.isEmpty && left == 0 && reqs == 0 then w
  else
    let h : SigHold := { id := id, depth := w.depth, den := den, flag := flag, pc := pc, tids := inside, reqs := reqs, left := left }
    { w with holds := h :: w.holds }
/-- What an instruction of these threads that sends `n` requests numbered from `id` lowers as each completes, and the warp that counts them
(R35, R57): the flag, where one request of one repetition is all of it; else the instruction's own count. -/
def sendFlag (w : Warp) (den : Option Nat) (flag pc : Nat) (tids : List Nat) (id n : Nat) (reps more : Bool) : Nat × Warp :=
  if flag ≥ 12 then (flag, w)
  else if n = 1 && !reps then (flag, raiseFlag w w.depth den flag)
  else
    let no := match w.holds.find? (fun h => h.names w den flag pc tids) with | some h => h.id | none => id
    (16 + no, noteHold w den flag pc tids (if more then tids else []) 0 id n)
/-- Cycles pass: results become ready, and instructions complete with them (R77, R117). -/
def Warp.age (w : Warp) (n : Nat) : Warp :=
  { w with hazards := ageHazards w.hazards n, holds := w.holds.map (fun h => { h with left := h.left - n }) }
/-- All results of earlier passes are ready, as before a repetition of a REP group (R55, R290). -/
def Warp.ripe (w : Warp) : Warp := { w with hazards := [], holds := w.holds.map (fun h => { h with left := 0 }) }

/-! ## The end of an issue -/

/-- A warp at the end of one of its passes (R285, R302, R313, R442): JOIN's count of passes, YIELD ended by the issue of another group, the
skip mark cleared. -/
def passDone (w : Warp) (pc : Nat) (grp : List Nat) (dist : Nat) (whole : Bool) : Warp :=
  let joins := sortNat ((w.threads.filter (fun t => t.st == .join)).map (·.pc))
  { w with
    lastStall := dist
    since := 0
    holds := w.holds.filter (fun h => !h.ended)
    ableFor := 0
    aged := false
    young := false
    skip := if whole then none else w.skip
    compare := if w.compare = 2 then 0 else w.compare
    stepped := whole
    joinPasses := joins.map (fun p => (p, agetD w.joinPasses p 0 + 1))
    promoted := w.promoted.filter (· ≠ pc)
    groupWait := w.groupWait.filter (fun e => decide (e.1 ≠ pc))
    threads := w.threads.map (fun t =>
      if t.st == .yield && !grp.contains t.tid && decide (t.held = 0) then { t with st := .ready, cnt := 0 } else t) }

/-- The end of an issue: guarded-off threads step past the instruction, issuing threads go to the next repetition or past the
group (R55, R281). -/
def stepThreads (s : State) (c : Ctx) (tids : List Nat) (w : Warp) : Warp :=
  let next := c.pc + 8 * groupLen s
  let others := c.grp.filter (fun t => !tids.contains t)
  let w1 := gotoPc w others next
  if c.rk + 1 < repCount s.iss.rep then
    w1.modThreads tids (fun t => { t with rk := c.rk + 1, cnt := 0, again := false, st := if t.den.isSome then .ejected else .ready })
  else gotoPc w1 tids next

/-- The repetition being issued is the last. -/
def lastRep (s : State) (c : Ctx) : Bool := decide (c.rk + 1 ≥ repCount s.iss.rep)
/-- The state after the group has issued: `w` is its warp with the registers written, `inside` the threads still in the instruction, and
`left` the cycles until its results are ready. A den core completes what it issues at once (R293). -/
def finishAs (s : State) (c : Ctx) (tids : List Nat) (q : Sched) (inside : List Nat) (left : Nat) (w : Warp) : State :=
  let w1 := stepThreads s c tids w
  let w2 := if c.den.isSome then w1 else
    passDone (noteHold w1 none q.sig c.pc tids inside left 0 0) c.pc c.grp (passDist q s.iss.words tids (!lastRep s c)) (lastRep s c)
  let s1 := modWarp s c.w.name (fun old => if c.den.isSome then { w2 with frames := old.frames.take old.depth ++ w2.frames } else w2)
  if c.den.isSome then s1 else modQuad s1 c.w.core c.w.quad (fun k => { k with issued := true })
/-- The same for an instruction whose results are registers: its threads are in it until the last repetition (R57). -/
def finish (s : State) (c : Ctx) (tids : List Nat) (q : Sched) (w : Warp) : State :=
  finishAs s c tids q (if lastRep s c then [] else tids) (readyIn s.iss.words tids) w
/-- The same for an instruction without results, in which the threads `wait` go on waiting (R302, R312 to R314, R321). -/
def finishWait (s : State) (c : Ctx) (tids : List Nat) (q : Sched) (wait : List Nat) (w : Warp) : State := finishAs s c tids q wait 0 w
/-- The scheduling fields of an instruction that has raised its flag itself, until what it sent has completed (R35). -/
def Sched.sent (q : Sched) : Sched := { q with sig := 15 }

/-- Hold the issuing threads at an instruction that waits (R302, R311 to R314, R394, R403): guarded-off threads step past it, the
others take the state `st` and try again. -/
def hold (s : State) (c : Ctx) (tids : List Nat) (q : Sched) (st : TState) : State :=
  let others := c.grp.filter (fun t => !tids.contains t)
  if others.isEmpty && tids.all (fun t => match c.w.thread t with | some x => decide (x.st = st) | none => true) then
    { s with iss := { s.iss with stalled := true } }
  else
    let w1 := passDone (noteHold (gotoPc c.w others (c.pc + 8 * groupLen s)) none q.sig c.pc tids tids 0 0 0) c.pc c.grp
      (passDist q s.iss.words tids false) true
    modWarp s c.w.name (fun _ => w1.modThreads tids (fun t => { t with st := st, cnt := if decide (t.st = st) then t.cnt else 0 }))

/-- The context with its warp at the start of a pass: results that STALL, earlier passes and the cycles since have made ready are ready
(R34, R77). -/
def startPass (c : Ctx) : Ctx := { c with w := if c.rk > 0 then c.w.ripe else c.w.age (c.w.lastStall - c.w.since) }

/-- Issue a group (R36, R281, R286, R293, R73, R383): `body` performs it for the issuing threads, when nothing keeps it from
issuing and it raises no cause. -/
def issueWith (s : State) (spec : Ctx → Spec) (body : Ctx → List Nat → State) : Host.Outcome State Fault Refusal :=
  match ctxOf s with
  | none => .fault .noContext
  | some c0 =>
    let c := startPass c0
    let sp := spec c
    let tids := issuing s c sp.q
    if c.grp.isEmpty then .next (stall s c 0)
    else if !gateOpen s c (c.sched sp.q) then .next (stall s c 0)
    else if tids.isEmpty then .next (finish s c [] sp.q c.w)
    else if c.den.isSome && !sp.den then .next (modWarp s c.w.name (fun w => askRecall w c.grp))
    else if sp.named.any (fun r => (recorded s c.w c.w.depth).contains r) then .next (stall s c 0)
    else match sp.cause with
      | some k => .next (raise s c { cause := k, tids := if sp.uni && !sp.q.bad then tids.take 1 else tids })
      | none => if poolOk s c.w sp.dests then .next (body c tids) else .next (stall s c 3)

/-- Issue an F word or L pair: `body` is given the word with the operand codes of this repetition. -/
def issue (u : Use) (f : FWord) (x : Option LExt) (s : State) (body : Ctx → FWord → List Nat → State) :
    Host.Outcome State Fault Refusal :=
  issueWith s (fun c => specOf s c u f x) (fun c tids => body c (stepF f s.iss.rep c.rk) tids)

/-- Poisoned data is consumed (R459): the instruction performs nothing, and the gang's kill, which the warp's pending cause
names, is the machine's next step. -/
def consume (s : State) (c : Ctx) (cause : Nat) (tids : List Nat) (addr : Nat) : State :=
  let r : CauseRec := { cause := cause, tids := tids, faddr := addr, pc := c.pc }
  let s1 := modWarp s c.w.name (fun w => { w with pend := r :: w.pend })
  { s1 with iss := { s1.iss with stalled := true } }

/-! ## Instructions that compute registers from registers -/

/-- What such an instruction reads for one thread: its operands, its predicate word, and %fpm. -/
structure AluIn where
  t : Nat
  a : List Word := []
  b : List Word := []
  c : List Word := []
  d : List Word := []
  p : BitVec 12 := 0
  fpm : Word := 0

/-- What it gives for one thread: the registers of D, predicates it writes, IEEE exceptions, and narrow overflow (R145). -/
structure AluOut where
  vals : List Word := []
  preds : List (Nat × Bool) := []
  exc : Exc := 0
  novf : Bool := false

/-- A 32-bit operand. -/
def w32 (xs : List Word) : Word := xs.headD 0
/-- A 64-bit operand: the first register holds bits 31:0 (R41). -/
def w64 (xs : List Word) : BitVec 64 := xs.getD 1 0 ++ xs.getD 0 0
/-- The two registers of a 64-bit result. -/
def split64 (x : BitVec 64) : List Word := [x.extractLsb' 0 32, x.extractLsb' 32 32]

/-- The immediate that stands for B: IMM32 in the L form, B[7:0] sign-extended in the F form, to 64 bits where B names a pair
(R38, R45, R98). -/
def immB (f : FWord) (x : Option LExt) (n : Nat) : List Word :=
  match x with
  | some e => e.imm32 :: List.replicate (n - 1) 0
  | none => f.b.signExtend 32 :: List.replicate (n - 1) (if f.b.msb then BitVec.allOnes 32 else 0)

/-- The operands of one thread; a q operand's element stands in `qv`. -/
def operandVals (s : State) (c : Ctx) (ts : List Nat) (qv : List ((Nat × Nat) × Word)) (t which code n : Nat) : List Word :=
  if n = 0 then []
  else match qv.find? (fun e => e.1.1 == which && e.1.2 == t) with
    | some e => [e.2]
    | none => readGroup s c c.w ts t code n

/-- Everything an instruction reads for one thread. -/
def aluIn (s : State) (c : Ctx) (u : Use) (f : FWord) (x : Option LExt) (ts : List Nat) (qv : List ((Nat × Nat) × Word))
    (t : Nat) : AluIn :=
  { t := t
    a := operandVals s c ts qv t 1 f.a.toNat u.a
    b := if f.i && u.b > 0 then immB f x u.b else operandVals s c ts qv t 2 f.b.toNat u.b
    c := match x with | some e => operandVals s c ts qv t 3 e.c.toNat u.c | none => []
    d := operandVals s c ts qv t 0 f.d.toNat u.dr
    p := readP s c.w c.den ts t
    fpm := c.w.fpm }

/-- The exceptions of all threads together. -/
def allExc (outs : List (Nat × AluOut)) : Exc := outs.foldl (fun e o => e ||| o.2.exc) 0

/-- The cause that the results raise (R116, R145), with the threads that raise it. -/
def trapOf (m : Word) (outs : List (Nat × AluOut)) : Option (Nat × List Nat) :=
  match excCause (excEnabled m (allExc outs)) with
  | some k => some (k, (outs.filter (fun o => o.2.exc.getLsbD (k - 0x40))).map (·.1))
  | none =>
    if fpmNovf m && outs.any (fun o => o.2.novf) then some (0x48, (outs.filter (fun o => o.2.novf)).map (·.1)) else none

/-- The results written: registers or a push through D, then predicates. -/
def writeOuts (w : Warp) (den : Option Nat) (ts : List Nat) (u : Use) (f : FWord) (outs : List (Nat × AluOut)) : Warp :=
  outs.foldl (fun w1 o =>
    let w2 := if u.d > 0 && !isQ f.d.toNat then writeGroup w1 den ts o.1 f.d.toNat (o.2.vals.take u.d) else w1
    o.2.preds.foldl (fun w3 p => writePred w3 den ts o.1 p.1 p.2) w2) w

/-- The state and the warp after the transfers of the threads `ts` through burrows (R329, R338): the block as it stands then, the edges of
what was popped and pushed. -/
def qTransfer (s : State) (c : Ctx) (w : Warp) (ts : List Nat) (pops : List (Nat × Nat)) (push : Option Nat) (b : Block) : State × Warp :=
  if pops.isEmpty && push.isNone then (s, w)
  else
    let p := partyOf w c.den
    let sp : Space := .scratch c.l.lk c.b.blk c.b.shadow
    let s1 := popEdges (modBlock s c.l.lk c.b.blk c.b.shadow (fun _ => b)) p c.w.name ts sp 1 (popKeys c.b pops ts.length)
    let s2 := match push with | some n => pushEdges s1 p c.w.name ts sp 1 (pushKeys c.b n ts.length) | none => s1
    (s2, match findWarp s2 c.w.name with | some v => { w with race := v.race } | none => w)

/-- The warp after the results: %fpm accrues, the last-read registers are given up (R48, R54), the results are written; an interlocked
instruction and one that pops hold their registers (R286). -/
def aluWarp (u : Use) (f : FWord) (x : Option LExt) (s : State) (c : Ctx) (ts : List Nat) (outs : List (Nat × AluOut)) : Warp :=
  let w1 := applyMarks { c.w with fpm := fpmAccrue c.w.fpm (allExc outs) } u f x s.iss.rep c.rk ts
  (if u.lock || !(qPops u f x).isEmpty then interlock w1 else id) (writeOuts w1 c.den ts u f outs)

/-- Perform such an instruction for its issuing threads: pops, reads, the function, the traps of R116 and R145, marks, writes,
the push, which waits until the threads' earlier accesses have performed (R338). On the uniform path it runs once, for the lowest-numbered
thread (R40). The function is given every thread's operands together. (DEDUCED, log 100) -/
def aluAll (u : Use) (x : Option LExt) (fn : List AluIn → List AluOut) (s : State) (c : Ctx) (f : FWord) (tids : List Nat) : State :=
  let ts := if isUniform u f then tids.take 1 else tids
  let pops := qPops u f x
  let push := qPush u f
  match qCause c.b c.w.name.w pops push ts.length with
  | some (k, n) => raise s c { cause := k, tids := ts, faddr := n }
  | none =>
    match qStall c.b pops push ts.length with
    | some (push, n) => stallAs s c (.burrow push n)
    | none =>
      if push.isSome && accessesLeft s c.w.name s.nextId ts then stall s c 2 else
      if popsPoison c.b pops ts.length then consume s c 0x80 ts 0 else
      let (b1, qv) := popAll c.b c.w.name.w ts pops
      let outs := ts.zip (fn (ts.map (fun t => aluIn s c u f x ts qv t)))
      let m := fpmAccrue c.w.fpm (allExc outs)
      match trapOf c.w.fpm outs with
      | some (k, bad) =>
        let s1 := modWarp s c.w.name (fun w => { w with fpm := m })
        raise s1 { c with w := { c.w with fpm := m } } { cause := k, tids := namedBy u f x bad }
      | none =>
        let b2 := match push with
          | none => b1
          | some n => pushAll b1 c.w.name.w n (outs.map (fun o => o.2.vals.headD 0))
        let (s1, w3) := qTransfer s c (aluWarp u f x s c ts outs) ts pops push b2
        finish s1 c tids (schedF f) w3
/-- Perform an instruction that gives each thread a function of its own operands. -/
def aluBody (u : Use) (x : Option LExt) (fn : AluIn → AluOut) (s : State) (c : Ctx) (f : FWord) (tids : List Nat) : State :=
  aluAll u x (fun ins => ins.map fn) s c f tids

/-- One register of each of some threads written through D, interlocked. -/
def giveEach (c : Ctx) (f : FWord) (ts : List Nat) (w : Warp) (res : List (Nat × Word)) : Warp :=
  interlock w (res.foldl (fun v r => writeCode v c.den ts r.1 f.d.toNat r.2) w)
/-- One word given to every issuing thread, or once on the uniform path. -/
def giveWord (c : Ctx) (u : Use) (f : FWord) (tids : List Nat) (w : Warp) (x : Word) : Warp :=
  let ts := if isUniform u f then tids.take 1 else tids
  giveEach c f ts w (ts.map (fun t => (t, x)))

/-- An instruction that computes registers or predicates from registers. -/
def alu (u : Use) (f : FWord) (x : Option LExt) (s : State) (fn : AluIn → AluOut) : Host.Outcome State Fault Refusal :=
  issue u f x s (aluBody u x fn s)

end Sys2Proof.Machine
end

