-- ==== Sys2Proof/Machine/Integer.lean ====
section
/-! DEFINITION. The integer, logic, address and predicate instructions, 0x000 to 0x023 (R94 to R109). -/

namespace Sys2Proof.Machine

/-! ## The functions -/

/-- The sum or difference of R96, wrapped or saturated: `ty` is 0x07 for .n32, else .i32. -/
def addSat (v : Bool) (ty : Nat) (a b : Word) : Word :=
  if !v then a + b
  else if ty = 7 then BitVec.ofNat 32 (min (a.toNat + b.toNat) (2 ^ 32 - 1))
  else BitVec.ofInt 32 (clampTo (-2 ^ 31) (2 ^ 31 - 1) (a.toInt + b.toInt))
/-- The difference of R96. -/
def subSat (v : Bool) (ty : Nat) (a b : Word) : Word :=
  if !v then a - b
  else if ty = 7 then BitVec.ofNat 32 (a.toNat - b.toNat)
  else BitVec.ofInt 32 (clampTo (-2 ^ 31) (2 ^ 31 - 1) (a.toInt - b.toInt))
/-- Bits 63:32 of the product (R96); `v` takes the operands as unsigned. -/
def mulHigh (v : Bool) (a b : Word) : Word :=
  if v then BitVec.ofNat 32 (a.toNat * b.toNat / 2 ^ 32) else BitVec.ofInt 32 (a.toInt * b.toInt / 2 ^ 32)
/-- The full product (R98). -/
def mulWide (v : Bool) (a b : Word) : BitVec 64 :=
  if v then BitVec.ofNat 64 (a.toNat * b.toNat) else BitVec.ofInt 64 (a.toInt * b.toInt)
/-- Minimum (R96). -/
def minW (v : Bool) (a b : Word) : Word :=
  if v then (if a.toNat ≤ b.toNat then a else b) else (if a.toInt ≤ b.toInt then a else b)
/-- Maximum (R96). -/
def maxW (v : Bool) (a b : Word) : Word :=
  if v then (if a.toNat ≥ b.toNat then a else b) else (if a.toInt ≥ b.toInt then a else b)
/-- SHL (R96). -/
def shlW (a b : Word) : Word := if b.toNat ≥ 32 then 0 else a <<< b.toNat
/-- SHR (R96). -/
def shrW (a b : Word) : Word := if b.toNat ≥ 32 then 0 else a >>> b.toNat
/-- SAR (R96). -/
def sarW (a b : Word) : Word := a.sshiftRight (min b.toNat 31)
/-- ROL (R96). -/
def rolW (a b : Word) : Word := a.rotateLeft (b.toNat % 32)
/-- IABS (R97). -/
def absW (v : Bool) (a : Word) : Word := if a = 0x80000000 then (if v then 0x7FFFFFFF else a) else if a.msb then -a else a
/-- INEG (R97). -/
def negW (v : Bool) (a : Word) : Word := if a = 0x80000000 && v then 0x7FFFFFFF else -a
/-- POPC (R97). -/
def popcW (a : Word) : Word := BitVec.ofNat 32 ((List.range 32).filter (fun i => a.getLsbD i)).length
/-- CLZ (R97). -/
def clzW (a : Word) : Word := BitVec.ofNat 32 (((List.range 32).reverse.takeWhile (fun i => !a.getLsbD i)).length)
/-- A word from its bits. -/
def wordOfBits (f : Nat → Bool) : Word :=
  BitVec.ofNat 32 ((List.range 32).foldl (fun n i => if f i then n + 2 ^ i else n) 0)
/-- BREV (R97). -/
def brevW (a : Word) : Word := wordOfBits (fun i => a.getLsbD (31 - i))
/-- IADDT (R99). -/
def addtW (nb nc : Bool) (a b c : Word) : Word := a + (if nb then -b else b) + (if nc then -c else c)
/-- BLUT (R100). -/
def blutW (tt : Nat) (a b c : Word) : Word :=
  wordOfBits (fun i => bitOf tt ((if a.getLsbD i then 1 else 0) + (if b.getLsbD i then 2 else 0) + (if c.getLsbD i then 4 else 0)))
/-- FUNS.l (R101). -/
def funsL (a b c : Word) : Word := BitVec.ofNat 32 ((b.toNat * 2 ^ 32 + a.toNat) * 2 ^ min c.toNat 32 / 2 ^ 32)
/-- FUNS.r (R101). -/
def funsR (a b c : Word) : Word := BitVec.ofNat 32 ((b.toNat * 2 ^ 32 + a.toNat) / 2 ^ min c.toNat 32)
/-- BFE (R102): `v` sign-extends. -/
def bfeW (v : Bool) (a b : Word) : Word :=
  let pos := b.toNat % 256
  let len := b.toNat / 256 % 256
  if len = 0 then 0
  else if pos ≥ 32 then (if v && a.msb then BitVec.allOnes 32 else 0)
  else
    let n := min len (32 - pos)
    let f := a.toNat / 2 ^ pos % 2 ^ n
    if v && f ≥ 2 ^ (n - 1) then BitVec.ofNat 32 (f + 2 ^ 32 - 2 ^ n) else BitVec.ofNat 32 f
/-- BFI (R103). -/
def bfiW (a b c : Word) : Word :=
  let pos := b.toNat % 256
  let len := b.toNat / 256 % 256
  if len = 0 || pos ≥ 32 then c
  else
    let n := min len (32 - pos)
    let mask := BitVec.ofNat 32 ((2 ^ n - 1) * 2 ^ pos)
    (c &&& ~~~mask) ||| ((a <<< pos) &&& mask)
/-- BPICK (R104): `v` is .sx. -/
def bpickW (v : Bool) (a b c : Word) : Word :=
  let x := b.toNat * 2 ^ 32 + a.toNat
  let byte (i : Nat) : Nat :=
    let nib := bitsOf c.toNat (4 * i) 4
    let j := bitsOf x (8 * (nib % 8)) 8
    if nib < 8 then j else if v && j ≥ 128 then 255 else 0
  BitVec.ofNat 32 (byte 0 + byte 1 * 256 + byte 2 * 65536 + byte 3 * 16777216)
/-- The conditions of R106. -/
def condW (cc : Nat) (a b : Word) : Bool :=
  match cc with
  | 0 => decide (a = b)
  | 1 => decide (a ≠ b)
  | 2 => decide (a.toInt < b.toInt)
  | 3 => decide (a.toInt ≤ b.toInt)
  | 4 => decide (a.toInt > b.toInt)
  | 5 => decide (a.toInt ≥ b.toInt)
  | 6 => decide (a.toNat < b.toNat)
  | 7 => decide (a.toNat ≤ b.toNat)
  | 8 => decide (a.toNat > b.toNat)
  | _ => decide (a.toNat ≥ b.toNat)
/-- The operations of R108; the last operand is pK after its inversion. -/
def psetW (op : Nat) (j k : Bool) : Bool :=
  match op with
  | 0 => j && k
  | 1 => j || k
  | 2 => j != k
  | 3 => j && !k
  | 4 => k
  | 5 => !k
  | 6 => false
  | _ => true

/-! ## The instructions -/

/-- d ← f(a, b). -/
def alu2 (f : FWord) (x : Option LExt) (s : State) (g : Word → Word → Word) : Host.Outcome State Fault Refusal :=
  alu { d := 1, a := 1, b := 1, den := true } f x s (fun i => { vals := [g (w32 i.a) (w32 i.b)] })
/-- d ← f(a). -/
def alu1 (f : FWord) (s : State) (g : Word → Word) : Host.Outcome State Fault Refusal :=
  alu { d := 1, a := 1, den := true } f none s (fun i => { vals := [g (w32 i.a)] })
/-- d ← f(a, b, c). -/
def alu3 (f : FWord) (x : LExt) (s : State) (g : Word → Word → Word → Word) : Host.Outcome State Fault Refusal :=
  alu { d := 1, a := 1, b := 1, c := 1, den := true } f (some x) s (fun i => { vals := [g (w32 i.a) (w32 i.b) (w32 i.c)] })

/-- NOP (R95). -/
def execNop (f : FWord) (s : State) : Host.Outcome State Fault Refusal := alu { den := true } f none s (fun _ => {})
/-- MOV, F form (R95). -/
def execMovF (f : FWord) (s : State) : Host.Outcome State Fault Refusal :=
  alu { d := 1, b := 1, den := true } f none s (fun i => { vals := [w32 i.b] })
/-- MOV, L form (R95). -/
def execMovL (f : FWord) (x : LExt) (s : State) : Host.Outcome State Fault Refusal :=
  alu { d := 1, b := 1, den := true } f (some x) s (fun i => { vals := [w32 i.b] })
/-- IADD, F form (R96): V = 1 is .sat.i32. -/
def execIaddF (f : FWord) (s : State) : Host.Outcome State Fault Refusal := alu2 f none s (addSat f.v 2)
/-- IADD, L form (R96). -/
def execIaddL (f : FWord) (x : LExt) (s : State) : Host.Outcome State Fault Refusal := alu2 f (some x) s (addSat f.v x.ty0)
/-- ISUB, F form (R96). -/
def execIsubF (f : FWord) (s : State) : Host.Outcome State Fault Refusal := alu2 f none s (subSat f.v 2)
/-- ISUB, L form (R96). -/
def execIsubL (f : FWord) (x : LExt) (s : State) : Host.Outcome State Fault Refusal := alu2 f (some x) s (subSat f.v x.ty0)
/-- IADDT (R99). -/
def execIaddt (f : FWord) (x : LExt) (s : State) : Host.Outcome State Fault Refusal :=
  alu3 f x s (addtW (x.xbits 0 1 = 1) (x.xbits 1 1 = 1))
/-- IADD64 (R98). -/
def execIadd64 (f : FWord) (s : State) : Host.Outcome State Fault Refusal :=
  alu { d := 2, a := 2, b := 2, den := true } f none s (fun i => { vals := split64 (w64 i.a + w64 i.b) })
/-- IMUL, F form (R96). -/
def execImulF (f : FWord) (s : State) : Host.Outcome State Fault Refusal := alu2 f none s (fun a b => a * b)
/-- IMUL, L form (R96). -/
def execImulL (f : FWord) (x : LExt) (s : State) : Host.Outcome State Fault Refusal := alu2 f (some x) s (fun a b => a * b)
/-- IMULH (R96). -/
def execImulh (f : FWord) (s : State) : Host.Outcome State Fault Refusal := alu2 f none s (mulHigh f.v)
/-- IMULW (R98). -/
def execImulw (f : FWord) (s : State) : Host.Outcome State Fault Refusal :=
  alu { d := 2, a := 1, b := 1, den := true } f none s (fun i => { vals := split64 (mulWide f.v (w32 i.a) (w32 i.b)) })
/-- IMAD (R99). -/
def execImad (f : FWord) (x : LExt) (s : State) : Host.Outcome State Fault Refusal := alu3 f x s (fun a b c => a * b + c)
/-- IMIN, F form (R96). -/
def execIminF (f : FWord) (s : State) : Host.Outcome State Fault Refusal := alu2 f none s (minW f.v)
/-- IMIN, L form (R96). -/
def execIminL (f : FWord) (x : LExt) (s : State) : Host.Outcome State Fault Refusal := alu2 f (some x) s (minW f.v)
/-- IMAX, F form (R96). -/
def execImaxF (f : FWord) (s : State) : Host.Outcome State Fault Refusal := alu2 f none s (maxW f.v)
/-- IMAX, L form (R96). -/
def execImaxL (f : FWord) (x : LExt) (s : State) : Host.Outcome State Fault Refusal := alu2 f (some x) s (maxW f.v)
/-- IABS (R97). -/
def execIabs (f : FWord) (s : State) : Host.Outcome State Fault Refusal := alu1 f s (absW f.v)
/-- INEG (R97). -/
def execIneg (f : FWord) (s : State) : Host.Outcome State Fault Refusal := alu1 f s (negW f.v)
/-- Comparison into a predicate (R106): D[7:4] the condition, D[3:0] the predicate, V = 1 ANDs. -/
def isetOut (f : FWord) (i : AluIn) : AluOut :=
  let r := condW f.dHi (w32 i.a) (w32 i.b)
  { preds := [(f.dLo, if f.v then i.p.getLsbD f.dLo && r else r)] }
/-- ISET, F form (R106). -/
def execIsetF (f : FWord) (s : State) : Host.Outcome State Fault Refusal :=
  alu { a := 1, b := 1, den := true, bad := decide (f.dLo ≥ 12), preds := [f.dLo], pw := true } f none s (isetOut f)
/-- ISET, L form (R106). -/
def execIsetL (f : FWord) (x : LExt) (s : State) : Host.Outcome State Fault Refusal :=
  alu { a := 1, b := 1, den := true, bad := decide (f.dLo ≥ 12), preds := [f.dLo], pw := true } f (some x) s (isetOut f)
/-- SEL (R107): on the uniform path the predicate is that of the lowest-numbered issuing thread. -/
def execSel (f : FWord) (x : LExt) (s : State) : Host.Outcome State Fault Refusal :=
  alu { d := 1, a := 1, b := 1, den := true, bad := decide (x.xbits 0 4 ≥ 12), preds := [x.xbits 0 4] } f (some x) s (fun i =>
    { vals := [if i.p.getLsbD (x.xbits 0 4) != f.v then w32 i.a else w32 i.b] })
/-- AND, F form (R96). -/
def execAndF (f : FWord) (s : State) : Host.Outcome State Fault Refusal := alu2 f none s (fun a b => a &&& b)
/-- AND, L form (R96). -/
def execAndL (f : FWord) (x : LExt) (s : State) : Host.Outcome State Fault Refusal := alu2 f (some x) s (fun a b => a &&& b)
/-- OR, F form (R96). -/
def execOrF (f : FWord) (s : State) : Host.Outcome State Fault Refusal := alu2 f none s (fun a b => a ||| b)
/-- OR, L form (R96). -/
def execOrL (f : FWord) (x : LExt) (s : State) : Host.Outcome State Fault Refusal := alu2 f (some x) s (fun a b => a ||| b)
/-- XOR, F form (R96). -/
def execXorF (f : FWord) (s : State) : Host.Outcome State Fault Refusal := alu2 f none s (fun a b => a ^^^ b)
/-- XOR, L form (R96). -/
def execXorL (f : FWord) (x : LExt) (s : State) : Host.Outcome State Fault Refusal := alu2 f (some x) s (fun a b => a ^^^ b)
/-- ANDN, F form (R96). -/
def execAndnF (f : FWord) (s : State) : Host.Outcome State Fault Refusal := alu2 f none s (fun a b => a &&& ~~~b)
/-- ANDN, L form (R96). -/
def execAndnL (f : FWord) (x : LExt) (s : State) : Host.Outcome State Fault Refusal := alu2 f (some x) s (fun a b => a &&& ~~~b)
/-- NOT (R97). -/
def execNot (f : FWord) (s : State) : Host.Outcome State Fault Refusal := alu1 f s (fun a => ~~~a)
/-- BLUT (R100). -/
def execBlut (f : FWord) (x : LExt) (s : State) : Host.Outcome State Fault Refusal := alu3 f x s (blutW x.imm32.toNat)
/-- SHL (R96). -/
def execShl (f : FWord) (s : State) : Host.Outcome State Fault Refusal := alu2 f none s shlW
/-- SHR (R96). -/
def execShr (f : FWord) (s : State) : Host.Outcome State Fault Refusal := alu2 f none s shrW
/-- SAR (R96). -/
def execSar (f : FWord) (s : State) : Host.Outcome State Fault Refusal := alu2 f none s sarW
/-- ROL (R96). -/
def execRol (f : FWord) (s : State) : Host.Outcome State Fault Refusal := alu2 f none s rolW
/-- FUNS (R101): V = 0 is .l. -/
def execFuns (f : FWord) (x : LExt) (s : State) : Host.Outcome State Fault Refusal := alu3 f x s (if f.v then funsR else funsL)
/-- BFE (R102). -/
def execBfe (f : FWord) (x : LExt) (s : State) : Host.Outcome State Fault Refusal := alu2 f (some x) s (bfeW f.v)
/-- BFI (R103). -/
def execBfi (f : FWord) (x : LExt) (s : State) : Host.Outcome State Fault Refusal := alu3 f x s bfiW
/-- POPC (R97). -/
def execPopc (f : FWord) (s : State) : Host.Outcome State Fault Refusal := alu1 f s popcW
/-- CLZ (R97). -/
def execClz (f : FWord) (s : State) : Host.Outcome State Fault Refusal := alu1 f s clzW
/-- BREV (R97). -/
def execBrev (f : FWord) (s : State) : Host.Outcome State Fault Refusal := alu1 f s brevW
/-- BPICK (R104). -/
def execBpick (f : FWord) (x : LExt) (s : State) : Host.Outcome State Fault Refusal := alu3 f x s (bpickW f.v)
/-- LEA (R105): V = 1 is .64, with pairs a and d. -/
def execLea (f : FWord) (x : LExt) (s : State) : Host.Outcome State Fault Refusal :=
  if f.v then
    alu { d := 2, a := 2, b := 1, den := true } f (some x) s (fun i =>
      { vals := split64 (w64 i.a + BitVec.ofNat 64 ((w32 i.b).toNat * 2 ^ x.xbits 0 5)) })
  else alu2 f (some x) s (fun a b => a + BitVec.ofNat 32 (b.toNat * 2 ^ x.xbits 0 5))
/-- PSET (R108). -/
def execPset (f : FWord) (s : State) : Host.Outcome State Fault Refusal :=
  let op := f.dHi
  let usesJ := decide (op ≤ 3)
  let usesK := decide (op ≤ 5)
  alu { den := true
        bad := decide (f.dLo ≥ 12) || (usesJ && decide (f.aLo ≥ 12)) || (usesK && decide (f.bLo ≥ 12))
        preds := [f.dLo] ++ (if usesJ then [f.aLo] else []) ++ (if usesK then [f.bLo] else []) } f none s (fun i =>
    { preds := [(f.dLo, psetW op (i.p.getLsbD f.aLo) (i.p.getLsbD f.bLo != f.v))] })
/-- PMOV (R109): V = 0 reads the predicate word, V = 1 writes the predicates that b selects. -/
def execPmov (f : FWord) (s : State) : Host.Outcome State Fault Refusal :=
  if f.v then
    alu { a := 1, b := 1, den := true, bad := decide (f.d.toNat ≠ opZero), preds := List.range 12 } f none s (fun i =>
      { preds := ((List.range 12).filter (fun k => (w32 i.b).getLsbD k)).map (fun k => (k, (w32 i.a).getLsbD k)) })
  else alu { d := 1, s := false, den := true, preds := List.range 12 } f none s (fun i => { vals := [i.p.zeroExtend 32] })

end Sys2Proof.Machine
end

