-- ==== Sys2Proof/Machine/Softfloat.lean ====
section
/-! DEFINITION. IEEE 754-2019 arithmetic as the manual uses it (R110 to R115): a value is unpacked to an exact dyadic number,
the operation is exact in the integers, and the result is rounded once. Roots and transcendental functions carry a fixed
number of extra bits and a sticky bit (log 9). -/

namespace Sys2Proof.Machine

/-- A format: exponent bits and fraction bits (R110). -/
structure Fmt where
  ew : Nat
  mw : Nat
  deriving DecidableEq, Repr

/-- FP32. -/
def fmt32 : Fmt := { ew := 8, mw := 23 }
/-- FP64. -/
def fmt64 : Fmt := { ew := 11, mw := 52 }
/-- FP16. -/
def fmt16 : Fmt := { ew := 5, mw := 10 }
/-- BF16. -/
def fmtB16 : Fmt := { ew := 8, mw := 7 }

/-- The exponent bias. -/
def Fmt.bias (k : Fmt) : Int := 2 ^ (k.ew - 1) - 1
/-- The exponent of the least significant bit of a subnormal. -/
def Fmt.qmin (k : Fmt) : Int := 1 - k.bias - k.mw
/-- The width. -/
def Fmt.width (k : Fmt) : Nat := 1 + k.ew + k.mw
/-- The pattern of +∞. -/
def Fmt.infBits (k : Fmt) : Nat := (2 ^ k.ew - 1) * 2 ^ k.mw
/-- The canonical NaN (R112). -/
def Fmt.nanBits (k : Fmt) : Nat := k.infBits + 2 ^ (k.mw - 1)
/-- The sign bit. -/
def Fmt.signBit (k : Fmt) (neg : Bool) : Nat := if neg then 2 ^ (k.ew + k.mw) else 0
/-- FTZ of a format (R113): 1 flushes. -/
def ftzOf (m : Word) (k : Fmt) : Bool :=
  if k = fmt64 then fpmFtz64 m else if k = fmt16 then fpmFtz16 m else fpmFtz32 m

/-- A value: NaN (signalling or not), infinity, or sign, integer significand and exponent of two; a significand of zero is a
signed zero. -/
inductive FVal where
  | nan (sig : Bool)
  | inf (neg : Bool)
  | fin (neg : Bool) (m : Nat) (e : Int)
  deriving DecidableEq, Repr

/-- The value of a pattern. -/
def unpackF (k : Fmt) (x : Nat) : FVal :=
  let neg := bitOf x (k.ew + k.mw)
  let ex := bitsOf x k.mw k.ew
  let fr := x % 2 ^ k.mw
  if ex = 2 ^ k.ew - 1 then (if fr = 0 then .inf neg else .nan (!bitOf x (k.mw - 1)))
  else if ex = 0 then .fin neg fr k.qmin
  else .fin neg (fr + 2 ^ k.mw) (k.qmin + (ex - 1 : Nat))

/-- A pattern is subnormal. -/
def isSubF (k : Fmt) (x : Nat) : Bool := decide (bitsOf x k.mw k.ew = 0) && decide (x % 2 ^ k.mw ≠ 0)

/-- The value of an operand, flushed where FTZ says so (R115). -/
def readF (k : Fmt) (ftz : Bool) (x : Nat) : FVal :=
  if ftz && isSubF k x then .fin (bitOf x (k.ew + k.mw)) 0 k.qmin else unpackF k x

/-- Bits of a positive number. -/
def bitLen (n : Nat) : Nat := if n = 0 then 0 else Nat.log2 n + 1

/-- `m · 2^e`, plus something below `2^e` where `sticky`, rounded to a multiple of `2^q` in a mode (R45: 0 to nearest even, 1
toward zero, 2 toward +∞, 3 toward −∞); the multiple, and whether it differs from the value. -/
def roundAt (rm : Nat) (neg : Bool) (m : Nat) (e : Int) (sticky : Bool) (q : Int) : Nat × Bool :=
  if q ≤ e then
    let n := m * 2 ^ (e - q).toNat
    let up := sticky && ((rm = 2 && !neg) || (rm = 3 && neg))
    (if up then n + 1 else n, sticky)
  else
    let sh := min (q - e).toNat (bitLen m + 2)
    let n := m / 2 ^ sh
    let rem := m % 2 ^ sh
    let half := 2 ^ (sh - 1)
    let inexact := rem ≠ 0 || sticky
    let up :=
      if rm = 0 then rem > half || (rem = half && (sticky || n % 2 = 1))
      else if rm = 1 then false
      else if rm = 2 then inexact && !neg
      else inexact && neg
    (if up then n + 1 else n, inexact)

/-- What an overflowing result becomes (R111). -/
def overflowBits (k : Fmt) (rm : Nat) (neg : Bool) : Nat :=
  let toInf := rm = 0 || (rm = 2 && !neg) || (rm = 3 && neg)
  k.signBit neg + (if toInf then k.infBits else k.infBits - 1)

/-- Round a non-zero exact value once to a format, with the exceptions of R111 and R114 and the flush of R115. -/
def roundPack (k : Fmt) (rm : Nat) (ftz : Bool) (neg : Bool) (m : Nat) (e : Int) (sticky : Bool) : Nat × Exc :=
  let ex : Int := e + (bitLen m : Int) - 1
  let (n0, _) := roundAt rm neg m e sticky (ex - k.mw)
  let exr := if n0 ≥ 2 ^ (k.mw + 1) then ex + 1 else ex
  if exr > k.bias then (overflowBits k rm neg, excOverflow ||| excInexact)
  else
    let q := max (ex - k.mw) k.qmin
    let (n, inexact) := roundAt rm neg m e sticky q
    let tiny := decide (exr < 1 - k.bias)
    let sub := decide (q = k.qmin) && decide (n < 2 ^ k.mw) && decide (n ≠ 0)
    if ftz && sub then (k.signBit neg, excUnderflow ||| excInexact)
    else
      (k.signBit neg + (q - k.qmin).toNat * 2 ^ k.mw + n,
       (if inexact then excInexact else excNone) ||| (if tiny && inexact then excUnderflow else excNone))

/-- A signed zero. -/
def zeroF (k : Fmt) (neg : Bool) : Nat × Exc := (k.signBit neg, excNone)
/-- A signed infinity. -/
def infF (k : Fmt) (neg : Bool) : Nat × Exc := (k.signBit neg + k.infBits, excNone)
/-- The canonical NaN, with invalid or not. -/
def nanF (k : Fmt) (invalid : Bool) : Nat × Exc := (k.nanBits, if invalid then excInvalid else excNone)

/-- Whether a value is a signalling NaN. -/
def FVal.isSig : FVal → Bool
  | .nan b => b
  | _ => false
/-- Whether a value is a NaN. -/
def FVal.isNan : FVal → Bool
  | .nan _ => true
  | _ => false
/-- The sign of a value; false for a NaN. -/
def FVal.neg : FVal → Bool
  | .nan _ => false
  | .inf b => b
  | .fin b _ _ => b
/-- The value with its sign inverted. -/
def FVal.negate : FVal → FVal
  | .nan b => .nan b
  | .inf b => .inf (!b)
  | .fin b m e => .fin (!b) m e

/-- An integer multiple of a power of two, rounded; an exact zero takes the sign `zneg`. -/
def roundInt (k : Fmt) (rm : Nat) (ftz : Bool) (x : Int) (e : Int) (zneg : Bool) : Nat × Exc :=
  if x = 0 then zeroF k zneg else roundPack k rm ftz (decide (x < 0)) x.natAbs e false

/-- A finite value as an integer multiple of `2^q`, with `q` at or below its exponent. -/
def scaleTo (neg : Bool) (m : Nat) (e q : Int) : Int :=
  let v : Int := (m * 2 ^ (e - q).toNat : Nat)
  if neg then -v else v

/-- The exact sum of two finite values, rounded (R111). -/
def addFin (k : Fmt) (rm : Nat) (ftz : Bool) (n1 : Bool) (m1 : Nat) (e1 : Int) (n2 : Bool) (m2 : Nat) (e2 : Int) : Nat × Exc :=
  if m1 = 0 && m2 = 0 then zeroF k (if n1 = n2 then n1 else rm = 3)
  else if m1 = 0 then roundPack k rm ftz n2 m2 e2 false
  else if m2 = 0 then roundPack k rm ftz n1 m1 e1 false
  else
    let q := min e1 e2
    roundInt k rm ftz (scaleTo n1 m1 e1 q + scaleTo n2 m2 e2 q) q (rm = 3)

/-- Sum (R120). -/
def addV (k : Fmt) (rm : Nat) (ftz : Bool) (a b : FVal) : Nat × Exc :=
  if a.isNan || b.isNan then nanF k (a.isSig || b.isSig)
  else match a, b with
    | .inf x, .inf y => if x = y then infF k x else nanF k true
    | .inf x, _ => infF k x
    | _, .inf y => infF k y
    | .fin n1 m1 e1, .fin n2 m2 e2 => addFin k rm ftz n1 m1 e1 n2 m2 e2
    | _, _ => nanF k false

/-- Product (R120). -/
def mulV (k : Fmt) (rm : Nat) (ftz : Bool) (a b : FVal) : Nat × Exc :=
  if a.isNan || b.isNan then nanF k (a.isSig || b.isSig)
  else match a, b with
    | .inf x, .inf y => infF k (x != y)
    | .inf x, .fin y m _ => if m = 0 then nanF k true else infF k (x != y)
    | .fin x m _, .inf y => if m = 0 then nanF k true else infF k (x != y)
    | .fin n1 m1 e1, .fin n2 m2 e2 =>
      if m1 = 0 || m2 = 0 then zeroF k (n1 != n2) else roundPack k rm ftz (n1 != n2) (m1 * m2) (e1 + e2) false
    | _, _ => nanF k false

/-- Whether a product is 0 × ∞. -/
def zeroTimesInf (a b : FVal) : Bool :=
  match a, b with
  | .inf _, .fin _ m _ => m = 0
  | .fin _ m _, .inf _ => m = 0
  | _, _ => false

/-- Fused multiply-add (R120): 0 × ∞ is invalid even beside a quiet NaN. -/
def fmaV (k : Fmt) (rm : Nat) (ftz : Bool) (a b c : FVal) : Nat × Exc :=
  if a.isNan || b.isNan || c.isNan || zeroTimesInf a b then
    nanF k (a.isSig || b.isSig || c.isSig || zeroTimesInf a b)
  else match a, b, c with
    | .fin n1 m1 e1, .fin n2 m2 e2, .fin n3 m3 e3 => addFin k rm ftz (n1 != n2) (m1 * m2) (e1 + e2) n3 m3 e3
    | .fin _ _ _, .fin _ _ _, .inf z => infF k z
    | x, y, .inf z => if (x.neg != y.neg) = z then infF k z else nanF k true
    | x, y, _ => infF k (x.neg != y.neg)

/-- The order of two values that are not NaNs, −0 equal to +0: −1, 0 or 1. -/
def cmpV (a b : FVal) : Int :=
  match a, b with
  | .inf x, .inf y => if x = y then 0 else if x then -1 else 1
  | .inf x, _ => if x then -1 else 1
  | _, .inf y => if y then 1 else -1
  | .fin n1 m1 e1, .fin n2 m2 e2 =>
    let q := min e1 e2
    let d := scaleTo n1 m1 e1 q - scaleTo n2 m2 e2 q
    if d < 0 then -1 else if d = 0 then 0 else 1
  | _, _ => 0

/-- A value written without rounding: results of FMIN and FMAX, flushed (R121). -/
def packV (k : Fmt) (ftz : Bool) : FVal → Nat × Exc
  | .nan _ => nanF k false
  | .inf x => infF k x
  | .fin neg m e => if m = 0 then zeroF k neg else roundPack k 0 ftz neg m e false

/-- minimumNumber or maximumNumber (R121): −0 counts as smaller than +0. -/
def minMaxV (k : Fmt) (ftz mx : Bool) (a b : FVal) : Nat × Exc :=
  let exc := if a.isSig || b.isSig then excInvalid else excNone
  if a.isNan && b.isNan then (k.nanBits, exc)
  else if a.isNan then ((packV k ftz b).1, exc)
  else if b.isNan then ((packV k ftz a).1, exc)
  else
    let c := cmpV a b
    let aFirst := if c = 0 then (a.neg || !b.neg) else decide (c < 0)
    ((packV k ftz (if aFirst != mx then a else b)).1, exc)

/-- Quotient (R127, R128). -/
def divV (k : Fmt) (rm : Nat) (ftz : Bool) (a b : FVal) : Nat × Exc :=
  if a.isNan || b.isNan then nanF k (a.isSig || b.isSig)
  else match a, b with
    | .inf _, .inf _ => nanF k true
    | .inf x, _ => infF k (x != b.neg)
    | _, .inf y => zeroF k (a.neg != y)
    | .fin n1 m1 e1, .fin n2 m2 e2 =>
      if m2 = 0 then (if m1 = 0 then nanF k true else ((infF k (n1 != n2)).1, excDivZero))
      else if m1 = 0 then zeroF k (n1 != n2)
      else
        let sh := bitLen m2 + k.mw + 4
        roundPack k rm ftz (n1 != n2) (m1 * 2 ^ sh / m2) (e1 - e2 - sh) (m1 * 2 ^ sh % m2 ≠ 0)
    | _, _ => nanF k false

/-- The integer square root, one bit at a time from bit `n - 1` down. -/
def isqrtFrom (x : Nat) : Nat → Nat → Nat
  | 0, r => r
  | n + 1, r => if (r + 2 ^ n) * (r + 2 ^ n) ≤ x then isqrtFrom x n (r + 2 ^ n) else isqrtFrom x n r
/-- The integer square root. -/
def isqrt (x : Nat) : Nat := isqrtFrom x (bitLen x / 2 + 1) 0

/-- Square root (R127, R128). -/
def sqrtV (k : Fmt) (ftz : Bool) (a : FVal) : Nat × Exc :=
  match a with
  | .nan s => nanF k s
  | .inf x => if x then nanF k true else infF k false
  | .fin neg m e =>
    if m = 0 then zeroF k neg else if neg then nanF k true
    else
      let m1 := if e % 2 = 0 then m else 2 * m
      let e1 := if e % 2 = 0 then e else e - 1
      let y := m1 * 2 ^ 64
      let r := isqrt y
      roundPack k 0 ftz false r (e1 / 2 - 32) (r * r ≠ y)

/-- 1 ÷ √a (R127, R128). -/
def rsqrtV (k : Fmt) (ftz : Bool) (a : FVal) : Nat × Exc :=
  match a with
  | .nan s => nanF k s
  | .inf x => if x then nanF k true else zeroF k false
  | .fin neg m e =>
    if m = 0 then ((infF k neg).1, excDivZero) else if neg then nanF k true
    else
      let m1 := if e % 2 = 0 then m else 2 * m
      let e1 := if e % 2 = 0 then e else e - 1
      let y := 2 ^ 160 / m1
      let r := isqrt y
      roundPack k 0 ftz false r (-(e1 / 2) - 80) (r * r * m1 ≠ 2 ^ 160)

/-! ## Transcendental functions, in fixed point with 320 fraction bits -/

/-- Fraction bits. -/
def fixBits : Nat := 320
/-- ⌊π · 2^320⌋. -/
def piFix : Nat := 6710401180212168915155840974220003240804194089427148950727106424351713218671805380099500388914039
/-- ⌊ln 2 · 2^320⌋. -/
def ln2Fix : Nat := 1480553391661173448385607439722553250922680800745876974795605978609098082859138712941075737848984

/-- The sum of `n` more terms of the exponential series: `term` is x^(k-1)/(k-1)!. -/
def expSum (x : Nat) : Nat → Nat → Nat → Nat
  | 0, _, _ => 0
  | n + 1, k, term => term + expSum x n (k + 1) (term * x / 2 ^ fixBits / k)
/-- e^x for x in [0, 1). -/
def expFix (x : Nat) : Nat := expSum x 72 1 (2 ^ fixBits)
/-- The sum of `n` more terms of atanh: `p` is y^j, with j odd. -/
def atanhSum (y2 : Nat) : Nat → Nat → Nat → Nat
  | 0, _, _ => 0
  | n + 1, j, p => p / j + atanhSum y2 n (j + 2) (p * y2 / 2 ^ fixBits)
/-- ln x for x in [1, 2), as 2 · atanh((x − 1) ÷ (x + 1)); x as a ratio n ÷ d. -/
def lnFix (n d : Nat) : Nat :=
  let y := (n - d) * 2 ^ fixBits / (n + d)
  2 * atanhSum (y * y / 2 ^ fixBits) 104 1 y
/-- The alternating sum of `n` more terms of the sine series: `term` is y^j ÷ j!, with j odd. -/
def sinSum (y2 : Nat) : Nat → Nat → Nat → Int
  | 0, _, _ => 0
  | n + 1, j, term => (term : Int) - sinSum y2 n (j + 2) (term * y2 / 2 ^ fixBits / ((j + 1) * (j + 2)))
/-- sin(π r) for r in [0, 1/2], r in fixed point. -/
def sinPiFix (r : Nat) : Nat :=
  let y := piFix * r / 2 ^ fixBits
  (sinSum (y * y / 2 ^ fixBits) 44 1 y).toNat

/-- 2^a (R127, R128). -/
def exp2V (k : Fmt) (ftz : Bool) (a : FVal) : Nat × Exc :=
  match a with
  | .nan s => nanF k s
  | .inf x => if x then zeroF k false else infF k false
  | .fin neg m e =>
    if m = 0 then roundPack k 0 ftz false 1 0 false
    else if e + bitLen m > 12 then roundPack k 0 ftz false 1 (if neg then -5000 else 5000) false
    else
      let v : Int := scaleTo neg m e (min e (-(fixBits : Int)))
      let den : Nat := 2 ^ (-(min e (-(fixBits : Int)))).toNat
      let n := v / den
      let f := (v % den).toNat
      if f = 0 then roundPack k 0 ftz false 1 n false
      else
        let x := f * ln2Fix / den
        roundPack k 0 ftz false (expFix x) (n - fixBits) true

/-- log₂ a (R127, R128). -/
def log2V (k : Fmt) (ftz : Bool) (a : FVal) : Nat × Exc :=
  match a with
  | .nan s => nanF k s
  | .inf x => if x then nanF k true else infF k false
  | .fin neg m e =>
    if m = 0 then ((infF k true).1, excDivZero) else if neg then nanF k true
    else
      let l := bitLen m - 1
      let ex : Int := e + l
      if m = 2 ^ l then roundInt k 0 ftz ex 0 false
      else
        let frac := lnFix m (2 ^ l) * 2 ^ fixBits / ln2Fix
        let v : Int := ex * (2 ^ fixBits : Nat) + frac
        roundPack k 0 ftz (decide (v < 0)) v.natAbs (-(fixBits : Int)) true

/-- sin(π · num ÷ den) for a value reduced to [0, 2), with the sign of an exact zero given (R128). -/
def sinPiQ (k : Fmt) (ftz : Bool) (num den : Nat) (flip zneg : Bool) : Nat × Exc :=
  let neg := num ≥ den
  let r := if num ≥ den then num - den else num
  let r1 := if 2 * r > den then den - r else r
  if r1 = 0 then zeroF k zneg
  else if 2 * r1 = den then roundPack k 0 ftz (neg != flip) 1 0 false
  else roundPack k 0 ftz (neg != flip) (sinPiFix (r1 * 2 ^ fixBits / den)) (-(fixBits : Int)) true

/-- sin(π a) (R127, R128). -/
def sinpV (k : Fmt) (ftz : Bool) (a : FVal) : Nat × Exc :=
  match a with
  | .nan s => nanF k s
  | .inf _ => nanF k true
  | .fin neg m e =>
    if m = 0 || e ≥ 0 then zeroF k neg
    else
      let den := 2 ^ (-e).toNat
      sinPiQ k ftz (m % (2 * den)) den neg neg

/-- cos(π a) = sin(π (|a| + ½)) (R127, R128). -/
def cospV (k : Fmt) (ftz : Bool) (a : FVal) : Nat × Exc :=
  match a with
  | .nan s => nanF k s
  | .inf _ => nanF k true
  | .fin _ m e =>
    if m = 0 then roundPack k 0 ftz false 1 0 false
    else if e ≥ 0 then roundPack k 0 ftz (decide (e = 0) && decide (m % 2 = 1)) 1 0 false
    else
      let den := 2 ^ (-e).toNat
      sinPiQ k ftz ((2 * (m % (2 * den)) + den) % (4 * den)) (2 * den) false false

/-! ## Integers and classes -/

/-- Rounded to an integer in a mode: the integer, and whether it differs (R124, R133). -/
def roundToInt (rm : Nat) (neg : Bool) (m : Nat) (e : Int) : Int × Bool :=
  let r := roundAt rm neg m e false 0
  (if neg then -(r.1 : Int) else r.1, r.2)

/-- FRND (R124): integral value in the same format, the sign kept, never inexact. -/
def frndV (k : Fmt) (rm : Nat) (ftz : Bool) (a : FVal) : Nat × Exc :=
  match a with
  | .nan s => nanF k s
  | .inf x => infF k x
  | .fin neg m e =>
    if m = 0 then zeroF k neg
    else if e ≥ 0 then packV k ftz a
    else
      let n := (roundAt rm neg m e false 0).1
      if n = 0 then zeroF k neg else ((roundPack k 0 ftz neg n 0 false).1, excNone)

/-- FCLASS (R125). -/
def classV (k : Fmt) (x : Nat) : Nat :=
  match unpackF k x with
  | .nan s => if s then 0x100 else 0x200
  | .inf neg => if neg then 1 else 0x80
  | .fin neg m _ =>
    if m = 0 then (if neg then 8 else 16)
    else if isSubF k x then (if neg then 4 else 32)
    else if neg then 2 else 64

/-- FSCL (R126): a × 2^n, rounded to nearest even. -/
def sclV (k : Fmt) (ftz : Bool) (a : FVal) (n : Int) : Nat × Exc :=
  match a with
  | .nan s => nanF k s
  | .inf x => infF k x
  | .fin neg m e => if m = 0 then zeroF k neg else roundPack k 0 ftz neg m (e + n) false

/-- The comparisons of FSET and DSET (R123): the result, and the exceptions. -/
def fcmpV (cc : Nat) (a b : FVal) : Bool × Exc :=
  let un := a.isNan || b.isNan
  let c := cmpV a b
  let quietBad := (2 ≤ cc && cc ≤ 5) || (10 ≤ cc && cc ≤ 13)
  let exc := if a.isSig || b.isSig || (un && quietBad) then excInvalid else excNone
  let r :=
    match cc with
    | 0 => !un && c == 0
    | 1 => !un && c != 0
    | 2 => !un && decide (c < 0)
    | 3 => !un && decide (c ≤ 0)
    | 4 => !un && decide (c > 0)
    | 5 => !un && decide (c ≥ 0)
    | 6 => !un
    | 7 => un
    | 8 => un || c == 0
    | 9 => un || c != 0
    | 10 => un || decide (c < 0)
    | 11 => un || decide (c ≤ 0)
    | 12 => un || decide (c > 0)
    | _ => un || decide (c ≥ 0)
  (r, exc)

/-- .sat of R120: NaN and −0 become +0, then the range +0 to 1.0. -/
def satBits (k : Fmt) (x : Nat) : Nat :=
  match unpackF k x with
  | .nan _ => 0
  | .inf neg => if neg then 0 else k.bias.toNat * 2 ^ k.mw
  | .fin neg m _ => if neg || m = 0 then 0 else min x (k.bias.toNat * 2 ^ k.mw)

/-- The FP format of a type code (R45): .f16, .bf16, .f32, .f64. -/
def fmtOfTy (t : Nat) : Fmt := if t = 0x0A then fmt16 else if t = 0x0B then fmtB16 else if t = 0x0D then fmt64 else fmt32
/-- Bits of an integer type code. -/
def intTyBits (t : Nat) : Nat := match t % 5 with | 0 => 8 | 1 => 16 | 2 => 32 | 3 => 64 | _ => 4
/-- A signed integer type code. -/
def intTySigned (t : Nat) : Bool := t ≤ 4
/-- The value of an integer operand of a type (R131). -/
def intTyVal (t x : Nat) : Int := if intTySigned t then signed (intTyBits t) x else (x % 2 ^ intTyBits t : Nat)

/-- CVTIF (R132). -/
def cvtifV (k : Fmt) (rm : Nat) (ftz : Bool) (x : Int) : Nat × Exc := roundInt k rm ftz x 0 false

/-- CVTFI (R133): the integer in the destination type, as a 64-bit two's complement pattern, and the exceptions. -/
def cvtfiV (rm t : Nat) (a : FVal) : Int × Exc :=
  let hi : Int := if intTySigned t then 2 ^ (intTyBits t - 1) - 1 else 2 ^ intTyBits t - 1
  let lo : Int := if intTySigned t then -2 ^ (intTyBits t - 1) else 0
  match a with
  | .nan _ => (0, excInvalid)
  | .inf neg => (if neg then lo else hi, excInvalid)
  | .fin neg m e =>
    if e > 1100 then (if neg then lo else hi, excInvalid) else
    let (n, inexact) := roundToInt rm neg m e
    if n < lo || n > hi then (clampTo lo hi n, excInvalid) else (n, if inexact then excInexact else excNone)

/-- CVTFF (R134). -/
def cvtffV (k : Fmt) (rm : Nat) (ftz : Bool) (a : FVal) : Nat × Exc :=
  match a with
  | .nan s => nanF k s
  | .inf x => infF k x
  | .fin neg m e => if m = 0 then zeroF k neg else roundPack k rm ftz neg m e false

/-- The exact sum of finite values as an integer multiple of `2^q`. -/
def sumTo (q : Int) (xs : List FVal) : Int :=
  xs.foldl (fun acc v => match v with | .fin neg m e => acc + scaleTo neg m e q | _ => acc) 0

end Sys2Proof.Machine
end

