-- ==== Sys2Proof/Machine/Float.lean ====
section
/-! DEFINITION. The floating-point and conversion instructions, 0x040 to 0x061 (R110 to R134). -/

namespace Sys2Proof.Machine

/-! ## Operands and results -/

/-- The FP32 value of a register, flushed under FTZ32 (R115). -/
def f32 (m : Word) (x : Word) : FVal := readF fmt32 (fpmFtz32 m) x.toNat
/-- The FP64 value of a pair, flushed under FTZ64. -/
def f64 (m : Word) (x : BitVec 64) : FVal := readF fmt64 (fpmFtz64 m) x.toNat
/-- Operand B of an FP32 instruction (R119): an F-form immediate is an integer, converted exactly. -/
def fpB (f : FWord) (x : Option LExt) (i : AluIn) : Word :=
  if f.i && x.isNone then BitVec.ofNat 32 (roundInt fmt32 0 false (w32 i.b).toInt 0 false).1 else w32 i.b
/-- A 32-bit result with its exceptions, clamped by .sat where `v` (R120). -/
def out32 (v : Bool) (r : Nat × Exc) : AluOut :=
  { vals := [BitVec.ofNat 32 (if v then satBits fmt32 r.1 else r.1)], exc := r.2 }
/-- A 64-bit result with its exceptions. -/
def out64 (r : Nat × Exc) : AluOut := { vals := split64 (BitVec.ofNat 64 r.1), exc := r.2 }
/-- The rounding mode of an instruction (R45, R111). -/
def rmOf (x : Option LExt) : Nat := match x with | some e => e.rnd | none => 0

/-- d ← op(a, b) in FP32. -/
def fp2 (f : FWord) (x : Option LExt) (s : State) (g : Nat → Bool → FVal → FVal → Nat × Exc) (lock : Bool := false) :
    Host.Outcome State Fault Refusal :=
  alu { d := 1, a := 1, b := 1, den := true, lock := lock } f x s (fun i =>
    out32 f.v (g (rmOf x) (fpmFtz32 i.fpm) (f32 i.fpm (w32 i.a)) (f32 i.fpm (fpB f x i))))
/-- d ← op(a) in FP32. (DEDUCED, log 9) -/
def fp1 (f : FWord) (s : State) (g : Bool → FVal → Nat × Exc) (lock : Bool := true) : Host.Outcome State Fault Refusal :=
  alu { d := 1, a := 1, den := true, lock := lock } f none s (fun i => out32 false (g (fpmFtz32 i.fpm) (f32 i.fpm (w32 i.a))))

/-! ## FP32 arithmetic -/

/-- FADD, F form (R120). -/
def execFaddF (f : FWord) (s : State) : Host.Outcome State Fault Refusal := fp2 f none s (addV fmt32)
/-- FADD, L form (R120). -/
def execFaddL (f : FWord) (x : LExt) (s : State) : Host.Outcome State Fault Refusal := fp2 f (some x) s (addV fmt32)
/-- The difference (R120). -/
def subV (k : Fmt) (rm : Nat) (ftz : Bool) (a b : FVal) : Nat × Exc := addV k rm ftz a b.negate
/-- FSUB, F form (R120). -/
def execFsubF (f : FWord) (s : State) : Host.Outcome State Fault Refusal := fp2 f none s (subV fmt32)
/-- FSUB, L form (R120). -/
def execFsubL (f : FWord) (x : LExt) (s : State) : Host.Outcome State Fault Refusal := fp2 f (some x) s (subV fmt32)
/-- FMUL, F form (R120). -/
def execFmulF (f : FWord) (s : State) : Host.Outcome State Fault Refusal := fp2 f none s (mulV fmt32)
/-- FMUL, L form (R120). -/
def execFmulL (f : FWord) (x : LExt) (s : State) : Host.Outcome State Fault Refusal := fp2 f (some x) s (mulV fmt32)
/-- FFMA, F form (R120): D is the addend. -/
def execFfmaF (f : FWord) (s : State) : Host.Outcome State Fault Refusal :=
  alu { d := 1, dr := 1, a := 1, b := 1, den := true } f none s (fun i =>
    out32 f.v (fmaV fmt32 0 (fpmFtz32 i.fpm) (f32 i.fpm (w32 i.a)) (f32 i.fpm (fpB f none i)) (f32 i.fpm (w32 i.d))))
/-- FFMA, L form (R120). -/
def execFfmaL (f : FWord) (x : LExt) (s : State) : Host.Outcome State Fault Refusal :=
  alu { d := 1, a := 1, b := 1, c := 1, den := true } f (some x) s (fun i =>
    out32 f.v (fmaV fmt32 x.rnd (fpmFtz32 i.fpm) (f32 i.fpm (w32 i.a)) (f32 i.fpm (fpB f (some x) i)) (f32 i.fpm (w32 i.c))))
/-- FMIN (R121). -/
def execFmin (f : FWord) (s : State) : Host.Outcome State Fault Refusal :=
  fp2 f none s (fun _ ftz a b => minMaxV fmt32 ftz false a b)
/-- FMAX (R121). -/
def execFmax (f : FWord) (s : State) : Host.Outcome State Fault Refusal :=
  fp2 f none s (fun _ ftz a b => minMaxV fmt32 ftz true a b)
/-- FSET (R123). -/
def fsetOut (f : FWord) (x : Option LExt) (i : AluIn) : AluOut :=
  let r := fcmpV f.dHi (f32 i.fpm (w32 i.a)) (f32 i.fpm (fpB f x i))
  { preds := [(f.dLo, if f.v then i.p.getLsbD f.dLo && r.1 else r.1)], exc := r.2 }
/-- FSET, F form (R123). -/
def execFsetF (f : FWord) (s : State) : Host.Outcome State Fault Refusal :=
  alu { a := 1, b := 1, den := true, bad := decide (f.dLo ≥ 12), preds := [f.dLo], pw := true } f none s (fsetOut f none)
/-- FSET, L form (R123). -/
def execFsetL (f : FWord) (x : LExt) (s : State) : Host.Outcome State Fault Refusal :=
  alu { a := 1, b := 1, den := true, bad := decide (f.dLo ≥ 12), preds := [f.dLo], pw := true } f (some x) s (fsetOut f (some x))
/-- |a| or −a (R122): not flushed; a NaN gives the canonical NaN (R112); no exception. -/
def signW (neg : Bool) (a : Word) : Word :=
  if (unpackF fmt32 a.toNat).isNan then BitVec.ofNat 32 fmt32.nanBits else if neg then a ^^^ 0x80000000 else a &&& 0x7FFFFFFF
/-- FABS (R122). -/
def execFabs (f : FWord) (s : State) : Host.Outcome State Fault Refusal := alu1 f s (signW false)
/-- FNEG (R122). -/
def execFneg (f : FWord) (s : State) : Host.Outcome State Fault Refusal := alu1 f s (signW true)
/-- FDIV, F form (R127). -/
def execFdivF (f : FWord) (s : State) : Host.Outcome State Fault Refusal := fp2 f none s (divV fmt32) true
/-- FDIV, L form (R127). -/
def execFdivL (f : FWord) (x : LExt) (s : State) : Host.Outcome State Fault Refusal := fp2 f (some x) s (divV fmt32) true
/-- FRCP (R127). -/
def execFrcp (f : FWord) (s : State) : Host.Outcome State Fault Refusal :=
  fp1 f s (fun ftz a => divV fmt32 0 ftz (.fin false 1 0) a)
/-- FRSQ (R127). -/
def execFrsq (f : FWord) (s : State) : Host.Outcome State Fault Refusal := fp1 f s (rsqrtV fmt32)
/-- FSQRT (R127). (DEDUCED, log 9) -/
def execFsqrt (f : FWord) (s : State) : Host.Outcome State Fault Refusal := fp1 f s (sqrtV fmt32)
/-- FEX2 (R127). -/
def execFex2 (f : FWord) (s : State) : Host.Outcome State Fault Refusal := fp1 f s (exp2V fmt32)
/-- FLG2 (R127). -/
def execFlg2 (f : FWord) (s : State) : Host.Outcome State Fault Refusal := fp1 f s (log2V fmt32)
/-- FSINP (R127). -/
def execFsinp (f : FWord) (s : State) : Host.Outcome State Fault Refusal := fp1 f s (sinpV fmt32)
/-- FCOSP (R127). -/
def execFcosp (f : FWord) (s : State) : Host.Outcome State Fault Refusal := fp1 f s (cospV fmt32)
/-- FRND (R124): the mode is B[1:0]. -/
def execFrnd (f : FWord) (s : State) : Host.Outcome State Fault Refusal := fp1 f s (frndV fmt32 (f.b.toNat % 4)) false
/-- FCLASS (R125). -/
def execFclass (f : FWord) (s : State) : Host.Outcome State Fault Refusal :=
  alu1 f s (fun a => BitVec.ofNat 32 (classV fmt32 a.toNat))
/-- FSCL (R126): b is an integer, an immediate too. -/
def execFscl (f : FWord) (s : State) : Host.Outcome State Fault Refusal :=
  alu { d := 1, a := 1, b := 1, den := true } f none s (fun i =>
    out32 false (sclV fmt32 (fpmFtz32 i.fpm) (f32 i.fpm (w32 i.a)) (w32 i.b).toInt))

/-! ## Packed 16-bit arithmetic -/

/-- The element format of a packed instruction (R129). -/
def pkFmt (v : Bool) : Fmt := if v then fmtB16 else fmt16
/-- Element `j` of a packed pair (R110). -/
def pkElem (k : Fmt) (m : Word) (x : Word) (j : Nat) : FVal := readF k (ftzOf m k) (bitsOf x.toNat (16 * j) 16)
/-- Both elements of a packed result. -/
def pkOut (g : Nat → Nat × Exc) : AluOut :=
  { vals := [BitVec.ofNat 32 ((g 0).1 + (g 1).1 * 65536)], exc := (g 0).2 ||| (g 1).2 }
/-- Per-element operation on a and b. -/
def pk2 (v : Bool) (m : Word) (g : Fmt → Bool → FVal → FVal → Nat × Exc) (a b : Word) : AluOut :=
  let k := pkFmt v
  pkOut (fun j => g k (ftzOf m k) (pkElem k m a j) (pkElem k m b j))
/-- Per-element a × b + c. -/
def pk3 (v : Bool) (m : Word) (rm : Nat) (a b c : Word) : AluOut :=
  let k := pkFmt v
  pkOut (fun j => fmaV k rm (ftzOf m k) (pkElem k m a j) (pkElem k m b j) (pkElem k m c j))
/-- d ← packed op(a, b). -/
def pkAlu (f : FWord) (s : State) (g : Fmt → Bool → FVal → FVal → Nat × Exc) : Host.Outcome State Fault Refusal :=
  alu { d := 1, a := 1, b := 1, den := true } f none s (fun i => pk2 f.v i.fpm g (w32 i.a) (w32 i.b))
/-- PKADD (R129). -/
def execPkadd (f : FWord) (s : State) : Host.Outcome State Fault Refusal := pkAlu f s (fun k ftz => addV k 0 ftz)
/-- PKMUL (R129). -/
def execPkmul (f : FWord) (s : State) : Host.Outcome State Fault Refusal := pkAlu f s (fun k ftz => mulV k 0 ftz)
/-- PKFMA, F form (R129): D is the addend. -/
def execPkfmaF (f : FWord) (s : State) : Host.Outcome State Fault Refusal :=
  alu { d := 1, dr := 1, a := 1, b := 1, den := true } f none s (fun i => pk3 f.v i.fpm 0 (w32 i.a) (w32 i.b) (w32 i.d))
/-- PKFMA, L form (R129). -/
def execPkfmaL (f : FWord) (x : LExt) (s : State) : Host.Outcome State Fault Refusal :=
  alu { d := 1, a := 1, b := 1, c := 1, den := true } f (some x) s (fun i => pk3 f.v i.fpm x.rnd (w32 i.a) (w32 i.b) (w32 i.c))
/-- PKMIN (R129). -/
def execPkmin (f : FWord) (s : State) : Host.Outcome State Fault Refusal := pkAlu f s (fun k ftz => minMaxV k ftz false)
/-- PKMAX (R129). -/
def execPkmax (f : FWord) (s : State) : Host.Outcome State Fault Refusal := pkAlu f s (fun k ftz => minMaxV k ftz true)

/-! ## FP64 -/

/-- d ← op(a, b) in FP64 (R130). -/
def dp2 (f : FWord) (s : State) (g : Bool → FVal → FVal → Nat × Exc) : Host.Outcome State Fault Refusal :=
  alu { d := 2, a := 2, b := 2, den := true, feat := some 0, lock := true } f none s (fun i =>
    out64 (g (fpmFtz64 i.fpm) (f64 i.fpm (w64 i.a)) (f64 i.fpm (w64 i.b))))
/-- DADD (R130). -/
def execDadd (f : FWord) (s : State) : Host.Outcome State Fault Refusal := dp2 f s (addV fmt64 0)
/-- DMUL (R130). -/
def execDmul (f : FWord) (s : State) : Host.Outcome State Fault Refusal := dp2 f s (mulV fmt64 0)
/-- DFMA, F form (R130): the D pair is the addend. -/
def execDfmaF (f : FWord) (s : State) : Host.Outcome State Fault Refusal :=
  alu { d := 2, dr := 2, a := 2, b := 2, den := true, feat := some 0, lock := true } f none s (fun i =>
    out64 (fmaV fmt64 0 (fpmFtz64 i.fpm) (f64 i.fpm (w64 i.a)) (f64 i.fpm (w64 i.b)) (f64 i.fpm (w64 i.d))))
/-- DFMA, L form (R130). -/
def execDfmaL (f : FWord) (x : LExt) (s : State) : Host.Outcome State Fault Refusal :=
  alu { d := 2, a := 2, b := 2, c := 2, den := true, feat := some 0, lock := true } f (some x) s (fun i =>
    out64 (fmaV fmt64 x.rnd (fpmFtz64 i.fpm) (f64 i.fpm (w64 i.a)) (f64 i.fpm (w64 i.b)) (f64 i.fpm (w64 i.c))))
/-- DMIN (R130). -/
def execDmin (f : FWord) (s : State) : Host.Outcome State Fault Refusal := dp2 f s (fun ftz => minMaxV fmt64 ftz false)
/-- DMAX (R130). -/
def execDmax (f : FWord) (s : State) : Host.Outcome State Fault Refusal := dp2 f s (fun ftz => minMaxV fmt64 ftz true)
/-- DSET (R130). -/
def execDset (f : FWord) (s : State) : Host.Outcome State Fault Refusal :=
  alu { a := 2, b := 2, den := true, feat := some 0, lock := true, bad := decide (f.dLo ≥ 12), preds := [f.dLo], pw := true } f none s (fun i =>
    let r := fcmpV f.dHi (f64 i.fpm (w64 i.a)) (f64 i.fpm (w64 i.b))
    { preds := [(f.dLo, if f.v then i.p.getLsbD f.dLo && r.1 else r.1)], exc := r.2 })

/-! ## Conversions -/

/-- Registers of an operand of a type (R131). -/
def tyRegs (t : Nat) : Nat := if t = 3 || t = 8 || t = 13 then 2 else 1
/-- How a conversion uses its operands: disabled without FP64 when either type is .f64 (R2, R134). -/
def cvtUse (x : LExt) : Use :=
  { d := tyRegs x.ty8, a := tyRegs x.ty16, den := true, lock := decide (x.ty8 = 13 ∨ x.ty16 = 13), feat := if x.ty8 = 13 || x.ty16 = 13 then some 0 else none }
/-- A result placed in the registers of its type. -/
def placeTy (t : Nat) (n : Nat) : List Word :=
  if tyRegs t = 2 then split64 (BitVec.ofNat 64 n) else [BitVec.ofNat 32 n]
/-- A float operand of a type, flushed by its format's FTZ bit (R115). -/
def floatTy (m : Word) (t : Nat) (xs : List Word) : FVal :=
  let k := fmtOfTy t
  readF k (ftzOf m k) ((w64 xs).toNat % 2 ^ k.width)
/-- CVTIF (R132). -/
def cvtifOut (rm dt st : Nat) (m : Word) (xs : List Word) : AluOut :=
  let k := fmtOfTy dt
  let r := cvtifV k rm (ftzOf m k) (intTyVal st (w64 xs).toNat)
  { vals := placeTy dt r.1, exc := r.2 }
/-- CVTFI (R133). -/
def cvtfiOut (rm dt st : Nat) (m : Word) (xs : List Word) : AluOut :=
  let r := cvtfiV rm dt (floatTy m st xs)
  { vals := placeTy dt (wrapTo (32 * tyRegs dt) r.1), exc := r.2 }
/-- CVTIF (R132). -/
def execCvtif (f : FWord) (x : LExt) (s : State) : Host.Outcome State Fault Refusal :=
  alu (cvtUse x) f (some x) s (fun i => cvtifOut x.rnd x.ty8 x.ty16 i.fpm i.a)
/-- CVTFI (R133). -/
def execCvtfi (f : FWord) (x : LExt) (s : State) : Host.Outcome State Fault Refusal :=
  alu (cvtUse x) f (some x) s (fun i => cvtfiOut x.rnd x.ty8 x.ty16 i.fpm i.a)
/-- CVTFF (R134). -/
def execCvtff (f : FWord) (x : LExt) (s : State) : Host.Outcome State Fault Refusal :=
  alu (cvtUse x) f (some x) s (fun i =>
    let k := fmtOfTy x.ty8
    let r := cvtffV k x.rnd (ftzOf i.fpm k) (floatTy i.fpm x.ty16 i.a)
    { vals := placeTy x.ty8 r.1, exc := r.2 })

/-! ## The P word -/

/-- The result of a pair code on its two operands (R49): none for the pair NOP. -/
def pairVal (code : Nat) (m d s : Word) : Option (Word × Exc) :=
  let ok (x : Word) : Option (Word × Exc) := some (x, excNone)
  let fp (r : Nat × Exc) : Option (Word × Exc) := some (BitVec.ofNat 32 r.1, r.2)
  let pk (o : AluOut) : Option (Word × Exc) := some (w32 o.vals, o.exc)
  let z := fpmFtz32 m
  match code with
  | 0x00 => ok s
  | 0x01 => ok (d + s)
  | 0x02 => ok (d - s)
  | 0x03 => ok (d * s)
  | 0x04 => ok (minW false d s)
  | 0x05 => ok (maxW false d s)
  | 0x06 => ok (d &&& s)
  | 0x07 => ok (d ||| s)
  | 0x08 => ok (d ^^^ s)
  | 0x09 => ok (d &&& ~~~s)
  | 0x0A => ok (~~~s)
  | 0x0B => ok (shlW d s)
  | 0x0C => ok (shrW d s)
  | 0x0D => fp (addV fmt32 0 z (f32 m d) (f32 m s))
  | 0x0E => fp (subV fmt32 0 z (f32 m d) (f32 m s))
  | 0x0F => fp (mulV fmt32 0 z (f32 m d) (f32 m s))
  | 0x10 => fp (minMaxV fmt32 z false (f32 m d) (f32 m s))
  | 0x11 => fp (minMaxV fmt32 z true (f32 m d) (f32 m s))
  | 0x12 => ok (signW false s)
  | 0x13 => ok (signW true s)
  | 0x14 => pk (pk2 false m (fun k ftz => addV k 0 ftz) d s)
  | 0x15 => pk (pk2 false m (fun k ftz => mulV k 0 ftz) d s)
  | 0x16 => pk (pk2 false m (fun k ftz => minMaxV k ftz false) d s)
  | 0x17 => pk (pk2 false m (fun k ftz => minMaxV k ftz true) d s)
  | 0x18 => pk (cvtifOut 0 12 2 m [s])
  | 0x19 => ok (sarW d s)
  | 0x1A => pk (cvtfiOut 1 2 12 m [s])
  | _ => none

/-- One half: pair code, destination and first source, second source. -/
structure Half where
  code : Nat
  d : Nat
  s : Nat
/-- The X half of a P word. -/
def halfX (p : PWord) : Half := { code := p.xop.toNat, d := p.xd.toNat, s := p.xs.toNat }
/-- The Y half of a P word. -/
def halfY (p : PWord) : Half := { code := p.yop.toNat, d := p.yd.toNat, s := p.ys.toNat }
/-- The registers a half names; the pair NOP uses no field, so neither its parity nor the .regs maximum is tested (R41). (DESIGN CHOICE, log 93) -/
def Half.regs (h : Half) : List Nat := if h.code = 0x7F then [] else [h.d, h.s]

/-- What a P word needs to issue (R48, R72): register parity 0x07, the .regs maximum 0x0B. -/
def pairSpec (p : PWord) (c : Ctx) : Spec :=
  let xr := (halfX p).regs
  let yr := (halfY p).regs
  { q := schedP p
    den := true
    cause := if (schedP p).bad || xr.any (fun r => r % 2 = 1) || yr.any (fun r => r % 2 = 0) then some 0x07
      else if (xr ++ yr).any (fun r => decide (r ≥ c.l.pkt.regmax)) then some 0x0B else none
    named := xr ++ yr
    dests := (if xr.isEmpty then [] else [(halfX p).d]) ++ (if yr.isEmpty then [] else [(halfY p).d]) }

/-- The result of a half for one thread. -/
def halfOut (s : State) (c : Ctx) (ts : List Nat) (h : Half) (t : Nat) : Option (Word × Exc) :=
  if h.code = 0x7F then none
  else pairVal h.code c.w.fpm (readV s c.w c.den ts t h.d) (readV s c.w c.den ts t h.s)
/-- The exceptions of a half. -/
def halfExc (r : Option (Word × Exc)) : Exc := match r with | some e => e.2 | none => 0

/-- PAIR_WORD (R47 to R50): both halves read before either writes; an enabled exception is delivered after both have written,
with %faddr naming the halves that signalled its cause. -/
def execPairWord (p : PWord) (s : State) : Host.Outcome State Fault Refusal :=
  issueWith s (pairSpec p) (fun c tids =>
    let hx := halfX p
    let hy := halfY p
    let outs := tids.map (fun t => (t, halfOut s c tids hx t, halfOut s c tids hy t))
    let exc := outs.foldl (fun e o => e ||| halfExc o.2.1 ||| halfExc o.2.2) (0 : Exc)
    let w1 := outs.foldl (fun w o =>
      let w2 := match o.2.1 with | some r => writeV w c.den tids o.1 hx.d r.1 | none => w
      match o.2.2 with | some r => writeV w2 c.den tids o.1 hy.d r.1 | none => w2) { c.w with fpm := fpmAccrue c.w.fpm exc }
    let s1 := finish s c tids (schedP p) w1
    match excCause (excEnabled c.w.fpm exc) with
    | none => s1
    | some k =>
      let b := k - 0x40
      let xs := outs.filter (fun o => (halfExc o.2.1).getLsbD b)
      let ys := outs.filter (fun o => (halfExc o.2.2).getLsbD b)
      let bad := (outs.filter (fun o => (halfExc o.2.1).getLsbD b || (halfExc o.2.2).getLsbD b)).map (·.1)
      raiseAfter s1 c { cause := k, tids := bad, faddr := (if xs.isEmpty then 0 else 1) + (if ys.isEmpty then 0 else 2) })

end Sys2Proof.Machine
end

