-- ==== Sys2Proof/Machine/Narrow.lean ====
section
/-! DEFINITION. The narrow formats and the instructions 0x080 to 0x089 (R135 to R148): dot products, quantisation,
dequantisation and scales. NRSCL and NRSUM are in Machine/Collective.lean. -/

namespace Sys2Proof.Machine

/-! ## Formats -/

/-- A narrow floating-point format by type code: F8A, F8B or F4 (R135). -/
def narrowFmt (ty : Nat) : Fmt := if ty = 0x0E then { ew := 4, mw := 3 } else if ty = 0x0F then { ew := 5, mw := 2 } else { ew := 2, mw := 1 }
/-- A narrow type that is an integer type. -/
def narrowInt (ty : Nat) : Bool := ty == 0 || ty == 5 || ty == 4 || ty == 9
/-- Bits of an element. -/
def narrowBits (ty : Nat) : Nat := if ty = 0x0E || ty = 0x0F || ty = 0 || ty = 5 then 8 else 4
/-- The largest finite value of a narrow type, as significand and exponent (R135). -/
def narrowMax (ty : Nat) : Nat × Int :=
  match ty with
  | 0x0E => (14, 5)
  | 0x0F => (7, 13)
  | 0x10 => (3, 1)
  | 0 => (127, 0)
  | 5 => (255, 0)
  | 4 => (7, 0)
  | _ => (15, 0)
/-- The encoding of the largest finite value of a floating-point narrow type. -/
def narrowMaxBits (ty : Nat) : Nat := if ty = 0x0E then 0x7E else if ty = 0x0F then 0x7B else 7
/-- The element that a NaN becomes (R146). -/
def narrowNan (ty : Nat) : Nat := if ty = 0x0E then 0x7F else if ty = 0x0F then 0x7E else 0
/-- The value of an element (R135). -/
def narrowVal (ty x : Nat) : FVal :=
  if narrowInt ty then
    let v := if ty = 0 || ty = 4 then signed (narrowBits ty) x else (x % 2 ^ narrowBits ty : Nat)
    .fin (decide (v < 0)) v.natAbs 0
  else
    let k := narrowFmt ty
    let neg := bitOf x (k.ew + k.mw)
    let ex := bitsOf x k.mw k.ew
    let fr := x % 2 ^ k.mw
    if ty = 0x0E && ex = 15 && fr = 7 then .nan false
    else if ty = 0x0F && ex = 31 then (if fr = 0 then .inf neg else .nan false)
    else if ex = 0 then .fin neg fr k.qmin
    else .fin neg (fr + 2 ^ k.mw) (k.qmin + (ex - 1 : Nat))
/-- Element `i` of a packed register (R136). -/
def narrowElem (ty : Nat) (x : Word) (i : Nat) : FVal := narrowVal ty (bitsOf x.toNat (narrowBits ty * i) (narrowBits ty))

/-- One element of a quantised register: its encoding, its exceptions, and whether it is a narrow overflow. -/
structure NarrowOut where
  bits : Nat
  exc : Exc
  ovf : Bool

/-- What an element overflow becomes (R145). -/
def narrowOver (ty rm : Nat) (sat neg : Bool) : NarrowOut :=
  let exc := if sat then excInexact else excOverflow ||| excInexact
  let sb := if neg then 2 ^ (narrowBits ty - 1) else 0
  let toInf := rm = 0 || (rm = 2 && !neg) || (rm = 3 && neg)
  let bits :=
    if narrowInt ty then
      (if neg then (if ty = 0 || ty = 4 then 2 ^ (narrowBits ty - 1) else 0) else (narrowMax ty).1)
    else if sat || ty = 0x10 || !toInf then sb + narrowMaxBits ty
    else if ty = 0x0E then 0x7F
    else sb + 0x7C
  { bits := bits, exc := exc, ovf := !sat }

/-- narrow_round of R145 on a finite value. -/
def narrowRound (ty rm : Nat) (sat neg : Bool) (m : Nat) (e : Int) : NarrowOut :=
  if narrowInt ty then
    if m = 0 then { bits := 0, exc := excNone, ovf := false }
    else if e + bitLen m > 40 then narrowOver ty rm sat neg
    else
      let (n, inexact) := roundToInt rm neg m e
      let hi : Int := (narrowMax ty).1
      let lo : Int := if ty = 0 || ty = 4 then -hi - 1 else 0
      if n < lo || n > hi then narrowOver ty rm sat (decide (n < lo))
      else { bits := wrapTo (narrowBits ty) n, exc := if inexact then excInexact else excNone, ovf := false }
  else
    let k := narrowFmt ty
    if m = 0 then { bits := k.signBit neg, exc := excNone, ovf := false }
    else
      let ex : Int := e + (bitLen m : Int) - 1
      let n0 := (roundAt rm neg m e false (ex - k.mw)).1
      let exr := if n0 ≥ 2 ^ (k.mw + 1) then ex + 1 else ex
      let (mm, me) := narrowMax ty
      let beyond := decide (exr > me + (bitLen mm : Int) - 1) ||
        (decide (exr = me + (bitLen mm : Int) - 1) && decide (n0 < 2 ^ (k.mw + 1)) && decide (n0 > mm * 2 ^ (k.mw + 1 - bitLen mm)))
      if beyond then narrowOver ty rm sat neg
      else
        let q := max (ex - k.mw) k.qmin
        let (n, inexact) := roundAt rm neg m e false q
        { bits := k.signBit neg + (q - k.qmin).toNat * 2 ^ k.mw + n
          exc := (if inexact then excInexact else excNone) |||
            (if inexact && decide (exr < 1 - k.bias) then excUnderflow else excNone)
          ovf := false }

/-- One source element scaled by 2^n and quantised (R144 to R146). -/
def quantElem (ty rm : Nat) (sat : Bool) (n : Int) (x : FVal) : NarrowOut :=
  match x with
  | .nan sig =>
    { bits := narrowNan ty, exc := if sig || ty = 0x10 || narrowInt ty then excInvalid else excNone, ovf := false }
  | .inf neg => narrowOver ty rm sat neg
  | .fin neg m e => narrowRound ty rm sat neg m (e + n)

/-- A packed register from its elements (R136). -/
def packElems (bits : Nat) : List Nat → Nat
  | [] => 0
  | x :: xs => x % 2 ^ bits + 2 ^ bits * packElems bits xs

/-! ## Exact sums -/

/-- The finite terms of a sum, scaled to the least exponent and added. -/
def sumInts (q : Int) : List FVal → Int
  | [] => 0
  | .fin neg m e :: xs => scaleTo neg m e q + sumInts q xs
  | _ :: xs => sumInts q xs
/-- The least exponent among non-zero finite terms. -/
def leastExp (xs : List FVal) : Option Int :=
  xs.foldl (fun acc x => match x, acc with
    | .fin _ 0 _, a => a
    | .fin _ _ e, none => some e
    | .fin _ _ e, some q => some (min e q)
    | _, a => a) none
/-- The exact product of two values; NaN where 0 × ∞. -/
def prodV (a b : FVal) : FVal :=
  if a.isNan || b.isNan || zeroTimesInf a b then .nan false
  else match a, b with
    | .fin n1 m1 e1, .fin n2 m2 e2 => .fin (n1 != n2) (m1 * m2) (e1 + e2)
    | x, y => .inf (x.neg != y.neg)
/-- A value's infinite sign. -/
def FVal.isInf (neg : Bool) : FVal → Bool
  | .inf b => b == neg
  | _ => false

/-- An exact sum of values, none a NaN and no two infinities of opposite signs, rounded once to nearest even to FP32 (R111,
R142): a zero sum of no non-zero terms keeps the sign that all terms share, else it is +0. -/
def sumRound (ftz : Bool) (xs : List FVal) : Nat × Exc :=
  if xs.any (FVal.isInf false) then infF fmt32 false
  else if xs.any (FVal.isInf true) then infF fmt32 true
  else match leastExp xs with
    | none => zeroF fmt32 (xs.all FVal.neg)
    | some q =>
      let live := xs.filter (fun x => match x with | .fin _ 0 _ => false | _ => true)
      roundInt fmt32 0 ftz (sumInts q live) q false

/-- The dot product of R142. -/
def dotF (ftz : Bool) (z : FVal) (as bs : List FVal) : Nat × Exc :=
  let ps := (as.zip bs).map (fun p => prodV p.1 p.2)
  let bad := (as.zip bs).any (fun p => zeroTimesInf p.1 p.2)
  let opp := (z :: ps).any (FVal.isInf false) && (z :: ps).any (FVal.isInf true)
  let sig := z.isSig || as.any FVal.isSig || bs.any FVal.isSig
  if z.isNan || ps.any FVal.isNan || opp then nanF fmt32 (bad || opp || sig)
  else sumRound ftz (z :: ps)

/-! ## Dot products -/

/-- How a dot product uses its operands (R141). -/
def dotUse : Use := { d := 1, dr := 1, a := 1, b := 1, den := true }
/-- The integer dot product of R143. -/
def dotInt (ty n : Nat) (sat : Bool) (d a b : Word) : AluOut :=
  let term (i : Nat) : Int := signed (narrowBits ty) (bitsOf a.toNat (narrowBits ty * i) (narrowBits ty)) *
    signed (narrowBits ty) (bitsOf b.toNat (narrowBits ty * i) (narrowBits ty))
  let y := (List.range n).foldl (fun acc i => acc + term i) d.toInt
  { vals := [BitVec.ofInt 32 (if sat then clampTo (-2 ^ 31) (2 ^ 31 - 1) y else y)]
    novf := !sat && (decide (y < -2 ^ 31) || decide (y > 2 ^ 31 - 1)) }
/-- A dot product of narrow floating-point elements. -/
def dotNarrow (ty n : Nat) (i : AluIn) : AluOut :=
  let es (x : Word) := (List.range n).map (narrowElem ty x)
  out32 false (dotF (fpmFtz32 i.fpm) (f32 i.fpm (w32 i.d)) (es (w32 i.a)) (es (w32 i.b)))
/-- DP4I8 (R143). -/
def execDp4i8 (f : FWord) (s : State) : Host.Outcome State Fault Refusal :=
  alu dotUse f none s (fun i => dotInt 0 4 f.v (w32 i.d) (w32 i.a) (w32 i.b))
/-- DP8I4 (R143). -/
def execDp8i4 (f : FWord) (s : State) : Host.Outcome State Fault Refusal :=
  alu dotUse f none s (fun i => dotInt 4 8 f.v (w32 i.d) (w32 i.a) (w32 i.b))
/-- DP4F8 (R141, R142). -/
def execDp4f8 (f : FWord) (s : State) : Host.Outcome State Fault Refusal :=
  alu dotUse f none s (dotNarrow (if f.v then 0x0F else 0x0E) 4)
/-- DP8F4 (R142). -/
def execDp8f4 (f : FWord) (s : State) : Host.Outcome State Fault Refusal := alu dotUse f none s (dotNarrow 0x10 8)
/-- DP2BF (R142): elements are flushed under FTZ32. -/
def execDp2bf (f : FWord) (s : State) : Host.Outcome State Fault Refusal :=
  alu dotUse f none s (fun i =>
    let es (x : Word) := (List.range 2).map (pkElem fmtB16 i.fpm x)
    out32 false (dotF (fpmFtz32 i.fpm) (f32 i.fpm (w32 i.d)) (es (w32 i.a)) (es (w32 i.b))))

/-! ## Quantisation -/

/-- Quantise `n` registers (R144). -/
def quantOut (ty rm : Nat) (sat : Bool) (i : AluIn) : AluOut :=
  let k := (w32 i.b).toInt
  let es := i.a.map (fun x => quantElem ty rm sat k (f32 i.fpm x))
  { vals := [BitVec.ofNat 32 (packElems (narrowBits ty) (es.map (·.bits)))]
    exc := es.foldl (fun e o => e ||| o.exc) 0
    novf := es.any (·.ovf) }
/-- QNT8 (R144). -/
def execQnt8 (f : FWord) (x : LExt) (s : State) : Host.Outcome State Fault Refusal :=
  alu { d := 1, a := 4, b := 1, zero := false, den := true, lock := true } f (some x) s (quantOut x.ty8 x.rnd f.v)
/-- QNT4 (R144). -/
def execQnt4 (f : FWord) (x : LExt) (s : State) : Host.Outcome State Fault Refusal :=
  alu { d := 1, a := 8, b := 1, zero := false, den := true, lock := true } f (some x) s (quantOut x.ty8 x.rnd f.v)
/-- Dequantise into `n` registers (R147). -/
def dequantOut (ty rm n : Nat) (i : AluIn) : AluOut :=
  let y := f32 i.fpm (w32 i.b)
  let rs := (List.range n).map (fun j => mulV fmt32 rm (fpmFtz32 i.fpm) (narrowElem ty (w32 i.a) j) y)
  { vals := rs.map (fun r => BitVec.ofNat 32 r.1), exc := rs.foldl (fun e r => e ||| r.2) 0 }
/-- DQ8 (R147): the code zero names no group of four. (DEDUCED, log 17) -/
def execDq8 (f : FWord) (x : LExt) (s : State) : Host.Outcome State Fault Refusal :=
  alu { d := 4, a := 1, b := 1, zero := false, den := true, lock := true } f (some x) s (dequantOut x.ty16 x.rnd 4)
/-- DQ4 (R147): the code zero names no group of eight. (DEDUCED, log 17) -/
def execDq4 (f : FWord) (x : LExt) (s : State) : Host.Outcome State Fault Refusal :=
  alu { d := 8, a := 1, b := 1, zero := false, den := true, lock := true } f (some x) s (dequantOut x.ty16 x.rnd 8)

/-! ## Scale from a row maximum -/

/-- The exponent of R148 for a finite non-zero magnitude m · 2^e. -/
def scaleExp (ty m : Nat) (e : Int) : Int :=
  let (mm, me) := narrowMax ty
  let k := me + (bitLen mm : Int) - (e + bitLen m)
  let q := min (e + k) me
  let k1 := if scaleTo false m (e + k) q ≤ scaleTo false mm me q then k else k - 1
  min k1 127
/-- SCLE (R148): `exp` gives the integer exponent. -/
def scleOut (ty : Nat) (exp : Bool) (m a : Word) : AluOut :=
  let give (k : Int) : AluOut :=
    { vals := [if exp then BitVec.ofInt 32 k else BitVec.ofNat 32 ((k + 127).toNat * 2 ^ 23)] }
  match f32 m a with
  | .fin _ n e => if n = 0 then give 0 else give (scaleExp ty n e)
  | _ => { vals := [if exp then 0 else BitVec.ofNat 32 fmt32.nanBits], exc := excInvalid }
/-- SCLE (R148). -/
def execScle (f : FWord) (x : LExt) (s : State) : Host.Outcome State Fault Refusal :=
  alu { d := 1, a := 1, den := true } f (some x) s (fun i => scleOut x.ty8 f.v i.fpm (w32 i.a))

end Sys2Proof.Machine
end

