-- ==== Sys2Proof/Machine/Matrix.lean ====
section
/-! DEFINITION. The matrix engine (R155 to R180): the collective issue of its instructions, its queue, the format word, the
operand layouts, and the steps the engine performs. -/

namespace Sys2Proof.Machine

/-! ## Collective issue -/

/-- The stall code of a collective instruction that waits for threads of its warp; it is no code of R451. -/
def collCode : Nat := 16
/-- Whether a thread elsewhere makes a collective instruction raise 0x08 (R159): held by a handler, or blocked at a barrier, a
burrow, an edge, or a different collective or matrix instruction. -/
def collBlocked (t : Thread) : Bool :=
  decide (t.held ≠ 0) ||
  (match t.st with
    | .barrier _ _ _ => true
    | .burrow _ _ => true
    | .retry k => k == 4 || k == 5 || k == 8 || k == 11 || k == collCode
    | _ => false)
/-- The threads of a warp that a collective instruction waits for or complains of. -/
def collOthers (w : Warp) (tids : List Nat) : List Nat := (aliveTids w).filter (fun t => !tids.contains t)
/-- Whether cause 0x08 holds (R159). -/
def collPartial (c : Ctx) (tids : List Nat) : Bool :=
  c.grp.any (fun t => !tids.contains t) || c.w.threads.any (fun t => t.st != .exited && !tids.contains t.tid && collBlocked t)

/-- Issue a collective instruction of R159. `busy` says that it needs a place in the matrix queue (R155). Where no thread passes the guard, a
group of R72 is skipped (R383), and any other raises 0x08. -/
def issueColl (busy : Bool) (s : State) (spec : Ctx → List Nat → Spec) (body : Ctx → List Nat → State) :
    Host.Outcome State Fault Refusal :=
  match ctxOf s with
  | none => .fault .noContext
  | some c0 =>
    let c := startPass c0
    let sp0 := spec c c.grp
    let tids := issuing s c sp0.q
    let sp := spec c tids
    if c.grp.isEmpty then .next (stall s c 0)
    else if !gateOpen s c (c.sched sp.q) then .next (stall s c 0)
    else if tids.isEmpty && sp.cause.isSome then .next (finish s c [] sp.q c.w)
    else if c.den.isSome then .next (modWarp s c.w.name (fun w => askRecall w c.grp))
    else if sp.named.any (fun r => (recorded s c.w c.w.depth).contains r) then .next (stall s c 0)
    else
      let bad := collPartial c tids
      let others := collOthers c.w tids
      if !bad && !others.isEmpty then
        .next (modWarp (stall s c collCode) c.w.name (fun w => askRecall w (ejectedTids w)))
      else if busy && decide (c.w.mq.length ≥ 8) then .next (stall s c 11)
      else match sp.cause with
        | some k => .next (raise s c { cause := k, tids := tids })
        | none =>
          if bad then .next (raise s c { cause := 8, tids := if tids.isEmpty then c.grp else tids, ewmask := some (maskOf others) })
          else if poolOk s c.w sp.dests then .next (body c tids) else .next (stall s c 3)

/-- The Spec of a matrix instruction: its own test of operands, and the registers it names. -/
def matSpec (f : FWord) (bad : Bool) (named dests : List Nat) (c : Ctx) : Spec :=
  { q := schedF f
    den := false
    cause := if (schedF f).bad || bad then some 0x07
      else if (named ++ dests).any (fun r => isV r && decide (r ≥ c.l.pkt.regmax)) then some 0x0B else none
    named := (named ++ dests).filter (fun r => isV r || isS r)
    dests := dests }

/-- A cause of R180 with what it records. -/
structure MatCause where
  cause : Nat
  faddr : Nat := 0
  ewmask : Option Mask := none

/-- Raise a cause of R180 for the issuing threads. -/
def raiseMat (s : State) (c : Ctx) (tids : List Nat) (m : MatCause) : State :=
  raise s c { cause := m.cause, tids := tids, faddr := m.faddr, ewmask := m.ewmask }

/-! ## The format word -/

/-- Bits of an element of a format code (R160). -/
def mfmtBits (k : Nat) : Nat := if k ≤ 1 then 16 else if k ≤ 4 then 8 else 4
/-- The class of a format code (R161). -/
def mfmtClass (k : Nat) : Nat := match k with | 0 => 0 | 1 => 0 | 2 => 1 | 3 => 1 | 4 => 2 | 5 => 3 | _ => 4
/-- An integer format. -/
def mfmtInt (k : Nat) : Bool := k == 4 || k == 6
/-- The value of an element of a floating-point format. -/
def mfmtVal (k x : Nat) : FVal :=
  match k with
  | 0 => unpackF fmtB16 x
  | 1 => unpackF fmt16 x
  | 2 => narrowVal 0x0E x
  | 3 => narrowVal 0x0F x
  | _ => narrowVal 0x10 x
/-- AF, BF, ACC, ASC, BSC, AT, BT, SAT of a format word. -/
def fwAF (w : Word) : Nat := bitsOf w.toNat 0 4
/-- BF. -/
def fwBF (w : Word) : Nat := bitsOf w.toNat 4 4
/-- ACC. -/
def fwACC (w : Word) : Nat := bitsOf w.toNat 8 4
/-- ASC. -/
def fwASC (w : Word) : Nat := bitsOf w.toNat 12 4
/-- BSC. -/
def fwBSC (w : Word) : Nat := bitsOf w.toNat 16 4
/-- AT. -/
def fwAT (w : Word) : Bool := w.getLsbD 20
/-- BT. -/
def fwBT (w : Word) : Bool := w.getLsbD 21
/-- SAT. -/
def fwSAT (w : Word) : Bool := w.getLsbD 22

/-- The format words the threads hold, for the vote of R160. -/
def fmtWords (s : State) (c : Ctx) (code : Nat) (tids : List Nat) : List (Nat × Word) :=
  tids.map (fun t => (t, readCode s c c.w tids t code))
/-- The threads whose format word differs from the lowest thread's. -/
def fmtDissent (s : State) (c : Ctx) (code : Nat) (tids : List Nat) : List Nat :=
  let ws := fmtWords s c code tids
  let w0 := (ws.map (·.2)).headD 0
  (ws.filter (fun e => e.2 != w0)).map (·.1)
/-- The format word of the lowest-numbered thread. -/
def fmtWord (s : State) (c : Ctx) (code : Nat) (tids : List Nat) : Word := ((fmtWords s c code tids).map (·.2)).headD 0
/-- A C operand that may hold a format word: v, s or zero (R160). -/
def fmtCodeOk (code : Nat) : Bool := isV code || isSZ code

/-- The test of R161 on an agreed word; `ra` and `rb` say that an operand comes from registers. The operand zero counts as one that does.
(DEDUCED, log 33) -/
def fmtTest (w : Word) (ra rb mmat : Bool) : Option Nat :=
  if fwAF w > 6 || fwBF w > 6 || fwACC w > 1 then some 0x01
  else
    let int := mfmtInt (fwAF w)
    if bitsOf w.toNat 23 9 ≠ 0 || mfmtClass (fwAF w) ≠ mfmtClass (fwBF w) || (fwACC w == 1) != int ||
      fwASC w > 1 || fwBSC w > 1 || ((fwASC w == 1 || fwBSC w == 1) && (int || mmat)) ||
      (fwAT w && ra) || (fwBT w && rb) then some 0x0F else none

/-! ## Tiles -/

/-- Causes 0x0A and 0x01 of the tiles an instruction names (R158). -/
def tileCause (w : Warp) (n : Nat) (ts : List Nat) : Option MatCause :=
  match ts.find? (fun t => decide (t ≥ n)) with
  | some t => some { cause := 0x0A, faddr := t }
  | none => if ts.any (fun t => ((w.tiles[t]?).map (·.emu)).getD false) then some { cause := 0x01 } else none
/-- An empty tile (R157). -/
def zeroTile : Tile := { elems := List.replicate 256 0, accf := 15, reruns := 0, emu := false }
/-- A warp with a tile changed. -/
def Warp.modTile (w : Warp) (n : Nat) (f : Tile → Tile) : Warp :=
  { w with tiles := w.tiles.mapIdx (fun i t => if i = n then f t else t) }
/-- A tile written (R157, R176, R179): its elements and the ACC of what wrote it. -/
def Warp.putTile (w : Warp) (n : Nat) (elems : List Word) (acc : Nat) : Warp :=
  w.modTile n (fun t => { t with elems := elems, accf := acc, written := true })

/-! ## Operand layouts -/

/-- The address of logical byte `x` of stored row `r` (R165). -/
def slabAddr (o r x rp rot : Nat) : Nat := o + r * rp + 128 * (x / 128) + (x % 128 + 8 * (r * rot % 16)) % 128
/-- The 16 pieces of 8 bytes that step `q` of K-step `k` reads for tile `u` (R165, R166). -/
def slabPieces (off rp tp rot bits : Nat) (tr : Bool) (u k q : Nat) : List Nat :=
  let o := off + u * tp * 128
  let slab := 64 / bits
  if tr then
    ((List.range slab).map (fun kk =>
      (List.range (bits / 4)).map (fun p => slabAddr o (4 * slab * k + q * slab + kk) (8 * p) rp rot))).flatten
  else (List.range 16).map (fun r => slabAddr o r (32 * k + 8 * q) rp rot)

/-- Elements of a slab: for each of the 16 rows of A (columns of B), its elements in ascending K (R163, R165). -/
def slabElems (b : Block) (op : MOper) (bits : Nat) (tr : Bool) (u k q : Nat) : List (List Nat) :=
  let slab := 64 / bits
  match op with
  | .zero => List.replicate 16 (List.replicate slab 0)
  | .regs vals =>
    (List.range 16).map (fun i => (List.range slab).map (fun kk =>
      let idx := q * slab + kk
      bitsOf (vals.getD (8 * i + idx / (32 / bits)) 0).toNat (bits * (idx % (32 / bits))) bits))
  | .scratch off rp tp rot =>
    let ps := (slabPieces off rp tp rot bits tr u k q).map (fun a => readNat b.scratch a 8)
    if tr then
      let per := bits / 4
      (List.range 16).map (fun i => (List.range slab).map (fun kk =>
        bitsOf (ps.getD (kk * per + bits * i / 64) 0) (bits * i % 64) bits))
    else (List.range 16).map (fun i => (List.range slab).map (fun kk => bitsOf (ps.getD i 0) (bits * kk) bits))

/-- Whether a slab meets poisoned scratchpad words (R459). -/
def slabPoison (b : Block) (op : MOper) (bits : Nat) (tr : Bool) (u k q : Nat) : Bool :=
  match op with
  | .scratch off rp tp rot =>
    (slabPieces off rp tp rot bits tr u k q).any (fun a => b.spoison.contains (a / 4) || b.spoison.contains (a / 4 + 1))
  | _ => false

/-- 0x12 for a descriptor that breaks R164. -/
def descCause (op : MOper) : Option MatCause :=
  match op with
  | .scratch off rp _ rot => if off % 128 ≠ 0 || rp % 16 ≠ 0 || (rot ≠ 0 && rp % 128 ≠ 0) then some { cause := 0x12, faddr := off } else none
  | _ => none
/-- The lowest offset outside the scratchpad among pieces of `n` bytes. -/
def boundCause (smem : Nat) (ps : List (Nat × Nat)) : Option MatCause :=
  (minNat ((ps.filter (fun p => decide (p.1 + p.2 > smem))).map (fun p => max p.1 smem))).map (fun a => { cause := 0x17, faddr := a })
/-- The pieces that an operand reads over tiles `us` and `ks` K-steps. -/
def allPieces (op : MOper) (bits : Nat) (tr : Bool) (us ks : Nat) : List (Nat × Nat) :=
  match op with
  | .scratch off rp tp rot =>
    ((List.range us).map (fun u => ((List.range ks).map (fun k => ((List.range 4).map (fun q =>
      (slabPieces off rp tp rot bits tr u k q).map (fun a => (a, 8)))).flatten)).flatten)).flatten
  | _ => []
/-- A scratchpad descriptor read from an s pair (R164). -/
def readDesc (s : State) (c : Ctx) (code : Nat) (tids : List Nat) : MOper :=
  let t := tids.headD 0
  let odd := (readCode s c c.w tids t (code + 1)).toNat
  .scratch (readCode s c c.w tids t code).toNat (bitsOf odd 16 16) (bitsOf odd 4 12) (odd % 16)
/-- An even s register. -/
def isDesc (code : Nat) : Bool := isS code && code % 2 == 0
/-- A value of each of the 128 threads; zero for one that has exited (R159). -/
def laneVals (s : State) (c : Ctx) (code : Nat) (tids : List Nat) : List Word :=
  (List.range 128).map (fun t => if tids.contains t then readCode s c c.w tids t code else 0)
/-- Capture an operand of MMA or MMAT. -/
def readOper (s : State) (c : Ctx) (code : Nat) (tids : List Nat) : MOper :=
  if isV code then .regs (laneVals s c code tids) else if isDesc code then readDesc s c code tids else .zero

/-! ## The queue -/

/-- An entry with nothing in it. -/
def emptyEntry : MEntry :=
  { id := 0, op := 0, tile := 0, a := .zero, b := .zero, fmtw := 0, sa := [], sb := [], z := false, m := 1, n := 1, ks := 1
    step := 0, dreg := 0, depth := 0, prog := [], k := [], eregs := [], raw := [], pc := 0, len := 0, sig := 15 }
/-- The end of the issue of a queued matrix instruction: its entry joins the queue, its flag is raised (R155, R156). -/
def enqueue (s : State) (c : Ctx) (tids : List Nat) (f : FWord) (marks : Use) (e : MEntry) : State :=
  let (id, s1) := freshId s
  let e1 : MEntry :=
    { e with id := id, depth := c.w.depth, raw := s.iss.words, pc := c.pc, len := groupLen s, sig := f.sig.toNat }
  let w1 := applyMarks c.w marks f none none 0 tids
  let w2 := raiseFlag { w1 with mq := w1.mq ++ [e1] } c.w.depth none f.sig.toNat
  finish s1 c tids (schedF f).sent w2

/-- MZERO (R170). -/
def execMzero (f : FWord) (s : State) : Host.Outcome State Fault Refusal :=
  issueColl true s (fun c _ => matSpec f (decide (f.d.toNat ≥ 8)) [] [] c) (fun c tids =>
    match tileCause c.w c.l.pkt.accum [f.d.toNat] with
    | some m => raiseMat s c tids m
    | none => enqueue s c tids f {} { emptyEntry with op := 1, tile := f.d.toNat })
/-- An even v register. -/
def isVPair (code : Nat) : Bool := isV code && code % 2 == 0
/-- MWR (R171): thread t gives row t div 8, columns 2(t mod 8) and 2(t mod 8) + 1. -/
def execMwr (f : FWord) (s : State) : Host.Outcome State Fault Refusal :=
  let a := f.a.toNat
  issueColl true s (fun c _ => matSpec f (decide (f.d.toNat ≥ 8) || !isVPair a) [a, a + 1] [] c) (fun c tids =>
    match tileCause c.w c.l.pkt.accum [f.d.toNat] with
    | some m => raiseMat s c tids m
    | none =>
      let lo := laneVals s c a tids
      let hi := laneVals s c (a + 1) tids
      let vals := ((lo.zip hi).map (fun p => [p.1, p.2])).flatten
      enqueue s c tids f { a := 2 } { emptyEntry with op := 2, tile := f.d.toNat, a := .regs vals })
/-- MRD (R172). -/
def execMrd (f : FWord) (s : State) : Host.Outcome State Fault Refusal :=
  let d := f.d.toNat
  issueColl true s (fun c _ => matSpec f (decide (f.a.toNat ≥ 8) || !isVPair d) [] [d, d + 1] c) (fun c tids =>
    match tileCause c.w c.l.pkt.accum [f.a.toNat] with
    | some m => raiseMat s c tids m
    | none => enqueue s c tids f {} { emptyEntry with op := 3, tile := f.a.toNat, dreg := d })

/-- An A or B operand of MMA: a v register, an even s register or zero (R169, R173). -/
def mmaOperOk (code : Nat) : Bool := isV code || isDesc code || code == opZero
/-- The registers that an A or B operand names. -/
def operCodes (code : Nat) : List Nat := if isDesc code then [code, code + 1] else [code]
/-- The scale registers in use under an agreed word (R162, R173). (DEDUCED, log 33) -/
def scaleCodes (x : LExt) (w : Word) : List Nat :=
  (if fwASC w = 1 then [x.xbits 0 8] else []) ++ (if fwBSC w = 1 then [x.xbits 8 8] else [])
/-- The exponents of one operand: thread 8i gives row or column i (R162). -/
def scaleExps (s : State) (c : Ctx) (on : Bool) (code : Nat) (tids : List Nat) : List Int :=
  if on then (List.range 16).map (fun i => ((laneVals s c code tids).getD (8 * i) 0).toInt) else List.replicate 16 0
/-- The threads whose exponents are out of range. -/
def badExps (es : List Int) : List Nat :=
  ((List.range 16).filter (fun i => es.getD i 0 < -127 || es.getD i 0 > 127)).map (8 * ·)

/-- MMA (R173), with the causes of R180 in their order. AT or BT set for an operand given as zero raises 0x0F, as for one from registers (R161).
(DEDUCED, log 33) -/
def execMma (f : FWord) (x : LExt) (s : State) : Host.Outcome State Fault Refusal :=
  let a := f.a.toNat
  let b := f.b.toNat
  let cc := x.c.toNat
  issueColl true s (fun c tids =>
      let sc := if fmtCodeOk cc && (fmtDissent s c cc tids).isEmpty then scaleCodes x (fmtWord s c cc tids) else []
      matSpec f (decide (f.d.toNat ≥ 8) || !mmaOperOk a || !mmaOperOk b || !fmtCodeOk cc || sc.any (fun r => !isV r))
        (operCodes a ++ operCodes b ++ [cc] ++ sc) [] c)
    (fun c tids =>
      let dis := fmtDissent s c cc tids
      if !dis.isEmpty then raiseMat s c tids { cause := 9, ewmask := some (maskOf dis) } else
      match tileCause c.w c.l.pkt.accum [f.d.toNat] with
      | some m => raiseMat s c tids m
      | none =>
        let w := fmtWord s c cc tids
        match fmtTest w (!isDesc a) (!isDesc b) false with
        | some k => raiseMat s c tids { cause := k }
        | none =>
          let sa := scaleExps s c (fwASC w == 1) (x.xbits 0 8) tids
          let sb := scaleExps s c (fwBSC w == 1) (x.xbits 8 8) tids
          let bad := badExps sa ++ badExps sb
          if !bad.isEmpty then raiseMat s c tids { cause := 0x0F, ewmask := some (maskOf bad) } else
          let oa := readOper s c a tids
          let ob := readOper s c b tids
          match (descCause oa).orElse (fun _ => (descCause ob).orElse (fun _ =>
              boundCause c.l.pkt.smem (allPieces oa (mfmtBits (fwAF w)) (fwAT w) 1 1 ++ allPieces ob (mfmtBits (fwBF w)) (fwBT w) 1 1))) with
          | some m => raiseMat s c tids m
          | none =>
            enqueue s c tids f { a := 1, b := 1 }
              { emptyEntry with op := 4, tile := f.d.toNat, a := oa, b := ob, fmtw := w, sa := sa, sb := sb, z := f.v })

/-- MMAT (R174): its operands that are not descriptor pairs raise 0x0F; an odd s register, a q or a special one 0x07 (R169). -/
def execMmat (f : FWord) (x : LExt) (s : State) : Host.Outcome State Fault Refusal :=
  let a := f.a.toNat
  let b := f.b.toNat
  let cc := x.c.toNat
  let m := x.xbits 0 3 + 1
  let n := x.xbits 3 3 + 1
  let ks := x.xbits 6 6 + 1
  issueColl true s (fun c _ =>
      matSpec f (decide (f.d.toNat ≥ 8) || !mmaOperOk a || !mmaOperOk b || !fmtCodeOk cc) (operCodes a ++ operCodes b ++ [cc]) [] c)
    (fun c tids =>
      let dis := fmtDissent s c cc tids
      if !dis.isEmpty then raiseMat s c tids { cause := 9, ewmask := some (maskOf dis) } else
      match tileCause c.w c.l.pkt.accum (codesFrom f.d.toNat (m * n)) with
      | some k => raiseMat s c tids k
      | none =>
        let w := fmtWord s c cc tids
        match fmtTest w (!isDesc a) (!isDesc b) true with
        | some k => raiseMat s c tids { cause := k }
        | none =>
          if m * n > 8 || !isDesc a || !isDesc b then raiseMat s c tids { cause := 0x0F } else
          let oa := readOper s c a tids
          let ob := readOper s c b tids
          match (descCause oa).orElse (fun _ => (descCause ob).orElse (fun _ =>
              boundCause c.l.pkt.smem (allPieces oa (mfmtBits (fwAF w)) (fwAT w) m ks ++ allPieces ob (mfmtBits (fwBF w)) (fwBT w) n ks))) with
          | some k => raiseMat s c tids k
          | none =>
            enqueue s c tids f {}
              { emptyEntry with op := 5, tile := f.d.toNat, a := oa, b := ob, fmtw := w, z := f.v, m := m, n := n, ks := ks
                                sa := List.replicate 16 0, sb := List.replicate 16 0 })

/-! ## MSTAT and %mstep -/

/-- Whether an entry will write a tile (R176). -/
def entryWrites (e : MEntry) (n : Nat) : Bool :=
  if e.op = 5 then decide (e.tile ≤ n) && decide (n < e.tile + e.m * e.n)
  else e.tile == n && e.op != 3 && (e.op != 6 || e.z)
/-- The word that MSTAT returns (R176). -/
def mstatWord (w : Warp) (accum n : Nat) : Word :=
  let pend := min w.mq.length 8 * 2 ^ 16
  match (if n < accum then w.tiles[n]? else none) with
  | none => BitVec.ofNat 32 pend
  | some t =>
    BitVec.ofNat 32 (t.reruns * 2 ^ 24 + pend + t.accf * 2 ^ 12 + (if t.emu then 8 else 0) +
      (if w.mq.any (fun e => entryWrites e n) then 4 else 0) + 2)
/-- MSTAT (R176): fixed latency, follows the guard, on a den core too. -/
def execMstat (f : FWord) (s : State) : Host.Outcome State Fault Refusal :=
  let u : Use := { d := 1, q := false, den := true, bad := decide (f.a.toNat ≥ 8) }
  issue u f none s (fun c f' tids => aluBody u none (fun _ => { vals := [mstatWord c.w c.l.pkt.accum f'.a.toNat] }) s c f' tids)
/-- %mstep (R179). -/
def mstepWord (w : Warp) : Word :=
  match w.mq with
  | [] => 0
  | e :: _ => BitVec.ofNat 32 (min w.mq.length 8 * 2 ^ 28 + e.tile % 8 * 2 ^ 20 + e.op % 16 * 2 ^ 16 + e.step % 2048)

/-! ## The engine -/

/-- Whether a gang may still perform what it has issued. -/
def gangRuns (s : State) (n : WName) : Bool :=
  match findGang s n.launch n.blk n.shadow with | some g => decide (g.st = .running) | none => false
/-- Whether the engine may perform a warp's entry now (R168, R179, R422): its gang runs, no record holds it, its tile is not in the
emulation segment, and a warp swapped out
runs on only the MMA or MMAT that it had started. (DEDUCED, log 32) -/
def entryRuns (s : State) (w : Warp) (e : MEntry) : Bool :=
  gangRuns s w.name && w.halt.isNone && !(w.tiles.getD e.tile zeroTile).emu &&
  (w.swap == .resident || w.swap == .swappingOut || (decide (e.step > 0) && (e.op == 4 || e.op == 5)))
/-- The head entries that a quadrant's engine may perform now. -/
def engineHeads (s : State) (core quad : Nat) : List (Warp × MEntry) :=
  (s.warps.filter (fun w => decide (w.core = core) && decide (w.quad = quad))).filterMap (fun w =>
    match w.mq with | [] => none | e :: _ => if entryRuns s w e then some (w, e) else none)
/-- The entry that a quadrant's engine performs (R155): the one that it has started, else the first issued of those it may. (DEDUCED, log 32) -/
def engineHead (s : State) (core quad : Nat) : Option (Warp × MEntry) :=
  let hs := engineHeads s core quad
  (hs.find? (fun p => (findQuad s core quad).runs == some p.2.id)).orElse (fun _ =>
    hs.foldl (fun acc p => match acc with | some q => if p.2.id < q.2.id then some p else acc | none => some p) none)
/-- The entry that the engine has started and not ended noted. -/
def noteRun (s : State) (w : Warp) (r : Option Nat) : State := modQuad s w.core w.quad (fun q => { q with runs := r })
/-- A warp's head entry is done: it leaves the queue and its flag is lowered (R156). -/
def entryDone (w : Warp) (e : MEntry) : Warp := lowerFlag { w with mq := w.mq.tail } e.depth none e.sig
/-- A warp's head entry changed. -/
def entryAt (w : Warp) (e : MEntry) : Warp := { w with mq := e :: w.mq.tail }
/-- Poisoned data met by an engine that works for a warp (R459): the gang's kill is the machine's next step. -/
def consumeWarp (s : State) (n : WName) (cause : Nat) (tids : List Nat) (addr : Nat) : State :=
  let r : CauseRec := { cause := cause, tids := tids, faddr := addr }
  modWarp s n (fun w => { w with pend := r :: w.pend })

/-- A write of registers by an agent, for the threads that have not exited: no issue, so no distance (R156). -/
def setRegs (w : Warp) (depth : Nat) (vals : List (Nat × Nat × Word)) : Warp :=
  let live := vals.filter (fun e => (aliveTids w).contains e.1)
  w.modFrame depth (fun fr => live.foldl (fun g e => g.setV e.1 e.2.1 e.2.2) fr)
/-- The registers that MRD writes (R163, R172). -/
def mrdVals (d : Nat) (elems : List Word) : List (Nat × Nat × Word) :=
  (List.range 128).foldr (fun t acc => (t, d, elems.getD (2 * t) 0) :: (t, d + 1, elems.getD (2 * t + 1) 0) :: acc) []

/-- One element of a tile after a floating-point step (R167). -/
def stepFloat (c : Word) (as bs : List FVal) : Word := BitVec.ofNat 32 (dotF false (unpackF fmt32 c.toNat) as bs).1
/-- A value times a power of two. -/
def FVal.scale (n : Int) : FVal → FVal
  | .fin neg m e => .fin neg m (e + n)
  | v => v
/-- The sum of products of signed integers of the given widths. -/
def intDot (wa wb : Nat) : List Nat → List Nat → Int
  | x :: xs, y :: ys => signed wa x * signed wb y + intDot wa wb xs ys
  | _, _ => 0
/-- A tile after one step (R167): all 256 elements. -/
def stepTile (w : Word) (sa sb : List Int) (elems : List Word) (as bs : List (List Nat)) : List Word :=
  if mfmtInt (fwAF w) then
    (List.range 256).map (fun k => elems.getD k 0 +
      BitVec.ofInt 32 (intDot (mfmtBits (fwAF w)) (mfmtBits (fwBF w)) (as.getD (k / 16) []) (bs.getD (k % 16) [])))
  else
    let av := as.mapIdx (fun i r => r.map (fun x => (mfmtVal (fwAF w) x).scale (sa.getD i 0)))
    let bv := bs.mapIdx (fun j r => r.map (fun x => (mfmtVal (fwBF w) x).scale (sb.getD j 0)))
    (List.range 256).map (fun k => stepFloat (elems.getD k 0) (av.getD (k / 16) []) (bv.getD (k % 16) []))

/-- One step of an MMA or MMAT entry (R167, R168, R174): which tile, K-step and quarter. -/
def mmStep (s : State) (b : Block) (w : Warp) (e : MEntry) (upsets : Nat) : State :=
  let q := e.step % 4
  let j := e.step / 4 % e.n
  let i := e.step / 4 / e.n % e.m
  let k := e.step / 4 / e.n / e.m
  let tile := e.tile + i * e.n + j
  let ba := mfmtBits (fwAF e.fmtw)
  let bb := mfmtBits (fwBF e.fmtw)
  if slabPoison b e.a ba (fwAT e.fmtw) i k q || slabPoison b e.b bb (fwBT e.fmtw) j k q then
    consumeWarp s w.name 0x80 (aliveTids w) 0
  else
    let old := (w.tiles.getD tile zeroTile)
    let base := if e.z && k = 0 && q = 0 then List.replicate 256 0 else old.elems
    let new := stepTile e.fmtw e.sa e.sb base (slabElems b e.a ba (fwAT e.fmtw) i k q) (slabElems b e.b bb (fwBT e.fmtw) j k q)
    let rr := if upsets = 0 then old.reruns else min 255 (old.reruns + 1)
    let s0 := if upsets = 0 then s else countErr s (partOf w.name.launch) 4
    if upsets ≥ 2 then
      if !fqRoom s (partOf w.name.launch) then s else
      let p := partOf w.name.launch
      let (tok, s1) := newToken s0 p
      let s2 := modWarp s1 w.name (fun x => { x.modTile tile (fun t => { t with reruns := rr }) with halt := some { token := tok, code := 0x81 } })
      let s3 := modQuad s2 w.core w.quad (fun x => { x with errs81 := x.errs81 + 1, out := x.out || decide (x.errs81 ≥ 2) })
      let tk : Token :=
        { token := tok, kind := 5, code := 0x81, w := w.name, mask := maskOf (aliveTids w), pc := e.pc, addr := 0, ref := e.id, core := w.core }
      let s4 := modPart s3 p (fun x => { x with tokens := x.tokens ++ [tk] })
      pushRecord s4 p w.core w.name.launch
        { code := 0x81, orig := 0, kind := 5, depth := e.depth, token := tok, lid := lidOf w.name.launch, blk := w.name.blk
          unit := 0, core := 0, warp := w.name.w, pc := e.pc, addr := 0, mask := maskOf (aliveTids w) }
    else
      let w1 := (w.putTile tile new (fwACC e.fmtw)).modTile tile (fun t => { t with reruns := rr, emu := false })
      let last := decide (e.step + 1 = 4 * e.m * e.n * e.ks)
      noteRun (modWarp s0 w.name (fun _ => if last then entryDone w1 e else entryAt w1 { e with step := e.step + 1 })) w
        (if last then none else some e.id)

/-- Whether the entry's earlier scratchpad stores have performed (R178): no store of the warp to scratchpad is in flight that
precedes it. -/
def scratchQuiet (s : State) (w : Warp) (id : Nat) : Bool :=
  s.reqs.all (fun r => !(decide (r.w = w.name) && decide (r.id < id) && r.kind == .store && !r.done &&
    r.accs.any (fun a => a.space != .phys)))

/-- MATRIX_STEP (R167 to R172): the engine performs one step of its head entry. `upsets` counts the checksum mismatches that the
step meets (R168). ACCF is 15 once MZERO or MWR has written the tile, an earlier MMA notwithstanding (R176). (DESIGN CHOICE, log 94) -/
def execMatrixStep (core quad upsets : Nat) (s : State) : Host.Outcome State Fault Refusal :=
  match engineHead s core quad with
  | none => .next s
  | some (w, e) =>
    match findBlock s w.name.launch w.name.blk w.name.shadow with
    | none => .next s
    | some b =>
      match e.op with
      | 1 => .next (modWarp s w.name (fun x =>
          entryDone (x.putTile e.tile (List.replicate 256 0) 15) e))
      | 2 => .next (modWarp s w.name (fun x =>
          entryDone (x.putTile e.tile (match e.a with | .regs vals => vals | _ => (x.tiles.getD e.tile zeroTile).elems) 15) e))
      | 3 => .next (modWarp s w.name (fun x => entryDone (setRegs x e.depth (mrdVals e.dreg (x.tiles.getD e.tile zeroTile).elems)) e))
      | 6 => .next s
      | _ => if scratchQuiet s w e.id then .next (mmStep s b w e upsets) else .next s

end Sys2Proof.Machine
end

