-- ==== Sys2Proof/Machine/Epilogue.lean ====
section
/-! DEFINITION. The epilogue processor (R181 to R202): EPARG, MDRAIN, and the run of a captured program on one row of a tile.
EPLD reads memory and is in Machine/Memory.lean. -/

namespace Sys2Proof.Machine

/-! ## Words -/

/-- OP of an epilogue word (R183). -/
def epOp (w : Word) : Nat := bitsOf w.toNat 26 6
/-- D. -/
def epD (w : Word) : Nat := bitsOf w.toNat 23 3
/-- SA. -/
def epSA (w : Word) : Nat := bitsOf w.toNat 19 4
/-- SB. -/
def epSB (w : Word) : Nat := bitsOf w.toNat 15 4
/-- SC. -/
def epSC (w : Word) : Nat := bitsOf w.toNat 11 4
/-- IMM. -/
def epImm (w : Word) : Nat := w.toNat % 2048
/-- The fields an operation uses: D, SA, SB, SC, IMM (R185). -/
def epUses (op : Nat) : Bool × Bool × Bool × Bool × Bool :=
  match op with
  | 0 => (false, false, false, false, false)
  | 3 => (true, true, true, true, false)
  | 9 => (true, true, true, false, true)
  | 10 => (true, true, false, false, true)
  | 11 => (true, true, false, false, true)
  | 12 => (true, true, false, false, true)
  | 14 => (false, true, false, false, true)
  | 15 => (false, true, false, false, true)
  | 6 => (true, true, false, false, false)
  | 7 => (true, true, false, false, false)
  | 8 => (true, true, false, false, false)
  | 13 => (true, true, false, false, false)
  | _ => (true, true, true, false, false)
/-- A valid program word (R197). -/
def epValid (w : Word) : Bool :=
  let op := epOp w
  let (uD, uA, uB, uC, uI) := epUses op
  decide (op < 16) &&
  (uD || epD w == 0) && (uA || epSA w == 0) && (uB || epSB w == 0) && (uC || epSC w == 0) && (uI || epImm w == 0) &&
  (!uA || epSA w != 15) && (!uB || epSB w != 15) && (!uC || epSC w != 15) &&
  ((op != 10 && op != 11) || (decide (8 ≤ epSA w) && decide (epSA w ≤ 11))) &&
  (op != 9 || (decide (8 ≤ epSB w) && decide (epSB w ≤ 11)) || epSB w == 13) &&
  (op != 12 || decide (epImm w < 4)) && (op != 15 || decide (epImm w < 512))

/-! ## Arithmetic -/

/-- An FP32 operation of R186: to nearest even, nothing flushed, nothing signalled. -/
def ep2 (g : Fmt → Nat → Bool → FVal → FVal → Nat × Exc) (a b : Word) : Word :=
  BitVec.ofNat 32 (g fmt32 0 false (unpackF fmt32 a.toNat) (unpackF fmt32 b.toNat)).1
/-- a × b + c. -/
def epFma (a b c : Word) : Word :=
  BitVec.ofNat 32 (fmaV fmt32 0 false (unpackF fmt32 a.toNat) (unpackF fmt32 b.toNat) (unpackF fmt32 c.toNat)).1
/-- 2^(−w). -/
def epExp2Neg (w : Word) : Word := BitVec.ofNat 32 (exp2V fmt32 false (unpackF fmt32 (w ^^^ 0x80000000).toNat)).1
/-- The common tail of R187: x ÷ (1 + 2^(−w)). -/
def epGate (x w : Word) : Word := ep2 divV x (ep2 addV 0x3F800000 (epExp2Neg w))
/-- GELU or SILU (R187): `silu` selects. The constants are the FP32 values nearest to 0.044715, 2√(2 ÷ π) log₂ e and log₂ e. -/
def epAct (silu : Bool) (x : Word) : Word :=
  match unpackF fmt32 x.toNat with
  | .nan _ => 0x7FC00000
  | .inf neg => if neg then 0x80000000 else 0x7F800000
  | .fin _ _ _ =>
    if silu then epGate x (ep2 mulV x 0x3FB8AA3B)
    else
      let u := ep2 mulV (ep2 mulV x x) x
      epGate x (ep2 mulV (epFma 0x3D372713 u x) 0x40135761)
/-- RELU. -/
def epRelu (a : Word) : Word :=
  match unpackF fmt32 a.toNat with
  | .nan _ => 0x7FC00000
  | .inf neg => if neg then 0 else a
  | .fin neg m _ => if neg || m = 0 then 0 else a
/-- SCL. -/
def epScl (a : Word) (n : Int) : Word := BitVec.ofNat 32 (sclV fmt32 false (unpackF fmt32 a.toNat) n).1
/-- AMAX over a row. -/
def epAmax (xs : List Word) : Word :=
  if xs.any (fun x => (unpackF fmt32 x.toNat).isNan) then 0x7FC00000
  else BitVec.ofNat 32 ((xs.map (fun x => x.toNat % 2 ^ 31)).foldl max 0)

/-- One element converted by PACK (R188). An infinite element overflows, as R145 has it for F8. (DEDUCED, log 18) -/
def packElem (ty : Nat) (sat : Bool) (x : Word) : Nat :=
  let v := unpackF fmt32 x.toNat
  match ty with
  | 0 =>
    let r := (cvtffV fmtB16 0 false v).1
    if sat && r % 2 ^ 15 = 0x7F80 then r / 2 ^ 15 * 2 ^ 15 + 0x7F7F else r
  | 1 => (quantElem 0x0E 0 sat 0 v).bits
  | 2 => (quantElem 0x0F 0 sat 0 v).bits
  | _ => (quantElem 0 0 sat 0 v).bits
/-- The 16 elements of a PACK result. (DEDUCED, log 18) -/
def packRow (ty : Nat) (sat : Bool) (xs : List Word) : List Word :=
  let es := xs.map (packElem ty sat)
  (List.range 16).map (fun m =>
    if ty = 0 then (if m < 8 then BitVec.ofNat 32 (packElems 16 [es.getD (2 * m) 0, es.getD (2 * m + 1) 0]) else 0)
    else if m < 4 then BitVec.ofNat 32 (packElems 8 ((List.range 4).map (fun b => es.getD (4 * m + b) 0))) else 0)

/-! ## EPARG and MDRAIN -/

/-- EPARG (R194, R195). -/
def execEparg (f : FWord) (s : State) : Host.Outcome State Fault Refusal :=
  let b := f.b.toNat
  issueColl false s (fun c _ => matSpec f (decide (f.d.toNat ≥ 4) || !(f.i || isUniCode b)) (if f.i then [] else [b]) [] c) (fun c tids =>
    finish s c tids (schedF f) { c.w with epk := aput 0 c.w.epk (f.d.toNat % 4) (uniformB s c f) })

/-- The program that a drain captures (R198): from `ep` up to the first END, or to index 63. -/
def epProgram (w : Warp) (ep : Nat) : List Word :=
  ((List.range (64 - ep)).map (fun k => agetD w.epStore (ep + k) 0)).takeWhile (fun x => epOp x != 0)
/-- The scratchpad addresses of an STS word in row `i`, 4 bytes each (R190). -/
def stsAddrs (desc : MOper) (i imm : Nat) : List Nat :=
  match desc with
  | .scratch off rp _ rot =>
    if imm % 4 = 3 then [off + 16 * (imm / 4) + 4 * i]
    else (List.range (if imm % 4 = 0 then 16 else if imm % 4 = 1 then 8 else 4)).map (fun k =>
      slabAddr off i (16 * (imm / 4) + 4 * k) rp rot)
  | _ => []
/-- n(kN) + 4 × IMM of a VROW or VCOL word (R189). -/
def epBase (k : List Word) (w : Word) : Nat := (k.getD (epSA w - 8) 0).toNat + 4 * epImm w
/-- The arguments k0 to k3 of a warp. -/
def epArgs (w : Warp) : List Word := (List.range 4).map (fun k => agetD w.epk k 0)
/-- Every scratchpad address that a program uses in any row, with its size (R198). -/
def epSpans (prog : List Word) (k : List Word) (desc : MOper) : List (Nat × Nat) :=
  (prog.map (fun w =>
    if epOp w = 10 || epOp w = 11 then (List.range 16).map (fun j => (epBase k w + 4 * j, 4))
    else if epOp w = 14 then ((List.range 16).map (fun i => (stsAddrs desc i (epImm w)).map (fun a => (a, 4)))).flatten
    else [])).flatten
/-- The lowest fetch address that is no multiple of 4 (R198). -/
def epMisaligned (prog : List Word) (k : List Word) : Option Nat :=
  minNat (((prog.filter (fun w => epOp w = 10 || epOp w = 11)).map (epBase k)).filter (fun a => decide (a % 4 ≠ 0)))

/-- MDRAIN (R175, R198). -/
def execMdrain (f : FWord) (x : LExt) (s : State) : Host.Outcome State Fault Refusal :=
  let a := f.a.toNat
  let b := f.b.toNat
  let cc := x.c.toNat
  let ep := x.xbits 0 6
  issueColl true s (fun c _ =>
      let prog := epProgram c.w ep
      let dests := if isV b then (prog.map (strCodes b)).flatten else []
      let odd := isV b && prog.any (fun w => epOp w = 15 && epImm w % 4 = 0 && (b + epImm w / 4) % 2 = 1)
      { matSpec f (decide (f.d.toNat ≥ 8) || !(isDesc a || a == opZero) || !(isV b || b == opZero) || !fmtCodeOk cc || odd)
          (operCodes a ++ [cc]) [] c with
        cause := (matSpec f (decide (f.d.toNat ≥ 8) || !(isDesc a || a == opZero) || !(isV b || b == opZero) || !fmtCodeOk cc || odd)
          (operCodes a ++ [cc]) [] c).cause.orElse (fun _ => if dests.any (fun r => decide (r ≥ c.l.pkt.regmax)) then some 0x0B else none)
        dests := dests.filter isV
        named := ((operCodes a ++ [cc]) ++ dests).filter (fun r => isV r || isS r) })
    (fun c tids =>
      let dis := fmtDissent s c cc tids
      if !dis.isEmpty then raiseMat s c tids { cause := 9, ewmask := some (maskOf dis) } else
      match tileCause c.w c.l.pkt.accum [f.d.toNat] with
      | some m => raiseMat s c tids m
      | none =>
        let w := fmtWord s c cc tids
        let prog := epProgram c.w ep
        let k := epArgs c.w
        let desc := if isDesc a then readDesc s c a tids else .zero
        if fwACC w > 1 then raiseMat s c tids { cause := 0x01 }
        else if bitsOf w.toNat 23 9 ≠ 0 || (prog.any (fun y => epOp y = 14) && !isDesc a) || (prog.any (fun y => epOp y = 15) && !isV b) then
          raiseMat s c tids { cause := 0x0F }
        else match (descCause desc).orElse (fun _ => ((epMisaligned prog k).map (fun o => ({ cause := 0x12, faddr := o } : MatCause))).orElse
            (fun _ => boundCause c.l.pkt.smem (epSpans prog k desc))) with
        | some m => raiseMat s c tids m
        | none =>
          enqueue s c tids f {}
            { emptyEntry with op := 6, tile := f.d.toNat, a := desc, fmtw := w, z := f.v, dreg := if isV b then b else 0
                              prog := prog, k := k, eregs := List.replicate 8 (List.replicate 16 0) })

/-! ## One row -/

/-- What the run of a row changes: the element registers, the block's scratchpad, the registers written, and whether a fetch
met poison. -/
structure RowSt where
  eregs : List (List Word)
  blk : Block
  regs : List (Nat × Nat × Word) := []
  poison : Bool := false

/-- A source of 16 elements (R184). `arith` converts an I32 tile element to FP32. -/
def epSrc (e : MEntry) (row : List Word) (r : RowSt) (arith : Bool) (code : Nat) : List Word :=
  if code < 8 then r.eregs.getD code []
  else if code < 12 then List.replicate 16 (e.k.getD (code - 8) 0)
  else if code = 12 then
    (if arith && fwACC e.fmtw = 1 then row.map (fun x => BitVec.ofNat 32 (roundInt fmt32 0 false x.toInt 0 false).1) else row)
  else List.replicate 16 (if code = 13 then 0 else 0x3F800000)
/-- A row with element register `d` written. -/
def RowSt.setE (r : RowSt) (d : Nat) (v : List Word) : RowSt := { r with eregs := r.eregs.set d v }
/-- Scratchpad words stored: each clears the poison of its 4 bytes. -/
def storeWords (b : Block) : List (Nat × Word) → Block
  | [] => b
  | (a, x) :: rest =>
    storeWords { b with scratch := writeBytes b.scratch a (toBytes x.toNat 4), swritten := addLines b.swritten a 4, spoison := b.spoison.filter (· ≠ a / 4) } rest
/-- The registers that STR writes in row `i` (R191). -/
def strVals (base i imm : Nat) (v : List Word) : List (Nat × Nat × Word) :=
  let b := base + imm / 4
  match imm % 4 with
  | 0 => ((List.range 8).map (fun m => [(8 * i + m, b, v.getD (2 * m) 0), (8 * i + m, b + 1, v.getD (2 * m + 1) 0)])).flatten
  | 1 => (List.range 8).map (fun m => (8 * i + m, b, v.getD m 0))
  | 2 => (List.range 4).map (fun m => (8 * i + m, b, v.getD m 0))
  | _ => (List.range 8).map (fun m => (8 * i + m, b, v.getD 0 0))

/-- One epilogue instruction on row `i` (R185). -/
def epWord (e : MEntry) (row : List Word) (i : Nat) (r : RowSt) (w : Word) : RowSt :=
  let src := epSrc e row r true
  let a := src (epSA w)
  let b := src (epSB w)
  let d := epD w
  let map2 (g : Word → Word → Word) : RowSt := r.setE d ((a.zip b).map (fun p => g p.1 p.2))
  match epOp w with
  | 1 => map2 (ep2 addV)
  | 2 => map2 (ep2 mulV)
  | 3 => r.setE d ((a.zip (b.zip (src (epSC w)))).map (fun p => epFma p.1 p.2.1 p.2.2))
  | 4 => map2 (ep2 (fun k _ ftz x y => minMaxV k ftz false x y))
  | 5 => map2 (ep2 (fun k _ ftz x y => minMaxV k ftz true x y))
  | 6 => r.setE d (a.map epRelu)
  | 7 => r.setE d (a.map (epAct false))
  | 8 => r.setE d (a.map (epAct true))
  | 9 => r.setE d ((a.zip b).map (fun p => epScl p.1 (signed 11 (epImm w) + p.2.toInt)))
  | 10 =>
    let offs := (List.range 16).map (fun j => epBase e.k w + 4 * j)
    { r.setE d (offs.map (fun o => BitVec.ofNat 32 (readNat r.blk.scratch o 4))) with
      poison := r.poison || offs.any (fun o => r.blk.spoison.contains (o / 4)) }
  | 11 =>
    let o := epBase e.k w + 4 * i
    { r.setE d (List.replicate 16 (BitVec.ofNat 32 (readNat r.blk.scratch o 4))) with
      poison := r.poison || r.blk.spoison.contains (o / 4) }
  | 12 => r.setE d (packRow (epImm w % 4) (fwSAT e.fmtw) a)
  | 13 => r.setE d (List.replicate 16 (epAmax a))
  | 14 =>
    let v := epSrc e row r false (epSA w)
    { r with blk := storeWords r.blk ((stsAddrs e.a i (epImm w)).zip v) }
  | 15 => { r with regs := r.regs ++ strVals e.dreg i (epImm w) (epSrc e row r false (epSA w)) }
  | _ => r

/-- The row that a drain is at (R199). -/
def drainRow (s : State) (w : Warp) (b : Block) (e : MEntry) : State :=
  let row := (List.range 16).map (fun j => (w.tiles.getD e.tile zeroTile).elems.getD (16 * e.step + j) 0)
  let r := e.prog.foldl (epWord e row e.step) { eregs := e.eregs, blk := b }
  if r.poison then consumeWarp s w.name 0x80 (aliveTids w) 0
  else
    let w1 := setRegs w e.depth r.regs
    let last := e.step + 1 = 16
    let w2 := if last && e.z then w1.putTile e.tile (List.replicate 256 0) (fwACC e.fmtw) else w1
    let w3 := if last then entryDone w2 e else entryAt w2 { e with step := e.step + 1, eregs := r.eregs }
    noteRun (modWarp (modBlock s b.launch b.blk b.shadow (fun _ => r.blk)) w.name (fun _ => w3)) w (if last then none else some e.id)

/-- EPILOGUE_ROW (R199): the captured program runs on one row of the drain at the engine's head. -/
def execEpilogueRow (core quad : Nat) (s : State) : Host.Outcome State Fault Refusal :=
  match engineHead s core quad with
  | none => .next s
  | some (w, e) =>
    if e.op ≠ 6 || !scratchQuiet s w e.id then .next s
    else match findBlock s w.name.launch w.name.blk w.name.shadow with
      | none => .next s
      | some b => .next (drainRow s w b e)

end Sys2Proof.Machine
end

