-- ==== Sys2Proof/WellFormed.lean ====
section
/-! DEFINITION. Well-formed instructions: those whose fields encode what the manual defines (R38, R45, R72). What a
well-formed instruction still gets wrong (a reserved operand, a register beyond the limit) is a cause when it issues,
not an ill-formed instruction. -/

namespace Sys2Proof

/-- The instruction is one the manual's encodings define. -/
def WellFormed (i : Instr) : Prop := encOk i = true

end Sys2Proof
end

