-- ==== Sys2Proof/Decode.lean ====
section
/-! DEFINITION. From code words to instructions: the fields of each word format, the opcode map of R69, the fates of
R72 and R73, and, after the decoder, an encoder written from the same tables. -/

namespace Sys2Proof

/-- Bits 63:62 of a code word: 0 F, 1 P, 2 prefix, 3 L (R30). -/
def fmtOf (w : Code) : BitVec 2 := w.extractLsb' 62 2
/-- Bits 61:53: the opcode of an F word or of word 0 of an L pair (R33). -/
def opcOf (w : Code) : BitVec 9 := w.extractLsb' 53 9

/-- The fields of an F word, or of word 0 of an L pair (R33). -/
def fieldsF (w : Code) : FWord where
  stall := w.extractLsb' 50 3
  wait := w.extractLsb' 38 12
  sig := w.extractLsb' 34 4
  gn := w.getLsbD 33
  gp := w.extractLsb' 29 4
  lr := w.extractLsb' 26 3
  v := w.getLsbD 25
  i := w.getLsbD 24
  d := w.extractLsb' 16 8
  a := w.extractLsb' 8 8
  b := w.extractLsb' 0 8

/-- The fields of word 1 of an L pair (R44). -/
def fieldsL (w : Code) : LExt where
  c := w.extractLsb' 56 8
  x24 := w.extractLsb' 32 24
  imm32 := w.extractLsb' 0 32

/-- The fields of a P word (R47). -/
def fieldsP (w : Code) : PWord where
  stall := w.extractLsb' 59 3
  wait := w.extractLsb' 47 12
  gp := w.extractLsb' 43 4
  gn := w.getLsbD 42
  xop := w.extractLsb' 35 7
  xd := w.extractLsb' 28 7
  xs := w.extractLsb' 21 7
  yop := w.extractLsb' 14 7
  yd := w.extractLsb' 7 7
  ys := w.extractLsb' 0 7

/-- Bits 61:58 of a prefix word: its type (R51). -/
def prefixType (w : Code) : BitVec 4 := w.extractLsb' 58 4

/-- The fields of an ORD word (R52). -/
def fieldsOrd (w : Code) : OrdWord where
  order := w.extractLsb' 55 3
  scope := w.extractLsb' 52 3
  colour := w.extractLsb' 49 3
  low := w.extractLsb' 0 49

/-- The fields of a REP word (R54). -/
def fieldsRep (w : Code) : RepWord where
  count1 := w.extractLsb' 54 4
  dstep := w.extractLsb' 52 2
  astep := w.extractLsb' 50 2
  bstep := w.extractLsb' 48 2
  low := w.extractLsb' 0 48

/-- The F form of an opcode in the map of R69; none where the map lists no F form. -/
def opcodeF (opc : Nat) (f : FWord) : Option Instr :=
  match opc with
  | 0x000 => some (.nop f)
  | 0x001 => some (.movF f)
  | 0x002 => some (.iaddF f)
  | 0x003 => some (.isubF f)
  | 0x005 => some (.iadd64 f)
  | 0x006 => some (.imulF f)
  | 0x007 => some (.imulh f)
  | 0x008 => some (.imulw f)
  | 0x00A => some (.iminF f)
  | 0x00B => some (.imaxF f)
  | 0x00C => some (.iabs f)
  | 0x00D => some (.ineg f)
  | 0x00E => some (.isetF f)
  | 0x010 => some (.andF f)
  | 0x011 => some (.orF f)
  | 0x012 => some (.xorF f)
  | 0x013 => some (.andnF f)
  | 0x014 => some (.not f)
  | 0x016 => some (.shl f)
  | 0x017 => some (.shr f)
  | 0x018 => some (.sar f)
  | 0x019 => some (.rol f)
  | 0x01D => some (.popc f)
  | 0x01E => some (.clz f)
  | 0x01F => some (.brev f)
  | 0x022 => some (.pset f)
  | 0x023 => some (.pmov f)
  | 0x040 => some (.faddF f)
  | 0x041 => some (.fsubF f)
  | 0x042 => some (.fmulF f)
  | 0x043 => some (.ffmaF f)
  | 0x044 => some (.fmin f)
  | 0x045 => some (.fmax f)
  | 0x046 => some (.fsetF f)
  | 0x047 => some (.fabs f)
  | 0x048 => some (.fneg f)
  | 0x049 => some (.fdivF f)
  | 0x04A => some (.frcp f)
  | 0x04B => some (.frsq f)
  | 0x04C => some (.fsqrt f)
  | 0x04D => some (.fex2 f)
  | 0x04E => some (.flg2 f)
  | 0x04F => some (.fsinp f)
  | 0x050 => some (.fcosp f)
  | 0x051 => some (.frnd f)
  | 0x052 => some (.fclass f)
  | 0x053 => some (.fscl f)
  | 0x054 => some (.pkadd f)
  | 0x055 => some (.pkmul f)
  | 0x056 => some (.pkfmaF f)
  | 0x057 => some (.pkmin f)
  | 0x058 => some (.pkmax f)
  | 0x059 => some (.dadd f)
  | 0x05A => some (.dmul f)
  | 0x05B => some (.dfmaF f)
  | 0x05C => some (.dmin f)
  | 0x05D => some (.dmax f)
  | 0x05E => some (.dset f)
  | 0x080 => some (.dp4i8 f)
  | 0x081 => some (.dp8i4 f)
  | 0x082 => some (.dp4f8 f)
  | 0x083 => some (.dp8f4 f)
  | 0x084 => some (.dp2bf f)
  | 0x0A2 => some (.mzero f)
  | 0x0A3 => some (.mrd f)
  | 0x0A4 => some (.mwr f)
  | 0x0A7 => some (.eparg f)
  | 0x0A8 => some (.mstat f)
  | 0x0C0 => some (.ld8F f)
  | 0x0C1 => some (.ld16F f)
  | 0x0C2 => some (.ld32F f)
  | 0x0C3 => some (.ld64F f)
  | 0x0C4 => some (.ld128F f)
  | 0x0C5 => some (.st8F f)
  | 0x0C6 => some (.st16F f)
  | 0x0C7 => some (.st32F f)
  | 0x0C8 => some (.st64F f)
  | 0x0C9 => some (.st128F f)
  | 0x0CA => some (.prf f)
  | 0x0CB => if f.d = 0 then some (.cctlWbl1 f) else if f.d = 1 then some (.cctlInvl1 f) else if f.d = 2 then some (.cctlInvl2 f) else if f.d = 3 then some (.cctlWball1 f) else if f.d = 4 then some (.cctlInvall1 f) else if f.d = 5 then some (.cctlTlbinv f) else if f.d = 6 then some (.cctlTlbinvall f) else none
  | 0x0CC => some (.ataddF f)
  | 0x0CD => some (.atminF f)
  | 0x0CE => some (.atmaxF f)
  | 0x0CF => some (.atandF f)
  | 0x0D0 => some (.atorF f)
  | 0x0D1 => some (.atxorF f)
  | 0x0D2 => some (.atxchF f)
  | 0x0D7 => some (.atfaddF f)
  | 0x0D9 => some (.fence f)
  | 0x0DA => some (.raceq f)
  | 0x101 => some (.cpyw f)
  | 0x102 => some (.cptr f)
  | 0x103 => some (.cprst f)
  | 0x104 => some (.qfence f)
  | 0x10A => some (.cstat f)
  | 0x10B => some (.cevict f)
  | 0x120 => some (.braF f)
  | 0x121 => some (.brx f)
  | 0x123 => some (.callF f)
  | 0x124 => some (.ret f)
  | 0x125 => some (.join f)
  | 0x126 => some (.exit f)
  | 0x127 => some (.poll f)
  | 0x128 => some (.wpermF f)
  | 0x129 => some (.matchWarp f)
  | 0x12A => some (.elect f)
  | 0x12B => some (.wred f)
  | 0x12C => some (.wscan f)
  | 0x12D => some (.ejctl f)
  | 0x12E => some (.recall f)
  | 0x12F => some (.waitf f)
  | 0x130 => some (.yield f)
  | 0x131 => some (.sleep f)
  | 0x140 => some (.bar f)
  | 0x141 => some (.bara f)
  | 0x142 => some (.barw f)
  | 0x143 => some (.gbar f)
  | 0x144 => some (.gbara f)
  | 0x145 => some (.gbarw f)
  | 0x147 => some (.qclose f)
  | 0x148 => some (.qpopt f)
  | 0x149 => some (.qstat f)
  | 0x14A => some (.qfree f)
  | 0x14D => some (.edgecl f)
  | 0x161 => some (.lwait f)
  | 0x162 => some (.grpq f)
  | 0x163 => some (.lstat f)
  | 0x170 => some (.trap f)
  | 0x171 => some (.eret f)
  | 0x172 => some (.owrd f)
  | 0x173 => some (.owwr f)
  | 0x174 => some (.srd f)
  | 0x175 => some (.swr f)
  | 0x178 => if f.v = false then some (.ckpt f) else if f.v = true then some (.ckptQ f) else none
  | 0x17B => some (.brk f)
  | 0x17C => some (.trace f)
  | 0x17D => some (.halt f)
  | _ => none

/-- The L form of an opcode in the map of R69; none where the map lists no L form. -/
def opcodeL (opc : Nat) (f : FWord) (x : LExt) : Option Instr :=
  match opc with
  | 0x001 => some (.movL f x)
  | 0x002 => some (.iaddL f x)
  | 0x003 => some (.isubL f x)
  | 0x004 => some (.iaddt f x)
  | 0x006 => some (.imulL f x)
  | 0x009 => some (.imad f x)
  | 0x00A => some (.iminL f x)
  | 0x00B => some (.imaxL f x)
  | 0x00E => some (.isetL f x)
  | 0x00F => some (.sel f x)
  | 0x010 => some (.andL f x)
  | 0x011 => some (.orL f x)
  | 0x012 => some (.xorL f x)
  | 0x013 => some (.andnL f x)
  | 0x015 => some (.blut f x)
  | 0x01A => some (.funs f x)
  | 0x01B => some (.bfe f x)
  | 0x01C => some (.bfi f x)
  | 0x020 => some (.bpick f x)
  | 0x021 => some (.lea f x)
  | 0x040 => some (.faddL f x)
  | 0x041 => some (.fsubL f x)
  | 0x042 => some (.fmulL f x)
  | 0x043 => some (.ffmaL f x)
  | 0x046 => some (.fsetL f x)
  | 0x049 => some (.fdivL f x)
  | 0x056 => some (.pkfmaL f x)
  | 0x05B => some (.dfmaL f x)
  | 0x05F => some (.cvtif f x)
  | 0x060 => some (.cvtfi f x)
  | 0x061 => some (.cvtff f x)
  | 0x085 => some (.qnt8 f x)
  | 0x086 => some (.qnt4 f x)
  | 0x087 => some (.dq8 f x)
  | 0x088 => some (.dq4 f x)
  | 0x089 => some (.scle f x)
  | 0x08A => some (.nrscl f x)
  | 0x08B => some (.nrsum f x)
  | 0x0A0 => some (.mma f x)
  | 0x0A1 => some (.mmat f x)
  | 0x0A5 => some (.mdrain f x)
  | 0x0A6 => some (.epld f x)
  | 0x0C0 => some (.ld8L f x)
  | 0x0C1 => some (.ld16L f x)
  | 0x0C2 => some (.ld32L f x)
  | 0x0C3 => some (.ld64L f x)
  | 0x0C4 => some (.ld128L f x)
  | 0x0C5 => some (.st8L f x)
  | 0x0C6 => some (.st16L f x)
  | 0x0C7 => some (.st32L f x)
  | 0x0C8 => some (.st64L f x)
  | 0x0C9 => some (.st128L f x)
  | 0x0CC => some (.ataddL f x)
  | 0x0CD => some (.atminL f x)
  | 0x0CE => some (.atmaxL f x)
  | 0x0CF => some (.atandL f x)
  | 0x0D0 => some (.atorL f x)
  | 0x0D1 => some (.atxorL f x)
  | 0x0D2 => some (.atxchL f x)
  | 0x0D3 => some (.atcas f x)
  | 0x0D4 => some (.atincw f x)
  | 0x0D5 => some (.atdecw f x)
  | 0x0D6 => some (.atbadd f x)
  | 0x0D7 => some (.atfaddL f x)
  | 0x0D8 => some (.red f x)
  | 0x100 => some (.cpy f x)
  | 0x105 => some (.bcpy f x)
  | 0x106 => some (.tmove f x)
  | 0x107 => some (.tstat f x)
  | 0x108 => some (.tcncl f x)
  | 0x109 => some (.cfetch f x)
  | 0x120 => some (.braL f x)
  | 0x122 => some (.jmpf f x)
  | 0x123 => some (.callL f x)
  | 0x128 => some (.wpermL f x)
  | 0x146 => some (.qbind f x)
  | 0x14B => some (.edgew f x)
  | 0x14C => some (.edger f x)
  | 0x160 => some (.launch f x)
  | 0x176 => if x.x24 = 0 then some (.wresumeRetry f x) else if x.x24 = 1 then some (.wresumeDeliver f x) else if x.x24 = 2 then some (.wresumeKill f x) else none
  | 0x177 => some (.wstop f x)
  | 0x179 => some (.ctxsv f x)
  | 0x17A => if f.v = false then some (.ctxld f x) else if f.v = true then some (.ctxldRoll f x) else none
  | 0x17E => if x.ksop = 0 then some (.kslotLoad f x) else if x.ksop = 1 then some (.kslotZero f x) else if x.ksop = 2 then some (.kslotQuery f x) else none
  | 0x17F => if x.x24 = 0 then some (.scrubCores f x) else if x.x24 = 1 then some (.scrubPages f x) else none
  | 0x180 => some (.fwcall f x)
  | _ => none

/-- Opcodes that accept REP (R56). -/
def repAccepts (opc : Nat) : Bool :=
  (1 ≤ opc && opc ≤ 0x00D) || (0x00F ≤ opc && opc ≤ 0x021) || (0x040 ≤ opc && opc ≤ 0x045) ||
    (0x047 ≤ opc && opc ≤ 0x05D) || (0x05F ≤ opc && opc ≤ 0x061) || (0x080 ≤ opc && opc ≤ 0x089) ||
    (0x0C0 ≤ opc && opc ≤ 0x0C9)

/-- Orders that an opcode accepts in an ORD prefix (R53): 0 rlx, 1 acq, 2 rel, 3 acqrel, 4 sc. -/
def ordAccepts (opc order : Nat) : Bool :=
  if 0x0C0 ≤ opc && opc ≤ 0x0C4 then order = 0 || order = 1 || order = 4
  else if 0x0C5 ≤ opc && opc ≤ 0x0C9 then order = 0 || order = 2 || order = 4
  else if 0x0CC ≤ opc && opc ≤ 0x0D7 then order ≤ 4
  else if opc = 0x0D8 then order = 0 || order = 2 || order = 4
  else false

/-- Memory instructions of REP's B-step rule (R55, R56). -/
def repMemory (opc : Nat) : Bool := 0x0C0 ≤ opc && opc ≤ 0x0C9

/-- An operand code that names a v or an s register (R39). -/
def isVS (c : Nat) : Bool := c < 0xC0

/-- The steps of a REP word fit the instruction's fields (R56): FRND's B names a mode (R124). A field that the instruction does not use is judged
by its code. (DESIGN CHOICE, log 93) -/
def repStepsOk (r : RepWord) (opc : Nat) (f : FWord) : Bool :=
  (r.dstep = 0 || isVS f.d.toNat) && (r.astep = 0 || isVS f.a.toNat) &&
    (r.bstep = 0 || (isVS f.b.toNat && !f.i && !repMemory opc && opc != 0x051))

/-- What a group decodes to (R31): its prefixes, its instruction and its length in words, or the first cause of R73
among those that the words alone decide (0x05, 0x06, 0x01, 0x04) with the length. -/
inductive Decoded where
  | ok (ord : Option OrdWord) (rep : Option RepWord) (i : Instr) (len : Nat)
  | bad (cause : Nat) (len : Nat)
  deriving DecidableEq, Repr

/-- A prefix word encodes nothing: its type is 2 to 15, or its fields break R52 or R54 (cause 0x05). -/
def prefixUndefined (w : Code) : Bool :=
  match (prefixType w).toNat with
  | 0 => !encOk (.ord (fieldsOrd w))
  | 1 => !encOk (.rep (fieldsRep w))
  | _ => true

/-- The prefix words at the head of a group, at most three (R31). -/
def leadingPrefixes : List Code → List Code
  | a :: b :: c :: _ =>
    if fmtOf a ≠ 2 then [] else if fmtOf b ≠ 2 then [a] else if fmtOf c ≠ 2 then [a, b] else [a, b, c]
  | [a, b] => if fmtOf a ≠ 2 then [] else if fmtOf b ≠ 2 then [a] else [a, b]
  | [a] => if fmtOf a ≠ 2 then [] else [a]
  | [] => []

/-- The ORD word among prefix words. -/
def ordOf (ps : List Code) : Option OrdWord :=
  (ps.find? (fun w => prefixType w = 0)).map fieldsOrd

/-- The REP word among prefix words. -/
def repOf (ps : List Code) : Option RepWord :=
  (ps.find? (fun w => prefixType w = 1)).map fieldsRep

/-- Two prefixes of one type (R31, R72). -/
def prefixTwice (ps : List Code) : Bool :=
  match ps with
  | [a, b] => prefixType a = prefixType b
  | _ => false

/-- A prefix stands before an instruction that does not accept it (R53, R56). -/
def prefixMisplaced (o : Option OrdWord) (r : Option RepWord) (opc : Nat) (f : FWord) : Bool :=
  (match o with | some w => !ordAccepts opc w.order.toNat | none => false) ||
    (match r with | some w => !repAccepts opc || !repStepsOk w opc f | none => false)

/-- Decodes the body of a group behind its prefixes `ps` (R31, R69, R72, R73). -/
def decodeBody (ps : List Code) (rest : List Code) : Decoded :=
  let n := ps.length
  let undef := ps.any prefixUndefined
  match rest with
  | [] => .bad (if undef then 0x05 else 0x06) n
  | w :: more =>
    if fmtOf w = 1 then
      if undef then .bad 0x05 (n + 1)
      else if n ≠ 0 then .bad 0x06 (n + 1)
      else if encOk (.pairWord (fieldsP w)) then .ok none none (.pairWord (fieldsP w)) 1
      else .bad 0x04 1
    else
      let opc := (opcOf w).toNat
      let f := fieldsF w
      let long : Bool := fmtOf w = 3
      let len := n + (if long then 2 else 1)
      if undef then .bad 0x05 len
      else if prefixTwice ps || prefixMisplaced (ordOf ps) (repOf ps) opc f || (long && more.isEmpty) then .bad 0x06 len
      else
        match (if long then opcodeL opc f (fieldsL (more.headD 0)) else opcodeF opc f) with
        | none => .bad 0x01 len
        | some i => if encOk i then .ok (ordOf ps) (repOf ps) i len else .bad 0x01 len

/-- Decodes the group that begins the list: the words from the group's first word to the end of its brick (R31, R32).
Three prefix words in a row are a group of their own that holds no instruction. -/
def decodeGroup (ws : List Code) : Decoded :=
  let ps := leadingPrefixes ws
  if ps.length = 3 then .bad (if ps.any prefixUndefined then 0x05 else 0x06) 3
  else decodeBody ps (ws.drop ps.length)

/-- The bytes of a code word in memory, lowest address first (R4). -/
def codeBytes (w : Code) : List Byte := (List.range 8).map (fun k => w.extractLsb' (8 * k) 8)

/-- The code word that eight bytes hold (R4). -/
def codeOfBytes (bs : List Byte) : Code :=
  BitVec.ofNat 64 (bs.foldr (fun b acc => acc * 256 + b.toNat) 0)

/-- The code words of a table word: `nbits` bits `w` in whole words, and zeros above (the host's numbering: bit 0 is
the least significant bit of the first word). Four words hold the longest group (R31). -/
def tableWords (_nbits w : Nat) : List Code := (List.range 4).map (fun k => BitVec.ofNat 64 (w / 2 ^ (64 * k)))

/-- The instruction the decoder reads from a table word: a prefix row's word by itself, every other row's word as the
group it begins. -/
def decodeTableWord (nbits w : Nat) : Option Instr :=
  let ws := tableWords nbits w
  let w0 := ws.headD 0
  if fmtOf w0 = 2 then
    if prefixUndefined w0 then none
    else if prefixType w0 = 0 then some (.ord (fieldsOrd w0)) else some (.rep (fieldsRep w0))
  else
    match decodeGroup ws with
    | .ok _ _ i _ => some i
    | .bad _ _ => none

/-- An F word, or word 0 of an L pair, with the given format and opcode (R33). -/
def packF (fmt : BitVec 2) (opc : BitVec 9) (f : FWord) : Code :=
  fmt ++ opc ++ f.stall ++ f.wait ++ f.sig ++ BitVec.ofBool f.gn ++ f.gp ++ f.lr ++ BitVec.ofBool f.v ++
    BitVec.ofBool f.i ++ f.d ++ f.a ++ f.b

/-- Word 1 of an L pair (R44). -/
def packL (x : LExt) : Code := x.c ++ x.x24 ++ x.imm32

/-- A P word (R47). -/
def packP (p : PWord) : Code :=
  (1 : BitVec 2) ++ p.stall ++ p.wait ++ p.gp ++ BitVec.ofBool p.gn ++ p.xop ++ p.xd ++ p.xs ++ p.yop ++ p.yd ++ p.ys

/-- An ORD word (R52). -/
def packOrd (o : OrdWord) : Code := (2 : BitVec 2) ++ (0 : BitVec 4) ++ o.order ++ o.scope ++ o.colour ++ o.low

/-- A REP word (R54). -/
def packRep (r : RepWord) : Code := (2 : BitVec 2) ++ (1 : BitVec 4) ++ r.count1 ++ r.dstep ++ r.astep ++ r.bstep ++ r.low

/-- The words of an instruction in F form. -/
def encF (opc : BitVec 9) (f : FWord) : List Code := [packF 0 opc f]
/-- The words of an instruction in L form. -/
def encL (opc : BitVec 9) (f : FWord) (x : LExt) : List Code := [packF 3 opc f, packL x]

/-- The words of an instruction; the steps of the other agents have none. -/
def encode : Instr → List Code
  | .nop f => encF 0x000 f
  | .movF f => encF 0x001 f
  | .movL f x => encL 0x001 f x
  | .iaddF f => encF 0x002 f
  | .iaddL f x => encL 0x002 f x
  | .isubF f => encF 0x003 f
  | .isubL f x => encL 0x003 f x
  | .iaddt f x => encL 0x004 f x
  | .iadd64 f => encF 0x005 f
  | .imulF f => encF 0x006 f
  | .imulL f x => encL 0x006 f x
  | .imulh f => encF 0x007 f
  | .imulw f => encF 0x008 f
  | .imad f x => encL 0x009 f x
  | .iminF f => encF 0x00A f
  | .iminL f x => encL 0x00A f x
  | .imaxF f => encF 0x00B f
  | .imaxL f x => encL 0x00B f x
  | .iabs f => encF 0x00C f
  | .ineg f => encF 0x00D f
  | .isetF f => encF 0x00E f
  | .isetL f x => encL 0x00E f x
  | .sel f x => encL 0x00F f x
  | .andF f => encF 0x010 f
  | .andL f x => encL 0x010 f x
  | .orF f => encF 0x011 f
  | .orL f x => encL 0x011 f x
  | .xorF f => encF 0x012 f
  | .xorL f x => encL 0x012 f x
  | .andnF f => encF 0x013 f
  | .andnL f x => encL 0x013 f x
  | .not f => encF 0x014 f
  | .blut f x => encL 0x015 f x
  | .shl f => encF 0x016 f
  | .shr f => encF 0x017 f
  | .sar f => encF 0x018 f
  | .rol f => encF 0x019 f
  | .funs f x => encL 0x01A f x
  | .bfe f x => encL 0x01B f x
  | .bfi f x => encL 0x01C f x
  | .popc f => encF 0x01D f
  | .clz f => encF 0x01E f
  | .brev f => encF 0x01F f
  | .bpick f x => encL 0x020 f x
  | .lea f x => encL 0x021 f x
  | .pset f => encF 0x022 f
  | .pmov f => encF 0x023 f
  | .faddF f => encF 0x040 f
  | .faddL f x => encL 0x040 f x
  | .fsubF f => encF 0x041 f
  | .fsubL f x => encL 0x041 f x
  | .fmulF f => encF 0x042 f
  | .fmulL f x => encL 0x042 f x
  | .ffmaF f => encF 0x043 f
  | .ffmaL f x => encL 0x043 f x
  | .fmin f => encF 0x044 f
  | .fmax f => encF 0x045 f
  | .fsetF f => encF 0x046 f
  | .fsetL f x => encL 0x046 f x
  | .fabs f => encF 0x047 f
  | .fneg f => encF 0x048 f
  | .fdivF f => encF 0x049 f
  | .fdivL f x => encL 0x049 f x
  | .frcp f => encF 0x04A f
  | .frsq f => encF 0x04B f
  | .fsqrt f => encF 0x04C f
  | .fex2 f => encF 0x04D f
  | .flg2 f => encF 0x04E f
  | .fsinp f => encF 0x04F f
  | .fcosp f => encF 0x050 f
  | .frnd f => encF 0x051 f
  | .fclass f => encF 0x052 f
  | .fscl f => encF 0x053 f
  | .pkadd f => encF 0x054 f
  | .pkmul f => encF 0x055 f
  | .pkfmaF f => encF 0x056 f
  | .pkfmaL f x => encL 0x056 f x
  | .pkmin f => encF 0x057 f
  | .pkmax f => encF 0x058 f
  | .dadd f => encF 0x059 f
  | .dmul f => encF 0x05A f
  | .dfmaF f => encF 0x05B f
  | .dfmaL f x => encL 0x05B f x
  | .dmin f => encF 0x05C f
  | .dmax f => encF 0x05D f
  | .dset f => encF 0x05E f
  | .cvtif f x => encL 0x05F f x
  | .cvtfi f x => encL 0x060 f x
  | .cvtff f x => encL 0x061 f x
  | .dp4i8 f => encF 0x080 f
  | .dp8i4 f => encF 0x081 f
  | .dp4f8 f => encF 0x082 f
  | .dp8f4 f => encF 0x083 f
  | .dp2bf f => encF 0x084 f
  | .qnt8 f x => encL 0x085 f x
  | .qnt4 f x => encL 0x086 f x
  | .dq8 f x => encL 0x087 f x
  | .dq4 f x => encL 0x088 f x
  | .scle f x => encL 0x089 f x
  | .nrscl f x => encL 0x08A f x
  | .nrsum f x => encL 0x08B f x
  | .mma f x => encL 0x0A0 f x
  | .mmat f x => encL 0x0A1 f x
  | .mzero f => encF 0x0A2 f
  | .mrd f => encF 0x0A3 f
  | .mwr f => encF 0x0A4 f
  | .mdrain f x => encL 0x0A5 f x
  | .epld f x => encL 0x0A6 f x
  | .eparg f => encF 0x0A7 f
  | .mstat f => encF 0x0A8 f
  | .ld8F f => encF 0x0C0 f
  | .ld8L f x => encL 0x0C0 f x
  | .ld16F f => encF 0x0C1 f
  | .ld16L f x => encL 0x0C1 f x
  | .ld32F f => encF 0x0C2 f
  | .ld32L f x => encL 0x0C2 f x
  | .ld64F f => encF 0x0C3 f
  | .ld64L f x => encL 0x0C3 f x
  | .ld128F f => encF 0x0C4 f
  | .ld128L f x => encL 0x0C4 f x
  | .st8F f => encF 0x0C5 f
  | .st8L f x => encL 0x0C5 f x
  | .st16F f => encF 0x0C6 f
  | .st16L f x => encL 0x0C6 f x
  | .st32F f => encF 0x0C7 f
  | .st32L f x => encL 0x0C7 f x
  | .st64F f => encF 0x0C8 f
  | .st64L f x => encL 0x0C8 f x
  | .st128F f => encF 0x0C9 f
  | .st128L f x => encL 0x0C9 f x
  | .prf f => encF 0x0CA f
  | .cctlWbl1 f => encF 0x0CB f
  | .cctlInvl1 f => encF 0x0CB f
  | .cctlInvl2 f => encF 0x0CB f
  | .cctlWball1 f => encF 0x0CB f
  | .cctlInvall1 f => encF 0x0CB f
  | .cctlTlbinv f => encF 0x0CB f
  | .cctlTlbinvall f => encF 0x0CB f
  | .ataddF f => encF 0x0CC f
  | .ataddL f x => encL 0x0CC f x
  | .atminF f => encF 0x0CD f
  | .atminL f x => encL 0x0CD f x
  | .atmaxF f => encF 0x0CE f
  | .atmaxL f x => encL 0x0CE f x
  | .atandF f => encF 0x0CF f
  | .atandL f x => encL 0x0CF f x
  | .atorF f => encF 0x0D0 f
  | .atorL f x => encL 0x0D0 f x
  | .atxorF f => encF 0x0D1 f
  | .atxorL f x => encL 0x0D1 f x
  | .atxchF f => encF 0x0D2 f
  | .atxchL f x => encL 0x0D2 f x
  | .atcas f x => encL 0x0D3 f x
  | .atincw f x => encL 0x0D4 f x
  | .atdecw f x => encL 0x0D5 f x
  | .atbadd f x => encL 0x0D6 f x
  | .atfaddF f => encF 0x0D7 f
  | .atfaddL f x => encL 0x0D7 f x
  | .red f x => encL 0x0D8 f x
  | .fence f => encF 0x0D9 f
  | .raceq f => encF 0x0DA f
  | .cpy f x => encL 0x100 f x
  | .cpyw f => encF 0x101 f
  | .cptr f => encF 0x102 f
  | .cprst f => encF 0x103 f
  | .qfence f => encF 0x104 f
  | .bcpy f x => encL 0x105 f x
  | .tmove f x => encL 0x106 f x
  | .tstat f x => encL 0x107 f x
  | .tcncl f x => encL 0x108 f x
  | .cfetch f x => encL 0x109 f x
  | .cstat f => encF 0x10A f
  | .cevict f => encF 0x10B f
  | .braF f => encF 0x120 f
  | .braL f x => encL 0x120 f x
  | .brx f => encF 0x121 f
  | .jmpf f x => encL 0x122 f x
  | .callF f => encF 0x123 f
  | .callL f x => encL 0x123 f x
  | .ret f => encF 0x124 f
  | .join f => encF 0x125 f
  | .exit f => encF 0x126 f
  | .poll f => encF 0x127 f
  | .wpermF f => encF 0x128 f
  | .wpermL f x => encL 0x128 f x
  | .matchWarp f => encF 0x129 f
  | .elect f => encF 0x12A f
  | .wred f => encF 0x12B f
  | .wscan f => encF 0x12C f
  | .ejctl f => encF 0x12D f
  | .recall f => encF 0x12E f
  | .waitf f => encF 0x12F f
  | .yield f => encF 0x130 f
  | .sleep f => encF 0x131 f
  | .bar f => encF 0x140 f
  | .bara f => encF 0x141 f
  | .barw f => encF 0x142 f
  | .gbar f => encF 0x143 f
  | .gbara f => encF 0x144 f
  | .gbarw f => encF 0x145 f
  | .qbind f x => encL 0x146 f x
  | .qclose f => encF 0x147 f
  | .qpopt f => encF 0x148 f
  | .qstat f => encF 0x149 f
  | .qfree f => encF 0x14A f
  | .edgew f x => encL 0x14B f x
  | .edger f x => encL 0x14C f x
  | .edgecl f => encF 0x14D f
  | .launch f x => encL 0x160 f x
  | .lwait f => encF 0x161 f
  | .grpq f => encF 0x162 f
  | .lstat f => encF 0x163 f
  | .trap f => encF 0x170 f
  | .eret f => encF 0x171 f
  | .owrd f => encF 0x172 f
  | .owwr f => encF 0x173 f
  | .srd f => encF 0x174 f
  | .swr f => encF 0x175 f
  | .wresumeRetry f x => encL 0x176 f x
  | .wresumeDeliver f x => encL 0x176 f x
  | .wresumeKill f x => encL 0x176 f x
  | .wstop f x => encL 0x177 f x
  | .ckpt f => encF 0x178 f
  | .ckptQ f => encF 0x178 f
  | .ctxsv f x => encL 0x179 f x
  | .ctxld f x => encL 0x17A f x
  | .ctxldRoll f x => encL 0x17A f x
  | .brk f => encF 0x17B f
  | .trace f => encF 0x17C f
  | .halt f => encF 0x17D f
  | .kslotLoad f x => encL 0x17E f x
  | .kslotZero f x => encL 0x17E f x
  | .kslotQuery f x => encL 0x17E f x
  | .scrubCores f x => encL 0x17F f x
  | .scrubPages f x => encL 0x17F f x
  | .fwcall f x => encL 0x180 f x
  | .ord o => [packOrd o]
  | .rep r => [packRep r]
  | .pairWord p => [packP p]
  | .epilogueRow _ _ => []
  | .matrixStep _ _ _ => []
  | .qtailWrite _ _ _ => []
  | .queueEnable _ _ _ => []
  | .registerWrite _ _ _ _ => []
  | .launchAccept _ _ => []
  | .gangStart _ _ => []
  | .completionRecordWrite _ => []
  | .gangKill _ _ _ => []
  | .preemption _ _ => []
  | .contextImageWritten _ _ => []
  | .gangRestore _ _ _ => []
  | .dispatcherBarrierSave _ _ => []
  | .dispatcherEdgeSave _ _ => []
  | .gangMigrate _ _ _ => []
  | .checkpointCut _ => []
  | .cowCopy _ _ => []
  | .cutCommit _ => []
  | .registerSwap _ _ => []
  | .swapOutComplete _ => []
  | .registerReadmit _ _ => []
  | .groupPromotion _ _ => []
  | .warpAging _ => []
  | .denHandover _ _ => []
  | .denRejoin _ _ => []
  | .denTimeoutRecall _ _ => []
  | .joinPassLimit _ => []
  | .queueWaitTimeout _ _ => []
  | .sleepExpiry _ _ => []
  | .haltTimeout _ _ => []
  | .yieldTimeout _ _ => []
  | .parkedGroupRelease _ _ => []
  | .faultBacklogDrain _ => []
  | .crerrRetry _ => []
  | .fqerrRetry _ => []
  | .trerrClear _ => []
  | .handlerEntry _ => []
  | .loadReply _ => []
  | .storePerform _ => []
  | .atomicPerform _ => []
  | .remoteRequestArrival _ _ => []
  | .replayTimeout _ => []
  | .replyForward _ => []
  | .copyBeat _ => []
  | .packageCopyBeat _ => []
  | .tierMoveStart _ _ => []
  | .tierMoveLanding _ _ => []
  | .brickCheckComplete _ _ _ => []
  | .brickImplicitFetch _ _ _ => []
  | .codeParityRefetch _ _ _ => []
  | .codeBreakpointHit _ _ => []
  | .swapOutModeRecord _ _ => []
  | .singleStepHalt _ => []
  | .singleStepTimeout _ => []
  | .traceEnable _ _ => []
  | .ckcostUpdate _ _ => []
  | .twinCompare _ => []
  | .collectiveContribution _ => []
  | .groupBarrierArrival _ => []
  | .clockStepRequest _ _ => []
  | .pllRelockComplete _ => []
  | .powerWindow _ _ _ => []
  | .thermalTrip _ => []
  | .supplyDroop _ => []
  | .referenceClockLoss _ => []
  | .packageBoot => []
  | .powerLoss => []
  | .functionLevelReset _ => []
  | .laneFailure _ => []
  | .linkRetrain _ _ => []
  | .ucieModuleFailure _ => []
  | .flitAuthFailure _ => []
  | .linkKeyRenewal _ => []
  | .hostHdmAccess _ _ _ _ => []
  | .patrolScrub _ => []
  | .correctedError _ _ => []
  | .scrubJobComplete _ => []
  | .fwUpdateLoad _ _ => []
  | .fwUpdateSwitch => []
  | .fwUpdateCommit => []
  | .fwUpdateRollback => []
  | .pinfo _ => []
  | .fpooladd _ => []
  | .fpooldel _ => []
  | .kwrap _ => []
  | .attest _ => []
  | .linkst _ => []
  | .pwrq _ => []
  | .coreCycle _ => []
  | .referenceTick => []
  | .recallComplete _ _ => []
  | .reloadComplete _ => []
  | .zeroisationComplete _ => []

/-- Whether a row has code words that decode to it by themselves: every instruction but the prefixes and the steps of
the other agents. -/
def hasWords : Instr → Bool
  | .nop _ => true
  | .movF _ => true
  | .movL _ _ => true
  | .iaddF _ => true
  | .iaddL _ _ => true
  | .isubF _ => true
  | .isubL _ _ => true
  | .iaddt _ _ => true
  | .iadd64 _ => true
  | .imulF _ => true
  | .imulL _ _ => true
  | .imulh _ => true
  | .imulw _ => true
  | .imad _ _ => true
  | .iminF _ => true
  | .iminL _ _ => true
  | .imaxF _ => true
  | .imaxL _ _ => true
  | .iabs _ => true
  | .ineg _ => true
  | .isetF _ => true
  | .isetL _ _ => true
  | .sel _ _ => true
  | .andF _ => true
  | .andL _ _ => true
  | .orF _ => true
  | .orL _ _ => true
  | .xorF _ => true
  | .xorL _ _ => true
  | .andnF _ => true
  | .andnL _ _ => true
  | .not _ => true
  | .blut _ _ => true
  | .shl _ => true
  | .shr _ => true
  | .sar _ => true
  | .rol _ => true
  | .funs _ _ => true
  | .bfe _ _ => true
  | .bfi _ _ => true
  | .popc _ => true
  | .clz _ => true
  | .brev _ => true
  | .bpick _ _ => true
  | .lea _ _ => true
  | .pset _ => true
  | .pmov _ => true
  | .faddF _ => true
  | .faddL _ _ => true
  | .fsubF _ => true
  | .fsubL _ _ => true
  | .fmulF _ => true
  | .fmulL _ _ => true
  | .ffmaF _ => true
  | .ffmaL _ _ => true
  | .fmin _ => true
  | .fmax _ => true
  | .fsetF _ => true
  | .fsetL _ _ => true
  | .fabs _ => true
  | .fneg _ => true
  | .fdivF _ => true
  | .fdivL _ _ => true
  | .frcp _ => true
  | .frsq _ => true
  | .fsqrt _ => true
  | .fex2 _ => true
  | .flg2 _ => true
  | .fsinp _ => true
  | .fcosp _ => true
  | .frnd _ => true
  | .fclass _ => true
  | .fscl _ => true
  | .pkadd _ => true
  | .pkmul _ => true
  | .pkfmaF _ => true
  | .pkfmaL _ _ => true
  | .pkmin _ => true
  | .pkmax _ => true
  | .dadd _ => true
  | .dmul _ => true
  | .dfmaF _ => true
  | .dfmaL _ _ => true
  | .dmin _ => true
  | .dmax _ => true
  | .dset _ => true
  | .cvtif _ _ => true
  | .cvtfi _ _ => true
  | .cvtff _ _ => true
  | .dp4i8 _ => true
  | .dp8i4 _ => true
  | .dp4f8 _ => true
  | .dp8f4 _ => true
  | .dp2bf _ => true
  | .qnt8 _ _ => true
  | .qnt4 _ _ => true
  | .dq8 _ _ => true
  | .dq4 _ _ => true
  | .scle _ _ => true
  | .nrscl _ _ => true
  | .nrsum _ _ => true
  | .mma _ _ => true
  | .mmat _ _ => true
  | .mzero _ => true
  | .mrd _ => true
  | .mwr _ => true
  | .mdrain _ _ => true
  | .epld _ _ => true
  | .eparg _ => true
  | .mstat _ => true
  | .ld8F _ => true
  | .ld8L _ _ => true
  | .ld16F _ => true
  | .ld16L _ _ => true
  | .ld32F _ => true
  | .ld32L _ _ => true
  | .ld64F _ => true
  | .ld64L _ _ => true
  | .ld128F _ => true
  | .ld128L _ _ => true
  | .st8F _ => true
  | .st8L _ _ => true
  | .st16F _ => true
  | .st16L _ _ => true
  | .st32F _ => true
  | .st32L _ _ => true
  | .st64F _ => true
  | .st64L _ _ => true
  | .st128F _ => true
  | .st128L _ _ => true
  | .prf _ => true
  | .cctlWbl1 _ => true
  | .cctlInvl1 _ => true
  | .cctlInvl2 _ => true
  | .cctlWball1 _ => true
  | .cctlInvall1 _ => true
  | .cctlTlbinv _ => true
  | .cctlTlbinvall _ => true
  | .ataddF _ => true
  | .ataddL _ _ => true
  | .atminF _ => true
  | .atminL _ _ => true
  | .atmaxF _ => true
  | .atmaxL _ _ => true
  | .atandF _ => true
  | .atandL _ _ => true
  | .atorF _ => true
  | .atorL _ _ => true
  | .atxorF _ => true
  | .atxorL _ _ => true
  | .atxchF _ => true
  | .atxchL _ _ => true
  | .atcas _ _ => true
  | .atincw _ _ => true
  | .atdecw _ _ => true
  | .atbadd _ _ => true
  | .atfaddF _ => true
  | .atfaddL _ _ => true
  | .red _ _ => true
  | .fence _ => true
  | .raceq _ => true
  | .cpy _ _ => true
  | .cpyw _ => true
  | .cptr _ => true
  | .cprst _ => true
  | .qfence _ => true
  | .bcpy _ _ => true
  | .tmove _ _ => true
  | .tstat _ _ => true
  | .tcncl _ _ => true
  | .cfetch _ _ => true
  | .cstat _ => true
  | .cevict _ => true
  | .braF _ => true
  | .braL _ _ => true
  | .brx _ => true
  | .jmpf _ _ => true
  | .callF _ => true
  | .callL _ _ => true
  | .ret _ => true
  | .join _ => true
  | .exit _ => true
  | .poll _ => true
  | .wpermF _ => true
  | .wpermL _ _ => true
  | .matchWarp _ => true
  | .elect _ => true
  | .wred _ => true
  | .wscan _ => true
  | .ejctl _ => true
  | .recall _ => true
  | .waitf _ => true
  | .yield _ => true
  | .sleep _ => true
  | .bar _ => true
  | .bara _ => true
  | .barw _ => true
  | .gbar _ => true
  | .gbara _ => true
  | .gbarw _ => true
  | .qbind _ _ => true
  | .qclose _ => true
  | .qpopt _ => true
  | .qstat _ => true
  | .qfree _ => true
  | .edgew _ _ => true
  | .edger _ _ => true
  | .edgecl _ => true
  | .launch _ _ => true
  | .lwait _ => true
  | .grpq _ => true
  | .lstat _ => true
  | .trap _ => true
  | .eret _ => true
  | .owrd _ => true
  | .owwr _ => true
  | .srd _ => true
  | .swr _ => true
  | .wresumeRetry _ _ => true
  | .wresumeDeliver _ _ => true
  | .wresumeKill _ _ => true
  | .wstop _ _ => true
  | .ckpt _ => true
  | .ckptQ _ => true
  | .ctxsv _ _ => true
  | .ctxld _ _ => true
  | .ctxldRoll _ _ => true
  | .brk _ => true
  | .trace _ => true
  | .halt _ => true
  | .kslotLoad _ _ => true
  | .kslotZero _ _ => true
  | .kslotQuery _ _ => true
  | .scrubCores _ _ => true
  | .scrubPages _ _ => true
  | .fwcall _ _ => true
  | .ord _ => false
  | .rep _ => false
  | .pairWord _ => true
  | .epilogueRow _ _ => false
  | .matrixStep _ _ _ => false
  | .qtailWrite _ _ _ => false
  | .queueEnable _ _ _ => false
  | .registerWrite _ _ _ _ => false
  | .launchAccept _ _ => false
  | .gangStart _ _ => false
  | .completionRecordWrite _ => false
  | .gangKill _ _ _ => false
  | .preemption _ _ => false
  | .contextImageWritten _ _ => false
  | .gangRestore _ _ _ => false
  | .dispatcherBarrierSave _ _ => false
  | .dispatcherEdgeSave _ _ => false
  | .gangMigrate _ _ _ => false
  | .checkpointCut _ => false
  | .cowCopy _ _ => false
  | .cutCommit _ => false
  | .registerSwap _ _ => false
  | .swapOutComplete _ => false
  | .registerReadmit _ _ => false
  | .groupPromotion _ _ => false
  | .warpAging _ => false
  | .denHandover _ _ => false
  | .denRejoin _ _ => false
  | .denTimeoutRecall _ _ => false
  | .joinPassLimit _ => false
  | .queueWaitTimeout _ _ => false
  | .sleepExpiry _ _ => false
  | .haltTimeout _ _ => false
  | .yieldTimeout _ _ => false
  | .parkedGroupRelease _ _ => false
  | .faultBacklogDrain _ => false
  | .crerrRetry _ => false
  | .fqerrRetry _ => false
  | .trerrClear _ => false
  | .handlerEntry _ => false
  | .loadReply _ => false
  | .storePerform _ => false
  | .atomicPerform _ => false
  | .remoteRequestArrival _ _ => false
  | .replayTimeout _ => false
  | .replyForward _ => false
  | .copyBeat _ => false
  | .packageCopyBeat _ => false
  | .tierMoveStart _ _ => false
  | .tierMoveLanding _ _ => false
  | .brickCheckComplete _ _ _ => false
  | .brickImplicitFetch _ _ _ => false
  | .codeParityRefetch _ _ _ => false
  | .codeBreakpointHit _ _ => false
  | .swapOutModeRecord _ _ => false
  | .singleStepHalt _ => false
  | .singleStepTimeout _ => false
  | .traceEnable _ _ => false
  | .ckcostUpdate _ _ => false
  | .twinCompare _ => false
  | .collectiveContribution _ => false
  | .groupBarrierArrival _ => false
  | .clockStepRequest _ _ => false
  | .pllRelockComplete _ => false
  | .powerWindow _ _ _ => false
  | .thermalTrip _ => false
  | .supplyDroop _ => false
  | .referenceClockLoss _ => false
  | .packageBoot => false
  | .powerLoss => false
  | .functionLevelReset _ => false
  | .laneFailure _ => false
  | .linkRetrain _ _ => false
  | .ucieModuleFailure _ => false
  | .flitAuthFailure _ => false
  | .linkKeyRenewal _ => false
  | .hostHdmAccess _ _ _ _ => false
  | .patrolScrub _ => false
  | .correctedError _ _ => false
  | .scrubJobComplete _ => false
  | .fwUpdateLoad _ _ => false
  | .fwUpdateSwitch => false
  | .fwUpdateCommit => false
  | .fwUpdateRollback => false
  | .pinfo _ => false
  | .fpooladd _ => false
  | .fpooldel _ => false
  | .kwrap _ => false
  | .attest _ => false
  | .linkst _ => false
  | .pwrq _ => false
  | .coreCycle _ => false
  | .referenceTick => false
  | .recallComplete _ _ => false
  | .reloadComplete _ => false
  | .zeroisationComplete _ => false

end Sys2Proof
end

