-- ==== Sys2Proof/Machine/Fetch.lean ====
section
/-! DEFINITION. Fetching a group: a core's code store holds bricks of 512 words (R367), and a group lies within one brick (R32). -/

namespace Sys2Proof.Machine

/-- A brick of a launch in a core's code store. -/
def findBrick (s : State) (core lk num : Nat) : Option Brick :=
  s.bricks.find? (fun b => decide (b.core = core) && decide (b.lk = lk) && decide (b.num = num))
/-- State with a brick changed. -/
def modBrick (s : State) (core lk num : Nat) (f : Brick → Brick) : State :=
  { s with bricks := s.bricks.map (fun b => if b.core = core ∧ b.lk = lk ∧ b.num = num then f b else b) }
/-- The words from a code offset to the end of its brick. -/
def wordsAt (b : Brick) (pc : Nat) : List Code := b.words.drop (pc % 4096 / 8)
/-- The words that follow a brick in the code section: those of the next one where it has landed on the core, and zero words where it has
not. (DESIGN CHOICE, log 95) -/
def wordsAfter (s : State) (b : Brick) : List Code :=
  match findBrick s b.core b.lk (b.num + 1) with
  | some n => if n.st = .landed then n.words.take 4 else List.replicate 4 0
  | none => List.replicate 4 0
/-- Four words from a code offset on: as many as the longest group has (R31). -/
def codeAt (s : State) (b : Brick) (pc : Nat) : List Code :=
  let own := wordsAt b pc
  if own.length ≥ 4 then own.take 4 else (own ++ wordsAfter s b).take 4
/-- A group that would end beyond its brick encodes nothing (R31, R72): its cause is 0x06 unless it has the earlier one of an undefined
prefix (R73). -/
def withinBrick (left : Nat) : Decoded → Decoded
  | .ok o r i n => if n ≤ left then .ok o r i n else .bad 0x06 n
  | .bad k n => if n ≤ left || k = 0x05 then .bad k n else .bad 0x06 n
/-- What the group at a code offset decodes to, where its brick has landed. -/
def decodeAt (s : State) (b : Brick) (pc : Nat) : Decoded := withinBrick (wordsAt b pc).length (decodeGroup (codeAt s b pc))
/-- The raw words of the group at a code offset, with those beyond its brick (R74, R389). -/
def groupAtPc (s : State) (b : Brick) (pc : Nat) : List Code :=
  (codeAt s b pc).take (match decodeAt s b pc with | .ok _ _ _ n => n | .bad _ n => n)
/-- The raw words of the group that a warp's threads stand at. -/
def groupWordsOf (s : State) (w : Warp) (pc : Nat) : List Code :=
  match findBrick s w.core w.name.launch (pc / 4096) with
  | some b => groupAtPc s b pc
  | none => []

end Sys2Proof.Machine
end

