-- ==== Sys2Proof/Machine/Memory.lean ====
section
/-! DEFINITION. Memory accesses (R203 to R228): forming an offset, the segment tests, translation, parked lanes, the watchpoint
and race tests of an instruction, requests in flight and how each performs at its home; the loads, stores, PRF, CCTL and EPLD. -/

namespace Sys2Proof.Machine

/-! ## What an instruction accesses -/

/-- What the segment must admit (R205); `unmap` is a CCTL that names a page, which a scratchpad has none of (R227). -/
inductive SegUse where
  | load | store | atomic | prefetch | cache | unmap
  deriving DecidableEq, Repr

/-- The right and kinds that an access needs (R205, R246). -/
def segAdmits (g : Seg) : SegUse → Bool
  | .load => g.rd && (g.kind ≤ 4 || g.kind = 6)
  | .store => g.wr && (g.kind ≤ 3 || g.kind = 6)
  | .atomic => g.atm && (g.kind ≤ 2 || g.kind = 6)
  | .prefetch => g.rd && (g.kind = 0 || g.kind = 3 || g.kind = 4 || g.kind = 6)
  | .cache => g.rd && (g.kind ≤ 3 || g.kind = 6)
  | .unmap => g.rd && (g.kind = 0 || g.kind = 3 || g.kind = 6)

/-- A memory access as its instruction states it: segment, displacement unit, size, alignment, what it does, the registers of
its result, and its cache operator. -/
structure MemOp where
  seg : Nat
  unit : Nat
  size : Nat
  align : Nat
  use : SegUse
  kind : ReqKind
  dcode : Nat := 0xC8
  dn : Nat := 1
  cop : Nat := 0

/-- The segment that an instruction names (R43, R46). -/
def segOf (f : FWord) (x : Option LExt) : Nat := match x with | some e => e.seg | none => f.bHi
/-- The cache operator (R211). -/
def copOf (x : Option LExt) : Nat := match x with | some e => e.cop | none => 0
/-- FAR of an L form (R46). -/
def farOf (x : Option LExt) : Bool := match x with | some e => e.far | none => false
/-- Registers that A names. -/
def offRegs (x : Option LExt) : Nat := if farOf x then 2 else 1
/-- A names a v register, an s register or zero; with FAR a pair of them (R43, R46). -/
def offOk (f : FWord) (x : Option LExt) : Bool :=
  isV f.a.toNat || isS f.a.toNat || (f.a.toNat == opZero && !farOf x)

/-- The offset of a thread, exact (R206). (DEDUCED, log 19) -/
def memOff (s : State) (c : Ctx) (f : FWord) (x : Option LExt) (unit : Nat) (ts : List Nat) (t : Nat) : Int :=
  match x with
  | none => ((readCode s c c.w ts t f.a.toNat).toNat + f.bLo * unit : Nat)
  | some e =>
    (if e.far then ((w64 (readGroup s c c.w ts t f.a.toNat 2)).toNat : Int) else ((readCode s c c.w ts t f.a.toNat).toNat : Int)) +
      e.imm32.toInt

/-! ## Segment tests -/

/-- Bytes of a private frame (R208). -/
def frameBytes (l : Launch) : Nat := l.warpsPerBlock * l.pkt.privw * 512
/-- base_w of R208. -/
def privBase (c : Ctx) (g : Seg) : Nat := g.base + c.b.frame * frameBytes c.l + c.w.name.w * c.l.pkt.privw * 512
/-- The cause that one thread's access raises (R207, R209, R210). -/
def segCause (c : Ctx) (g : Seg) (m : MemOp) (off : Int) : Option Nat :=
  if !segAdmits g m.use then some 0x11
  else if off % m.align ≠ 0 then some 0x12
  else match g.kind with
    | 1 => if off < 0 || off + m.size > c.l.pkt.smem then some 0x17 else none
    | 2 =>
      if off < 0 || off / 2 ^ 18 ≥ c.l.pkt.gang then some 0x18
      else if off % 2 ^ 18 + m.size > c.l.pkt.smem then some 0x17 else none
    | 3 => if off < 0 || (off + m.size - 1) / 4 ≥ c.l.pkt.privw then some 0x16 else none
    | _ => if off < 0 || off + m.size > g.limit then some 0x10 else none
/-- Order of the causes of R228. -/
def causeRank (k : Nat) : Nat :=
  match k with | 0x11 => 0 | 0x12 => 1 | 0x18 => 2 | 0x10 => 3 | 0x16 => 4 | _ => 5
/-- The first failing test of an instruction: the cause, the threads that fail with it, and the offset of the lowest of them
(R207). -/
def firstFail (cs : List (Nat × Int × Option Nat)) : Option (Nat × List Nat × Int) :=
  let ranks := [0x11, 0x12, 0x18, 0x10, 0x16, 0x17]
  (ranks.filterMap (fun k =>
    let bad := cs.filter (fun e => e.2.2 == some k)
    match bad with
    | [] => none
    | e :: _ => some (k, bad.map (·.1), e.2.1))).head?

/-! ## The pieces of an access -/

/-- An access not yet translated: the pieces of one thread, each in one space. (DEDUCED, log 19) -/
def accPiece (tid : Nat) (sp : Space) (va off size : Nat) (data : List Byte) (ops : List Word) (priv l1 alloc tracked : Bool) : Acc :=
  { tid := tid, space := sp, addr := va, va := va, off := off, size := size, data := (data.drop off).take size, ops := ops
    priv := priv, l1 := l1, alloc := alloc, tracked := tracked }
/-- A run of bytes in pieces that lie in one page, line and sector each: one where it is aligned and no longer than 16 bytes, else its
words. -/
def runPieces (m : MemOp) (one : Nat → Nat → Acc) : List Acc :=
  if m.size ≤ 16 && m.align == m.size then [one 0 m.size] else (List.range (m.size / 4)).map (fun i => one (4 * i) 4)
/-- The pieces of an access (R205, R209, R210): private memory word by word. `fresh` says that the L1 may not serve it (R236). -/
def segPieces (c : Ctx) (g : Seg) (m : MemOp) (t : Nat) (off : Int) (data : List Byte) (ops : List Word) (fresh : Bool) : List Acc :=
  let o := off.toNat
  let l1 := !fresh && m.use != .atomic
  let alloc := if m.cop = 0 then g.hint != 2 else m.cop != 2
  let early := m.cop == 3 || (m.cop == 0 && g.hint == 1)
  match g.kind with
  | 1 => runPieces m (fun i n => accPiece t (.scratch c.l.lk c.b.blk c.b.shadow) (o + i) i n data ops false false false true)
  | 2 =>
    runPieces m (fun i n =>
      accPiece t (.scratch c.l.lk (c.g.rank0 + o / 2 ^ 18) c.b.shadow) (o % 2 ^ 18 + i) i n data ops false false false true)
  | 3 =>
    let n := (o + m.size - 1) / 4 - o / 4 + 1
    (List.range n).map (fun i =>
      let word := o / 4 + i
      let lo := if i = 0 then o % 4 else 0
      let va := privBase c g + (word * 128 + t) * 4 + lo
      accPiece t .phys va (if i = 0 then 0 else 4 * i - o % 4) (min 4 m.size) data ops true true true false)
  | _ =>
    runPieces m (fun i n =>
      { accPiece t .phys (g.base + o + i) i n data ops false l1 alloc (g.kind = 0 || g.kind = 6) with early := early })

/-- How a thread's access goes on from translation (R216, R217, R246). -/
inductive TOut where
  | perform (accs : List Acc)
  | park (page : Nat) (cause : Option Nat) (va : Nat)
  | tier4
  deriving DecidableEq, Repr
/-- The translated accesses of a thread that goes on. -/
def TOut.accs : TOut → Option (List Acc)
  | .perform accs => some accs
  | _ => none
/-- The page and cause of a thread that parks, with the address. -/
def TOut.parked : TOut → Option (Nat × Option Nat × Nat)
  | .park page k va => some (page, k, va)
  | _ => none

/-- Translate the pieces of one thread (R214 to R216): the first piece that parks parks the thread. -/
def translate (s : State) (c : Ctx) (m : MemOp) : List Acc → TOut
  | [] => .perform []
  | a :: rest =>
    match a.space with
    | .scratch _ _ _ =>
      (match translate s c m rest with | .perform more => .perform (a :: more) | o => o)
    | .phys =>
      let k : Access := match m.use with | .store => .store | .atomic => .atomic | _ => .load
      match xlate s (partOf c.l.lk) a.va k c.l.bound (some c.w.core) with
      | .park page cause => .park page cause a.va
      | .ok pa =>
        if m.use == .atomic && isCxl pa then .tier4
        else match translate s c m rest with
          | .perform more => .perform ({ a with addr := pa, l1 := a.l1 && isHbm pa, tracked := a.tracked && isHbm pa } :: more)
          | o => o
/-- The accessed and, for a write, dirty bits set in the leaves that accesses go by, and the translations held by the core's TLBs (R214,
R215). -/
def touchedBy (s : State) (c : Ctx) (wr : Bool) (accs : List Acc) : State :=
  accs.foldl (fun acc a => if a.space == .phys then touchLeaf acc (partOf c.l.lk) a.va wr (some c.w.core) else acc) s

/-! ## Watchpoints -/

/-- A watchpoint that an access hits (R443). -/
def watchOf (s : State) (c : Ctx) (m : MemOp) (a : Acc) : Option Nat :=
  ((findPart s (partOf c.l.lk)).watch.find? (fun e =>
    let w := e.2
    w.val && decide (w.lid = lidOf c.l.lk) && (a.space == .phys) &&
    (match m.use with
      | .load => bitOf w.acc 0 | .store => bitOf w.acc 1 | .atomic => decide (w.acc ≠ 0) | _ => false) &&
    decide (a.va < w.addr + 2 ^ w.lg) && decide (w.addr < a.va + a.size))).map (·.1)
/-- Threads that a skip mark exempts at this group (R442). -/
def skipped (c : Ctx) (t : Nat) : Bool :=
  match c.w.skip with | some k => k.pc == c.pc && k.mask.getLsbD t | none => false

/-! ## Twins -/

/-- The bytes of a signature record (R464). -/
def sigBytes (seg : Nat) (off : Int) (size tid : Nat) (data : List Byte) : List Byte :=
  toBytes seg 1 ++ toBytes (wrapTo 64 off) 8 ++ toBytes size 1 ++ data ++ toBytes tid 1
/-- The warp waits at a compare point until its twin is there (R465). -/
def compareWait (s : State) (c : Ctx) : State :=
  modWarp (stall s c 2) c.w.name (fun w => { w with compare := 1 })
/-- Whether an instruction at a compare point must still wait. -/
def mustCompare (c : Ctx) : Bool := c.l.twin && decide (c.w.compare ≠ 2)
/-- Bytes of a core's store-check buffer in use. -/
def checkBytes (s : State) (core : Nat) : Nat :=
  ((s.warps.filter (fun w => decide (w.core = core))).map (fun w => (w.checked.map (fun e => e.bytes.length)).foldl (· + ·) 0)).foldl (· + ·) 0

/-! ## Requests -/

/-- Whether a request in flight has the acquire part of an acquire access. -/
def Req.acquires (r : Req) : Bool := r.order == 1 || r.order == 3 || r.order == 4
/-- A fence in flight (R239). -/
def Req.isFence (r : Req) : Bool := match r.kind with | .fence _ _ _ _ => true | _ => false
/-- An acquire or fence in flight of one of these threads holds their later memory instructions (R231, R239). -/
def acqHeld (s : State) (w : Warp) (ts : List Nat) : Bool :=
  s.reqs.any (fun r => decide (r.w = w.name) && (r.acquires || r.isFence) && r.tids.any (fun t => ts.contains t))
/-- A memory instruction goes on for the threads that no acquire or fence holds; the others wait before it (R231). -/
def forFree (s : State) (c : Ctx) (tids : List Nat) (go : State → Ctx → List Nat → State) : State :=
  let held := tids.filter (fun t => acqHeld s c.w [t])
  if held.isEmpty then go s c tids
  else if held.length = tids.length then stall s c 2
  else
    let wait (w : Warp) : Warp := w.modThreads held (fun t => { t with st := .retry 2, cnt := if t.st = .retry 2 then t.cnt else 0 })
    go (modWarp s c.w.name wait) { c with w := wait c.w, grp := c.grp.filter (fun t => !held.contains t) } (tids.filter (fun t => !held.contains t))
/-- The order, scope, colour of the group's ORD prefix (R231): relaxed, block scope, colour 0 without one. -/
def ordOrder (s : State) : Nat := match s.iss.ord with | some o => o.order.toNat | none => 0
/-- Scope. -/
def ordScope (s : State) : Nat := match s.iss.ord with | some o => o.scope.toNat | none => 1
/-- Colour. -/
def ordColour (s : State) : Nat := match s.iss.ord with | some o => o.colour.toNat | none => 0
/-- The access kind of R254. -/
def raceKind (s : State) (u : SegUse) : Nat :=
  match u with
  | .store => if s.iss.ord.isSome then 3 else 1
  | .atomic => 4
  | _ => if s.iss.ord.isSome then 2 else 0
/-- The record that an access leaves in its sector. (DEDUCED, log 35) -/
def accRecord (c : Ctx) (kind : Nat) (a : Acc) : AccRec :=
  { src := agentOf c.w.name a.tid, ivl := (c.w.race.thread a.tid).ivl, party := partyOf c.w c.den, kind := kind, lk := c.l.lk, blk := c.b.blk
    ftid := c.w.name.w * 128 + a.tid, den := c.den.isSome, gran := a.va / 65536 }
/-- The records of accesses that are tracked. -/
def recordAll (s : State) (c : Ctx) (kind : Nat) (accs : List Acc) : State :=
  accs.foldl (fun acc a => if a.tracked then raceRecord acc (accRecord c kind a) (c.w.race.thread a.tid).clk a.space a.addr else acc) s
/-- The record that one of a thread's accesses races with. (DEDUCED, log 35) -/
def raceHit (s : State) (c : Ctx) (kind : Nat) (accs : List Acc) : Option AccRec :=
  if (c.w.race.tabOf (partyOf c.w c.den)).quiet then none
  else (accs.filterMap (fun a => if a.tracked then raceWith s c.w c.den a.tid kind a.space a.addr else none)).head?
/-- What each thread of a store or atomic hands over with it (R232): by its own order, and after release fences of its thread by theirs; the
threads begin new intervals. -/
def writeRels (s : State) (c : Ctx) (ts : List Nat) : List (Nat × RelSrc) × RaceSt :=
  let p := partyOf c.w c.den
  let own := if ordOrder s ≥ 2 then c.w.race.release c.w.name p ts (ordScope s) else ([], c.w.race)
  let after := ts.filter (fun t => !(c.w.race.thread t).fences.isEmpty)
  let later := (after.map (fun t => (c.w.race.thread t).fences.map (fun e => (t, { e with clk := c.w.race.before c.w.name t })))).flatten
  (own.1 ++ later, own.2.advance after)

/-! ## The way to another die -/

/-- The L2 slice by which a core's requests leave its die (R249). (DESIGN CHOICE, log 96) -/
def sourceSlice (core : Nat) : Nat := dieOf core * 96 + core % 96
/-- Where requests of a die for an address perform outside it: a slice, or 384 + p for CXL port p (R213, R249). -/
def farHome (die pa : Nat) : Option Nat :=
  if isCxl pa then if die = 4 then none else some (384 + (pa - 0x040000000000) / 2 ^ 40)
  else if isHbm pa && homeDie pa ≠ die then some (homeSlice pa) else none
/-- The die of a destination; 4 is the IOD. -/
def destDie (slice : Nat) : Nat := if slice < 384 then slice / 96 else 4
/-- The join between two dies: 0 to 3 those of the ring, 4 to 7 those with the IOD (R10). -/
def joinOf (a b : Nat) : Nat :=
  if a = 4 then 4 + b else if b = 4 then 4 + a else if (a + 1) % 4 = b then a else b
/-- A join that has modules left (R469). -/
def joinUp (s : State) (a b : Nat) : Bool := decide (agetD s.joins (joinOf a b) 0 > 0)
/-- A route whose joins all have modules left. -/
def routeUp (s : State) : List Nat → Bool
  | a :: b :: rest => joinUp s a b && routeUp s (b :: rest)
  | _ => true
/-- The route between two dies (R11): the join of neighbours; between diagonal dies through the lower-numbered neighbour; where a join of that
way is degraded, the other way. -/
def routeOf (s : State) (a b : Nat) : List Nat :=
  if a = b then [a]
  else
    let ways : List (List Nat) :=
      if a = 4 || b = 4 then [[a, b]]
      else if (a + 2) % 4 = b then [[a, min ((a + 1) % 4) ((a + 3) % 4), b], [a, max ((a + 1) % 4) ((a + 3) % 4), b]]
      else [[a, b], if (a + 1) % 4 = b then [a, (a + 3) % 4, (a + 2) % 4, b] else [a, (a + 1) % 4, (a + 2) % 4, b]]
    (ways.find? (routeUp s)).getD (ways.headD [a, b])
/-- Traffic passes a route: its joins are up, and no die on it is relocking its PLL (R11, R15). -/
def routeClear (s : State) (route : List Nat) : Bool :=
  routeUp s route && route.all (fun d => decide (d ≥ 4) || decide (route.length ≤ 1) || (findDie s d).relock.isNone)
/-- The destination of a request that leaves its die. -/
def awayOf (die : Nat) (accs : List Acc) : Option Nat :=
  accs.findSome? (fun a => if a.space == .phys && !(a.priv && isHbm a.addr) then farHome die a.addr else none)
/-- The key of a source's numbers for a destination (R249). -/
def seqKey (src slice : Nat) : Nat := src * 1024 + slice
/-- A request goes into flight with the next identifier; one that leaves its die takes the next number of its source for its destination, and
its route (R11, R249). -/
def post (s : State) (core : Nat) (r : Req) : State :=
  let r1 := { r with id := s.nextId }
  match awayOf (dieOf core) r.accs with
  | none => { s with reqs := s.reqs ++ [r1], nextId := s.nextId + 1 }
  | some slice =>
    let k := seqKey (sourceSlice core) slice
    let n := agetD s.seqs k 0
    { s with
      reqs := s.reqs ++ [{ r1 with seq := some n, src := sourceSlice core, route := routeOf s (dieOf core) (destDie slice) }]
      seqs := aset s.seqs k ((n + 1) % 65536)
      nextId := s.nextId + 1 }

/-! ## Sending -/

/-- A request of some threads. -/
def mkReq (s : State) (c : Ctx) (m : MemOp) (id sig : Nat) (tids : List Nat) (accs : List Acc) : Req :=
  { id := id, w := c.w.name, depth := c.w.depth, den := c.den, kind := m.kind, tids := tids, accs := accs, dcode := m.dcode, dn := m.dn
    order := ordOrder s, scope := ordScope s, colour := ordColour s, sig := sig, once := c.w.once
    seq := none, src := sourceSlice c.w.core, route := [], replays := 0, lost := false, done := false, result := []
    rels := [], party := partyOf c.w c.den, serial := s.iss.ord.isSome && decide (repCount s.iss.rep > 1) }
/-- The home of a thread's accesses (R223, R241): each scratchpad, the L1 for private lines, each slice and each CXL port. -/
def homeOf (accs : List Acc) : Nat :=
  match accs.head? with
  | none => 0
  | some a => match a.space with
    | .scratch _ blk _ => 1024 + blk
    | .phys => if isCxl a.addr then 384 + a.addr / 2 ^ 40 else if a.priv then 1023 else homeSlice a.addr
/-- The accesses of an instruction's threads by their home: what goes there forms one request (R241). -/
def byHome (perf : List (Nat × List Acc)) : List (List (Nat × List Acc)) :=
  ((perf.map (fun e => homeOf e.2)).eraseDups).map (fun h => perf.filter (fun e => homeOf e.2 == h))
/-- An instruction's requests go into flight, one for each home, and the warp counts them on the flag (R223, R241, R57). `tids` are all the
threads that a single access stands for, `rels` what each hands over. -/
def sendAll (s : State) (c : Ctx) (m : MemOp) (flag : Nat) (tids : List Nat) (one : Bool) (rels : List (Nat × RelSrc))
    (perf : List (Nat × List Acc)) (w : Warp) : State × Warp :=
  let parts := byHome perf
  let sf := sendFlag w c.den flag c.pc tids s.nextId parts.length (decide (repCount s.iss.rep > 1)) (!lastRep s c)
  (parts.foldl (fun acc part =>
    let ts := if one then tids else part.map (·.1)
    post acc c.w.core { mkReq s c m acc.nextId sf.1 ts (part.map (·.2)).flatten with rels := rels.filter (fun e => ts.contains e.1) }) s, sf.2)

/-- Park threads on one page with one cause (R217): a record to the supervisor, which names the lowest of them where one access stands for all
(R221), or none while the page moves. (DEDUCED, log 29) -/
def parkOn (s : State) (c : Ctx) (one : Bool) (tids : List Nat) (page : Nat) (cause : Option Nat) (va : Nat) : State :=
  match cause with
  | none => modWarp s c.w.name (fun w => w.modThreads tids (fun t => { t with st := .parked { page := page, token := 0 }, again := true }))
  | some k => parkWithRecord s c.w c.w.core { cause := k, tids := tids, faddr := va } k 0 c.pc 0 0 page (if one then tids.take 1 else tids)

/-- The distinct pages and causes among threads that park, each with its threads and lowest virtual address. (DEDUCED, log 29) -/
def parkGroups (ps : List (Nat × Nat × Option Nat × Nat)) : List (List Nat × Nat × Option Nat × Nat) :=
  let keys := (ps.map (fun p => (p.2.1, p.2.2.1))).eraseDups
  keys.map (fun k =>
    let mine := ps.filter (fun p => p.2.1 == k.1 && p.2.2.1 == k.2)
    (mine.map (·.1), k.1, k.2, (minNat (mine.map (fun p => p.2.2.2))).getD 0))

/-- A twin's stores to memory wait in the store-check buffer (R464). (DEDUCED, log 31) -/
def bufferStores (s : State) (w : Warp) (rels : List (Nat × RelSrc)) (accs : List Acc) : Warp :=
  { w with checked := w.checked ++ (accs.filter (fun a => a.space == .phys && !a.priv)).map (fun a =>
      { addr := a.addr, va := a.va, tid := a.tid, tracked := a.tracked, marked := s.iss.ord.isSome, order := ordOrder s, scope := ordScope s
        bytes := a.data, party := partyOf w none, ivl := (w.race.thread a.tid).ivl
        rels := (rels.filter (fun e => e.1 == a.tid)).map (·.2) }) }

/-- What the tests before translation hand on: one access for the whole group (R221, R244), a compare point (R465), and the threads'
offsets. -/
structure MemTry where
  one : Bool
  point : Bool
  stored : Nat
  offs : List (Nat × Int)
/-- The offset of a thread as a cause records it. -/
def MemTry.off (y : MemTry) (t : Nat) : Nat := wrapTo 64 (((y.offs.find? (fun o => o.1 == t)).map (·.2)).getD 0)
/-- The threads that a performing thread stands for. -/
def MemTry.widen (y : MemTry) (tids xs : List Nat) : List Nat := if y.one && !xs.isEmpty then tids else xs

/-- A store or atomic enters its twin's signature (R464), and a twin's stores wait in the buffer. -/
def twinSend (m : MemOp) (dataOf : Nat → List Byte) (opsOf : Nat → List Word) (s : State) (c : Ctx) (y : MemTry) (perf : List (Nat × List Acc))
    (accs : List Acc) (rels : List (Nat × RelSrc)) (w : Warp) : Warp :=
  if !c.l.twin then w else
  let w1 := if m.use == .store then { bufferStores s w rels accs with nstores := w.nstores + y.stored } else w
  let w2 := if m.use == .store || m.use == .atomic then
      { w1 with sig := perf.foldl (fun g0 e => crcBytes g0 (sigBytes m.seg (((y.offs.find? (fun o => o.1 == e.1)).map (·.2)).getD 0) m.size e.1
          (if m.use == .store then dataOf e.1 else ((opsOf e.1).map (fun o => toBytes o.toNat 4)).flatten.take m.size))) w1.sig } else w1
  if y.point then { w2 with once := w2.once + 1 } else w2

/-- The threads that pass everything issue the requests (R223): the leaves' bits, the detector's records, what the threads hand over, the
requests, the marks and the flag. (DEDUCED, log 31) -/
def memSend (m : MemOp) (marks : Use) (dataOf : Nat → List Byte) (opsOf : Nat → List Word) (f : FWord) (x : Option LExt)
    (s : State) (c : Ctx) (tids : List Nat) (y : MemTry) (perf : List (Nat × List Acc)) : State :=
  let accs := (perf.map (·.2)).flatten
  let perfT := y.widen tids (perf.map (·.1))
  let leftT := tids.filter (fun t => !perfT.contains t)
  let twinStore := c.l.twin && m.use == .store
  let later (a : Acc) : Bool := twinStore && a.space == .phys && !a.priv
  let wr := m.use == .store || m.use == .atomic
  let s1 := recordAll (touchedBy s c wr accs) c (raceKind s m.use) (accs.filter (fun a => !(twinStore && a.space == .phys)))
  let rr := if wr then writeRels s c perfT else ([], c.w.race)
  let w1 := applyMarks { c.w with race := rr.2 } marks f x s.iss.rep c.rk perfT
  let sent := sendAll s1 c m f.sig.toNat perfT y.one rr.1
    ((perf.map (fun e => (e.1, e.2.filter (fun a => !later a)))).filter (fun e => !e.2.isEmpty)) w1
  finish sent.1 { c with grp := c.grp.filter (fun t => !leftT.contains t) } perfT (schedF f).sent
    (twinSend m dataOf opsOf s c y perf accs rr.1 sent.2)

/-- Atomics of the warp are still to be performed. -/
def atomsLeft (s : State) (w : Warp) : Bool :=
  s.reqs.any (fun r => decide (r.w = w.name) && !r.done && (match r.kind with | .atom _ _ _ => true | _ => false))

/-- What follows the tests of translation, for the threads `outs` (R216, R217, R251): those that go on send their requests, the others park
or take their cause; that of an atomic on TIER 4 comes once the others have performed (R246). -/
def memGo (m : MemOp) (marks : Use) (dataOf : Nat → List Byte) (opsOf : Nat → List Word) (f : FWord) (x : Option LExt)
    (s : State) (c : Ctx) (tids : List Nat) (y : MemTry) (outs : List (Nat × TOut)) : State :=
  let parks := parkGroups (outs.filterMap (fun e => e.2.parked.map (fun p => (e.1, p))))
  if (findPart s (partOf c.l.lk)).backlog.length + (parks.filter (fun p => p.2.2.1.isSome)).length > 4096 then stall s c 13 else
  let t4 := (outs.filter (fun e => e.2 == .tier4)).map (·.1)
  let go := outs.filterMap (fun e => e.2.accs.map (fun a => (e.1, a)))
  if go.isEmpty && parks.isEmpty then
    if atomsLeft s c.w then stall s c 2 else raise s c { cause := 0x19, tids := t4, faddr := y.off (t4.headD 0) }
  else
  let raced := go.filterMap (fun e => (raceHit s c (raceKind s m.use) e.2).map (fun r => (e.1, r)))
  let s5 := memSend m marks dataOf opsOf f x s c tids y (go.filter (fun e => !raced.any (fun r => r.1 == e.1)))
  let s6 := parks.foldl (fun acc p => parkOn acc c y.one (y.widen tids p.1) p.2.1 p.2.2.1 p.2.2.2) s5
  let s7 := if t4.isEmpty then s6 else modWarp s6 c.w.name (fun w => w.modThreads (y.widen tids t4) (fun t => { t with st := .retry 2 }))
  match raced with
  | [] => s7
  | r :: _ =>
    raise s7 c { cause := 0x30, tids := raced.map (·.1), faddr := y.off r.1, peer := some (racePeer r.2 (raceKind s m.use)) }

/-- Whether the L1 may not serve an access of this order and scope (R236). -/
def ordFresh (s : State) : Bool := (s.iss.ord.isSome && decide (ordScope s ≥ 2)) || decide (ordOrder s = 4)
/-- The accesses of one instruction for the threads that nothing holds (R207, R216, R217, R223, R251). -/
def memTry (m : MemOp) (marks : Use) (one : Bool) (dataOf : Nat → List Byte) (opsOf : Nat → List Word) (f : FWord) (x : Option LExt)
    (s : State) (c : Ctx) (tids : List Nat) : State :=
  let ts := if one then tids.take 1 else tids
  let g := c.l.segAt m.seg
  let ord := ordOrder s
  let stored := if m.use == .store && (g.kind = 0 || g.kind = 6) then ts.length else 0
  let comparePoint := (ord ≥ 1 && (m.use != .load || ord = 1 || ord = 4)) || m.use == .atomic ||
    (decide (stored > 0) && (decide (c.w.nstores + ts.length > 255) || decide (checkBytes s c.w.core + stored * m.size > 16384)))
  if comparePoint && mustCompare c then compareWait s c else
  let offs := ts.map (fun t => (t, memOff s c f x m.unit ts t))
  match firstFail (offs.map (fun e => (e.1, e.2, segCause c g m e.2))) with
  | some (k, bad, off) => raise s c { cause := k, tids := bad, faddr := wrapTo 64 off }
  | none =>
    let pieces := offs.map (fun e => (e.1, segPieces c g m e.1 e.2 (dataOf e.1) (opsOf e.1) (ordFresh s)))
    let hits := pieces.filterMap (fun e => if skipped c e.1 then none else (e.2.filterMap (fun a => (watchOf s c m a).map (fun w => (e.1, w, a.va)))).head?)
    match hits with
    | h :: _ => swapOutHit s c { cause := 0x71, tids := hits.map (·.1), faddr := h.2.2, unit := h.2.1, pc := c.pc }
    | [] => memGo m marks dataOf opsOf f x s c tids { one := one, point := comparePoint, stored := stored, offs := offs }
        (pieces.map (fun e => (e.1, translate s c m e.2)))
/-- Perform the accesses of one instruction. `one` says that a single access stands for the whole group (R221, R244). -/
def memBody (m : MemOp) (marks : Use) (one : Bool) (dataOf : Nat → List Byte) (opsOf : Nat → List Word) (f : FWord) (x : Option LExt)
    (s : State) (c : Ctx) (tids : List Nat) : State :=
  if one then if acqHeld s c.w tids then stall s c 2 else memTry m marks one dataOf opsOf f x s c tids
  else forFree s c tids (memTry m marks one dataOf opsOf f x)

/-! ## Performing at the home -/

/-- The core whose L1 holds a line (R212): the core's own, or the one that fusion names. (DEDUCED, log 58) -/
def l1Core (l : Launch) (core pa : Nat) : Nat :=
  if l.flag 2 then core / 4 * 4 + ((pa / 128 % 4) ^^^ (pa / 32768 % 4)) else core
/-- Whether two accesses overlap. -/
def accOverlap (a b : Acc) : Bool :=
  (a.space == b.space) && decide (a.addr < b.addr + b.size) && decide (b.addr < a.addr + a.size)
/-- The earlier accesses of a request's threads that have not performed. -/
def earlierOf (s : State) (r : Req) : List Req :=
  s.reqs.filter (fun q => decide (q.w = r.w) && decide (q.id < r.id) && !q.done && q.accesses && q.tids.any (fun t => r.tids.contains t))
/-- Whether a request may perform now: after the earlier overlapping accesses of its threads (R235), a release after their
earlier accesses (R232, R238), an sc access too (R237), the repetitions of an ordered group in their order (R58), and not on a granule that is
being copied (R427). -/
def mayPerform (s : State) (r : Req) : Bool :=
  let earlier := earlierOf s r
  let all := r.order == 2 || r.order == 3 || r.order == 4
  (if all then earlier.isEmpty
   else earlier.all (fun q => !(q.writes || r.writes) || !q.accs.any (fun a => r.accs.any (fun b => accOverlap a b)))) &&
  (!r.serial || !s.reqs.any (fun q => decide (q.w = r.w) && q.den == r.den && decide (q.id < r.id) && !q.done && q.serial)) &&
  (!r.writes || r.accs.all (fun a => a.space != .phys || !isCow s (partOf r.w.launch) a.va))

/-- The bytes of a scratchpad (R210). -/
def scratchBytes (s : State) (lk blk : Nat) (sh : Bool) (a n : Nat) : List Byte :=
  match findBlock s lk blk sh with | some b => readBytes b.scratch a n | none => List.replicate n 0
/-- A block's scratchpad written: a 4-byte word covered whole loses its poison (R460). -/
def scratchWrite (b : Block) (a : Nat) (bs : List Byte) : Block :=
  { b with
    scratch := writeBytes b.scratch a bs
    swritten := addLines b.swritten a bs.length
    spoison := b.spoison.filter (fun k => !(decide (a ≤ 4 * k) && decide (4 * k + 4 ≤ a + bs.length))) }
/-- Whether an access meets poison (R459). -/
def accPoison (s : State) (a : Acc) : Bool :=
  match a.space with
  | .phys => isPoisoned s a.addr a.size
  | .scratch lk blk sh =>
    match findBlock s lk blk sh with
    | some b => (List.range a.size).any (fun i => b.spoison.contains ((a.addr + i) / 4))
    | none => false
/-- The waiting stores of a twin that a load sees (R464): those of its own run. -/
def twinPatch (s : State) (n : WName) (a : Acc) (bs : List Byte) : List Byte :=
  ((s.warps.filter (fun w => decide (w.name.launch = n.launch) && decide (w.name.shadow = n.shadow) && decide (w.name.blk = n.blk))).map (·.checked)).flatten.foldl
    (fun acc e => acc.mapIdx (fun i b => if a.addr + i < e.addr then b else e.bytes.getD (a.addr + i - e.addr) b)) bs

/-- The key slot of the page that holds a virtual address (R214). -/
def lineKey (s : State) (p va : Nat) : Nat := match findLeaf s p va with | some l => pteKey l.pte | none => 0
/-- The line of memory that a core's L1 would hold for an access. -/
def lineFor (s : State) (k p : Nat) (a : Acc) : L1Line :=
  { core := k, line := a.addr / 128, bytes := readBytes s.mem (a.addr / 128 * 128) 128, priv := a.priv, dirty := false
    key := lineKey s p a.va, early := a.early }
/-- Read the bytes of a load at its home, or from a line of the core's L1 where R236 allows it; a line that is fetched is
held. -/
def readAcc (s : State) (l : Launch) (core : Nat) (n : WName) (a : Acc) : State × List Byte :=
  match a.space with
  | .scratch lk blk sh => (s, scratchBytes s lk blk sh a.addr a.size)
  | .phys =>
    let k := l1Core l core a.addr
    match (if a.l1 then findLine s k a.addr else none) with
    | some ln => (s, twinPatch s n a ((ln.bytes.drop (a.addr % 128)).take a.size))
    | none =>
      (if a.l1 && a.alloc then putLine s (lineFor s k (partOf n.launch) a) else s, twinPatch s n a (readBytes s.mem a.addr a.size))

/-- Write bytes at their home (R211): a private store into the L1 line that it allocates, any other store to memory and into a
line of the core's L1 that is present. -/
def writeAcc (s : State) (l : Launch) (core : Nat) (a : Acc) : State :=
  match a.space with
  | .scratch lk blk sh => modBlock s lk blk sh (fun b => scratchWrite b a.addr a.data)
  | .phys =>
    let k := l1Core l core a.addr
    let p := partOf l.lk
    let patch (st : State) (dirty : Bool) : State :=
      { st with l1 := st.l1.map (fun ln => if ln.core = k ∧ ln.line = a.addr / 128 then
          { ln with bytes := patchLine ln a.addr a.data, dirty := ln.dirty || dirty } else ln) }
    if a.priv && isHbm a.addr then
      let s1 := if (findLine s k a.addr).isSome then s else putLine s (lineFor s k p a)
      markGranule (clearPoison (patch s1 true) a.addr a.size) p a.va
    else markGranule (patch (writePhys s a.addr a.data) false) p a.va

/-- The runs of a twin that the one performance of an access stands for (R253, R466). -/
def runsOf (both : Bool) (n : WName) : List WName := if both then [n, { n with shadow := true }] else [n]
/-- A write that performs (R232): it ends the releases at its bytes unless it is a read-modify-write, and leaves those of its threads; a
release that acquires too hands over what it has acquired. -/
def raceWrite (s : State) (r : Req) (rmw : Bool) (met : List RelSrc) (a : Acc) : State :=
  let s1 := if rmw then s else raceOverwrite s a.space a.addr a.size
  let more := if r.acquires then met.foldl (fun (k : Clock) e => k.join e.clk) [] else []
  (r.rels.filter (fun e => e.1 == a.tid || r.accs.length == 1)).foldl (fun acc e =>
    raceDeposit acc a.space a.addr a.size { e.2 with clk := e.2.clk.join more }) s1
/-- A read that performs (R232): an acquire takes the releases it meets; every read remembers them for a later acquire fence. `ts` are the
threads that the access stands for. -/
def raceRead (s : State) (r : Req) (both : Bool) (ts : List Nat) (a : Acc) : State :=
  let met := releasesAt s a.space a.addr a.size
  if met.isEmpty then s
  else (runsOf both r.w).foldl (fun acc n =>
    let acc1 := modRaceAny acc n (fun x => ts.foldl (fun y t => y.modThread t (fun z => { z with seen := (met ++ z.seen).eraseDups })) x)
    if r.acquires then ts.foldl (fun st t => raceAcquire st r.party n t a.space a.addr a.size r.scope) acc1 else acc1) s
/-- An acquire of gang scope or wider empties the L1s that a core uses of lines that are not private (R212, R236). -/
def dropForAcquire (s : State) (l : Launch) (core : Nat) : State :=
  if l.flag 2 then (List.range 4).foldl (fun acc k => dropShared acc (core / 4 * 4 + k)) s else dropShared s core
/-- The same as an access performs, where its warp is on a core. -/
def acquireDrop (s : State) (l : Launch) (core : Nat) (r : Req) : State :=
  if r.acquires && decide (r.scope ≥ 2) && (findWarp s r.w).isSome then dropForAcquire s l core else s
/-- The threads that an access of a request stands for: all of them where it has but one (R221). -/
def accThreads (r : Req) (a : Acc) : List Nat := if r.accs.length = 1 then r.tids else [a.tid]

/-- The bytes of each thread of a load, in the order of its pieces. -/
def gather (vals : List (Nat × List Byte)) (tids : List Nat) : List (Nat × List Byte) :=
  tids.map (fun t => (t, ((vals.filter (fun v => v.1 == t)).map (·.2)).flatten))
/-- The registers of a loaded value (R220). -/
def loadWords (sg : Bool) (n : Nat) (bs : List Byte) : List Word :=
  let w := 8 * bs.length
  let x : Nat := if sg && w < 32 then wrapTo 32 (signed w (ofBytes bs)) else ofBytes bs
  (List.range n).map (fun k => BitVec.ofNat 32 (x / 2 ^ (32 * k)))
/-- Perform a load: the state, and the registers by thread. A load with a single access serves every thread of it (R221). -/
def perfLoad (s : State) (l : Launch) (core : Nat) (r : Req) (both sg : Bool) : State × List (Nat × List Word) :=
  let s0 := acquireDrop s l core r
  let (s1, vals) := r.accs.foldl (fun acc a =>
    let (st, bs) := readAcc acc.1 l core r.w a
    (raceRead st r both (accThreads r a) a, acc.2 ++ [(a.tid, bs)])) (s0, [])
  (s1, (gather vals ((r.accs.map (·.tid)).eraseDups)).map (fun v => (v.1, loadWords sg r.dn v.2)))

/-! ## Atomics -/

/-- ATFADD in its type (R243). -/
def atomFadd (ty m v : Nat) : Nat :=
  if ty = 0x0C then (addV fmt32 0 false (unpackF fmt32 m) (unpackF fmt32 v)).1
  else
    let k := fmtOfTy ty
    let add (j : Nat) : Nat := (addV k 0 false (unpackF k (bitsOf m (16 * j) 16)) (unpackF k (bitsOf v (16 * j) 16))).1
    add 0 + add 1 * 65536
/-- The function f of R242: 0 add, 1 min, 2 max, 3 and, 4 or, 5 xor, 6 xch, 7 cas, 8 incw, 9 decw, 10 badd, 11 fadd. `v` is b and
`q` is c. -/
def atomF (op ty m v q : Nat) : Nat × Bool :=
  let w := if isTy64 ty then 64 else 32
  let le (a b : Nat) : Bool := if intTySigned ty then decide (signed w a ≤ signed w b) else decide (a ≤ b)
  match op with
  | 0 => ((m + v) % 2 ^ w, false)
  | 1 => (if le m v then m else v, false)
  | 2 => (if le v m then m else v, false)
  | 3 => (m &&& v, false)
  | 4 => (m ||| v, false)
  | 5 => (m ^^^ v, false)
  | 6 => (v, false)
  | 7 => (if m = q then v else m, false)
  | 8 => (if m ≥ v then 0 else m + 1, false)
  | 9 => (if m = 0 || m > v then v else m - 1, false)
  | 10 => let ok := decide (v ≤ q) && decide (m + v ≤ q); (if ok then m + v else m, ok)
  | _ => (atomFadd ty m v, false)
/-- A number from registers, the first the least significant. -/
def opNat : List Word → Nat
  | [] => 0
  | x :: xs => x.toNat + 2 ^ 32 * opNat xs
/-- Perform an atomic (R241): thread by thread in ascending wtid, each read-modify-write at the home; old values and success by
thread. -/
def perfAtom (s : State) (l : Launch) (core : Nat) (r : Req) (both : Bool) (op ty : Nat) : State × List (Nat × List Word) :=
  let s0 := acquireDrop s l core r
  let n := if isTy64 ty then 2 else 1
  r.accs.foldl (fun acc a =>
    let old := match a.space with
      | .phys => readNat acc.1.mem a.addr (4 * n)
      | .scratch lk blk sh => ofBytes (scratchBytes acc.1 lk blk sh a.addr (4 * n))
    let (new, ok) := atomF op ty old (opNat (a.ops.take n)) (opNat (a.ops.drop n))
    let st := writeAcc acc.1 l core { a with data := toBytes new (4 * n), priv := false }
    let st1 := raceWrite (raceRead st r both (accThreads r a) a) r true (taken st r.party r.scope (releasesAt st a.space a.addr a.size)) a
    (st1, acc.2 ++ [(a.tid, split64 (BitVec.ofNat 64 old) |>.take n |> (· ++ [bitWord ok]))])) (s0, [])

/-! ## Completion -/

/-- The registers and predicate of a reply written where the warp is (R223, R247, R418): one value for an s destination. -/
def writeReply (r : Req) (res : List (Nat × List Word)) (w : Warp) : Warp :=
  let w1 :=
    if isS r.dcode then
      w.modFrame r.depth (fun fr => ((List.range r.dn).foldl (fun g k =>
        g.setS (r.dcode - 0x80 + k) (((res.head?.map (·.2)).getD []).getD k 0)) fr))
    else if isV r.dcode then
      setRegs w r.depth ((res.map (fun v => (List.range r.dn).map (fun k => (v.1, r.dcode + k, v.2.getD k 0)))).flatten)
    else w
  match r.kind with
  | .atom _ _ sp =>
    if sp < 12 then w1.modFrame r.depth (fun fr => res.foldl (fun g v => g.setPred v.1 sp (v.2.getD r.dn 0 == 1)) fr) else w1
  | .edgeTake k =>
    if k < 12 then w1.modFrame r.depth (fun fr => res.foldl (fun g v => g.setPred v.1 k (v.2.getD r.dn 0 == 1)) fr) else w1
  | _ => w1
/-- The registers of every thread of a single access: a v destination gives all of them its value. -/
def spread (r : Req) (res : List (Nat × List Word)) : List (Nat × List Word) :=
  match res with
  | [one] => if isS r.dcode then res else r.tids.map (fun t => (t, one.2))
  | _ => res
/-- A request is complete: its flag is lowered and it is gone. -/
def completeReq (s : State) (r : Req) (f : Warp → Warp) : State :=
  dropReq (modWarpAny s r.w (fun w => lowerFlag (f w) r.depth r.den r.sig)) r.id
/-- A reply is there: written into a resident warp; kept for REPLY_FORWARD where the warp is not resident (R418). -/
def deliverReply (s : State) (r : Req) (res : List (Nat × List Word)) : State :=
  match findWarp s r.w with
  | some _ => completeReq s r (writeReply r (spread r res))
  | none => modReq s r.id (fun q => { q with done := true, result := res })
/-- The context an agent needs to perform a request: its launch, and the core that sent it. -/
def reqHome (s : State) (r : Req) : Option (Launch × Nat) :=
  (findLaunch s r.w.launch).map (fun l => (l, match findWarp s r.w with | some w => w.core | none => 0))
/-- A request whose warp is not resident goes by no L1 (R417, R418). -/
def offCore (s : State) (r : Req) : Req :=
  if (findWarp s r.w).isSome then r
  else { r with accs := r.accs.map (fun a => { a with l1 := false, alloc := false, priv := false }) }
/-- Whether the shadow of a twin must wait for the primary's result (R466). -/
def isOnce (l : Launch) (r : Req) : Bool :=
  l.twin && (match r.kind with | .atom _ _ _ => true | .load _ => r.order == 1 || r.order == 4 | _ => false)
/-- The primary's results left for the shadow, beside those that other requests of the instruction have left. -/
def leaveTwin (s : State) (r : Req) (res : List (Nat × List Word)) : State :=
  modWarp s { r.w with shadow := true } (fun w => { w with twinRes := aset w.twinRes r.once ((aget w.twinRes r.once).getD [] ++ res) })
/-- The results that a request of a shadow finds, once they are all there, and the state without them. -/
def takeTwin (s : State) (r : Req) : Option (State × List (Nat × List Word)) :=
  match (findWarp s r.w).bind (fun w => aget w.twinRes r.once) with
  | none => none
  | some res =>
    let mine (e : Nat × List Word) : Bool := r.accs.any (fun a => a.tid == e.1)
    if !r.accs.all (fun a => res.any (fun e => e.1 == a.tid)) then none
    else
      let rest := res.filter (fun e => !mine e)
      some (modWarp s r.w (fun x => { x with twinRes := if rest.isEmpty then adel x.twinRes r.once else aset x.twinRes r.once rest }),
        res.filter mine)

/-- Perform a load or atomic at its home: none where it must wait. -/
def performRead (s : State) (r : Req) : Option (State × List (Nat × List Word)) :=
  match reqHome s r with
  | none => none
  | some (l, core) =>
    if isOnce l r && r.w.shadow then takeTwin s r
    else if !mayPerform s r then none
    else
      let r0 := offCore s r
      let both := isOnce l r
      let out := match r.kind with
        | .load sg => perfLoad s l core r0 both sg
        | .atom op ty _ => perfAtom s l core r0 both op ty
        | _ => perfLoad s l core { r0 with dn := 64 } both false
      some (if both then leaveTwin out.1 r out.2 else out.1, out.2)

/-- A loaded epilogue program takes effect (R193, R195, R196): an invalid word raises 0x0F and nothing is written. -/
def finishEpld (s : State) (r : Req) (ix n : Nat) (words : List Word) : State :=
  match findWarp s r.w with
  | none => dropReq s r.id
  | some w =>
    let pc := match (w.threads.find? (fun t => t.st == .reply r.id)) with | some t => t.pc | none => 0
    let ws := groupWordsOf s w pc
    let bad := (List.range n).find? (fun k => !epValid (words.getD k 0))
    let lower (v : Warp) : Warp := lowerFlag v r.depth none r.sig
    let s1 := dropReq s r.id
    match bad with
    | some k =>
      let s2 := modWarp s1 r.w (fun v => (lower v).modThreads r.tids (fun t => { t with st := .ready }))
      let rz : Raise := { cause := 0x0F, tids := r.tids, faddr := ix + k }
      (deliver s2 r.w ws pc 0 rz none).getD s2
    | none =>
      modWarp s1 r.w (fun v =>
        let v1 := { v with epStore := (List.range n).foldl (fun m k => aput 0 m (ix + k) (words.getD k 0)) v.epStore }
        gotoPc (lower v1) r.tids (pc + 8 * ws.length))

/-- A load's or atomic's reply reaches its warp (R223, R247), after the performance where that is still to come, and where it comes from another
die when the way is clear (R15). -/
def replyTo (s : State) (r : Req) : State :=
  if r.done && !routeClear s r.route then s
  else if r.accs.any (accPoison s) && !r.done && (r.dcode != opZero || r.writes || (match r.kind with | .epld _ _ => true | _ => false)) &&
      mayPerform s r then
    let a := (r.accs.find? (accPoison s)).map (·.va)
    dropReq (consumeWarp s r.w 0x80 r.tids (a.getD 0)) r.id
  else
    match (if r.done then some (s, r.result) else performRead s r) with
    | none => s
    | some (s1, res) =>
      match r.kind with
      | .epld ix n => finishEpld s1 r ix n ((res.head?.map (·.2)).getD [])
      | _ => deliverReply s1 r res

/-- Every byte of a store written at its home. -/
def performStore (s : State) (r : Req) : Option State :=
  match reqHome s r with
  | none => none
  | some (l, core) =>
    if !mayPerform s r then none
    else some ((offCore s r).accs.foldl (fun acc a => raceWrite (writeAcc acc l core a) r false [] a) s)
/-! ## Loads and stores -/

/-- Registers of an access. -/
def regsOfSize (size : Nat) : Nat := if size = 8 then 2 else if size = 16 then 4 else 1
/-- A load (R220). -/
def ldUse (f : FWord) (x : Option LExt) (size : Nat) : Use :=
  { d := regsOfSize size, a := offRegs x, q := false, den := true, bad := !offOk f x }
/-- Issue a load of `size` bytes. -/
def loadOp (f : FWord) (x : Option LExt) (size : Nat) (sg : Bool) (s : State) : Host.Outcome State Fault Refusal :=
  issue (ldUse f x size) f x s (fun c f' tids =>
    memBody { seg := segOf f x, unit := size, size := size, align := size, use := .load, kind := .load sg, dcode := f'.d.toNat
              dn := regsOfSize size, cop := copOf x }
      { a := offRegs x } (isS f'.d.toNat) (fun _ => []) (fun _ => []) f' x s c tids)
/-- A store reads D (R220). -/
def stUse (f : FWord) (x : Option LExt) (size : Nat) : Use :=
  { dr := regsOfSize size, a := offRegs x, q := false, den := true, bad := !offOk f x }
/-- Bytes of registers. -/
def regBytes (size : Nat) (ws : List Word) : List Byte := ((ws.map (fun w => toBytes w.toNat 4)).flatten).take size
/-- Issue a store of `size` bytes. -/
def storeOp (f : FWord) (x : Option LExt) (size : Nat) (s : State) : Host.Outcome State Fault Refusal :=
  issue (stUse f x size) f x s (fun c f' tids =>
    memBody { seg := segOf f x, unit := size, size := size, align := size, use := .store, kind := .store, cop := copOf x }
      { a := offRegs x, dr := regsOfSize size } (isSZ f'.d.toNat && isSZ f'.a.toNat)
      (fun t => regBytes size (readGroup s c c.w tids t f'.d.toNat (regsOfSize size))) (fun _ => []) f' x s c tids)

/-- LD8, F form. -/
def execLd8F (f : FWord) (s : State) : Host.Outcome State Fault Refusal := loadOp f none 1 f.v s
/-- LD8, L form. -/
def execLd8L (f : FWord) (x : LExt) (s : State) : Host.Outcome State Fault Refusal := loadOp f (some x) 1 f.v s
/-- LD16, F form. -/
def execLd16F (f : FWord) (s : State) : Host.Outcome State Fault Refusal := loadOp f none 2 f.v s
/-- LD16, L form. -/
def execLd16L (f : FWord) (x : LExt) (s : State) : Host.Outcome State Fault Refusal := loadOp f (some x) 2 f.v s
/-- LD32, F form. -/
def execLd32F (f : FWord) (s : State) : Host.Outcome State Fault Refusal := loadOp f none 4 false s
/-- LD32, L form. -/
def execLd32L (f : FWord) (x : LExt) (s : State) : Host.Outcome State Fault Refusal := loadOp f (some x) 4 false s
/-- LD64, F form. -/
def execLd64F (f : FWord) (s : State) : Host.Outcome State Fault Refusal := loadOp f none 8 false s
/-- LD64, L form. -/
def execLd64L (f : FWord) (x : LExt) (s : State) : Host.Outcome State Fault Refusal := loadOp f (some x) 8 false s
/-- LD128, F form. -/
def execLd128F (f : FWord) (s : State) : Host.Outcome State Fault Refusal := loadOp f none 16 false s
/-- LD128, L form. -/
def execLd128L (f : FWord) (x : LExt) (s : State) : Host.Outcome State Fault Refusal := loadOp f (some x) 16 false s
/-- ST8, F form. -/
def execSt8F (f : FWord) (s : State) : Host.Outcome State Fault Refusal := storeOp f none 1 s
/-- ST8, L form. -/
def execSt8L (f : FWord) (x : LExt) (s : State) : Host.Outcome State Fault Refusal := storeOp f (some x) 1 s
/-- ST16, F form. -/
def execSt16F (f : FWord) (s : State) : Host.Outcome State Fault Refusal := storeOp f none 2 s
/-- ST16, L form. -/
def execSt16L (f : FWord) (x : LExt) (s : State) : Host.Outcome State Fault Refusal := storeOp f (some x) 2 s
/-- ST32, F form. -/
def execSt32F (f : FWord) (s : State) : Host.Outcome State Fault Refusal := storeOp f none 4 s
/-- ST32, L form. -/
def execSt32L (f : FWord) (x : LExt) (s : State) : Host.Outcome State Fault Refusal := storeOp f (some x) 4 s
/-- ST64, F form. -/
def execSt64F (f : FWord) (s : State) : Host.Outcome State Fault Refusal := storeOp f none 8 s
/-- ST64, L form. -/
def execSt64L (f : FWord) (x : LExt) (s : State) : Host.Outcome State Fault Refusal := storeOp f (some x) 8 s
/-- ST128, F form. -/
def execSt128F (f : FWord) (s : State) : Host.Outcome State Fault Refusal := storeOp f none 16 s
/-- ST128, L form. -/
def execSt128L (f : FWord) (x : LExt) (s : State) : Host.Outcome State Fault Refusal := storeOp f (some x) 16 s

/-! ## PRF and CCTL -/

/-- The access of a thread's byte where it would perform at once; none where it would fail or park. -/
def quietAcc (s : State) (c : Ctx) (m : MemOp) (t : Nat) (off : Int) : Option Acc :=
  let g := c.l.segAt m.seg
  match segCause c g m off with
  | some _ => none
  | none =>
    match segPieces c g { m with size := 1, align := 1 } t off [] [] false with
    | a :: _ =>
      (match a.space with
        | .phys => (match xlate s (partOf c.l.lk) a.va .load c.l.bound (some c.w.core) with | .ok pa => some { a with addr := pa } | _ => none)
        | _ => none)
    | [] => none
/-- PRF (R226): a hint. With V = 1 the L1 holds the line afterwards; a page on the CXL tier, or any access that would fail, does
nothing. -/
def execPrf (f : FWord) (s : State) : Host.Outcome State Fault Refusal :=
  issue { a := 1, q := false, den := true, bad := !offOk f none } f none s (fun c f' tids => forFree s c tids (fun s c tids =>
    let m : MemOp := { seg := f.bHi, unit := 128, size := 1, align := 1, use := .prefetch, kind := .load false }
    let s1 := if f.v then
        tids.foldl (fun acc t =>
          match quietAcc s c m t (memOff s c f' none 128 tids t) with
          | none => acc
          | some a =>
            let k := l1Core c.l c.w.core a.addr
            if !isHbm a.addr || (findLine acc k a.addr).isSome then acc else putLine acc (lineFor acc k (partOf c.l.lk) a)) s
      else s
    finish s1 c tids (schedF f) (applyMarks c.w { a := 1 } f' none s.iss.rep c.rk tids)))

/-- An earlier access of the partition has not performed that goes by a translation which an invalidation names: of its pages, or of any page
where it names none (R227). -/
def usesPage (s : State) (r : Req) : Bool :=
  s.reqs.any (fun q => decide (q.id < r.id) && !q.done && q.accesses && decide (partOf q.w.launch = partOf r.w.launch) &&
    q.accs.any (fun a => a.space == .phys &&
      (r.accs.isEmpty || r.accs.any (fun b => decide (b.va ≤ a.va) && decide (a.va < b.va + b.size)))))
/-- The page that holds an address, as a run of bytes. -/
def pageAcc (s : State) (p core tid va : Nat) : Acc :=
  let n := 2 ^ ((findLeaf s p va (some core)).map (·.shift)).getD 12
  accPiece tid .phys (va / n * n) 0 n [] [] false false false false
/-- CCTL on a line or page of each thread (R227): operations 0, 1, 2 and 5 name one and take the tests of R207 for one byte. An invalidation
of translations is outstanding while an earlier access that used one is. (DEDUCED, log 36) -/
def cctlBody (op : Nat) (f : FWord) (s : State) (c : Ctx) (tids : List Nat) : State :=
  let m : MemOp := { seg := f.bHi, unit := 1, size := 1, align := 1, use := if op = 5 then .unmap else .cache, kind := .inval }
  let named := op = 0 || op = 1 || op = 2 || op = 5
  let offs := tids.map (fun t => (t, memOff s c f none 1 tids t))
  match (if named then firstFail (offs.map (fun e => (e.1, e.2, segCause c (c.l.segAt m.seg) m e.2))) else none) with
  | some (k, bad, off) => raise s c { cause := k, tids := bad, faddr := wrapTo 64 off }
  | none =>
    let accs := if named then offs.filterMap (fun e => quietAcc s c m e.1 e.2) else []
    let hits (ln : L1Line) : Bool := accs.any (fun a => ln.core == l1Core c.l c.w.core a.addr && ln.line == a.addr / 128)
    let mine (ln : L1Line) : Bool := ln.core == c.w.core
    let vas := if op = 5 then (offs.map (fun e => segPieces c (c.l.segAt m.seg) m e.1 e.2 [] [] false)).flatten else []
    let s1 := match op with
      | 0 => flushLines s hits false
      | 1 => flushLines s hits true
      | 3 => flushLines s mine false
      | 4 => flushLines s mine true
      | 5 => vas.foldl (fun acc a => dropTlb acc (partOf c.l.lk) (some a.va)) s
      | 6 => dropTlb s (partOf c.l.lk) none
      | _ => s
    let w1 := applyMarks c.w { a := if named then 1 else 0 } f none s.iss.rep c.rk tids
    let r := mkReq s c m s.nextId f.sig.toNat tids (vas.map (fun a => pageAcc s (partOf c.l.lk) c.w.core a.tid a.va))
    if (op = 5 || op = 6) && usesPage s r then
      finish { s1 with reqs := s1.reqs ++ [{ r with order := 0 }], nextId := s1.nextId + 1 } c tids (schedF f).sent
        (raiseFlag w1 c.w.depth c.den f.sig.toNat)
    else finishWait s1 c tids (schedF f) [] w1
/-- Issue a CCTL operation: 5 and 6 are for the supervisor; 3, 4 and 6 ignore the offset. (DEDUCED, log 36) -/
def cctlOp (op : Nat) (f : FWord) (s : State) : Host.Outcome State Fault Refusal :=
  let u : Use := if op = 3 || op = 4 || op = 6 then { sup := decide (op = 6), den := true }
    else { a := 1, q := false, den := true, sup := decide (op = 5), bad := !offOk f none }
  issue u f none s (fun c f' tids => forFree s c tids (cctlBody op f'))
/-- CCTL.wbl1. -/
def execCctlWbl1 (f : FWord) (s : State) : Host.Outcome State Fault Refusal := cctlOp 0 f s
/-- CCTL.invl1. -/
def execCctlInvl1 (f : FWord) (s : State) : Host.Outcome State Fault Refusal := cctlOp 1 f s
/-- CCTL.invl2. -/
def execCctlInvl2 (f : FWord) (s : State) : Host.Outcome State Fault Refusal := cctlOp 2 f s
/-- CCTL.wball1. -/
def execCctlWball1 (f : FWord) (s : State) : Host.Outcome State Fault Refusal := cctlOp 3 f s
/-- CCTL.invall1. -/
def execCctlInvall1 (f : FWord) (s : State) : Host.Outcome State Fault Refusal := cctlOp 4 f s
/-- CCTL.tlbinv. -/
def execCctlTlbinv (f : FWord) (s : State) : Host.Outcome State Fault Refusal := cctlOp 5 f s
/-- CCTL.tlbinvall. -/
def execCctlTlbinvall (f : FWord) (s : State) : Host.Outcome State Fault Refusal := cctlOp 6 f s

/-! ## EPLD -/

/-- EPLD (R193 to R196): collective; one read of 4n bytes, for which the warp waits with its restart point before the
instruction. -/
def execEpld (f : FWord) (x : LExt) (s : State) : Host.Outcome State Fault Refusal :=
  let a := f.a.toNat
  let ix := x.xbits 0 6
  let n := x.xbits 6 6 + 1
  let okA := if x.far then isDesc a else isSZ a
  issueColl false s (fun c _ => matSpec f (!okA) (if x.far then [a, a + 1] else [a]) [] c) (fun c tids =>
    if ix + n > 64 then raise s c { cause := 0x0F, tids := tids, faddr := 64 } else
    if acqHeld s c.w tids then stall s c 2 else
    let m : MemOp := { seg := x.seg, unit := 4, size := 4 * n, align := 4, use := .load, kind := .epld ix n }
    let g := c.l.segAt m.seg
    let t := tids.headD 0
    let off := memOff s c f (some x) 4 tids t
    match segCause c g m off with
    | some k => raise s c { cause := k, tids := tids, faddr := wrapTo 64 off }
    | none =>
      let pieces := segPieces c g m t off [] [] false
      match (if skipped c t then none else (pieces.filterMap (fun p => (watchOf s c m p).map (fun w => (w, p.va)))).head?) with
      | some (w, va) => swapOutHit s c { cause := 0x71, tids := [t], faddr := va, unit := w, pc := c.pc }
      | none =>
        match translate s c m pieces with
        | .tier4 => stall s c 0
        | .park page k va =>
          if k.isSome && !fqRoom s (partOf c.l.lk) then stall s c 13 else parkOn s c false tids page k va
        | .perform accs =>
          let s1 := touchedBy s c false accs
          match raceHit s c 0 accs with
          | some r =>
            raise s c { cause := 0x30, tids := tids, faddr := wrapTo 64 off, peer := some (racePeer r 0) }
          | none =>
            let s2 := post (recordAll s1 c 0 accs) c.w.core (mkReq s c m s.nextId f.sig.toNat tids accs)
            modWarp s2 c.w.name (fun w =>
              (raiseFlag (passDone { w with hazards := c.w.hazards, holds := c.w.holds } c.pc c.grp (passDist (schedF f) s.iss.words tids false) true)
                c.w.depth none f.sig.toNat).modThreads tids (fun y => { y with st := .reply s.nextId })))

end Sys2Proof.Machine
end

