-- ==== Sys2Proof/Machine/Atomic.lean ====
section
/-! DEFINITION. The atomic instructions and RED (R240 to R247), FENCE (R239), RACEQ (R257), and requests that leave their die:
arrival, replay and the forwarding of replies (R249, R250, R418, R468). -/

namespace Sys2Proof.Machine

/-- How an atomic uses its fields: the F form reads D and writes it with the old value; in the L form `n` registers hold a
value of the type, and C is used by some (R240). -/
def atUse (f : FWord) (x : Option LExt) (n : Nat) (useC : Bool) : Use :=
  match x with
  | none => { d := 1, dr := 1, a := 1, q := false, den := true, bad := !offOk f none }
  | some e =>
    { d := n, a := offRegs x, b := n, c := if useC then n else 0, q := false, den := true
      preds := if useC && e.sp < 12 then [e.sp] else []
      bad := !offOk f x || (decide (12 ≤ e.sp) && decide (e.sp ≤ 14)) }
/-- Issue an atomic: operation `op` of R242, type `ty`. The uniform path makes one access (R244). -/
def atomOp (op ty : Nat) (useC : Bool) (f : FWord) (x : Option LExt) (s : State) : Host.Outcome State Fault Refusal :=
  let n := if isTy64 ty then 2 else 1
  issue (atUse f x n useC) f x s (fun c f' tids =>
    let ops (t : Nat) : List Word :=
      match x with
      | none => readGroup s c c.w tids t f'.d.toNat 1
      | some e => readGroup s c c.w tids t f'.b.toNat n ++ (if useC then readGroup s c c.w tids t e.c.toNat n else [])
    let sp := match x with | some e => if op = 10 then e.sp else 15 | none => 15
    memBody { seg := segOf f x, unit := 4, size := 4 * n, align := 4 * n, use := .atomic, kind := .atom op ty sp
              dcode := f'.d.toNat, dn := n }
      (match x with | none => { a := 1 } | some _ => { a := offRegs x, b := n }) (isS f'.d.toNat) (fun _ => []) ops f' x s c tids)

/-- ATADD, F form. -/
def execAtaddF (f : FWord) (s : State) : Host.Outcome State Fault Refusal := atomOp 0 7 false f none s
/-- ATADD, L form. -/
def execAtaddL (f : FWord) (x : LExt) (s : State) : Host.Outcome State Fault Refusal := atomOp 0 x.ty0 false f (some x) s
/-- ATMIN, F form: .i32, or .n32 with V = 1. -/
def execAtminF (f : FWord) (s : State) : Host.Outcome State Fault Refusal := atomOp 1 (if f.v then 7 else 2) false f none s
/-- ATMIN, L form. -/
def execAtminL (f : FWord) (x : LExt) (s : State) : Host.Outcome State Fault Refusal := atomOp 1 x.ty0 false f (some x) s
/-- ATMAX, F form. -/
def execAtmaxF (f : FWord) (s : State) : Host.Outcome State Fault Refusal := atomOp 2 (if f.v then 7 else 2) false f none s
/-- ATMAX, L form. -/
def execAtmaxL (f : FWord) (x : LExt) (s : State) : Host.Outcome State Fault Refusal := atomOp 2 x.ty0 false f (some x) s
/-- ATAND, F form. -/
def execAtandF (f : FWord) (s : State) : Host.Outcome State Fault Refusal := atomOp 3 7 false f none s
/-- ATAND, L form. -/
def execAtandL (f : FWord) (x : LExt) (s : State) : Host.Outcome State Fault Refusal := atomOp 3 x.ty0 false f (some x) s
/-- ATOR, F form. -/
def execAtorF (f : FWord) (s : State) : Host.Outcome State Fault Refusal := atomOp 4 7 false f none s
/-- ATOR, L form. -/
def execAtorL (f : FWord) (x : LExt) (s : State) : Host.Outcome State Fault Refusal := atomOp 4 x.ty0 false f (some x) s
/-- ATXOR, F form. -/
def execAtxorF (f : FWord) (s : State) : Host.Outcome State Fault Refusal := atomOp 5 7 false f none s
/-- ATXOR, L form. -/
def execAtxorL (f : FWord) (x : LExt) (s : State) : Host.Outcome State Fault Refusal := atomOp 5 x.ty0 false f (some x) s
/-- ATXCH, F form. -/
def execAtxchF (f : FWord) (s : State) : Host.Outcome State Fault Refusal := atomOp 6 7 false f none s
/-- ATXCH, L form. -/
def execAtxchL (f : FWord) (x : LExt) (s : State) : Host.Outcome State Fault Refusal := atomOp 6 x.ty0 false f (some x) s
/-- ATCAS: C holds the value compared. -/
def execAtcas (f : FWord) (x : LExt) (s : State) : Host.Outcome State Fault Refusal := atomOp 7 x.ty0 true f (some x) s
/-- ATINCW. -/
def execAtincw (f : FWord) (x : LExt) (s : State) : Host.Outcome State Fault Refusal := atomOp 8 7 false f (some x) s
/-- ATDECW. -/
def execAtdecw (f : FWord) (x : LExt) (s : State) : Host.Outcome State Fault Refusal := atomOp 9 7 false f (some x) s
/-- ATBADD: C holds the bound, SP names the predicate that receives success. -/
def execAtbadd (f : FWord) (x : LExt) (s : State) : Host.Outcome State Fault Refusal := atomOp 10 7 true f (some x) s
/-- ATFADD, F form: .f32. -/
def execAtfaddF (f : FWord) (s : State) : Host.Outcome State Fault Refusal := atomOp 11 0x0C false f none s
/-- ATFADD, L form. -/
def execAtfaddL (f : FWord) (x : LExt) (s : State) : Host.Outcome State Fault Refusal := atomOp 11 x.ty0 false f (some x) s
/-- RED (R245): the operation of ROP with no value returned; D is 0xC8. -/
def execRed (f : FWord) (x : LExt) (s : State) : Host.Outcome State Fault Refusal :=
  let n := if isTy64 x.ty0 then 2 else 1
  let u : Use := { a := offRegs (some x), b := n, q := false, den := true, bad := !offOk f (some x) || f.d.toNat != opZero }
  issue u f (some x) s (fun c f' tids =>
    memBody { seg := x.seg, unit := 4, size := 4 * n, align := 4 * n, use := .atomic
              kind := .atom (if x.rop = 6 then 11 else x.rop) x.ty0 15, dn := n }
      { a := offRegs (some x), b := n } false (fun _ => []) (fun t => readGroup s c c.w tids t f'.b.toNat n) f' (some x) s c tids)

/-! ## FENCE -/

/-- What an issue of threads `ts` still has to wait for at a fence (R239): earlier stores and atomics of the colours released, and
for the acquire part every earlier access. `id` bounds the requests that are earlier. -/
def fenceWaits (s : State) (n : WName) (id : Nat) (ts : List Nat) (rel acq : Bool) (mask : BitVec 8) : Bool :=
  s.reqs.any (fun r => decide (r.w = n) && decide (r.id < id) && r.accesses && !r.done && r.tids.any (fun t => ts.contains t) &&
    (acq || (rel && r.writes && mask.getLsbD r.colour)))
/-- A fence of some threads of a party is complete (R232, R239): its acquire part takes the releases that their reads have met, its release
part is what their later stores and atomics hand over. -/
def fenceEdges (s : State) (p : Party) (n : WName) (ts : List Nat) (scope : Nat) (rel acq : Bool) : State :=
  let s1 := if !acq then s else modRaceAny s n (fun r => ts.foldl (fun x t =>
      let met := taken s p scope (x.thread t).seen
      (met.foldl (fun y e => y.acquire p t e) x).modThread t (fun z => { z with seen := z.seen.filter (fun e => !met.contains e) })) r)
  if !rel then s1 else modRaceAny s1 n (fun r =>
    let (rels, r1) := r.release n p ts scope
    rels.foldl (fun x e => x.modThread e.1 (fun z => { z with fences := e.2 :: z.fences.filter (fun k => decide (k.scope ≠ scope)) })) r1)
/-- The L1 after a fence (R236): an acquire of gang scope or wider empties it of lines that are not private. -/
def fenceDrop (s : State) (l : Launch) (n : WName) (scope : Nat) (acq : Bool) : State :=
  match findWarp s n with
  | some w => if acq && decide (scope ≥ 2) then dropForAcquire s l w.core else s
  | none => s
/-- FENCE (R239): complete at once where nothing is outstanding, else it holds the later memory instructions of its threads until it is. -/
def execFence (f : FWord) (s : State) : Host.Outcome State Fault Refusal :=
  issue { den := true } f none s (fun c f' tids => forFree s c tids (fun s c tids =>
    let order := f'.d.toNat
    let scope := f'.a.toNat
    let rel := decide (order ≥ 2)
    let acq := order != 2
    if rel && mustCompare c then compareWait s c
    else if fenceWaits s c.w.name s.nextId tids rel acq f'.b then
      let m : MemOp := { seg := 0, unit := 1, size := 1, align := 1, use := .load, kind := .fence rel acq f'.b.toNat c.pc }
      let r : Req := { mkReq s c m s.nextId f'.sig.toNat tids [] with order := 0, scope := scope }
      finish { s with reqs := s.reqs ++ [r], nextId := s.nextId + 1 } c tids (schedF f).sent (raiseFlag c.w c.w.depth c.den f'.sig.toNat)
    else
      let s1 := finishWait s c tids (schedF f) [] c.w
      fenceDrop (fenceEdges s1 (partyOf c.w c.den) c.w.name tids scope rel acq) c.l c.w.name scope acq))
/-- What waits only for earlier accesses and has nothing left to wait for completes (R227, R239). -/
def settleReq (s : State) (r : Req) : State :=
  match r.kind with
  | .inval => if usesPage s r then s else completeReq s r (fun w => w)
  | .fence rel acq mask _ =>
    if fenceWaits s r.w r.id r.tids rel acq (BitVec.ofNat 8 mask) then s
    else
      let s1 := fenceEdges (completeReq s r (fun w => w)) r.party r.w r.tids r.scope rel acq
      (match findLaunch s r.w.launch with | some l => fenceDrop s1 l r.w r.scope acq | none => s1)
  | _ => s
/-- A stop finds a fence incomplete (R239): its threads that have not gone on from it stand before it again; for those that have, it stays
outstanding. (DEDUCED, log 97) -/
def unfence (s : State) (r : Req) : State :=
  match r.kind, findWarp s r.w with
  | .fence _ _ _ pc, some w =>
    let back := r.tids.filter (fun t => match w.thread t with
      | some x => decide (x.pc = pc + 8) && decide (x.rk = 0) && (x.st == .ready || (match x.st with | .retry _ => true | _ => false))
      | none => false)
    if back.isEmpty then s
    else
      let s1 := modWarp s r.w (fun v => v.modThreads back (fun t => { t with pc := pc, st := if t.den.isSome then t.st else .ready }))
      if back.length = r.tids.length then completeReq s1 r (fun v => v)
      else modReq s1 r.id (fun q => { q with tids := q.tids.filter (fun t => !back.contains t) })
  | _, _ => s

/-! ## RACEQ -/

/-- What RACEQ answers for the piece of one thread (R257). -/
def raceqWord (s : State) (c : Ctx) (kind : Nat) (a : Acc) : Word :=
  let quiet := (c.w.race.tabOf (partyOf c.w c.den)).quiet
  let probe (addr : Nat) (tracked : Bool) : Word :=
    let hit := tracked && !quiet && (raceWith s c.w c.den a.tid kind a.space addr).isSome
    (if hit then 1 else 0) + (if quiet then 2 else 0) + (if tracked then 0 else 4)
  match a.space with
  | .scratch _ _ _ => probe a.addr a.tracked
  | .phys =>
    match xlate s (partOf c.l.lk) a.va .load c.l.bound (some c.w.core) with
    | .ok pa => probe pa (a.tracked && isHbm pa)
    | .park _ _ => probe 0 false
/-- RACEQ (R257): probes the sector at each thread's offset; V = 0 asks for a load, V = 1 for a plain store. -/
def execRaceq (f : FWord) (s : State) : Host.Outcome State Fault Refusal :=
  let u : Use := { d := 1, a := 1, q := false, den := true, bad := !offOk f none }
  issue u f none s (fun c f' tids => forFree s c tids (fun s c tids =>
    let ts := if isUniform u f then tids.take 1 else tids
    let m : MemOp := { seg := f.bHi, unit := 32, size := 1, align := 1, use := .load, kind := .load false }
    let g := c.l.segAt m.seg
    let offs := ts.map (fun t => (t, memOff s c f' none 32 ts t))
    match firstFail (offs.map (fun e => (e.1, e.2, segCause c g m e.2))) with
    | some (k, bad, off) => raise s c { cause := k, tids := bad, faddr := wrapTo 64 off }
    | none =>
      let outs := offs.map (fun e =>
        match segPieces c g m e.1 e.2 [] [] true with
        | a :: _ => (e.1, raceqWord s c (if f.v then 1 else 0) a)
        | [] => (e.1, 4))
      let w1 := applyMarks c.w u f' none none 0 ts
      finish s c tids (schedF f) (giveEach c f' ts w1 outs)))

/-! ## Requests that leave their die -/

/-- The destination of a request that leaves its die: a slice, or a CXL port. -/
def reqSlice (r : Req) : Nat := (awayOf (r.src / 96) r.accs).getD 0
/-- Two requests of one source for one destination (R249). -/
def Req.sameWay (a b : Req) : Bool := a.seq.isSome && b.seq.isSome && a.src == b.src && reqSlice a == reqSlice b
/-- A reply retained at the destination slice (R249). -/
def retainedFor (s : State) (r : Req) : Option Retained :=
  match r.seq with
  | none => none
  | some q => s.retained.find? (fun e => decide (e.src = r.src) && decide (e.slice = reqSlice r) && decide (e.seq = q))
/-- A destination slice keeps the replies to the last 256 requests of each source (R249). -/
def retain (s : State) (e : Retained) : State :=
  let mine (k : Retained) : Bool := k.src == e.src && k.slice == e.slice
  { s with retained := e :: (((s.retained.filter mine).filter (fun k => k.seq != e.seq)).take 255 ++ s.retained.filter (fun k => !mine k)) }
/-- The number of the oldest request of a source for a destination that has not been answered. -/
def oldestSeq (s : State) (src slice : Nat) : Option Nat :=
  (s.reqs.find? (fun q => q.seq.isSome && q.src == src && reqSlice q == slice)).bind (·.seq)
/-- A number may be used: at most 256 of one source for one destination are outstanding, so that every reply which may be asked for again is
retained (R249, R468). -/
def inWindow (s : State) (src slice n : Nat) : Bool :=
  match oldestSeq s src slice with
  | some k => decide ((n + 65536 - k) % 65536 < 256)
  | none => true
/-- Whether a request has been sent (R249). -/
def reqSent (s : State) (r : Req) : Bool := match r.seq with | some n => inWindow s r.src (reqSlice r) n | none => true
/-- A request can arrive: its way is clear (R11, R15), and no earlier one on it is still to arrive before it (R11). -/
def mayArrive (s : State) (r : Req) : Bool :=
  reqSent s r && !r.lost && routeClear s r.route &&
  !s.reqs.any (fun q => decide (q.id < r.id) && q.sameWay r && q.route == r.route && !q.done && !q.lost && mayPerform s q)
/-- The retained reply, or the one performance of a request (R249, R250): what the state is then, and the reply. -/
def arriveOnce (s : State) (r : Req) : Option (State × List (Nat × List Word)) :=
  match retainedFor s r with
  | some e => some (s, e.result)
  | none =>
    match r.kind with
    | .store => (performStore s r).map (fun st => (st, []))
    | _ => performRead s r
/-- Whether performing a request would consume poisoned data (R459). -/
def consumes (s : State) (r : Req) : Bool :=
  r.accs.any (accPoison s) && (match r.kind with | .store => false | .load _ => r.dcode != opZero | _ => true)
/-- REMOTE_REQUEST_ARRIVAL (R249, R468): a request arrives at its home slice; one with a failed check is dropped unperformed, and lost until
its replay. (PRESUMED, log 87) -/
def execRemoteRequestArrival (id : Nat) (good : Bool) (s : State) : Host.Outcome State Fault Refusal :=
  match findReq s id with
  | none => .next s
  | some r =>
    match r.seq with
    | none => .next s
    | some q =>
      if r.done || !r.accesses || !mayArrive s r then .next s
      else if !good then .next (modReq s id (fun x => { x with lost := true }))
      else if consumes s r && (retainedFor s r).isNone && mayPerform s r then
        .next (dropReq (consumeWarp s r.w 0x80 r.tids (((r.accs.find? (accPoison s)).map (·.va)).getD 0)) r.id)
      else match arriveOnce s r with
        | none => .next s
        | some (s1, res) =>
          .next (modReq (retain s1 { src := r.src, slice := reqSlice r, seq := q, result := res }) id
            (fun x => { x with done := true, result := res }))

/-- A record of KIND 5 that halts a warp (R463, R402). -/
def haltWithRecord (s : State) (w : Warp) (code unit ref addr pc : Nat) (tids : List Nat) : State :=
  let p := partOf w.name.launch
  let (tok, s1) := newToken s p
  let s2 := modWarp s1 w.name (fun x => { x with halt := some { token := tok, code := code } })
  let tk : Token :=
    { token := tok, kind := 5, code := code, w := w.name, mask := maskOf tids, pc := pc, addr := addr, ref := ref, core := w.core }
  let s3 := modPart s2 p (fun x => { x with tokens := x.tokens ++ [tk] })
  pushRecord s3 p w.core w.name.launch
    { code := code, orig := 0, kind := 5, depth := w.depth, token := tok, lid := lidOf w.name.launch, blk := w.name.blk
      unit := unit, core := 0, warp := w.name.w, pc := pc, addr := addr, mask := maskOf tids }

/-- REPLAY_TIMEOUT (R468): the source has had no good reply for 16 µs. A request that its home holds answers with a pending
acknowledgement, which restarts the count; after 8 replays the warp stops with 0x83. -/
def execReplayTimeout (id : Nat) (s : State) : Host.Outcome State Fault Refusal :=
  match findReq s id with
  | none => .next s
  | some r =>
    if r.seq.isNone then .next s
    else if !r.done && !r.lost && routeUp s r.route && !mayPerform s r then .next (modReq s id (fun x => { x with replays := 0 }))
    else if r.replays < 8 then
      .next (countErr (modReq s id (fun x => { x with replays := x.replays + 1, lost := false, done := false, result := [] })) (partOf r.w.launch) 5)
    else match findWarp s r.w with
      | none => .next s
      | some w =>
        if w.halt.isSome || !fqRoom s (partOf r.w.launch) then .next s
        else .next (haltWithRecord s w 0x83 0 r.id (((r.accs.head?).map (·.va)).getD 0)
          (match w.threads.find? (fun t => r.tids.contains t.tid) with | some t => t.pc | none => 0) r.tids)

/-- REPLY_FORWARD (R418): the reply of a request whose warp has been stopped goes to its image, or to the warp where it runs. -/
def execReplyForward (id : Nat) (s : State) : Host.Outcome State Fault Refusal :=
  match findReq s id with
  | none => .next s
  | some r =>
    if !r.done then .next s
    else match r.kind with
      | .load _ => .next (completeReq s r (writeReply r (spread r r.result)))
      | .atom _ _ _ => .next (completeReq s r (writeReply r (spread r r.result)))
      | .store => .next (completeReq s r (fun w => w))
      | .edgeTake _ => .next (completeReq s r (writeReply r (spread r r.result)))
      | .tstat => .next (completeReq s r (writeReply r (spread r r.result)))
      | .kslot _ => .next (completeReq s r (writeReply r (spread r r.result)))
      | .fwcall _ _ => .next (completeReq s r (writeReply r (spread r r.result)))
      | .coll _ _ _ _ => .next (completeReq s r (writeReply r (spread r r.result)))
      | _ => .next s

end Sys2Proof.Machine
end

