-- ==== Sys2Proof/Machine/Collective.lean ====
section
/-! DEFINITION. Groups of a launch (R344), and the exact cross-rank reduction: NRSCL, NRSUM and the collective engines (R149 to
R154). -/

namespace Sys2Proof.Machine

/-! ## Groups -/

/-- Whether a block is a member of a group (R344). -/
def Group.has (g : Group) (b : Nat) : Bool :=
  if g.mode = 1 then g.list.contains b
  else decide (g.first ≤ b) && (b - g.first) % max 1 g.stride == 0 && decide ((b - g.first) / max 1 g.stride < g.count)
/-- A member's rank (R344). -/
def Group.rank (g : Group) (b : Nat) : Nat :=
  if g.mode = 1 then (g.list.takeWhile (· != b)).length else (b - g.first) / max 1 g.stride
/-- The lowest-numbered member. -/
def Group.low (g : Group) : Nat := if g.mode = 1 then g.list.headD 0 else g.first
/-- The group of an index that a block belongs to. -/
def memberGroup (c : Ctx) (k : Nat) : Option Group :=
  match c.l.groups[k]? with
  | some g => if g.has c.b.blk then some g else none
  | none => none
/-- The die that holds a group's barrier state (R324): that of its lowest member, where a launch has noted it. -/
def groupDie (l : Launch) (k : Nat) : Nat := agetD l.groupDies k 0

/-! ## Issue -/

/-- Contribute to a reduction (R150, R151, R154). `sum` is NRSUM. A burrow operand waits, or raises its cause, before the group and the exponents
are tested. (DESIGN CHOICE, log 98) -/
def reduceOp (sum : Bool) (f : FWord) (x : LExt) (s : State) : Host.Outcome State Fault Refusal :=
  let grp := x.xbits 0 8
  let tag := x.xbits 8 8
  let u : Use := { d := if sum then 2 else 1, a := 1, c := if sum then 1 else 0, feat := some 1 }
  issue u f (some x) s (fun c f' tids =>
    let ts := if isUniform u f' then tids.take 1 else tids
    let pops := qPops u f' (some x)
    let push := qPush u f'
    match qCause c.b c.w.name.w pops push ts.length with
    | some (k, n) => raise s c { cause := k, tids := ts, faddr := n }
    | none =>
      match qStall c.b pops push ts.length with
      | some (push, n) => stallAs s c (.burrow push n)
      | none =>
        if popsPoison c.b pops ts.length then consume s c 0x80 ts 0 else
        let (b1, qv) := popAll c.b c.w.name.w ts pops
        let ins := ts.map (fun t => aluIn s c u f' (some x) ts qv t)
        let exps := ins.map (fun i => (i.t, (w32 (if sum then i.c else i.a)).toInt))
        let bad := (exps.filter (fun e => e.2 < -32767 || e.2 > 32767)).map (·.1)
        match memberGroup c grp with
        | none => raise s c { cause := 0x53, tids := ts, faddr := grp }
        | some g =>
          if g.count > 65536 then raise s c { cause := 0x56, tids := ts, faddr := 1 }
          else if !bad.isEmpty then raise s c { cause := 0x56, tids := bad, faddr := 2 }
          else
            let (id, s1) := freshId s
            let accs := ins.map (fun i =>
              let a := accPiece i.t .phys 0 0 0 [] [w32 i.a, w32 i.c] false false false false
              { a with addr := if isUniform u f' then 0 else i.t })
            let r : Req :=
              { mkReq s c { seg := 0, unit := 1, size := 4, align := 4, use := .load, kind := .coll sum grp tag x.imm32.toNat
                            dcode := f'.d.toNat, dn := u.d } id f.sig.toNat ts accs with order := 0 }
            let (s2, w0) := qTransfer s1 c c.w ts pops none b1
            let w1 := raiseFlag (applyMarks w0 u f' (some x) none 0 ts) c.w.depth c.den f.sig.toNat
            finish { s2 with reqs := s2.reqs ++ [r] } c tids (schedF f).sent w1)

/-- NRSCL (R150). -/
def execNrscl (f : FWord) (x : LExt) (s : State) : Host.Outcome State Fault Refusal := reduceOp false f x s
/-- NRSUM (R151). -/
def execNrsum (f : FWord) (x : LExt) (s : State) : Host.Outcome State Fault Refusal := reduceOp true f x s

/-! ## The collective engines -/

/-- A chunk by its key (R149). -/
def findChunk (s : State) (lk : Nat) (sum : Bool) (grp tag idx : Nat) : Option Chunk :=
  s.chunks.find? (fun k => decide (k.lk = lk) && k.sum == sum && decide (k.grp = grp) && decide (k.tag = tag) && decide (k.idx = idx))
/-- Entries that the engine of a die holds (R153). -/
def engineEntries (s : State) (die : Nat) : Nat := (s.chunks.filter (fun k => k.dies.contains die)).length
/-- One contribution registered (R149 to R153): a duplicate adds nothing; one that would open an entry on a full engine waits. -/
def contribute (s : State) (lk : Nat) (sum : Bool) (grp tag idx : Nat) (g : Group) (l : Launch) (rank die : Nat) (m : Int) (e : Int) : State :=
  let open_ : Chunk :=
    { lk := lk, sum := sum, grp := grp, tag := tag, idx := idx, ranks := [], maxE := e, acc := 0, exp0 := e, mixed := false
      complete := false, dies := [] }
  let k := (findChunk s lk sum grp tag idx).getD open_
  let need := ([die, groupDie l grp].eraseDups).filter (fun d => !k.dies.contains d)
  if k.ranks.contains rank then s
  else if need.any (fun d => decide (engineEntries s d ≥ 8192)) then s
  else
    let ranks := insertNat rank k.ranks
    let k1 : Chunk :=
      { k with ranks := ranks, maxE := max k.maxE e, acc := k.acc + m, mixed := k.mixed || e != k.exp0
               complete := decide (ranks.length ≥ g.count), dies := k.dies ++ need }
    { s with chunks := k1 :: s.chunks.filter (fun y => !(decide (y.lk = lk) && y.sum == sum && decide (y.grp = grp) && decide (y.tag = tag) && decide (y.idx = idx))) }
/-- The registers that a complete chunk gives (R150, R151). -/
def chunkWords (k : Chunk) : List Word :=
  if !k.sum then [BitVec.ofInt 32 k.maxE]
  else
    let sum := if k.mixed then 0 else wrapTo 48 k.acc
    let e := if k.mixed then 0x8000 else wrapTo 16 k.exp0
    [BitVec.ofNat 32 sum, BitVec.ofNat 32 (sum / 2 ^ 32 + e * 65536)]
/-- The chunk index of a thread's contribution. -/
def chunkIdx (base : Nat) (a : Acc) : Nat := (base + a.addr) % 2 ^ 32

/-- The results that complete chunks give a request which has not had them, by thread (R149). -/
def collResults (s : State) (r : Req) : List (Nat × List Word) :=
  match r.kind with
  | .coll sum grp tag base => r.accs.filterMap (fun a =>
      match findChunk s r.w.launch sum grp tag (chunkIdx base a) with
      | some k => if k.complete then some (a.tid, chunkWords k) else none
      | none => none)
  | _ => []
/-- The results that are there reach their threads' registers; those for a burrow are kept until all are there. -/
def collGive (s : State) (r : Req) : State :=
  let res := collResults s r
  if res.isEmpty then s
  else
    let rest := r.accs.filter (fun a => !res.any (fun e => e.1 == a.tid))
    let s1 := if isQ r.dcode then s else modWarpAny s r.w (writeReply r res)
    if rest.isEmpty && !isQ r.dcode then completeReq s1 r (fun w => w)
    else modReq s1 r.id (fun q => { q with accs := rest, result := q.result ++ res })
/-- A request whose destination is a burrow, with all its results, pushes them where there is room and its threads'
earlier accesses have performed (R150, R329, R338); where the burrow is no longer bound they are discarded. (DESIGN CHOICE, log 98) -/
def collPush (s : State) (r : Req) : State :=
  match findBlock s r.w.launch r.w.blk r.w.shadow with
  | none => s
  | some b =>
    let n := r.dcode - 0xC0
    let res := r.tids.filterMap (fun t => r.result.find? (fun e => e.1 == t))
    if !(b.burrow n).bound then completeReq s r (fun w => w)
    else if (b.burrow n).occ + res.length > (b.burrow n).cap || accessesLeft s r.w r.id r.tids then s
    else
      let s1 := modBlock s r.w.launch r.w.blk r.w.shadow (fun _ => pushAll b r.w.w n (res.map (fun e => e.2.headD 0)))
      completeReq (pushEdges s1 r.party r.w r.tids (.scratch r.w.launch r.w.blk r.w.shadow) 1 (pushKeys b n res.length)) r (fun w => w)

/-- COLLECTIVE_CONTRIBUTION (R149 to R153): the engines register what an NRSCL or NRSUM sent, and the result of each chunk that is complete
then reaches every thread that has contributed to it. -/
def execCollectiveContribution (id : Nat) (s : State) : Host.Outcome State Fault Refusal :=
  match findReq s id with
  | none => .next s
  | some r =>
    match r.kind with
    | .coll sum grp tag base =>
      if r.accs.isEmpty then .next (collPush s r) else
      match findLaunch s r.w.launch with
      | none => .next s
      | some l =>
        match l.groups[grp]? with
        | none => .next s
        | some g =>
          let s1 := r.accs.foldl (fun acc a =>
            let x := (a.ops.getD 0 0).toInt
            contribute acc l.lk sum grp tag (chunkIdx base a) g l (g.rank r.w.blk) (r.src / 96) (if sum then x else 0)
              (if sum then (a.ops.getD 1 0).toInt else x)) s
          .next ((s1.reqs.filter (fun q => decide (q.w.launch = l.lk))).foldl collGive s1)
    | _ => .next s

/-- The completion of a group barrier ends the retention of the group's complete chunks (R153, R323). -/
def endRetention (s : State) (lk grp : Nat) : State :=
  { s with chunks := s.chunks.filter (fun k => !(decide (k.lk = lk) && decide (k.grp = grp) && k.complete)) }

end Sys2Proof.Machine
end

