-- ==== Sys2Proof/Machine/Copy.lean ====
section
/-! DEFINITION. The copy channels and package copy engines (R258 to R270): CPY, BCPY, CPYW, CPTR, CPRST, QFENCE, and the beats
that the engines deliver. -/

namespace Sys2Proof.Machine

/-- The queue of a package copy engine, as CopyEnt numbers it. -/
def engineCh (n : Nat) : Nat := 16 + n
/-- An entry belongs to the issuing block. -/
def CopyEnt.ofBlock (e : CopyEnt) (lk blk : Nat) (sh : Bool) : Bool :=
  decide (e.w.launch = lk) && decide (e.w.blk = blk) && decide (e.w.shadow = sh)
/-- Entries of a block in one queue, in issue order. (DEDUCED, log 40) -/
def blockEnts (s : State) (lk blk : Nat) (sh : Bool) (ch : Nat) : List CopyEnt :=
  s.copies.filter (fun e => decide (e.ch = ch) && e.ofBlock lk blk sh)
/-- The block's write pointer on a channel (R259). -/
def Block.ptr (b : Block) (ch : Nat) : Nat := (agetD b.wptr ch 0).toNat

/-! ## The descriptor -/

/-- A copy descriptor as read from eight s registers (R260). -/
structure CopyDesc where
  soff : Nat
  doff : Nat
  rb : Nat
  rows : Nat
  sp : Nat
  dp : Nat
/-- The descriptor that registers hold. -/
def copyDesc (ws : List Word) : CopyDesc :=
  let g (k : Nat) : Nat := (ws.getD k 0).toNat
  { soff := g 0 + g 1 * 2 ^ 32, doff := g 2 + g 3 * 2 ^ 32, rb := g 4, rows := g 5, sp := g 6, dp := g 7 }
/-- The first step of R261 but the last that an entry fails: cause and address. `chan` is the pointer plus the bytes queued, for a
copy channel. -/
def descTest (g h : Seg) (srcKinds dstKinds : List Nat) (d : CopyDesc) (chan : Option Nat) : Option (Nat × Nat) :=
  if !(srcKinds.contains g.kind && g.rd) || !(dstKinds.contains h.kind && h.wr) then some (0x11, 0)
  else match [d.soff, d.doff, d.sp, d.dp].find? (fun x => x % 4 ≠ 0) with
    | some x => some (0x12, x)
    | none =>
      if d.rb < 4 || d.rb > 2 ^ 24 || d.rb % 4 ≠ 0 then some (0x1A, 1)
      else if d.rows < 1 || d.rows > 65536 then some (0x1A, 2)
      else if d.rows > 1 && d.dp < d.rb then some (0x1A, 3)
      else match chan with
        | some n => if n + d.rb * d.rows > 2 ^ 32 - 1 then some (0x1A, 4) else none
        | none => none
/-- The lowest byte of a row of an extent that breaks R207 or R210, with its cause. -/
def rowFail (g : Seg) (smem gang : Nat) (a n : Nat) : Option (Nat × Nat) :=
  match g.kind with
  | 1 => if a + n > smem then some (0x17, max a smem) else none
  | 2 =>
    let blk := a / 2 ^ 18
    let out := if a + n > gang * 2 ^ 18 then some (0x18, max a (gang * 2 ^ 18)) else none
    let low := if a % 2 ^ 18 ≥ smem then a else blk * 2 ^ 18 + smem
    if low / 2 ^ 18 < gang && low < a + n && low % 2 ^ 18 ≥ smem then some (0x17, low) else out
  | _ => if a + n > g.limit then some (0x10, max a g.limit) else none
/-- The failing rows of an extent. -/
def extentFails (g : Seg) (smem gang off rb rows pitch : Nat) : List (Nat × Nat) :=
  (List.range rows).filterMap (fun r => rowFail g smem gang (off + r * pitch) rb)
/-- The last step of R261: reach, in the order of R279. -/
def reachTest (fails : List (Nat × Nat)) : Option (Nat × Nat) :=
  ([0x10, 0x17, 0x18].filterMap (fun k => (minNat ((fails.filter (fun f => f.1 == k)).map (·.2))).map (fun a => (k, a)))).head?

/-- Whether an operand may name a descriptor: s0, s8 … s56 (R260). -/
def descBase (a : Nat) : Bool := isS a && (a - 0x80) % 8 == 0
/-- The queue of an entry is full (R259, R270). -/
def copyFull (s : State) (core ch : Nat) : Bool :=
  if ch < 16 then decide ((s.copies.filter (fun e => decide (e.ch = ch) && decide (e.core = core))).length ≥ 16)
  else decide ((s.copies.filter (fun e => decide (e.ch = ch))).length ≥ 256)
/-- The agent of a queue, for entries of a block (R259, R268). -/
def copyAgent (lk blk ch : Nat) : Agent := if ch < 16 then .chan lk blk ch else if ch < 32 then .pkg lk blk (ch - 16) else .tier lk blk
/-- The bytes that a block's channel has delivered since the block started, over every CPRST (R252). -/
def Block.bytes (b : Block) (ch : Nat) : Nat := agetD b.wpast ch 0 + b.ptr ch
/-- An entry of a queue begins at an interval, with what happens before its issue (R232). -/
def Block.noteIssue (b : Block) (ch start : Nat) (k : Clock) : Block := { b with engclk := b.engclk ++ [(ch, start, k)] }
/-- What the entries of a queue that begin below an interval have after them: their issues, and the engine's accesses so far (R232). -/
def Block.engineClock (b : Block) (ch j : Nat) : Clock :=
  ((b.engclk.filter (fun e => decide (e.1 = ch) && decide (e.2.1 < j))).foldl (fun (k : Clock) e => k.join e.2.2) []).learn
    (copyAgent b.launch b.blk ch) j
/-- Queues up to intervals happen before what some threads of a warp do from now on (R232, R252, R264, R269). -/
def acquireEngines (c : Ctx) (tids : List Nat) (qs : List (Nat × Nat)) : RaceSt :=
  let p := partyOf c.w c.den
  qs.foldl (fun r q =>
    let k := c.b.engineClock q.1 q.2
    (tids.foldl (fun x t => x.receive t k) r).acquired p (.engine (copyAgent c.b.launch c.b.blk q.1)) q.2) c.w.race
/-- What happens before the issue of an entry by some threads, and their new intervals (R232). -/
def issueClock (r : RaceSt) (n : WName) (tids : List Nat) : Clock × RaceSt :=
  (tids.foldl (fun (k : Clock) t => k.join (r.before n t)) [], r.advance tids)

/-- Append a copy entry (R260, R270). `ch` is the channel, or 16 + the engine. -/
def copyOp (chan : Bool) (f : FWord) (x : LExt) (s : State) : Host.Outcome State Fault Refusal :=
  let n := f.d.toNat
  let ch := if chan then n else engineCh n
  let u : Use := { a := 8, q := false, zero := false, solo := true, bad := !descBase f.a.toNat || decide (n ≥ (if chan then 4 else 16)) }
  issue u f (some x) s (fun c f' tids =>
    let t := tids.headD 0
    if acqHeld s c.w tids then stall s c 2 else
    if copyFull s c.w.core ch then stall s c 14 else
    let ws := readGroup s c c.w tids t f'.a.toNat 8
    let d := copyDesc ws
    let ssrc := x.xbits 0 4
    let sdst := x.xbits 4 4
    let g := c.l.segAt ssrc
    let h := c.l.segAt sdst
    let mine := blockEnts s c.l.lk c.b.blk c.b.shadow ch
    let queued := c.b.ptr ch + (mine.map (fun e => e.rb * e.rows - e.done)).foldl (· + ·) 0
    let first := descTest g h (if chan then [0, 6, 4, 1, 2] else [0, 6]) (if chan then [0, 6, 1, 2] else [0, 6]) d
      (if chan then some queued else none)
    match first.orElse (fun _ => reachTest (extentFails g c.l.pkt.smem c.l.pkt.gang d.soff d.rb d.rows d.sp ++
        extentFails h c.l.pkt.smem c.l.pkt.gang d.doff d.rb d.rows d.dp)) with
    | some (k, a) => raise s c { cause := k, tids := [t], faddr := a }
    | none =>
      let once := h.kind = 0 || h.kind = 6
      if once && mustCompare c then compareWait s c else
      let (id, s1) := freshId s
      let before := issueClock c.w.race c.w.name tids
      let e : CopyEnt :=
        { id := id, core := c.w.core, ch := ch, w := c.w.name, tid := t, depth := c.w.depth, ssrc := ssrc, sdst := sdst
          soff := d.soff, doff := d.doff, rb := d.rb, rows := d.rows, sp := d.sp, dp := d.dp, ptr0 := none, done := 0
          sig := f.sig.toNat, pc := c.pc, token := none
          party := partyOf c.w none, ivl := (c.w.race.thread t).ivl, clk := before.1 }
      let s2 := modBlock { s1 with copies := s1.copies ++ [e] } c.l.lk c.b.blk c.b.shadow
        (fun b => b.noteIssue ch (if chan then agetD c.b.wpast ch 0 + queued else id) before.1)
      let w1 := raiseFlag { c.w with race := before.2 } c.w.depth none f.sig.toNat
      let w2 := if c.l.twin then
          { w1 with sig := crcBytes w1.sig (sigBytes sdst d.doff 32 t ((ws.map (fun y => toBytes y.toNat 4)).flatten)) } else w1
      finish s2 c tids (schedF f).sent w2)
/-- CPY (R260). -/
def execCpy (f : FWord) (x : LExt) (s : State) : Host.Outcome State Fault Refusal := copyOp true f x s
/-- BCPY (R270). -/
def execBcpy (f : FWord) (x : LExt) (s : State) : Host.Outcome State Fault Refusal := copyOp false f x s

/-! ## Waiting for engines -/

/-- CPYW (R264). -/
def execCpyw (f : FWord) (s : State) : Host.Outcome State Fault Refusal :=
  let u : Use := { b := 1, q := false, solo := true, bad := decide (f.d.toNat ≥ 4) || (!f.i && !isSZ f.b.toNat) }
  issue u f none s (fun c f' tids =>
    if acqHeld s c.w tids then stall s c 2 else
    let n := if f.i then f.b.toNat * 64 else (readCode s c c.w tids (tids.headD 0) f'.b.toNat).toNat
    let ch := f.d.toNat
    if c.b.ptr ch < n then stall s c 14
    else finishWait s c tids (schedF f) [] { c.w with race := acquireEngines c tids [(ch, agetD c.b.wpast ch 0 + n)] })
/-- CPTR (R265). -/
def execCptr (f : FWord) (s : State) : Host.Outcome State Fault Refusal :=
  let u : Use := { d := 1, q := false, bad := decide (f.a.toNat ≥ 4) }
  issue u f none s (fun c f' tids => forFree s c tids (fun s c tids =>
    let ch := f.a.toNat
    finish s c tids (schedF f)
      (giveWord c u f' tids { c.w with race := acquireEngines c tids [(ch, c.b.bytes ch)] } (BitVec.ofNat 32 (c.b.ptr ch)))))
/-- CPRST (R266). -/
def execCprst (f : FWord) (s : State) : Host.Outcome State Fault Refusal :=
  issue { bad := decide (f.d.toNat ≥ 4), solo := true } f none s (fun c _ tids =>
    let ch := f.d.toNat
    if acqHeld s c.w tids then stall s c 2 else
    if !(blockEnts s c.l.lk c.b.blk c.b.shadow ch).isEmpty then stall s c 14
    else finishWait (modBlock s c.l.lk c.b.blk c.b.shadow (fun b =>
        { b with wptr := adel b.wptr ch, wpast := aput 0 b.wpast ch (b.bytes ch) })) c tids (schedF f) [] c.w)
/-- The queues that QFENCE names: channels, then engines (R269). -/
def fenceQueues (f : FWord) : List Nat :=
  (List.range 4).filter (fun k => f.d.getLsbD k) ++
  ((List.range 8).filter (fun k => f.a.getLsbD k)).map engineCh ++
  ((List.range 8).filter (fun k => f.b.getLsbD k)).map (fun k => engineCh (8 + k))
/-- Tier requests of a block, issued before a number, that have not landed or been cancelled. -/
def blockTier (s : State) (lk blk : Nat) (sh : Bool) (upTo : Nat) : Bool :=
  s.reqs.any (fun r => (match r.kind with | .tmove n => decide (n > 0) | _ => false) && decide (r.id < upTo) && decide (r.w.launch = lk) &&
    decide (r.w.blk = blk) && decide (r.w.shadow = sh))
/-- The queue by which `engclk` names the tier queue. -/
def tierCh : Nat := 32
/-- The number below which entries count for a QFENCE: as it was when the threads first came to it (R269). -/
def qfenceUpTo (s : State) (c : Ctx) (tids : List Nat) : Nat :=
  match c.w.thread (tids.headD 0) with
  | some x => (match x.st with | .engines k => k | _ => s.nextId)
  | none => s.nextId
/-- QFENCE (R269): an acquire at device scope once every entry that the block placed earlier in the queues has performed. -/
def execQfence (f : FWord) (s : State) : Host.Outcome State Fault Refusal :=
  issue { bad := decide (f.d.toNat ≥ 32), solo := true } f none s (fun c _ tids =>
    if acqHeld s c.w tids then stall s c 2 else
    let qs := fenceQueues f
    let upTo := qfenceUpTo s c tids
    if qs.any (fun ch => (blockEnts s c.l.lk c.b.blk c.b.shadow ch).any (fun e => decide (e.id < upTo))) ||
        (f.d.getLsbD 4 && blockTier s c.l.lk c.b.blk c.b.shadow upTo)
    then stallAs s c (.engines upTo)
    else
      let race := acquireEngines c tids ((qs ++ (if f.d.getLsbD 4 then [tierCh] else [])).map (fun ch => (ch, if ch < 16 then c.b.bytes ch else upTo)))
      finishWait (dropForAcquire s c.l c.w.core) c tids (schedF f) [] { c.w with race := race })

/-! ## Beats -/

/-- How one end of a copied word is reached. -/
inductive CEnd where
  | ok (sp : Space) (addr va : Nat) (tracked : Bool)
  | wait
  | stop (cause va : Nat)
  deriving DecidableEq, Repr
/-- Bytes of the flash tier (R19, R21): the fitted 16 TiB, or on an FG3-PK what the IOD can address. -/
def flashBytes (s : State) : Nat := if s.cfgRec.order = 0 then 2 ^ 46 else 2 ^ 44
/-- Reach the word at an offset of a segment (R263, R270). `flash` says that a page in TIER 5 is read from its flash copy; one whose locator
lies beyond the flash tier is answered as a frame that the partition has not, with 0x14. (DESIGN CHOICE, log 99) -/
def copyEnd (s : State) (l : Launch) (rank0 blk : Nat) (sh : Bool) (seg off : Nat) (k : Access) (flash : Bool) : CEnd :=
  let g := l.segAt seg
  match g.kind with
  | 1 => .ok (.scratch l.lk blk sh) off off true
  | 2 => .ok (.scratch l.lk (rank0 + off / 2 ^ 18) sh) (off % 2 ^ 18) off true
  | _ =>
    let va := g.base + off
    match xlate s (partOf l.lk) va k l.bound with
    | .ok pa => if k == .store && isCow s (partOf l.lk) va then .wait else .ok .phys pa va (isHbm pa && g.kind != 4)
    | .park _ none => .wait
    | .park _ (some c) =>
      if c = 0x15 && flash then
        match findLeaf s (partOf l.lk) va with
        | some lf =>
          let at_ := bitsOf lf.pte.toNat 12 40 * 4096 + va % 2 ^ lf.shift
          if at_ < flashBytes s then .ok .phys (flashBase + at_) va false else .stop 0x14 va
        | none => .stop c va
      else .stop c va
/-- The source and destination offsets of the word at a stream position (R262). -/
def CopyEnt.word (e : CopyEnt) (p : Nat) : Nat × Nat :=
  (e.soff + p / e.rb * e.sp + p % e.rb, e.doff + p / e.rb * e.dp + p % e.rb)
/-- The stream positions of the words of an entry's next beat. -/
def CopyEnt.beat (e : CopyEnt) : List Nat :=
  (List.range ((min 64 (e.rb * e.rows - e.done)) / 4)).map (fun k => e.done + 4 * k)
/-- Poison that a write of poisoned data makes (R458). (DEDUCED, log 39) -/
def newPoison (s : State) (p pa n : Nat) : State :=
  let fresh := (granulesOf pa n).filter (fun g => !s.poison.contains g)
  match fresh with
  | [] => s
  | g :: _ =>
    let s1 := fresh.foldl (fun acc _ => countErr acc p 6) (markPoison s pa n)
    modPart s1 p (fun q => { q with lastpa := (fresh.getLastD g) * 64 })
/-- The bytes at an end, and whether they are poisoned. -/
def endRead (s : State) (sp : Space) (addr : Nat) : List Byte × Bool :=
  match sp with
  | .phys => (readBytes s.mem addr 4, isPoisoned s addr 4)
  | .scratch lk blk sh =>
    (scratchBytes s lk blk sh addr 4, match findBlock s lk blk sh with | some b => b.spoison.contains (addr / 4) | none => false)
/-- A run of words that lie side by side in one space, merged. -/
def mergeRuns : List (Space × Nat × Nat × List Byte) → List (Space × Nat × Nat × List Byte)
  | [] => []
  | (sp, a, va, bs) :: rest =>
    match mergeRuns rest with
    | (sp2, a2, va2, bs2) :: more =>
      if sp = sp2 ∧ a + bs.length = a2 then (sp, a, va, bs ++ bs2) :: more else (sp, a, va, bs) :: (sp2, a2, va2, bs2) :: more
    | [] => [(sp, a, va, bs)]
/-- A run written by an engine: memory, dirty tracking, poison covered whole cleared (R263, R460). -/
def engineWrite (s : State) (p : Nat) (e : Space × Nat × Nat × List Byte) : State :=
  match e.1 with
  | .phys => markGranule (writePhys s e.2.1 e.2.2.2) p e.2.2.1
  | .scratch lk blk sh => modBlock s lk blk sh (fun b => scratchWrite b e.2.1 e.2.2.2)
/-- Lines of the issuing core's L1 that a physical run touches are dropped (R262). -/
def dropLines (s : State) (l : Launch) (core a n : Nat) : State :=
  { s with l1 := s.l1.filter (fun ln => !((if l.flag 2 then decide (ln.core / 4 = core / 4) else decide (ln.core = core)) &&
      !ln.priv && decide (ln.line * 128 < a + n) && decide (a < ln.line * 128 + 128))) }
/-- An engine's record of an access (R254, R268): a read is the issuing thread's, a write the queue's. -/
def engineRec (e : CopyEnt) (write : Bool) (ivl va : Nat) : AccRec :=
  if write then
    { src := copyAgent e.w.launch e.w.blk e.ch, ivl := ivl, party := .engine (copyAgent e.w.launch e.w.blk e.ch), kind := if e.ch < 16 then 5 else 6
      lk := e.w.launch, blk := e.w.blk, ftid := if e.ch < 16 then e.ch else e.ch - 16, den := false, gran := va / 65536 }
  else
    { src := agentOf e.w e.tid, ivl := e.ivl, party := e.party, kind := 0, lk := e.w.launch, blk := e.w.blk, ftid := e.w.w * 128 + e.tid
      den := false, gran := va / 65536 }
/-- A copy entry stops on a record to the supervisor (R263). -/
def copyStop (s : State) (e : CopyEnt) (cause va : Nat) : State :=
  let p := partOf e.w.launch
  if !fqRoom s p then s else
  let (tok, s1) := newToken s p
  let s2 := { s1 with copies := s1.copies.map (fun y => if y.id = e.id then { y with token := some tok } else y) }
  let kind := if e.ch < 16 then 1 else 2
  let tk : Token :=
    { token := tok, kind := kind, code := cause, w := e.w, mask := maskOf [e.tid], pc := e.pc, addr := va, ref := e.id, core := e.core }
  let s3 := modPart s2 p (fun q => { q with tokens := q.tokens ++ [tk] })
  pushRecord s3 p e.core e.w.launch
    { code := cause, orig := 0, kind := kind, depth := e.depth, token := tok, lid := lidOf e.w.launch, blk := e.w.blk
      unit := if e.ch < 16 then e.ch else e.ch - 16, core := 0, warp := e.w.w, pc := e.pc, addr := va, mask := maskOf [e.tid] }
/-- The entry is done: it leaves its queue and its flag is lowered where the context runs (R259, R277). -/
def copyDone (s : State) (e : CopyEnt) : State :=
  modWarpAny { s with copies := s.copies.filter (fun y => y.id ≠ e.id) } e.w (fun w => lowerFlag w e.depth none e.sig)

/-- The ends of the words of a beat, in stream order. -/
def beatEnds (s : State) (l : Launch) (rank0 : Nat) (e : CopyEnt) : List (Nat × CEnd × CEnd) :=
  e.beat.map (fun p =>
    let (so, d) := e.word p
    (p, copyEnd s l rank0 e.w.blk e.w.shadow e.ssrc so .load (decide (e.ch ≥ 16)),
        copyEnd s l rank0 e.w.blk e.w.shadow e.sdst d .store false))
/-- Deliver the words of a beat whose every end is reached (R262, R263). `past` are the channel's bytes before its last CPRST. A shadow's writes to memory are the primary's (R466). -/
def beatMove (s : State) (l : Launch) (e : CopyEnt) (ends : List (Nat × CEnd × CEnd)) (past ptr : Nat) : State :=
  let p := partOf l.lk
  let segs := l.segAt e.ssrc
  let segd := l.segAt e.sdst
  let once := l.twin && e.w.shadow && (segd.kind = 0 || segd.kind = 6)
  let words := ends.filterMap (fun w =>
    match w.2.1, w.2.2 with
    | .ok sp a va tr, .ok sp2 a2 va2 tr2 => some (w.1, (sp, a, va, tr), (sp2, a2, va2, tr2), endRead s sp a)
    | _, _ => none)
  let s1 := words.foldl (fun acc w => if w.2.1.1 = .phys && segs.kind != 1 && segs.kind != 2 then touchLeaf acc p w.2.1.2.2.1 false else acc) s
  let s2 := words.foldl (fun acc w => if w.2.1.2.2.2 then raceRecord acc (engineRec e false 0 w.2.1.2.2.1) e.clk w.2.1.1 w.2.1.2.1 else acc) s1
  if once then s2 else
  let s3 := words.foldl (fun acc w => if w.2.2.1.1 = .phys then touchLeaf acc p w.2.2.1.2.2.1 true else acc) s2
  let runs := mergeRuns (words.map (fun w => (w.2.2.1.1, w.2.2.1.2.1, w.2.2.1.2.2.1, w.2.2.2.1)))
  let s4 := runs.foldl (fun acc r => engineWrite acc p r) s3
  let s5 := words.foldl (fun acc w =>
    if !w.2.2.2.2 then acc
    else match w.2.2.1.1 with
      | .phys => newPoison acc p w.2.2.1.2.1 4
      | .scratch lk blk sh => modBlock acc lk blk sh (fun b => { b with spoison := insertNat (w.2.2.1.2.1 / 4) b.spoison })) s4
  let s6 := words.foldl (fun acc w =>
    if w.2.2.1.2.2.2 then
      raceRecord (raceOverwrite acc w.2.2.1.1 w.2.2.1.2.1 4) (engineRec e true (if e.ch < 16 then past + ptr + (w.1 - e.done) + 4 else e.id) w.2.2.1.2.2.1) e.clk
        w.2.2.1.1 w.2.2.1.2.1
    else acc) s5
  if e.ch < 16 then runs.foldl (fun acc r => if r.1 = .phys then dropLines acc l e.core r.2.1 r.2.2.2.length else acc) s6 else s6

/-- The die and the source of a queue's traffic: the issuing core's, or the IOD with the engine's own number (R249). (DESIGN CHOICE, log 96) -/
def CopyEnt.source (e : CopyEnt) : Nat × Nat := if e.ch < 16 then (dieOf e.core, sourceSlice e.core) else (4, 384 + (e.ch - 16))
/-- The destinations outside that die which the words of a beat reach. -/
def beatFar (e : CopyEnt) (ends : List (Nat × CEnd × CEnd)) : List Nat :=
  ((ends.map (fun w => [w.2.1, w.2.2])).flatten.filterMap (fun x =>
    match x with | .ok .phys pa _ _ => farHome e.source.1 pa | _ => none)).eraseDups
/-- The traffic of a beat may go: each way is clear, and has a number to give (R11, R15, R249). -/
def beatClear (s : State) (e : CopyEnt) (fars : List Nat) : Bool :=
  fars.all (fun k => routeClear s (routeOf s e.source.1 (destDie k)) && inWindow s e.source.2 k (agetD s.seqs (seqKey e.source.2 k) 0))
/-- The traffic of a beat takes the next number for each destination, which retains its answer (R249). -/
def beatNumber (s : State) (e : CopyEnt) (fars : List Nat) : State :=
  fars.foldl (fun acc k =>
    let n := agetD acc.seqs (seqKey e.source.2 k) 0
    retain { acc with seqs := aset acc.seqs (seqKey e.source.2 k) ((n + 1) % 65536) } { src := e.source.2, slice := k, seq := n, result := [] }) s
/-- Whether an entry is the one its queue works on for its block: the first, and not stopped on a record. -/
def copyHead (s : State) (e : CopyEnt) : Bool :=
  e.token.isNone && (match blockEnts s e.w.launch e.w.blk e.w.shadow e.ch with | h :: _ => decide (h.id = e.id) | [] => false)
/-- One beat of an entry; the block's pointer advances on a copy channel. -/
def copyBeat (s : State) (e : CopyEnt) : State :=
  match findLaunch s e.w.launch with
  | none => s
  | some l =>
    let rank0 := e.w.blk / max 1 l.pkt.gang * max 1 l.pkt.gang
    let ends := beatEnds s l rank0 e
    match ends.findSome? (fun w => match w.2.1, w.2.2 with | .stop k va, _ => some (k, va) | _, .stop k va => some (k, va) | _, _ => none) with
    | some (k, va) => copyStop s e k va
    | none =>
      let fars := beatFar e ends
      if ends.any (fun w => decide (w.2.1 = .wait) || decide (w.2.2 = .wait)) || !beatClear s e fars then s
      else
        let (past, ptr) := match findBlock s e.w.launch e.w.blk e.w.shadow with | some b => (agetD b.wpast e.ch 0, b.ptr e.ch) | none => (0, 0)
        let n := 4 * ends.length
        let s1 := beatMove (beatNumber s e fars) l e ends past ptr
        let s2 := if e.ch < 16 then
            modBlock s1 e.w.launch e.w.blk e.w.shadow (fun b => { b with wptr := aput 0 b.wptr e.ch (BitVec.ofNat 32 (ptr + n)) })
          else s1
        if e.done + n ≥ e.rb * e.rows then copyDone s2 e
        else { s2 with copies := s2.copies.map (fun y => if y.id = e.id then { y with done := y.done + n, ptr0 := some (y.ptr0.getD ptr) } else y) }
/-- COPY_BEAT (R262): a copy channel delivers one beat of an entry whose gang runs. -/
def execCopyBeat (id : Nat) (s : State) : Host.Outcome State Fault Refusal :=
  match s.copies.find? (fun e => decide (e.id = id)) with
  | none => .next s
  | some e => if e.ch < 16 && copyHead s e && gangRuns s e.w then .next (copyBeat s e) else .next s
/-- PACKAGE_COPY_BEAT (R270): a package copy engine delivers one beat of an entry, whatever becomes of its context. -/
def execPackageCopyBeat (id : Nat) (s : State) : Host.Outcome State Fault Refusal :=
  match s.copies.find? (fun e => decide (e.id = id)) with
  | none => .next s
  | some e => if e.ch ≥ 16 && copyHead s e then .next (copyBeat s e) else .next s

end Sys2Proof.Machine
end

