-- ==== Sys2Proof/Machine/Tier.lean ====
section
/-! DEFINITION. The tier engine (R271 to R276): TMOVE, TSTAT, TCNCL, the start and the landing of a move; and LOAD_REPLY, which
brings the answers of loads and of TSTAT. -/

namespace Sys2Proof.Machine

/-- 2 MiB. -/
def pageBytes : Nat := 2 ^ 21
/-- The page of 2 MiB that holds a virtual address. -/
def pageOf (va : Nat) : Nat := va / pageBytes * pageBytes
/-- The leaf that memory holds for a page now. -/
def pageLeaf (s : State) (p va : Nat) : Option LeafAt := walkFrom s.mem va (findPart s p).troot 5
/-- The leaf is one of 2 MiB. -/
def LeafAt.is2M (l : LeafAt) : Bool := l.shift == 21
/-- Requests of a page that wait (R272). -/
def tierQueued (s : State) (p page : Nat) : List TierReq :=
  s.tier.filter (fun r => decide (r.part = p) && decide (r.page = page) && !r.moving)
/-- The move in flight of a page. -/
def tierMoving (s : State) (p page : Nat) : Option TierReq :=
  s.tier.find? (fun r => decide (r.part = p) && decide (r.page = page) && r.moving)

/-! ## Frames and quotas -/

/-- 2 MiB frames that a partition has in use in a tier (R273): those of its ranges that are not in its pools. -/
def tierUsed (s : State) (p tier : Nat) : Nat :=
  let q := findPart s p
  (((q.ranges.filter (fun r => r.1 == tier)).map (fun r => r.2.2 / pageBytes)).foldl (· + ·) 0) -
    (q.pool.filter (fun e => e.1 == tier)).length
/-- The quota of a tier (R273). -/
def tierQuota (s : State) (p tier : Nat) : Nat :=
  let q := findPart s p
  if tier = 1 then q.qhbm else if tier = 4 then q.qcxl else q.qflash
/-- The die or port with the most free frames, the lowest number on a tie (R274). -/
def bestPlace (s : State) (p tier : Nat) : Nat :=
  let n (k : Nat) : Nat := ((findPart s p).pool.filter (fun e => e.1 == tier && e.2.1 == k)).length
  [1, 2, 3].foldl (fun best k => if n k > n best then k else best) 0
/-- A free frame of a tier, at a place where the tier has places. -/
def poolFrame (s : State) (p tier place : Nat) : Option (Nat × Nat × Nat) :=
  (findPart s p).pool.find? (fun e => e.1 == tier && (tier == 5 || e.2.1 == place))
/-- A frame leaves a pool. -/
def poolTake (s : State) (p : Nat) (e : Nat × Nat × Nat) : State :=
  modPart s p (fun q => { q with pool := q.pool.filter (fun x => x != e) })
/-- A frame returns to a pool. -/
def poolGive (s : State) (p : Nat) (e : Nat × Nat × Nat) : State := modPart s p (fun q => { q with pool := q.pool ++ [e] })
/-- The die or port of a frame. -/
def placeOf (tier frame : Nat) : Nat :=
  if tier = 1 then frame / (144 * 2 ^ 30) else if tier = 4 then (frame - 0x040000000000) / 2 ^ 40 else 0

/-! ## Moves -/

/-- A leaf rewritten in memory, and no TLB holds the page any longer. -/
def setLeaf (s : State) (p va : Nat) (l : LeafAt) (e : Nat) : State :=
  dropTlb { s with mem := writeBytes s.mem l.pa (toBytes e 8) } p (some va)
/-- A leaf with another TIER. -/
def withTier (e : BitVec 64) (tier : Nat) : Nat := bitsOf e.toNat 0 53 + tier * 2 ^ 53 + bitsOf e.toNat 56 8 * 2 ^ 56
/-- A leaf with another FRAME and TIER. -/
def withFrame (e : BitVec 64) (frame tier : Nat) : Nat :=
  bitsOf e.toNat 0 12 + frame / 4096 % 2 ^ 40 * 4096 + tier * 2 ^ 53 + bitsOf e.toNat 56 8 * 2 ^ 56
/-- Where the bytes of a frame stand in memory. (DESIGN CHOICE, log 2) -/
def frameAddr (tier frame : Nat) : Nat := if tier = 5 then flashBase + frame else frame
/-- A run of memory copied, byte for byte. -/
def copyMem (m : List Host.Cell) (src dst n : Nat) : List Host.Cell :=
  let mine := m.filter (fun e => decide (src ≤ e.1) && decide (e.1 < src + n))
  let rest := m.filter (fun e => !(decide (dst ≤ e.1) && decide (e.1 < dst + n)))
  mine.foldl (fun acc e => writeByte acc (e.1 - src + dst) e.2) rest
/-- The poison of a run of memory copied with it (R458). (DEDUCED, log 39) -/
def copyPoison (ps : List Nat) (src dst n : Nat) : List Nat :=
  let keep := ps.filter (fun g => !(decide (dst ≤ g * 64) && decide (g * 64 < dst + n)))
  (ps.filter (fun g => decide (src ≤ g * 64) && decide (g * 64 < src + n))).foldl (fun acc g => insertNat (g + dst / 64 - src / 64) acc) keep
/-- Whether anything still to perform touches a frame of physical memory: requests in flight and a twin's waiting stores. -/
def frameBusy (s : State) (frame : Nat) (writes : Bool) : Bool :=
  s.reqs.any (fun r => !r.done && r.accesses && (!writes || r.writes) &&
    r.accs.any (fun a => a.space == .phys && decide (frame ≤ a.addr) && decide (a.addr < frame + pageBytes))) ||
  (s.warps ++ (s.images.map (·.warps)).flatten).any (fun w => w.checked.any (fun k => decide (frame ≤ k.addr) && decide (k.addr < frame + pageBytes)))
/-- One of a TMOVE's requests is over; its flag is lowered when every one is (R274). -/
def tierOver (s : State) (id : Nat) : State :=
  match findReq s id with
  | none => s
  | some r =>
    match r.kind with
    | .tmove n =>
      if n ≤ 1 then dropReq (modWarpAny s r.w (fun w => lowerFlag w r.depth none r.sig)) id
      else modReq s id (fun x => { x with kind := .tmove (n - 1) })
    | _ => s
/-- A waiting request leaves the queue, its frame and reservation returned (R272, R273). -/
def tierReturn (s : State) (r : TierReq) : State :=
  tierOver (poolGive { s with tier := s.tier.filter (fun x => x != r) } r.part (r.target, r.place, r.frame)) r.reqId
/-- The head of a page's queue reaches its turn (R271, R272): it completes without moving, or its move starts. -/
def tierStart (s : State) (p page : Nat) : State :=
  match tierMoving s p page, tierQueued s p page with
  | none, r :: _ =>
    (match pageLeaf s p page with
      | none => tierReturn s r
      | some l =>
        let t := pteTier l.pte
        if !l.is2M || t = r.target || !(t = 1 || t = 4 || t = 5) then tierReturn s r
        else
          let src := pteFrame l.pte
          if t != 5 && frameBusy s src true then s
          else
            let s1 := flushLines s (fun ln => decide (src / 128 ≤ ln.line) && decide (ln.line < (src + pageBytes) / 128) && t != 5) true
            let s2 := setLeaf s1 p page l (withTier l.pte (if t = 1 then 3 else 2))
            { s2 with tier := s2.tier.map (fun x => if x = r then { x with moving := true, srcTier := t, srcFrame := src } else x) })
  | _, _ => s
/-- TIER_MOVE_START (R271, R272). (DEDUCED, log 37) -/
def execTierMoveStart (part page : Nat) (s : State) : Host.Outcome State Fault Refusal := .next (tierStart s part page)
/-- The block whose TMOVE a request is of. -/
def tierBlock (s : State) (r : TierReq) : Option (Nat × Nat × Bool) := (findReq s r.reqId).map (fun q => (q.w.launch, q.w.blk, q.w.shadow))
/-- No request that the same block made before is outstanding: what one block places in the queue lands in issue order (R268). -/
def tierFirst (s : State) (r : TierReq) : Bool :=
  (s.tier.takeWhile (fun x => decide (x ≠ r))).all (fun x => tierBlock s x != tierBlock s r || (tierBlock s r).isNone)
/-- TIER_MOVE_LANDING (R271): the bytes stand at the target, the leaf names them, the source frame is free, and everything that
waits for the page may go on. The race records of the page go with its L2 lines. (DEDUCED, log 37) -/
def execTierMoveLanding (part page : Nat) (s : State) : Host.Outcome State Fault Refusal :=
  match tierMoving s part page, pageLeaf s part page with
  | some r, some l =>
    if (r.srcTier != 5 && frameBusy s r.srcFrame false) || !tierFirst s r then .next s
    else
      let src := frameAddr r.srcTier r.srcFrame
      let dst := frameAddr r.target r.frame
      let inFrame (a : Nat) : Bool := (decide (src ≤ a) && decide (a < src + pageBytes)) || (decide (dst ≤ a) && decide (a < dst + pageBytes))
      let s1 := { s with mem := copyMem s.mem src dst pageBytes, poison := copyPoison s.poison src dst pageBytes }
      let s2 := setLeaf s1 part page l (withFrame l.pte r.frame r.target)
      let s3 := { s2 with
        l1 := s2.l1.filter (fun ln => !inFrame (ln.line * 128))
        sectors := s2.sectors.filter (fun x => !(x.space == .phys && inFrame (x.sec * 32)))
        releases := (s2.releases.filter (fun x => !(x.space == .phys && decide (dst ≤ x.addr) && decide (x.addr < dst + pageBytes)))).map (fun x =>
          if x.space = .phys ∧ src ≤ x.addr ∧ x.addr < src + pageBytes then { x with addr := x.addr - src + dst } else x)
        tier := s2.tier.filter (fun x => x != r) }
      .next (tierOver (poolGive s3 part (r.srcTier, placeOf r.srcTier r.srcFrame, r.srcFrame)) r.reqId)
  | _, _ => .next s

/-! ## The instructions -/

/-- How TMOVE, TSTAT and TCNCL use their fields. -/
def tierUse (f : FWord) (x : LExt) : Use := { d := 1, a := offRegs (some x), q := false, bad := !offOk f (some x) }
/-- The segment tests of TMOVE (`wr`), TSTAT and TCNCL on one thread's byte (R274, R275). -/
def tierCause (g : Seg) (wr : Bool) (off : Int) : Option Nat :=
  if !((g.kind = 0 || g.kind = 6) && g.rd && (!wr || g.wr)) then some 0x11
  else if off < 0 || off + 1 > g.limit then some 0x10 else none
/-- Issue one of them: `body` is given the issuing threads and their pages. -/
def tierOp (wr : Bool) (f : FWord) (x : LExt) (s : State) (body : State → Ctx → FWord → List Nat → List (Nat × Nat) → State) :
    Host.Outcome State Fault Refusal :=
  let u := tierUse f x
  issue u f (some x) s (fun c f' tids => forFree s c tids (fun s c tids =>
    let ts := if isUniform u f then tids.take 1 else tids
    let g := c.l.segAt x.seg
    let offs := ts.map (fun t => (t, memOff s c f' (some x) 1 ts t))
    match firstFail (offs.map (fun e => (e.1, e.2, tierCause g wr e.2))) with
    | some (k, bad, off) => raise s c { cause := k, tids := bad, faddr := wrapTo 64 off }
    | none => body s c f' tids (offs.map (fun e => (e.1, pageOf (g.base + e.2.toNat))))))
/-- The result word of TMOVE and TCNCL (R274). -/
def tierWord (status count : Nat) : Word := BitVec.ofNat 32 (status * 2 ^ 28 + count)
/-- Request a move of one page (R272 to R274): the state and the result. A page whose locator lies beyond the flash tier is not movable.
(DESIGN CHOICE, log 99) -/
def tierAsk (s : State) (c : Ctx) (id page tgt place : Nat) (any : Bool) : State × Word :=
  let p := partOf c.l.lk
  match pageLeaf s p page with
  | none => (s, tierWord 5 0)
  | some l =>
    let t := pteTier l.pte
    let ahead := (tierQueued s p page).length
    let moving := (tierMoving s p page).isSome
    let at_ := if tgt = 5 then 0 else if any then bestPlace s p tgt else place
    if (l.pte.getLsbD 4 && !c.l.protected_) || !l.is2M || t = 0 || t = 6 || t = 7 || decide (t = 5 ∧ pteFrame l.pte + pageBytes > flashBytes s) then
      (s, tierWord 5 0)
    else if t = tgt then (s, tierWord 2 0)
    else if ahead ≥ 16 || s.tier.length ≥ 4096 then (s, tierWord 6 0)
    else if tierUsed s p tgt + 1 > tierQuota s p tgt then (s, tierWord 3 0)
    else match poolFrame s p tgt at_ with
      | none => (s, tierWord 4 0)
      | some e =>
        let r : TierReq :=
          { part := p, page := page, target := tgt, place := e.2.1, frame := e.2.2, lk := c.l.lk, reqId := id, moving := false
            srcTier := 0, srcFrame := 0 }
        let s1 := poolTake { s with tier := s.tier ++ [r] } p e
        if ahead = 0 && !moving then (tierStart s1 p page, tierWord 0 0) else (s1, tierWord 1 (min ahead 15))
/-- Requests for pages, each once, in the order in which they are first named: the state and the results by page. (DEDUCED, log 38) -/
def tierAskAll (s : State) (c : Ctx) (id : Nat) (x : LExt) (pages : List Nat) : State × List (Nat × Word) :=
  pages.eraseDups.foldl (fun acc page =>
    let (st, w) := tierAsk acc.1 c id page x.tgt (x.xbits 3 2) (x.xbits 5 1 = 1)
    (st, acc.2 ++ [(page, w)])) (s, [])
/-- The result of each thread from those of the pages. -/
def byPage (rs : List (Nat × Word)) (pages : List (Nat × Nat)) : List (Nat × Word) :=
  pages.map (fun e => (e.1, (((rs.find? (fun r => r.1 == e.2)).map (·.2)).getD 0)))
/-- A twin's shadow finds results of its primary: the threads' words. -/
def shadowWords (res : List (Nat × List Word)) : List (Nat × Word) := res.map (fun e => (e.1, e.2.headD 0))
/-- The result that a twin's primary leaves for its shadow, where the launch is a twin (R466). -/
def leaveWords (s : State) (c : Ctx) (res : List (Nat × Word)) : State :=
  if c.l.twin then
    modWarp s { c.w.name with shadow := true } (fun w => { w with twinRes := aset w.twinRes c.w.once (res.map (fun e => (e.1, [e.2]))) })
  else s
/-- TMOVE (R274): each distinct page, in ascending order of the lowest thread that names it. The primary of a twin makes the
request and leaves its result to the shadow (R466). (DEDUCED, log 38) -/
def execTmove (f : FWord) (x : LExt) (s : State) : Host.Outcome State Fault Refusal :=
  tierOp true f x s (fun s c f' tids pages =>
    if mustCompare c then compareWait s c else
    let ts := pages.map (·.1)
    if c.l.twin && c.w.name.shadow then
      match aget c.w.twinRes c.w.once with
      | none => stall s c 2
      | some res =>
        finish s c tids (schedF f) (giveEach c f' ts
          (applyMarks { c.w with once := c.w.once + 1, twinRes := adel c.w.twinRes c.w.once } (tierUse f x) f' (some x) none 0 ts)
          (shadowWords res))
    else
      let (id, s1) := freshId s
      let asked := tierAskAll s1 c id x (pages.map (·.2))
      let left := (asked.2.filter (fun r => r.2.toNat / 2 ^ 28 ≤ 1)).length
      let reached := (asked.1.tier.filter (fun r => r.reqId = id)).length
      let res := byPage asked.2 pages
      let m : MemOp := { seg := x.seg, unit := 1, size := 1, align := 1, use := .cache, kind := .tmove (min left reached) }
      let before := issueClock c.w.race c.w.name ts
      let r : Req := { mkReq s c m id f.sig.toNat ts [] with order := 0 }
      let go := decide (min left reached > 0)
      let w1 := applyMarks { c.w with race := before.2 } (tierUse f x) f' (some x) none 0 ts
      let w2 := if go then raiseFlag w1 c.w.depth none f.sig.toNat else w1
      let s3 := if go then modBlock { asked.1 with reqs := asked.1.reqs ++ [r] } c.l.lk c.b.blk c.b.shadow (fun b => b.noteIssue tierCh id before.1) else asked.1
      finish (leaveWords s3 c res) c tids (if go then (schedF f).sent else schedF f) (giveEach c f' ts { w2 with once := if c.l.twin then w2.once + 1 else w2.once } res))
/-- The result of TSTAT for a page (R275); how far a move in flight has come is left open, up to 512. -/
def tstatWord (s : State) (p page k : Nat) : Word :=
  match pageLeaf s p page with
  | none => 0
  | some l =>
    if !l.is2M then BitVec.ofNat 32 (pteTier l.pte * 2 ^ 29)
    else
      let q := min 15 (tierQueued s p page).length
      let mv := match tierMoving s p page with
        | some r => 2 ^ 28 + r.target * 2 ^ 21 + (Config.freeWord (s.free + k)).toNat % 513
        | none => 0
      BitVec.ofNat 32 (pteTier l.pte * 2 ^ 29 + q * 2 ^ 24 + mv)
/-- TSTAT (R275): the question is sent to the tier engine; LOAD_REPLY brings the answer. -/
def execTstat (f : FWord) (x : LExt) (s : State) : Host.Outcome State Fault Refusal :=
  tierOp false f x s (fun s c f' tids pages =>
    let ts := pages.map (·.1)
    let (id, s1) := freshId s
    let accs := pages.map (fun e => accPiece e.1 .phys e.2 0 1 [] [] false false false false)
    let m : MemOp := { seg := x.seg, unit := 1, size := 1, align := 1, use := .cache, kind := .tstat, dcode := f'.d.toNat }
    let r : Req := { mkReq s c m id f.sig.toNat ts accs with order := 0 }
    let w1 := applyMarks c.w (tierUse f x) f' (some x) none 0 ts
    finish { s1 with reqs := s1.reqs ++ [r] } c tids (schedF f).sent (raiseFlag w1 c.w.depth none f.sig.toNat))
/-- Cancel the requests of a page that the issuer may cancel: the state and their number. -/
def tierCancel (s : State) (c : Ctx) (page : Nat) : State × Nat :=
  let p := partOf c.l.lk
  let mine := (tierQueued s p page).filter (fun r => isSup s c.l.lk || decide (r.lk = c.l.lk))
  (mine.foldl tierReturn s, mine.length)
/-- Requests of pages cancelled, each page once: the state and the results by page. -/
def tierCancelAll (s : State) (c : Ctx) (pages : List Nat) : State × List (Nat × Word) :=
  pages.eraseDups.foldl (fun acc page =>
    let (st, n) := tierCancel acc.1 c page
    let word := if n > 0 then tierWord 8 n else if (tierMoving acc.1 (partOf c.l.lk) page).isSome then tierWord 10 0 else tierWord 9 0
    (st, acc.2 ++ [(page, word)])) (s, [])
/-- TCNCL (R276): the primary of a twin cancels, and leaves its result to the shadow (R466). -/
def execTcncl (f : FWord) (x : LExt) (s : State) : Host.Outcome State Fault Refusal :=
  tierOp false f x s (fun s c f' tids pages =>
    if mustCompare c then compareWait s c else
    let ts := pages.map (·.1)
    let marks (w : Warp) : Warp := applyMarks w (tierUse f x) f' (some x) none 0 ts
    if c.l.twin && c.w.name.shadow then
      match aget c.w.twinRes c.w.once with
      | none => stall s c 2
      | some res =>
        finish s c tids (schedF f) (giveEach c f' ts (marks { c.w with once := c.w.once + 1, twinRes := adel c.w.twinRes c.w.once })
          (shadowWords res))
    else
      let done := tierCancelAll s c (pages.map (·.2))
      let res := byPage done.2 pages
      let w0 := (findWarp done.1 c.w.name).getD c.w
      let w1 : Warp := { w0 with hazards := c.w.hazards, holds := c.w.holds, once := if c.l.twin then w0.once + 1 else w0.once }
      finish (leaveWords done.1 c res) c tids (schedF f) (giveEach c f' ts (marks w1) res))

/-- LOAD_REPLY (R223, R275): the data of a load or the answer to a TSTAT reaches its registers. A load whose request left the die
performs at its arrival. -/
def execLoadReply (id : Nat) (s : State) : Host.Outcome State Fault Refusal :=
  match findReq s id with
  | none => .next s
  | some r =>
    match r.kind with
    | .load _ => if r.seq.isSome && !r.done then .next s else .next (replyTo s r)
    | .epld _ _ => if r.seq.isSome && !r.done then .next s else .next (replyTo s r)
    | .tstat =>
      let res := if r.done then r.result
        else r.accs.mapIdx (fun k a => (a.tid, [tstatWord s (partOf r.w.launch) a.addr k]))
      .next (deliverReply s r res)
    | _ => .next s

end Sys2Proof.Machine
end

