-- ==== Sys2Proof/Machine/Barrier.lean ====
section
/-! DEFINITION. The hardware barriers (R316 to R326): their phases, arrivals and releases, BAR, BARA, BARW and the group barriers,
and GROUP_BARRIER_ARRIVAL. -/

namespace Sys2Proof.Machine

/-! ## Where a barrier is kept -/

/-- The owner number of a barrier: the warp's index at warp level, the shadow run at grid and group level. (DEDUCED, log 41) -/
def barOwner (n : WName) (level : Nat) : Nat :=
  if level = 0 then n.w else if level ≥ 3 && n.shadow then 1 else 0
/-- The barriers of a warp's instance at a level (0 warp, 1 block, 2 cluster, 3 grid, 4 group). -/
def barList (s : State) (n : WName) (level : Nat) : List Bar :=
  if level ≤ 1 then ((findBlock s n.launch n.blk n.shadow).map (·.bars)).getD []
  else if level = 2 then ((findGang s n.launch n.blk n.shadow).map (·.bars)).getD []
  else ((findLaunch s n.launch).map (·.bars)).getD []
/-- Whether a listed barrier is the one of these numbers. -/
def Bar.is (b : Bar) (level owner idx : Nat) : Bool := decide (b.level = level) && decide (b.owner = owner) && decide (b.idx = idx)
/-- A barrier of a warp's instance; in phase 0 with no arrivals where State lists none (R317). -/
def findBar (s : State) (n : WName) (level idx : Nat) : Bar :=
  ((barList s n level).find? (fun b => b.is level (barOwner n level) idx)).getD
    { level := level, owner := barOwner n level, idx := idx, phase := 0, count := 0, arrived := [] }
/-- A list of barriers with one replaced. -/
def setBar (bs : List Bar) (b : Bar) : List Bar := b :: bs.filter (fun x => !x.is b.level b.owner b.idx)
/-- State with a barrier of a warp's instance changed. -/
def putBar (s : State) (n : WName) (b : Bar) : State :=
  if b.level ≤ 1 then modBlock s n.launch n.blk n.shadow (fun x => { x with bars := setBar x.bars b })
  else if b.level = 2 then
    match findGang s n.launch n.blk n.shadow with
    | some g => modGang s g.launch g.rank0 g.shadow (fun x => { x with bars := setBar x.bars b })
    | none => s
  else modLaunch s n.launch (fun x => { x with bars := setBar x.bars b })

/-! ## Members -/

/-- A warp belongs to the instance that `n` belongs to (R316). -/
def inInstance (s : State) (n : WName) (b : Bar) (m : WName) : Bool :=
  decide (m.launch = n.launch) && decide (m.shadow = n.shadow) &&
  (if b.level = 0 then decide (m.blk = n.blk) && decide (m.w = n.w)
   else if b.level = 1 then decide (m.blk = n.blk)
   else if b.level = 2 then decide (m.blk / max 1 (gangSize s n.launch) = n.blk / max 1 (gangSize s n.launch))
   else if b.level = 3 then true
   else match (findLaunch s n.launch).bind (fun l => l.groups[b.idx]?) with | some g => g.has m.blk | none => false)
/-- The warps of saved gangs, in their images. -/
def savedWarps (s : State) : List Warp := (s.images.map (·.warps)).flatten
/-- The last member block of an instance that spans a launch. -/
def lastMember (l : Launch) (b : Bar) : Nat :=
  if b.level = 3 then l.nblk - 1
  else match l.groups[b.idx]? with
    | some g => if g.mode = 1 then g.list.getLastD 0 else g.first + (g.count - 1) * g.stride
    | none => 0
/-- Whether some member block of a grid or group barrier has not started, is to start again (R325, R462), or runs in another package, where it
keeps its membership (R324). -/
def membersAbsent (s : State) (n : WName) (b : Bar) : Bool :=
  if b.level < 3 then false
  else match findLaunch s n.launch with
    | none => true
    | some l =>
      decide (lastMember l b ≥ l.nextGang * l.pkt.gang) ||
      l.remote.any (fun r => (List.range l.pkt.gang).any (fun k => inInstance s n b { n with blk := r + k })) ||
      s.gangs.any (fun g => decide (g.launch = n.launch) && decide (g.shadow = n.shadow) && decide (g.st = .killed) &&
        (List.range l.pkt.gang).any (fun k => inInstance s n b { n with blk := g.rank0 + k }))
/-- The arrival condition of the open phase (R317, R318). -/
def phaseFull (s : State) (n : WName) (b : Bar) : Bool :=
  if b.count ≠ 0 then decide (b.arrived.length ≥ b.count)
  else !membersAbsent s n b && ((s.warps ++ savedWarps s).filter (fun w => inInstance s n b w.name)).all (fun w =>
    w.threads.all (fun t => t.st == .exited || b.arrived.any (fun e => decide (e.1 = w.name) && decide (e.2.1 = t.tid))))

/-! ## Phases -/

/-- The scope of a barrier level (R316). -/
def barScope (level : Nat) : Nat := if level ≤ 2 then level else 3
/-- What a phase orders before the returns from it: everything before its arrivals (R232). -/
def Bar.clock (b : Bar) : Clock := b.arrived.foldl (fun (k : Clock) e => k.join e.2.2) []
/-- Threads of a warp return from a barrier's wait, each with what its phase orders before it: an acquire at its scope (R232, R319). -/
def barReturn (s : State) (n : WName) (level : Nat) (back : List (Nat × Clock)) : State :=
  if back.isEmpty then s else
  let s1 := raceReturn s n back (barScope level) (decide (level = 3))
  if level < 2 then s1
  else match findWarp s1 n, findLaunch s1 n.launch with
    | some w, some l => dropForAcquire s1 l w.core
    | _, _ => s1
/-- What the phase of a thread's last arrival on a barrier orders before its return, once that phase is complete. -/
def Thread.arrClock (t : Thread) (level idx : Nat) : Option Clock :=
  (t.arr.find? (fun a => decide (a.level = level) && decide (a.idx = idx))).bind (·.clk)
/-- The threads `ts` of a warp that return, with those clocks. -/
def Warp.backs (w : Warp) (level idx : Nat) (ts : List Nat) : List (Nat × Clock) :=
  ts.filterMap (fun t => ((w.thread t).bind (fun x => x.arrClock level idx)).map (fun k => (t, k)))
/-- The arrivals of a phase that completes know what it orders, wherever their warps are. -/
def noteClock (s : State) (b : Bar) : State :=
  let k := b.clock
  let mark (a : Arrival) : Arrival := if a.level = b.level ∧ a.idx = b.idx ∧ a.phase = b.phase then { a with clk := some k } else a
  ((b.arrived.map (·.1)).eraseDups).foldl (fun acc n => modWarpAny acc n (fun w =>
    w.modThreads ((b.arrived.filter (fun e => decide (e.1 = n))).map (·.2.1)) (fun t => { t with arr := t.arr.map mark }))) s
/-- A thread waits for a phase of a barrier that is complete. -/
def Thread.released (t : Thread) (level idx phase : Nat) : Bool :=
  match t.st with | .barrier l i p => decide (l = level) && decide (i = idx) && decide (p < phase) | _ => false
/-- Threads of a warp that wait for a completed phase go on past their barrier instruction, beneath a hold too (R387). -/
def releaseBar (w : Warp) (level idx phase : Nat) : Warp :=
  { w with threads := w.threads.map (fun t => if t.released level idx phase then { t with st := .ready, pc := t.pc + 8, rk := 0, cnt := 0 } else t) }
/-- A warp's threads that wait for phases of a barrier before `phase` go on (R317, R319). -/
def returnWarp (s : State) (level idx phase : Nat) (w : Warp) : State :=
  let ts := (w.threads.filter (fun t => t.released level idx phase)).map (·.tid)
  barReturn (modWarp s w.name (fun v => releaseBar v level idx phase)) w.name level (w.backs level idx ts)
/-- The open phase completes (R317, R319, R323): every thread that waits on it is released and the next phase opens. -/
def completePhase (s : State) (n : WName) (b : Bar) : State :=
  let s1 := putBar (noteClock s b) n { b with phase := b.phase + 1, count := 0, arrived := [] }
  let waiting := s1.warps.filter (fun w => inInstance s1 n b w.name && w.threads.any (fun t => t.released b.level b.idx (b.phase + 1)))
  let s2 := waiting.foldl (fun acc w => returnWarp acc b.level b.idx (b.phase + 1) w) s1
  if b.level = 4 then endRetention s2 n.launch b.idx else s2
/-- A phase that has become full completes (R317). -/
def settleBar (s : State) (n : WName) (level idx : Nat) : State :=
  let b := findBar s n level idx
  if !b.arrived.isEmpty && phaseFull s n b then completePhase s n b else s
/-- After the exit of threads of a warp, the barriers it was a member of are tested again (R317, R318). -/
def settleBars (s : State) (n : WName) : State :=
  let keys := ((List.range 4).map (fun lv => (barList s n lv).filterMap (fun b =>
    if b.owner == barOwner n b.level && (b.level = lv || (lv = 3 && b.level = 4)) then some (b.level, b.idx) else none))).flatten
  keys.foldl (fun acc k => settleBar acc n k.1 k.2) s
/-- Threads of a warp arrive in the open phase (R321), each with what happens before its arrival. -/
def arriveBar (s : State) (n : WName) (level idx count : Nat) (arr : List (Nat × Clock)) : State :=
  let b := findBar s n level idx
  let b1 := { b with count := if b.arrived.isEmpty then count else b.count, arrived := b.arrived ++ arr.map (fun e => (n, e.1, e.2)) }
  settleBar (putBar s n b1) n level idx
/-- The last arrival of a thread on a barrier (R321). -/
def Thread.lastArr (t : Thread) (level idx : Nat) : Option Nat :=
  (t.arr.find? (fun a => decide (a.level = level) && decide (a.idx = idx))).map (·.phase)
/-- A thread's last arrival noted. -/
def Thread.setArr (t : Thread) (level idx phase : Nat) : Thread :=
  { t with arr := { level := level, idx := idx, phase := phase } :: t.arr.filter (fun a => !(decide (a.level = level) && decide (a.idx = idx))) }

/-! ## The instructions -/

/-- Arrivals that a relaunched thread makes at once (R462). (DEDUCED, log 41) -/
def credit (g : Gang) (n : WName) (t level idx : Nat) : Nat :=
  match g.credits.find? (fun e => decide (e.1 = n) && decide (e.2.1 = t) && decide (e.2.2.level = level) && decide (e.2.2.idx = idx)) with
  | some e => e.2.2.phase
  | none => 0
/-- One such arrival made by each of some threads. -/
def useCredits (s : State) (g : Gang) (n : WName) (level idx : Nat) (ts : List Nat) : State :=
  modGang s g.launch g.rank0 g.shadow (fun x => { x with credits := x.credits.map (fun e =>
    if e.1 = n && ts.contains e.2.1 && e.2.2.level = level && e.2.2.idx = idx then (e.1, e.2.1, { e.2.2 with phase := e.2.2.phase - 1 }) else e) })
/-- Barriers that a level has (R316). -/
def barLimit (level : Nat) : Nat := match level with | 0 => 4 | 1 => 16 | 4 => 256 | _ => 8
/-- %faddr of a barrier's causes (R322, R323). -/
def barAddr (level idx : Nat) : Nat := if level = 4 then idx else level * 256 + idx
/-- The stall code of a barrier level (R451). -/
def barCode (level : Nat) : Nat := if level = 4 then 5 else 4
/-- The cause of an arrival's count or index (R322), for `k` arriving threads. -/
def barCause (b : Bar) (n : Int) (k : Nat) : Option Nat :=
  if b.idx ≥ barLimit b.level then some 0x07
  else if n ≠ 0 && (b.level ≥ 2 || n < 1 || n > (if b.level = 0 then 128 else 2048)) then some 0x07
  else if !b.arrived.isEmpty && n ≠ (b.count : Int) then some 0x54
  else if n ≠ 0 && ((b.arrived.length + k : Nat) : Int) > n then some 0x54
  else none

/-- Arrive at a barrier, which is a release (R252, R319), and wait for the phase where `wait` says so (R321, R323). -/
def barArrive (level idx : Nat) (count : Int) (wait : Bool) (f : FWord) (s : State) (c : Ctx) (tids : List Nat) : State :=
  let n := c.w.name
  let b := findBar s n level idx
  let inPhase (t : Nat) : Bool := match c.w.thread t with | some x => x.lastArr level idx == some b.phase | none => false
  let before := tids.filter inPhase
  let arriving := tids.filter (fun t => !inPhase t)
  if b.idx ≥ barLimit level then raise s c { cause := 0x07, tids := tids, faddr := barAddr level idx }
  else if arriving.isEmpty then hold s c tids (schedF f) (.retry (barCode level))
  else if mustCompare c then compareWait s c
  else if s.reqs.any (fun r => decide (r.w = n) && r.writes && !r.done && r.tids.any (fun t => arriving.contains t)) then
    hold s c tids (schedF f) (.retry (barCode level))
  else match barCause b count arriving.length with
    | some k => raise s c { cause := k, tids := arriving, faddr := barAddr level idx }
    | none =>
      let free := if level ≥ 3 then arriving.filter (fun t => decide (credit c.g n t level idx > 0)) else []
      let real := arriving.filter (fun t => !free.contains t)
      let c1 : Ctx := { c with grp := c.grp.filter (fun t => !before.contains t) }
      let out := c.w.race.release n (partyOf c.w none) real (barScope level)
      let s1 := finishWait (useCredits s c.g n level idx free) c1 arriving (schedF f) (if wait then real else []) { c.w with race := out.2 }
      let s2 := modWarp s1 n (fun w => (w.modThreads before (fun t => { t with st := .retry (barCode level) })).modThreads real (fun t =>
        let t1 := t.setArr level idx b.phase
        if wait then { t1 with pc := c.pc, st := .barrier level idx b.phase } else t1))
      if real.isEmpty then s2 else
      if level ≤ 2 then arriveBar s2 n level idx count.toNat (out.1.map (fun e => (e.1, e.2.clk)))
      else
        let m : MemOp := { seg := 0, unit := 1, size := 1, align := 1, use := .cache, kind := .arrive level idx b.phase }
        { s2 with
          reqs := s2.reqs ++ [{ mkReq s c m s2.nextId 15 real [] with order := 0, rels := out.1 }]
          nextId := s2.nextId + 1 }
/-- Wait for the phase of a thread's last arrival (R321): a thread with no arrival in an incomplete phase goes on at once. -/
def barWait (level idx : Nat) (f : FWord) (s : State) (c : Ctx) (tids : List Nat) : State :=
  let n := c.w.name
  let b := findBar s n level idx
  if idx ≥ barLimit level then raise s c { cause := 0x07, tids := tids, faddr := barAddr level idx }
  else
    let wait := tids.filter (fun t => match c.w.thread t with | some x => x.lastArr level idx == some b.phase | none => false)
    let s1 := finishWait s c tids (schedF f) wait c.w
    let s2 := modWarp s1 n (fun w => w.modThreads wait (fun t => { t with pc := c.pc, st := .barrier level idx b.phase }))
    barReturn s2 n level (c.w.backs level idx (tids.filter (fun t => !wait.contains t)))

/-- How BAR, BARA and BARW use their fields (R321). -/
def barUse (f : FWord) (count : Bool) : Use :=
  { b := if count then 1 else 0, q := false
    bad := decide (f.d.toNat ≥ 64) || (count && !f.i && !isUniCode f.b.toNat) }
/-- Level and index of BAR, BARA and BARW. -/
def barLevel (f : FWord) : Nat := f.d.toNat / 16 % 4
/-- BAR (R321). -/
def execBar (f : FWord) (s : State) : Host.Outcome State Fault Refusal :=
  issue (barUse f true) f none s (fun c f' tids => barArrive (barLevel f) f.dLo (uniformB s c f').toInt true f s c tids)
/-- BARA (R321). -/
def execBara (f : FWord) (s : State) : Host.Outcome State Fault Refusal :=
  issue (barUse f true) f none s (fun c f' tids => barArrive (barLevel f) f.dLo (uniformB s c f').toInt false f s c tids)
/-- BARW (R321). -/
def execBarw (f : FWord) (s : State) : Host.Outcome State Fault Refusal :=
  issue (barUse f false) f none s (fun c _ tids => barWait (barLevel f) f.dLo f s c tids)
/-- A group barrier instruction, for a member of the group (R323). -/
def groupOp (f : FWord) (s : State) (body : Ctx → List Nat → State) : Host.Outcome State Fault Refusal :=
  issue {} f none s (fun c _ tids =>
    match memberGroup c f.d.toNat with
    | none => raise s c { cause := 0x53, tids := tids, faddr := f.d.toNat }
    | some _ => body c tids)
/-- GBAR (R323). -/
def execGbar (f : FWord) (s : State) : Host.Outcome State Fault Refusal :=
  groupOp f s (fun c tids => barArrive 4 f.d.toNat 0 true f s c tids)
/-- GBARA (R323). -/
def execGbara (f : FWord) (s : State) : Host.Outcome State Fault Refusal :=
  groupOp f s (fun c tids => barArrive 4 f.d.toNat 0 false f s c tids)
/-- GBARW (R323). -/
def execGbarw (f : FWord) (s : State) : Host.Outcome State Fault Refusal :=
  groupOp f s (fun c tids => barWait 4 f.d.toNat f s c tids)

/-- The die that holds the phase state of a grid or group barrier (R324): the number 256 stands for the grid. -/
def barDie (l : Launch) (level idx : Nat) : Nat := groupDie l (if level = 3 then 256 else idx)
/-- GROUP_BARRIER_ARRIVAL (R324): an arrival message reaches the engine that holds a grid or group barrier's state, by the sideband lanes of
its way, which a die that relocks holds up too (R11, R320). -/
def execGroupBarrierArrival (id : Nat) (s : State) : Host.Outcome State Fault Refusal :=
  match findReq s id with
  | none => .next s
  | some r =>
    match r.kind, findLaunch s r.w.launch with
    | .arrive level idx _, some l =>
      if !(routeOf s (r.src / 96) (barDie l level idx)).all (fun d => decide (r.src / 96 = barDie l level idx) || (findDie s d).relock.isNone) then .next s
      else .next (arriveBar (dropReq s id) r.w level idx 0 (r.rels.map (fun e => (e.1, e.2.clk))))
    | _, _ => .next s

end Sys2Proof.Machine
end

