-- ==== Sys2Proof/Machine/Control.lean ====
section
/-! DEFINITION. Control flow, the den, the warp collectives and the instructions of issue control (R280 to R315), with the events
that end their waits. -/

namespace Sys2Proof.Machine

/-! ## Transfers -/

/-- What the test of a transfer comes to (R298, R369). -/
inductive Trans where
  | go
  | wait
  | cause (k : Nat) (tids : List Nat) (faddr : Nat)
  deriving DecidableEq, Repr

/-- Code offsets of a launch. -/
def codeLimit (l : Launch) : Nat := l.obj.nbrick * 4096
/-- A cause for threads with their addresses; %faddr is the lowest. -/
def lowestCause (k : Nat) (bad : List (Nat × Int)) : Option Trans :=
  match bad with
  | [] => none
  | e :: _ => some (.cause k (bad.map (·.1)) (wrapTo 64 (bad.foldl (fun m x => min m x.2) e.2)))
/-- A target at or beyond the limit of the code segment (R298). -/
def farTarget (l : Launch) (ts : List (Nat × Int)) : Option Trans :=
  lowestCause 0x10 (ts.filter (fun e => decide (e.2 < 0) || decide (e.2 ≥ codeLimit l)))
/-- A brick that failed its check. -/
def BrickSt.isFailed : BrickSt → Bool
  | .failed _ _ => true
  | _ => false
/-- A brick on its way. -/
def BrickSt.isFetching : BrickSt → Bool
  | .fetching _ => true
  | _ => false
/-- The state of the brick of a target in the core's code store, none where it is absent. -/
def brickAt (s : State) (core lk : Nat) (e : Nat × Int) : Option BrickSt := (findBrick s core lk (e.2.toNat / 4096)).map (·.st)
/-- The test of the targets' bricks (R367, R369). -/
def brickTest (s : State) (core lk : Nat) (ts : List (Nat × Int)) : Trans :=
  let absent := ts.filter (fun e => (brickAt s core lk e).isNone)
  let failed := ts.filter (fun e => (brickAt s core lk e).any BrickSt.isFailed)
  ((lowestCause 0x0C absent).orElse (fun _ => lowestCause 0x0D failed)).getD
    (if ts.any (fun e => (brickAt s core lk e).any BrickSt.isFetching) then .wait else .go)
/-- Threads go to their targets once the group has issued. -/
def branchTo (s : State) (c : Ctx) (tids : List Nat) (q : Sched) (w : Warp) (ts : List (Nat × Int)) : State :=
  modWarp (finish s c tids q w) c.w.name (fun v => { v with threads := v.threads.map (fun t =>
    match ts.find? (fun e => e.1 == t.tid) with | some e => { t with pc := e.2.toNat } | none => t) })
/-- Act on the outcome of a transfer's tests. -/
def onTrans (s : State) (c : Ctx) (r : Trans) (go : State) : State :=
  match r with
  | .go => go
  | .wait => stall s c 10
  | .cause k bad a => raise s c { cause := k, tids := bad, faddr := a }
/-- Transfer each issuing thread to its target, when the tests allow it. -/
def transfer (s : State) (c : Ctx) (f : FWord) (ts : List (Nat × Int)) : State :=
  onTrans s c ((farTarget c.l ts).getD (brickTest s c.w.core c.l.lk ts)) (branchTo s c (ts.map (·.1)) (schedF f) c.w ts)

/-! ## Ejection -/

/-- Slots of a den core of a warp's cluster that are free (R14, R291). -/
def denFree (s : State) (core k : Nat) : List Nat :=
  let used := ((s.warps.filter (fun w => decide (clusterOf w.core = clusterOf core))).map (·.threads)).flatten.filterMap (fun t =>
    match t.den with | some d => if d.core = k then some d.slot else none | none => none)
  (List.range 8).filter (fun i => !used.contains i)
/-- No stop, cut or swap is pending on a warp (R291). -/
def undisturbed (c : Ctx) : Bool :=
  decide (c.g.st = .running) && c.w.swap == .resident && !c.w.stopReq && c.w.pend.isEmpty && c.w.halt.isNone
/-- The threads that a .E branch ejects: its minority, where every condition of R291 holds and the feature is there (R422). -/
def ejects (s : State) (c : Ctx) (taken : List Nat) : List Nat :=
  let fall := c.grp.filter (fun t => !taken.contains t)
  let few := if taken.length < fall.length then taken else fall
  let many := max taken.length fall.length
  if c.den.isNone && decide (0 < few.length) && decide (few.length < many) && decide (few.length ≤ c.w.ejmax.toNat) &&
     decide (few.length ≤ (denFree s c.w.core 0).length + (denFree s c.w.core 1).length) && c.w.depth == 0 && undisturbed c && s.feat.getLsbD 9
  then few else []
/-- Eject threads of a warp as one den party (R291, R292): the den core with more free slots is filled first. -/
def eject (s : State) (c : Ctx) (few : List Nat) (joinPt : Nat) : State :=
  let (party, s1) := freshId s
  let f0 := denFree s c.w.core 0
  let f1 := denFree s c.w.core 1
  let first := if f1.length > f0.length then 1 else 0
  let mine := if f1.length > f0.length then f1 else f0
  let other := if f1.length > f0.length then f0 else f1
  let room := mine.length
  let s2 := modWarp s1 c.w.name (fun w => { w with race := w.race.eject w.name (aliveTids w) few, threads := w.threads.map (fun t =>
    if few.contains t.tid then
      let k := (few.takeWhile (fun u => u != t.tid)).length
      let slot : DenSlot :=
        { party := party, joinPt := joinPt, s := w.cur.s, flags := [], running := false, recalled := false, cycles := 0
          core := if k < room then first else 1 - first
          slot := if k < room then mine.getD k 0 else other.getD (k - room) 0 }
      { t with st := .ejected, den := some slot }
    else t) })
  traceRec s2 (partOf c.l.lk) 4 0 c.w.depth c.w.core c.l.lk c.b.blk c.pc few.length (c.w.name.w * 128 + few.headD 0)

/-! ## Branches -/

/-- The use of an instruction without operands that a den core executes. -/
def plainUse : Use := { den := true }
/-- BRA, F form (R299): the target is OFF24 words from the BRA. -/
def execBraF (f : FWord) (s : State) : Host.Outcome State Fault Refusal :=
  issue plainUse f none s (fun c _ tids =>
    transfer s c f (tids.map (fun t => (t, (c.pc : Int) + 8 * f.off24.toInt))))
/-- BRA, L form (R291, R299): with .E the minority may be ejected; the target is a byte offset from the BRA. -/
def execBraL (f : FWord) (x : LExt) (s : State) : Host.Outcome State Fault Refusal :=
  issue plainUse f (some x) s (fun c _ tids =>
    let ts := tids.map (fun t => (t, (c.pc : Int) + x.imm32.toInt))
    let few := if f.v then ejects s c tids else []
    let s1 := branchTo s c tids (schedF f) c.w ts
    onTrans s c ((farTarget c.l ts).getD (brickTest s c.w.core c.l.lk ts))
      (if few.isEmpty then s1 else eject s1 c few ((c.pc : Int) + 8 * x.x24.toInt).toNat))
/-- BRX (R300). -/
def execBrx (f : FWord) (s : State) : Host.Outcome State Fault Refusal :=
  issue { a := 1, q := false, den := true, bad := !(isV f.a.toNat || isSZ f.a.toNat) } f none s (fun c f' tids =>
    let ts := tids.map (fun t => (t, ((readCode s c c.w tids t f'.a.toNat).toNat : Int)))
    let w1 := applyMarks c.w { a := 1 } f' none none 0 tids
    onTrans s c ((farTarget c.l ts).getD ((lowestCause 0x12 (ts.filter (fun e => e.2 % 8 ≠ 0))).getD (brickTest s c.w.core c.l.lk ts)))
      (branchTo s c tids (schedF f) w1 ts))
/-- JMPF (R378): the resolved offset of an entry. -/
def execJmpf (f : FWord) (x : LExt) (s : State) : Host.Outcome State Fault Refusal :=
  issue { solo := true } f (some x) s (fun c _ tids =>
    let ix := x.imm32.toNat % 65536
    match (c.l.obj.entries[ix]?).getD none with
    | none => raise s c { cause := 0x10, tids := tids.take 1, faddr := ix }
    | some a => transfer s c f (tids.map (fun t => (t, (a : Int)))))

/-! ## CALL and RET -/

/-- The segment that holds return stacks (R301): the first bound with KIND 3. -/
def stackSeg (l : Launch) : Option Nat := (List.range 16).find? (fun k => (l.segAt k).kind == 3)
/-- The access of a return-stack word. -/
def stackOp (seg : Nat) (store : Bool) : MemOp :=
  { seg := seg, unit := 4, size := 4, align := 4, use := if store then .store else .load
    kind := if store then .store else .load false }
/-- An earlier access of these threads to the words of these accesses is still to perform. -/
def stackBusy (s : State) (c : Ctx) (accs : List Acc) : Bool :=
  s.reqs.any (fun r => decide (r.w = c.w.name) && !r.done && r.accesses && r.accs.any (fun a =>
    decide (a.space = .phys) && accs.any (fun b => decide (a.tid = b.tid) && decide (a.va < b.va + b.size) && decide (b.va < a.va + a.size))))
/-- The accesses of a return-stack word by each thread, and how each goes on: `word` is the private word of a thread. -/
def stackAccs (s : State) (c : Ctx) (m : MemOp) (data : List Byte) (ts : List (Nat × Nat)) : List (Nat × List Acc × TOut) :=
  ts.map (fun e =>
    let ps := segPieces c (c.l.segAt m.seg) m e.1 (4 * e.2 : Nat) data [] false
    (e.1, ps, translate s c m ps))
/-- The return-stack depth of a thread. -/
def retdOf (c : Ctx) (t : Nat) : Nat := match c.w.thread t with | some x => x.retd | none => 0
/-- A watchpoint that the accesses of the threads hit. -/
def stackHits (s : State) (c : Ctx) (m : MemOp) (outs : List (Nat × List Acc × TOut)) : List (Nat × Nat × Nat) :=
  outs.filterMap (fun e => if skipped c e.1 then none
    else (e.2.1.filterMap (fun a => (watchOf s c m a).map (fun w => (e.1, w, a.va)))).head?)
/-- The threads that park, by page and cause. -/
def stackParks (outs : List (Nat × List Acc × TOut)) : List (List Nat × Nat × Option Nat × Nat) :=
  parkGroups (outs.filterMap (fun e => e.2.2.parked.map (fun p => (e.1, p))))
/-- The threads that perform, with their translated accesses. (DEDUCED, log 44) -/
def stackGo (outs : List (Nat × List Acc × TOut)) : List (Nat × List Acc) :=
  outs.filterMap (fun e => e.2.2.accs.map (fun a => (e.1, a)))
/-- Whether records of parking threads find room (R399). -/
def parkRoom (s : State) (c : Ctx) (parks : List (List Nat × Nat × Option Nat × Nat)) : Bool :=
  decide ((findPart s (partOf c.l.lk)).backlog.length + (parks.filter (fun p => p.2.2.1.isSome)).length ≤ 4096)
/-- The context of the threads that do not park. -/
def withoutTids (c : Ctx) (ts : List Nat) : Ctx := { c with grp := c.grp.filter (fun t => !ts.contains t) }

/-- The threads of a CALL whose words can be written push their return addresses and go; the others park (R301, R217). -/
def callGo (s : State) (c : Ctx) (f : FWord) (tids : List Nat) (ts : List (Nat × Int)) (seg : Nat) (data : List Byte) (words : List (Nat × Nat))
    (go : List (Nat × List Acc)) (parks : List (List Nat × Nat × Option Nat × Nat)) : State :=
  let goT := go.map (·.1)
  let s1 := ((go.map (·.2)).flatten).foldl (fun acc a => writeAcc (touchLeaf acc (partOf c.l.lk) a.va true (some c.w.core)) c.l c.w.core a) s
  let w1 := { c.w with threads := c.w.threads.map (fun t => if goT.contains t.tid then { t with retd := t.retd + 1 } else t) }
  let w2 := if c.l.twin then
      { w1 with sig := go.foldl (fun g e => crcBytes g (sigBytes seg
          (4 * ((words.find? (fun x => x.1 == e.1)).map (·.2)).getD 0 : Nat) 4 e.1 data)) w1.sig }
    else w1
  let left := tids.filter (fun t => !goT.contains t)
  let s2 := branchTo s1 (withoutTids c left) goT (schedF f) w2 (ts.filter (fun e => goT.contains e.1))
  parks.foldl (fun acc p => parkOn acc c false p.1 p.2.1 p.2.2.1 p.2.2.2) s2
/-- The accesses of a CALL with a stack segment and room on each stack: they wait, meet a watchpoint, or go. (DEDUCED, log 44) -/
def callPush (s : State) (c : Ctx) (f : FWord) (tids : List Nat) (ts : List (Nat × Int)) (seg : Nat) : State :=
  let m := stackOp seg true
  let data := toBytes (c.pc + 8 * groupLen s) 4
  let words := tids.map (fun t => (t, c.l.pkt.privw - 1 - retdOf c t))
  let outs := stackAccs s c m data words
  let accs := ((stackGo outs).map (·.2)).flatten
  if stackBusy s c accs then stall s c 2
  else match stackHits s c m outs with
    | h :: hs => swapOutHit s c { cause := 0x71, tids := (h :: hs).map (·.1), faddr := h.2.2, unit := h.2.1, pc := c.pc }
    | [] =>
      if accs.any (fun a => isCow s (partOf c.l.lk) a.va) then stall s c 2
      else if !parkRoom s c (stackParks outs) then stall s c 13
      else callGo s c f tids ts seg data words (stackGo outs) (stackParks outs)
/-- CALL (R301) to one target. -/
def callTo (s : State) (c : Ctx) (f : FWord) (tids : List Nat) (target : Int) : State :=
  let ts := tids.map (fun t => (t, target))
  match farTarget c.l ts with
  | some r => onTrans s c r s
  | none =>
    match stackSeg c.l with
    | none => raise s c { cause := 0x11, tids := tids }
    | some seg =>
      let beyond := tids.filter (fun t => decide (retdOf c t ≥ c.l.pkt.privw))
      if !(c.l.segAt seg).wr then raise s c { cause := 0x11, tids := tids }
      else if !beyond.isEmpty then raise s c { cause := 0x16, tids := beyond }
      else onTrans s c (brickTest s c.w.core c.l.lk ts) (callPush s c f tids ts seg)
/-- CALL, F form (R301). -/
def execCallF (f : FWord) (s : State) : Host.Outcome State Fault Refusal :=
  issue plainUse f none s (fun c _ tids => forFree s c tids (fun s c tids => callTo s c f tids ((c.pc : Int) + 8 * f.off24.toInt)))
/-- CALL, L form (R301). -/
def execCallL (f : FWord) (x : LExt) (s : State) : Host.Outcome State Fault Refusal :=
  issue plainUse f (some x) s (fun c _ tids => forFree s c tids (fun s c tids => callTo s c f tids ((c.pc : Int) + x.imm32.toInt)))

/-- The words that the threads of a RET load. -/
def stackLoad (s : State) (c : Ctx) (go : List (Nat × List Acc)) : State × List (Nat × Int) :=
  go.foldl (fun acc e =>
    let (st, bs) := e.2.foldl (fun r a =>
      let (st, b) := readAcc (touchLeaf r.1 (partOf c.l.lk) a.va false (some c.w.core)) c.l c.w.core c.w.name a
      (st, r.2 ++ b)) (acc.1, [])
    (st, acc.2 ++ [(e.1, (ofBytes bs : Int))])) (s, [])
/-- The threads of a RET whose words can be read pop them and go; the others park (R301, R217). -/
def retGo (s1 : State) (c : Ctx) (f : FWord) (tids goT : List Nat) (ts : List (Nat × Int)) (parks : List (List Nat × Nat × Option Nat × Nat)) : State :=
  let w1 := { c.w with threads := c.w.threads.map (fun t => if goT.contains t.tid then { t with retd := t.retd - 1 } else t) }
  let left := tids.filter (fun t => !goT.contains t)
  let s2 := branchTo s1 (withoutTids c left) goT (schedF f) w1 ts
  parks.foldl (fun acc p => parkOn acc c false p.1 p.2.1 p.2.2.1 p.2.2.2) s2
/-- RET (R301) from a stack segment: `empty` are the threads whose stack is empty. -/
def retPop (s : State) (c : Ctx) (f : FWord) (tids empty : List Nat) (seg : Nat) : State :=
  let m := stackOp seg false
  let words := (tids.filter (fun t => !empty.contains t)).map (fun t => (t, c.l.pkt.privw - retdOf c t))
  let outs := stackAccs s c m [] words
  let go := stackGo outs
  let goT := go.map (·.1)
  let accs := (go.map (·.2)).flatten
  if stackBusy s c accs then stall s c 2
  else match stackHits s c m outs with
    | h :: hs => swapOutHit s c { cause := 0x71, tids := (h :: hs).map (·.1), faddr := h.2.2, unit := h.2.1, pc := c.pc }
    | [] =>
      if accs.any (accPoison s) then consume s c 0x80 goT (((accs.find? (accPoison s)).map (·.va)).getD 0) else
      let r := stackLoad s c go
      let odd := lowestCause 0x12 (r.2.filter (fun e => e.2 % 8 ≠ 0))
      let none_ : Option Trans := if empty.isEmpty then none else some (.cause 0x1B empty 0)
      onTrans s c ((((farTarget c.l r.2).orElse (fun _ => odd)).orElse (fun _ => none_)).getD (brickTest s c.w.core c.l.lk r.2)) (
        if !parkRoom s c (stackParks outs) then stall s c 13 else retGo r.1 c f tids goT r.2 (stackParks outs))
/-- RET (R301). -/
def execRet (f : FWord) (s : State) : Host.Outcome State Fault Refusal :=
  issue plainUse f none s (fun c _ tids =>
    match stackSeg c.l with
    | none => raise s c { cause := 0x11, tids := tids }
    | some seg =>
      if !(c.l.segAt seg).rd then raise s c { cause := 0x11, tids := tids }
      else forFree s c tids (fun s c tids => retPop s c f tids (tids.filter (fun t => decide (retdOf c t = 0))) seg))

/-! ## JOIN and EXIT -/

/-- A thread that counts as Ready though it may have stood still when last tried (R280). (DEDUCED, log 42) -/
def Thread.isReady (t : Thread) : Bool :=
  decide (t.held = 0) && t.den.isNone && !t.st.blocked && (match t.st with | .parked _ => false | .ejected => false | .exited => false | _ => true)
/-- JOIN (R302): its threads are held until the first or the second condition lets them go; JOIN_PASS_LIMIT is the third. -/
def execJoin (f : FWord) (s : State) : Host.Outcome State Fault Refusal :=
  issue {} f none s (fun c _ tids =>
    let others := c.w.threads.filter (fun t => !tids.contains t.tid && t.st != .exited)
    let first := (ejectedTids c.w).isEmpty && others.all (fun t => !(t.isReady && decide (t.pc < c.pc)))
    let second := others.all (fun t => !c.grp.contains t.tid && !t.isReady && t.den.isNone)
    if first || second then finishWait s c tids (schedF f) [] c.w else hold s c tids (schedF f) .join)
/-- The warp's last thread has exited: its open burrow roles close (R332). -/
def closeRoles (b : Block) (wi : Nat) : Block := (List.range 8).foldl (fun acc n => exitBurrow acc wi n) b
/-- EXIT (R303): the threads end, their live sets are emptied, and barriers that waited for them are tested again. -/
def execExit (f : FWord) (s : State) : Host.Outcome State Fault Refusal :=
  issue plainUse f none s (fun c _ tids =>
    if mustCompare c then compareWait s c else
    let s1 := finishWait s c tids (schedF f) [] c.w
    let s2 := modWarp s1 c.w.name (fun w =>
      { w with
        frames := w.frames.map (fun fr => tids.foldl (fun g t => g.killThread t) fr)
        threads := w.threads.map (fun t => if tids.contains t.tid then { t with st := .exited, den := none, held := 0, cnt := 0 } else t) })
    let gone := match findWarp s2 c.w.name with | some w => (aliveTids w).isEmpty | none => false
    let s3 := if gone then modBlock s2 c.l.lk c.b.blk c.b.shadow (fun b => closeRoles b c.w.name.w) else s2
    settleBars s3 c.w.name)

/-! ## Warp collectives -/

/-- The use of a warp collective that writes `n` registers (R304); a group of four is one of v registers (R297). -/
def collUse (n : Nat) (b : Nat := 0) : Use := { d := n, a := 1, b := b, s := false, lock := true, zero := decide (n ≠ 4) }
/-- Issue a warp collective: its participants are the issuing threads, all read before any is written (R304). -/
def collective (u : Use) (f : FWord) (x : Option LExt) (s : State) (fn : List AluIn → List AluOut) : Host.Outcome State Fault Refusal :=
  issue u f x s (aluAll u x fn s)
/-- The four words of a mask. -/
def maskWords (m : Mask) : List Word := (List.range 4).map (maskWord m)
/-- POLL (R305). -/
def execPoll (f : FWord) (s : State) : Host.Outcome State Fault Refusal :=
  let k := f.aLo
  let val (i : AluIn) : Bool := i.p.getLsbD k != f.a.getLsbD 4
  if f.v then
    collective { d := 4, s := false, lock := true, zero := false, bad := decide (k ≥ 12), preds := [k] } f none s (fun ins =>
      let m := maskOf ((ins.filter val).map (·.t))
      ins.map (fun _ => { vals := maskWords m }))
  else
    collective { lock := true, bad := decide (k ≥ 12) || decide (f.dLo ≥ 12), preds := [k, f.dLo] } f none s (fun ins =>
      let r := match f.dHi with
        | 0 => ins.all val
        | 1 => ins.any val
        | _ => ins.all val || ins.all (fun i => !val i)
      ins.map (fun _ => { preds := [(f.dLo, r)] }))
/-- The source thread of WPERM (R306): mode 0 from, 1 back, 2 fwd, 3 swap, window `w`. -/
def wpermSrc (mode w t k : Nat) : Nat :=
  let base := t - t % w
  match mode with
  | 0 => base + k % w
  | 1 => if base + k ≤ t then t - k else t
  | 2 => if t + k < base + w then t + k else t
  | _ => base + ((t - base) ^^^ (k % w))
/-- The results of WPERM. -/
def wpermOuts (mode w : Nat) (ins : List AluIn) : List AluOut :=
  ins.map (fun i =>
    match ins.find? (fun j => decide (j.t = wpermSrc mode w i.t (w32 i.b).toNat)) with
    | some j => { vals := [w32 j.a] }
    | none => { vals := [w32 i.a] })
/-- WPERM, F form: .from or .swap over the whole warp. -/
def execWpermF (f : FWord) (s : State) : Host.Outcome State Fault Refusal :=
  collective (collUse 1 1) f none s (wpermOuts (if f.v then 3 else 0) 128)
/-- WPERM, L form. -/
def execWpermL (f : FWord) (x : LExt) (s : State) : Host.Outcome State Fault Refusal :=
  collective (collUse 1 1) f (some x) s (wpermOuts (x.xbits 0 2) (2 ^ x.xbits 2 3))
/-- MATCH (R307). -/
def execMatchWarp (f : FWord) (s : State) : Host.Outcome State Fault Refusal :=
  collective (collUse 4) f none s (fun ins =>
    ins.map (fun i => { vals := maskWords (maskOf ((ins.filter (fun j => decide (w32 j.a = w32 i.a))).map (·.t))) }))
/-- ELECT (R308). -/
def execElect (f : FWord) (s : State) : Host.Outcome State Fault Refusal :=
  collective { lock := true, bad := decide (f.dLo ≥ 12), preds := [f.dLo] } f none s (fun ins =>
    ins.map (fun i => { preds := [(f.dLo, ins.head?.map (·.t) == some i.t)] }))
/-- The reduction of FP32 values to a minimum or maximum, NaN operands passed over (R309). -/
def wredMinMax (ftz mx : Bool) (xs : List FVal) : Nat :=
  match xs.filter (fun x => !x.isNan) with
  | [] => if xs.isEmpty then (if mx then 0xFF800000 else 0x7F800000) else fmt32.nanBits
  | y :: ys => ys.foldl (fun acc z => (minMaxV fmt32 ftz mx (unpackF fmt32 acc) z).1) (packV fmt32 ftz y).1
/-- The exact sum of FP32 values, rounded once (R309). -/
def wredSum (ftz : Bool) (xs : List FVal) : Nat × Exc :=
  let opp := xs.any (FVal.isInf false) && xs.any (FVal.isInf true)
  if xs.any FVal.isNan || opp then (fmt32.nanBits, if opp || xs.any FVal.isSig then excInvalid else excNone)
  else sumRound ftz xs
/-- A reduction of R309 over the words of a set. -/
def wredVal (op : Nat) (m : Word) (xs : List Word) : Word × Exc :=
  let ftz := fpmFtz32 m
  let fs := xs.map (f32 m)
  let sig := if fs.any FVal.isSig then excInvalid else excNone
  match op with
  | 0 => (xs.foldl (· + ·) 0, excNone)
  | 1 => (xs.foldl (fun a b => if b.toInt < a.toInt then b else a) 0x7FFFFFFF, excNone)
  | 2 => (xs.foldl (fun a b => if b.toInt > a.toInt then b else a) 0x80000000, excNone)
  | 3 => (xs.foldl (fun a b => if b.toNat < a.toNat then b else a) 0xFFFFFFFF, excNone)
  | 4 => (xs.foldl (fun a b => if b.toNat > a.toNat then b else a) 0, excNone)
  | 5 => (xs.foldl (· &&& ·) 0xFFFFFFFF, excNone)
  | 6 => (xs.foldl (· ||| ·) 0, excNone)
  | 7 => (xs.foldl (· ^^^ ·) 0, excNone)
  | 8 => let r := wredSum ftz fs; (BitVec.ofNat 32 r.1, r.2)
  | 9 => (BitVec.ofNat 32 (wredMinMax ftz false fs), sig)
  | _ => (BitVec.ofNat 32 (wredMinMax ftz true fs), sig)
/-- The result of one participant, from the set it reduces. -/
def wredOut (op : Nat) (m : Word) (set : List AluIn) : AluOut :=
  let r := wredVal op m (set.map (fun i => w32 i.a))
  { vals := [r.1], exc := r.2 }
/-- WRED (R309). -/
def execWred (f : FWord) (s : State) : Host.Outcome State Fault Refusal :=
  collective (collUse 1) f none s (fun ins => ins.map (fun i => wredOut f.bLo i.fpm ins))
/-- WSCAN (R309): over the participants up to each thread, without it where V = 1. -/
def execWscan (f : FWord) (s : State) : Host.Outcome State Fault Refusal :=
  collective (collUse 1) f none s (fun ins =>
    ins.map (fun i => wredOut f.bLo i.fpm (ins.filter (fun j => if f.v then decide (j.t < i.t) else decide (j.t ≤ i.t)))))

/-! ## Issue control -/

/-- A write of %ejmax (R296). -/
def ejmaxWrite (x : Word) : Word := if x.toNat > 16 then 16 else x
/-- A write of %ejto (R296). -/
def ejtoWrite (x : Word) : Word := if x.toNat < 4096 then 4096 else x
/-- The use of an instruction whose only operand is a uniform B (R310). -/
def uniUse (f : FWord) : Use := { b := 1, q := false, bad := !f.i && !isUniCode f.b.toNat }
/-- EJCTL (R310). -/
def execEjctl (f : FWord) (s : State) : Host.Outcome State Fault Refusal :=
  issue (uniUse f) f none s (fun c f' tids =>
    let x := uniformB s c f'
    finish s c tids (schedF f) (if f.v then { c.w with ejto := ejtoWrite x } else { c.w with ejmax := ejmaxWrite x }))
/-- RECALL (R311). -/
def execRecall (f : FWord) (s : State) : Host.Outcome State Fault Refusal :=
  issue {} f none s (fun c _ tids =>
    if (ejectedTids c.w).isEmpty then finishWait s c tids (schedF f) [] c.w
    else modWarp (hold s c tids (schedF f) .recall) c.w.name (fun w => askRecall w (ejectedTids w)))
/-- The flags that WAITF names (R312). -/
def waitfMask (f : FWord) : BitVec 12 := BitVec.ofNat 12 (f.a.toNat + f.bLo * 256)
/-- An access that a warp issued before the number `n` was handed out is still to perform (R312). -/
def accessBefore (s : State) (w : WName) (n : Nat) : Bool :=
  s.reqs.any (fun r => decide (r.w = w) && r.accesses && !r.done && decide (r.id < n)) ||
  s.copies.any (fun e => decide (e.w = w) && decide (e.id < n))
/-- Accesses with numbers below this one count for a WAITF: those that had been issued when its threads came to it. -/
def waitfUpTo (s : State) (c : Ctx) (tids : List Nat) : Nat :=
  tids.foldl (fun m t => max m (match c.w.thread t with
    | some x => (match x.st with | .waitf k => k | _ => s.nextId)
    | none => 0)) 0
/-- WAITF (R312). With V = 1 it also waits for the accesses that the warp had issued when its threads came here. -/
def execWaitf (f : FWord) (s : State) : Host.Outcome State Fault Refusal :=
  issue {} f none s (fun c _ tids =>
    let upTo := waitfUpTo s c tids
    if flagsClear c.w none (waitfMask f) && !(f.v && accessBefore s c.w.name upTo) then finishWait s c tids (schedF f) [] c.w
    else hold s c tids (schedF f) (.waitf upTo))
/-- Threads that have issued wait beyond the instruction, for `n` more cycles. -/
def waitAfter (s : State) (c : Ctx) (tids : List Nat) (st : TState) (n : Nat) : State :=
  modWarp s c.w.name (fun w => w.modThreads tids (fun t => { t with st := st, cnt := n + 1 }))
/-- YIELD (R313): until another group of the warp has issued, or for 8 cycles. -/
def execYield (f : FWord) (s : State) : Host.Outcome State Fault Refusal :=
  issue {} f none s (fun c _ tids =>
    modWarp (waitAfter (finishWait s c tids (schedF f) tids c.w) c tids .yield 8) c.w.name (fun w => { w with young := true }))
/-- SLEEP (R314). -/
def execSleep (f : FWord) (s : State) : Host.Outcome State Fault Refusal :=
  issue (uniUse f) f none s (fun c f' tids =>
    let n := min (uniformB s c f').toNat (2 ^ 20)
    if n = 0 then finishWait s c tids (schedF f) [] c.w else waitAfter (finishWait s c tids (schedF f) tids c.w) c tids .sleep n)

/-! ## Events -/

/-- A den thread goes back to the lanes, with its trace record (R294, R295). -/
def denReturn (s : State) (w : Warp) (t : Thread) (code : Nat) : State :=
  let s1 := modWarp s w.name (fun v => recallThreads v [t.tid])
  traceRec s1 (partOf w.name.launch) 4 code w.depth w.core w.name.launch w.name.blk t.pc 1 (w.name.w * 128 + t.tid)
/-- A den thread by its warp and number. -/
def denThread (s : State) (n : WName) (tid : Nat) : Option (Warp × Thread × DenSlot) :=
  match findWarp s n with
  | none => none
  | some w => match w.thread tid with
    | none => none
    | some t => t.den.map (fun d => (w, t, d))
/-- DEN_HANDOVER (R292): the hand-over is complete, and the den core may execute the thread. -/
def execDenHandover (w : WName) (tid : Nat) (s : State) : Host.Outcome State Fault Refusal :=
  match denThread s w tid with
  | some (v, _, d) =>
    if d.recalled || v.halt.isSome then .next s
    else .next (modWarp s w (fun u => u.modThread tid (fun t => t.modDen (fun y => { y with running := true }))))
  | none => .next s
/-- DEN_REJOIN (R294): the thread stands at its party's join point and all that it issued has completed. -/
def execDenRejoin (w : WName) (tid : Nat) (s : State) : Host.Outcome State Fault Refusal :=
  match denThread s w tid with
  | some (v, t, d) =>
    if d.running && t.st == .ejected && t.pc == d.joinPt && s.reqs.all (fun r => !(decide (r.w = w) && decide (r.den = some tid)))
    then .next (denReturn s v t 1) else .next s
  | none => .next s
/-- DEN_TIMEOUT_RECALL (R295): the thread's den cycles have reached %ejto. -/
def execDenTimeoutRecall (w : WName) (tid : Nat) (s : State) : Host.Outcome State Fault Refusal :=
  match denThread s w tid with
  | some (v, _, d) => if d.cycles ≥ v.ejto.toNat then .next (modWarp s w (fun u => askRecall u [tid])) else .next s
  | none => .next s
/-- RECALL_COMPLETE (R295): a recalled thread is back on the lanes. -/
def execRecallComplete (w : WName) (tid : Nat) (s : State) : Host.Outcome State Fault Refusal :=
  match denThread s w tid with
  | some (v, t, d) => if d.recalled then .next (denReturn s v t 2) else .next s
  | none => .next s
/-- Threads of a warp in a state go on past the word they wait at, or from where they are. -/
def wake (w : Warp) (f : Thread → Bool) (past : Bool) : Warp :=
  { w with threads := w.threads.map (fun t => if f t then { t with st := .ready, cnt := 0, rk := 0, pc := if past then t.pc + 8 else t.pc } else t) }
/-- JOIN_PASS_LIMIT (R302): the warp has made 1,024 passes since the first of the threads held at a JOIN came to it. -/
def execJoinPassLimit (w : WName) (s : State) : Host.Outcome State Fault Refusal :=
  .next (modWarp s w (fun u => wake u (fun t => t.st == .join && decide (t.held = 0) && decide (agetD u.joinPasses t.pc 0 ≥ 1024)) true))
/-- SLEEP_EXPIRY (R314). -/
def execSleepExpiry (w : WName) (pc : Nat) (s : State) : Host.Outcome State Fault Refusal :=
  .next (modWarp s w (fun u => wake u (fun t => t.st == .sleep && decide (t.pc = pc) && decide (t.cnt ≤ 1)) false))
/-- YIELD_TIMEOUT (R313). -/
def execYieldTimeout (w : WName) (pc : Nat) (s : State) : Host.Outcome State Fault Refusal :=
  .next (modWarp s w (fun u => wake u (fun t => t.st == .yield && decide (t.pc = pc) && decide (t.cnt ≤ 1)) false))
/-- GROUP_PROMOTION (R285). -/
def execGroupPromotion (w : WName) (pc : Nat) (s : State) : Host.Outcome State Fault Refusal :=
  .next (modWarp s w (fun u => if agetD u.groupWait pc 0 ≥ 32 && !u.promoted.contains pc then { u with promoted := u.promoted ++ [pc] } else u))
/-- WARP_AGING (R287). -/
def execWarpAging (w : WName) (s : State) : Host.Outcome State Fault Refusal :=
  .next (modWarp s w (fun u => if u.ableFor ≥ 32 then { u with aged := true, young := false } else u))
/-- A page is on its way to another tier, so that some access of it still parks without a record (R216). -/
def pageMoving (s : State) (l : Launch) (page : Nat) : Bool :=
  [Access.load, Access.store].any (fun k => match xlate s (partOf l.lk) page k l.bound with | .park _ none => true | _ => false)
/-- PARKED_GROUP_RELEASE (R218): threads parked on a page that has landed, or whose record was answered with a retry, stand before
their instruction again. -/
def execParkedGroupRelease (w : WName) (pc : Nat) (s : State) : Host.Outcome State Fault Refusal :=
  match findLaunch s w.launch with
  | none => .next s
  | some l =>
    .next (modWarp s w (fun u => { u with threads := u.threads.map (fun t =>
      match t.st with
      | .parked p => if t.pc = pc ∧ p.token = 0 ∧ ¬ pageMoving s l p.page then { t with st := if t.den.isSome then .ejected else .ready } else t
      | _ => t) }))

end Sys2Proof.Machine
end

