-- ==== Sys2Proof/Machine/Queue.lean ====
section
/-! DEFINITION. The instructions that bind, close, read and free a burrow (R328, R333 to R336), and the end of a wait that lasts
too long (R337). -/

namespace Sys2Proof.Machine

/-- The burrow that a q code names. -/
def qNum (code : BitVec 8) : Nat := code.toNat - 0xC0
/-- Bytes of a ring. -/
def ringBytes (sz : Nat) : Nat := 64 * 2 ^ sz
/-- Another bound name of a block has a ring that overlaps a run of bytes. -/
def ringOverlap (b : Block) (n base bytes : Nat) : Bool :=
  (List.range 8).any (fun k => let q := b.burrow k
    k != n && q.bound && decide (q.base < base + bytes) && decide (base < q.base + ringBytes q.sz))
/-- The first cause of a QBIND, with its address (R328, R340). -/
def qbindCause (b : Block) (smem n base sz : Nat) : Option (Nat × Nat) :=
  if base % 64 ≠ 0 then some (0x12, base)
  else if base + ringBytes sz > smem then some (0x17, base)
  else if (b.burrow n).bound || ringOverlap b n base (ringBytes sz) then some (0x57, n)
  else none
/-- QBIND (R328). -/
def execQbind (f : FWord) (x : LExt) (s : State) : Host.Outcome State Fault Refusal :=
  let n := qNum f.d
  issue { a := 1, q := false, bad := !isQ f.d.toNat || !isSZ f.a.toNat } f (some x) s (fun c f' tids =>
    let base := (readCode s c c.w tids (tids.headD 0) f'.a.toNat).toNat + x.imm32.toNat
    match qbindCause c.b c.l.pkt.smem n base x.szc with
    | some (k, a) => raise s c { cause := k, tids := tids, faddr := a }
    | none =>
      let q : Burrow :=
        { bound := true, base := base, sz := x.szc, head := 0, tail := 0, prod := x.xbits 4 4 + 1, cons := x.xbits 8 4 + 1
          pmark := [], cmark := [], closedw := [] }
      finishWait (modBlock s c.l.lk c.b.blk c.b.shadow (fun b => b.setBurrow n q)) c tids (schedF f) [] c.w)
/-- The use of an instruction whose A names a burrow without reading it. -/
def qNameUse (f : FWord) : Use := { q := false, bad := !isQ f.a.toNat }
/-- QCLOSE (R333). -/
def execQclose (f : FWord) (s : State) : Host.Outcome State Fault Refusal :=
  issue (qNameUse f) f none s (fun c _ tids =>
    let n := qNum f.a
    if !(c.b.burrow n).bound then raise s c { cause := 0x52, tids := tids, faddr := n }
    else finishWait (modBlock s c.l.lk c.b.blk c.b.shadow (fun b => closeProducer b c.w.name.w n)) c tids (schedF f) [] c.w)
/-- QPOPT (R334): the lowest-numbered issuing threads take what is there. -/
def execQpopt (f : FWord) (s : State) : Host.Outcome State Fault Refusal :=
  let u : Use := { d := 1, s := false, q := false, lock := true, bad := !isQ f.a.toNat || decide (f.bLo ≥ 12), preds := [f.bLo] }
  issue u f none s (fun c f' tids =>
    let n := qNum f.a
    let q := c.b.burrow n
    if !q.bound then raise s c { cause := 0x52, tids := tids, faddr := n }
    else if q.occ < tids.length && !q.closed then stallAs s c (.burrow false n)
    else
      let ts := tids.take q.occ
      let pops := [(1, n)]
      if popsPoison c.b pops ts.length then consume s c 0x80 ts 0 else
      let (b1, vals) := popField c.b c.w.name.w n ts
      let outs := tids.map (fun t =>
        match vals.find? (fun v => v.1 == t) with
        | some v => (t, { vals := [v.2], preds := [(f.bLo, true)] : AluOut })
        | none => (t, { vals := [0], preds := [(f.bLo, false)] : AluOut }))
      let (s1, w1) := qTransfer s c c.w ts pops none b1
      finish s1 c tids (schedF f) (interlock w1 (writeOuts w1 c.den tids u f' outs)))
/-- The word of QSTAT (R335). -/
def qstatWord (q : Burrow) : Word :=
  if !q.bound then 0
  else BitVec.ofNat 32 (2 ^ 31 + (if q.prod = 0 then 2 ^ 30 else 0) + q.prod * 2 ^ 25 + q.cons * 2 ^ 20 + q.sz * 2 ^ 16 + q.occ)
/-- QSTAT (R335). -/
def execQstat (f : FWord) (s : State) : Host.Outcome State Fault Refusal :=
  let u : Use := { qNameUse f with d := 1, lock := true }
  issue u f none s (fun c f' tids => aluBody u none (fun _ => { vals := [qstatWord (c.b.burrow (qNum f.a))] }) s c f' tids)
/-- QFREE (R336). -/
def execQfree (f : FWord) (s : State) : Host.Outcome State Fault Refusal :=
  issue (qNameUse f) f none s (fun c _ tids =>
    let n := qNum f.a
    let waited := (blockWarps s c.l.lk c.b.blk c.b.shadow).any (fun w => w.threads.any (fun t =>
      match t.st with | .burrow _ k => k == n | _ => false))
    if (c.b.burrow n).bound && waited then raise s c { cause := 0x57, tids := tids, faddr := n }
    else finishWait (modBlock s c.l.lk c.b.blk c.b.shadow (fun b => { b with burrows := adel b.burrows n })) c tids (schedF f) [] c.w)

/-- Whether a thread passes the guard of a group's instruction word (R36), as its predicates stand. -/
def passesWord (w : Warp) (ws : List Code) (t : Nat) : Bool :=
  match instrWord ws with
  | none => true
  | some (i, _) =>
    let q : Sched := { stall := 0, wait := 0, sig := 15, gn := i.getLsbD 33, gp := (i.extractLsb' 29 4).toNat }
    q.passes (w.cur.getP t)
/-- The warp with the only open mark that would end a wait (R337), or 0xFFFF_FFFF. -/
def onlyMark (q : Burrow) (push : Bool) : Nat :=
  match (if push then q.cmark else q.pmark.filter (fun w => !q.closedw.contains w)) with | [w] => w | _ => 0xFFFFFFFF
/-- The threads of a warp that have waited on a burrow at a program counter for longer than %qto. -/
def lateThreads (v : Warp) (pc : Nat) : List Thread :=
  v.threads.filter (fun t => decide (t.held = 0) && t.den.isNone && decide (t.pc = pc) && v.qto != 0 && decide (t.cnt > v.qto.toNat) &&
    (match t.st with | .burrow _ _ => true | _ => false))
/-- The cause of a wait that has lasted too long (R337), for every thread of the group that waits as thread `t` does. -/
def lateRaise (v : Warp) (b : Block) (ws : List Code) (pc : Nat) (t : Thread) : Raise :=
  { cause := 0x51
    tids := (v.threads.filter (fun x => decide (x.held = 0) && decide (x.pc = pc) && decide (x.st = t.st) && passesWord v ws x.tid)).map (·.tid)
    faddr := match t.st with | .burrow push n => onlyMark (b.burrow n) push | _ => 0 }
/-- QUEUE_WAIT_TIMEOUT (R337): a wait on a burrow has lasted longer than %qto. -/
def execQueueWaitTimeout (w : WName) (pc : Nat) (s : State) : Host.Outcome State Fault Refusal :=
  match findWarp s w, findBlock s w.launch w.blk w.shadow with
  | some v, some b =>
    (match lateThreads v pc with
      | [] => .next s
      | t :: _ =>
        let ws := groupWordsOf s v pc
        .next ((deliver s w ws pc t.rk (lateRaise v b ws pc t) none).getD s))
  | _, _ => .next s

end Sys2Proof.Machine
end

