-- ==== Sys2Proof/Machine/Edge.lean ====
section
/-! DEFINITION. Graph edges (R352 to R356): EDGEW, EDGER and EDGECL, the bindings of a launch; and ATOMIC_PERFORM and STORE_PERFORM,
which bring what atomics, stores and edge instructions have sent to its home. -/

namespace Sys2Proof.Machine

/-! ## The header -/

/-- An edge header as read (R352), with where it lies. -/
structure EdgeHdr where
  va : Nat
  pa : Nat
  szc : Nat
  lgs : Nat
  mbz : Bool
  cv : Bool
  pv : Bool
  closed : Bool
  free : Nat
  avail : Nat
  wpos : Nat
  rpos : Nat
  deriving DecidableEq, Repr
/-- The virtual address of a binding's header. -/
def edgeVa (l : Launch) (b : EdgeBind) : Nat := (l.segAt b.seg).base + b.off
/-- Slots of an edge. -/
def EdgeHdr.slots (h : EdgeHdr) : Nat := 2 ^ h.lgs
/-- Bytes of a slot (R352). -/
def slotBytes (szc : Nat) : Nat := 4 * 2 ^ szc
/-- The header whose bytes stand at a physical address. -/
def readEdge (m : List Host.Cell) (va pa : Nat) : EdgeHdr :=
  let w (k : Nat) : Nat := readNat m (pa + 4 * k) 4
  { va := va, pa := pa, szc := bitsOf (w 0) 4 2, lgs := bitsOf (w 0) 0 4
    mbz := decide (w 0 / 64 = 0) && decide (w 1 / 8 = 0) && (readBytes m (pa + 0x20) 32).all (fun b => b == 0)
    cv := bitOf (w 1) 2, pv := bitOf (w 1) 1, closed := bitOf (w 1) 0
    free := w 2, avail := w 3, wpos := w 4, rpos := w 5 }
/-- A word of a header written at its home. -/
def edgePut (s : State) (p va pa k x : Nat) : State := markGranule (writePhys s (pa + 4 * k) (toBytes x 4)) p va
/-- Bits of the header's word of flags set and cleared. -/
def edgeFlags (s : State) (p va pa set clear : Nat) : State :=
  edgePut s p va pa 1 ((readNat s.mem (pa + 4) 4 ||| set) &&& (0xFFFFFFFF - clear))
/-- The header of a binding, where its page can be reached now. -/
def edgeHdr (s : State) (l : Launch) (b : EdgeBind) : Option EdgeHdr :=
  match xlate s (partOf l.lk) (edgeVa l b) .atomic l.bound with
  | .ok pa => some (readEdge s.mem (edgeVa l b) pa)
  | .park _ _ => none
/-- Every used binding of a launch can be reached, and no granule of a header is being copied. -/
def edgesReachable (s : State) (l : Launch) : Bool :=
  l.edges.all (fun b => b.role == 0 || ((edgeHdr s l b).isSome && !isCow s (partOf l.lk) (edgeVa l b)))
/-- Each used binding's header changed. -/
def eachEdge (s : State) (l : Launch) (f : State → EdgeBind → EdgeHdr → State) : State :=
  l.edges.foldl (fun acc b => if b.role = 0 then acc else match edgeHdr acc l b with | some h => f acc b h | none => acc) s
/-- A launch starts on its edges (R353): its identifier is written and its role's valid bit set; a producer reopens a closed edge. -/
def edgeStart (s : State) (l : Launch) : State :=
  let p := partOf l.lk
  eachEdge s l (fun acc b h =>
    if b.role = 1 then edgePut (edgeFlags acc p h.va h.pa 2 1) p h.va h.pa 6 (lidOf l.lk)
    else edgePut (edgeFlags acc p h.va h.pa 4 0) p h.va h.pa 7 (lidOf l.lk))
/-- A launch leaves its edges (R353). -/
def edgeFinish (s : State) (l : Launch) : State :=
  let p := partOf l.lk
  eachEdge s l (fun acc b h => if b.role = 1 then edgeFlags acc p h.va h.pa 1 2 else edgeFlags acc p h.va h.pa 0 4)

/-! ## Slots -/

/-- The accesses of `n` slots from position `k` on, one for each of these threads; the first that parks parks them all. -/
def slotAccs (s : State) (l : Launch) (h : EdgeHdr) (store : Bool) (k : Nat) (data : Nat → List Byte) : List Nat → Nat → TOut
  | [], _ => .perform []
  | t :: ts, i =>
    let sb := slotBytes h.szc
    let va := h.va + 64 + ((k + i) % h.slots) * sb
    match xlate s (partOf l.lk) va (if store then .store else .load) l.bound with
    | .park page cause => .park page cause va
    | .ok pa =>
      match slotAccs s l h store k data ts (i + 1) with
      | .perform more => .perform ({ accPiece t .phys va 0 sb (data t) [] false false false false with addr := pa } :: more)
      | o => o
/-- The access of the header that a request keeps, first of its list. (DEDUCED, log 45) -/
def hdrAcc (h : EdgeHdr) : Acc := { accPiece 0 .phys h.va 0 64 [] [] false false false false with addr := h.pa }
/-- What an edge instruction finds (R354, R360): a detail of 0x55, a page to park on, a wait, or the header. -/
inductive EdgeGate where
  | misuse (detail : Nat)
  | park (page : Nat) (cause : Option Nat) (va : Nat)
  | wait
  | ok (h : EdgeHdr)
/-- The tests of an edge instruction on binding `e` for `n` threads. -/
def edgeGate (s : State) (l : Launch) (e szc role n : Nat) : EdgeGate :=
  match l.edges[e]? with
  | none => .misuse 1
  | some b =>
    if b.role ≠ role then .misuse 1
    else match xlate s (partOf l.lk) (edgeVa l b) .atomic l.bound with
      | .park page k => .park page k (edgeVa l b)
      | .ok pa =>
        let h := readEdge s.mem (edgeVa l b) pa
        if h.szc ≠ szc then .misuse 2
        else if n > h.slots then .misuse 3
        else if role = 1 && (h.closed || l.edgeClosed.any (fun x => x.1 == e)) then .misuse 4
        else if isCow s (partOf l.lk) (edgeVa l b) then .wait
        else .ok h
/-- Threads park on a page of an edge: with a record where its cause has one and the queue has room (R216, R217). -/
def edgePark (s : State) (c : Ctx) (tids : List Nat) (page : Nat) (cause : Option Nat) (va : Nat) : State :=
  if cause.isSome && !fqRoom s (partOf c.l.lk) then stall s c 13 else parkOn s c false tids page cause va
/-- 0x55 with its detail. -/
def edgeMisuse (s : State) (c : Ctx) (tids : List Nat) (e detail : Nat) : State :=
  raise s c { cause := 0x55, tids := tids, faddr := e * 256 + detail }
/-- Registers of a slot of a size code. (DEDUCED, log 45) -/
def slotRegs (szc : Nat) : Nat := if szc = 3 then 1 else 2 ^ szc
/-- The result that a twin's primary leaves for its shadow, where the launch is a twin (R466). -/
def leaveOnce (s : State) (c : Ctx) (res : List (Nat × List Word)) : State :=
  if c.l.twin then modWarp s { c.w.name with shadow := true } (fun w => { w with twinRes := aset w.twinRes c.w.once res }) else s
/-- The warp has made one more access that is made once. -/
def onceMore (l : Launch) (w : Warp) : Warp := if l.twin then { w with once := w.once + 1 } else w
/-- The request of an edge instruction. -/
def edgeReq (s : State) (c : Ctx) (kind : ReqKind) (id sig dcode dn : Nat) (tids : List Nat) (accs : List Acc) (order : Nat) : Req :=
  { mkReq s c { seg := 0, unit := 1, size := 4, align := 4, use := .load, kind := kind, dcode := dcode, dn := dn } id sig tids accs with
    order := order, colour := 0 }

/-! ## The instructions -/

/-- EDGEW (R354): slots are reserved at issue; STORE_PERFORM writes and publishes them. -/
def execEdgew (f : FWord) (x : LExt) (s : State) : Host.Outcome State Fault Refusal :=
  let e := x.xbits 0 3
  let szc := x.xbits 3 2
  let u : Use := { dr := slotRegs szc, q := false, bad := !(isV f.d.toNat || f.d.toNat == opZero) }
  issue u f (some x) s (fun c f' tids => forFree s c tids (fun s c tids =>
    if mustCompare c then compareWait s c else
    let w1 := onceMore c.l (applyMarks c.w u f' (some x) none 0 tids)
    if c.l.twin && c.w.name.shadow then
      match aget c.w.twinRes c.w.once with
      | none => stall s c 8
      | some _ => finishWait s c tids (schedF f) [] { w1 with twinRes := adel w1.twinRes c.w.once }
    else match edgeGate s c.l e szc 1 tids.length with
      | .misuse d => edgeMisuse s c tids e d
      | .park page k va => edgePark s c tids page k va
      | .wait => stall s c 8
      | .ok h =>
        if h.free < tids.length then stall s c 8 else
        let data (t : Nat) : List Byte := regBytes (slotBytes szc) (readGroup s c c.w tids t f'.d.toNat (slotRegs szc))
        match slotAccs s c.l h true h.wpos data tids 0 with
        | .park page k va => edgePark s c tids page k va
        | .tier4 => stall s c 8
        | .perform accs =>
          let p := partOf c.l.lk
          let s1 := edgePut (edgePut s p h.va h.pa 2 (h.free - tids.length)) p h.va h.pa 4 ((h.wpos + tids.length) % 2 ^ 32)
          let s2 := (h.va :: accs.map (·.va)).foldl (fun acc va => touchLeaf acc p va true) s1
          let (id, s3) := freshId s2
          let out := w1.race.release c.w.name (partyOf c.w none) tids 3
          let r := { edgeReq s c (.edgePut e) id f.sig.toNat opZero 1 tids (hdrAcc h :: accs) 2 with rels := out.1 }
          let s4 := leaveOnce { s3 with reqs := s3.reqs ++ [r] } c []
          finish s4 c tids (schedF f).sent (raiseFlag { w1 with race := out.2 } c.w.depth c.den f.sig.toNat)))
/-- EDGER (R354): slots are reserved at issue; ATOMIC_PERFORM reads them and frees them. A twin's shadow takes the primary's. -/
def execEdger (f : FWord) (x : LExt) (s : State) : Host.Outcome State Fault Refusal :=
  let e := x.xbits 0 3
  let szc := x.xbits 3 2
  let k := x.xbits 5 4
  let n := slotRegs szc
  let u : Use :=
    { d := n, s := false, q := false, preds := if k < 12 then [k] else []
      bad := (decide (12 ≤ k) && decide (k ≤ 14)) || !(isV f.d.toNat || f.d.toNat == opZero) }
  issue u f (some x) s (fun c f' tids => forFree s c tids (fun s c tids =>
    if mustCompare c then compareWait s c else
    let w1 := raiseFlag (onceMore c.l c.w) c.w.depth c.den f.sig.toNat
    let send (st : State) (race : RaceSt) (accs : List Acc) : State :=
      let (id, s3) := freshId st
      let r := edgeReq s c (.edgeTake k) id f.sig.toNat f'.d.toNat n tids accs 0
      finish { s3 with reqs := s3.reqs ++ [r] } c tids (schedF f).sent { w1 with race := race }
    if c.l.twin && c.w.name.shadow then send s c.w.race []
    else match edgeGate s c.l e szc 2 tids.length with
      | .misuse d => edgeMisuse s c tids e d
      | .park page q va => edgePark s c tids page q va
      | .wait => stall s c 8
      | .ok h =>
        let m := min tids.length h.avail
        if m < tids.length && !h.closed then stall s c 8
        else if m < tids.length && k = 15 then edgeMisuse s c tids e 5
        else match slotAccs s c.l h false h.rpos (fun _ => []) (tids.take m) 0 with
          | .park page q va => edgePark s c tids page q va
          | .tier4 => stall s c 8
          | .perform accs =>
            let p := partOf c.l.lk
            let s1 := edgePut (edgePut s p h.va h.pa 3 (h.avail - m)) p h.va h.pa 5 ((h.rpos + m) % 2 ^ 32)
            let s2 := touchLeaf (accs.foldl (fun acc a => touchLeaf acc p a.va false) s1) p h.va true
            let s3 := (runsOf c.l.twin c.w.name).foldl (fun acc n => popEdges acc (partyOf c.w none) n (tids.take m) .phys 3 (accs.map (·.addr)))
              (dropForAcquire s2 c.l c.w.core)
            send s3 (((findWarp s3 c.w.name).map (·.race)).getD c.w.race) (hdrAcc h :: accs)))
/-- A launch's early closing of a binding takes effect once nothing it reserved is still to be published (R355). -/
def closeEarly (s : State) (l : Launch) (e : Nat) : State :=
  if s.reqs.any (fun r => decide (r.w.launch = l.lk) && decide (r.kind = .edgePut e)) then s
  else match l.edges[e]? with
    | none => s
    | some b => match edgeHdr s l b with
      | some h => edgeFlags s (partOf l.lk) h.va h.pa 1 0
      | none => s
/-- EDGECL (R355). -/
def execEdgecl (f : FWord) (s : State) : Host.Outcome State Fault Refusal :=
  issue { solo := true } f none s (fun c _ tids =>
    let e := f.d.toNat % 8
    match edgeGate s c.l e (match (c.l.edges[e]?).bind (edgeHdr s c.l) with | some h => h.szc | none => 0) 1 0 with
    | .misuse 4 => finishWait s c tids (schedF f) [] c.w
    | .misuse d => edgeMisuse s c (tids.take 1) e d
    | .park page k va => edgePark s c tids page k va
    | .wait => stall s c 8
    | .ok _ =>
      let l1 := { c.l with edgeClosed := (e, 1) :: c.l.edgeClosed }
      finishWait (closeEarly (modLaunch s c.l.lk (fun _ => l1)) l1 e) c tids (schedF f) [] c.w)

/-! ## Performing -/

/-- The slots of an EDGEW are written, and published once every earlier reservation is (R354). -/
def performPut (s : State) (r : Req) (e : Nat) : Option State :=
  match reqHome s r, r.accs with
  | some (l, core), hdr :: slots =>
    if !mayPerform s r || s.reqs.any (fun q => decide (q.w.launch = l.lk) && decide (q.kind = .edgePut e) && decide (q.id < r.id)) then none
    else
      let p := partOf l.lk
      let s1 := slots.foldl (fun acc a => writeAcc acc l core a) s
      let s2 := edgePut s1 p hdr.va hdr.addr 3 ((readNat s1.mem (hdr.addr + 12) 4 + slots.length) % 2 ^ 32)
      let s3 := slots.foldl (fun acc a => raceWrite acc r false [] a) s2
      let s4 := completeReq s3 r (fun w => w)
      some (if l.edgeClosed.any (fun c => c.1 == e) then closeEarly s4 l e else s4)
  | _, _ => none
/-- The slots that an EDGER reserved are read, and freed: the registers and predicate of each thread (R354). -/
def performTake (s : State) (r : Req) : Option (State × List (Nat × List Word)) :=
  match reqHome s r, r.accs with
  | some _, [] =>
    (match findWarp s r.w with
      | none => none
      | some w => (aget w.twinRes r.once).map (fun res => (modWarp s r.w (fun v => { v with twinRes := adel v.twinRes r.once }), res)))
  | some (l, _), hdr :: slots =>
    if !mayPerform s r then none
    else
      let free := (readNat s.mem (hdr.addr + 8) 4 + slots.length) % 2 ^ 32
      let res := r.tids.map (fun t =>
        match slots.find? (fun a => a.tid == t) with
        | some a => (t, loadWords false r.dn (readBytes s.mem a.addr a.size) ++ [1])
        | none => (t, List.replicate (r.dn + 1) 0))
      let s1 := if slots.isEmpty then s else edgePut s (partOf l.lk) hdr.va hdr.addr 2 free
      some (if l.twin then leaveTwin s1 r res else s1, res)
  | none, _ => none

/-- ATOMIC_PERFORM (R241, R247, R354): the read-modify-writes of an atomic, or the reads of an EDGER. -/
def execAtomicPerform (id : Nat) (s : State) : Host.Outcome State Fault Refusal :=
  match findReq s id with
  | none => .next s
  | some r =>
    match r.kind with
    | .atom _ _ _ => if r.seq.isSome && !r.done then .next s else .next (replyTo s r)
    | .edgeTake _ =>
      if (r.accs.drop 1).any (accPoison s) && mayPerform s r && !r.done then
        let a := ((r.accs.drop 1).find? (accPoison s)).map (·.va)
        .next (dropReq (consumeWarp s r.w 0x80 r.tids (a.getD 0)) id)
      else match (if r.done then some (s, r.result) else performTake s r) with
        | some (s1, res) => .next (deliverReply s1 r res)
        | none => .next s
    | _ => .next s

/-- STORE_PERFORM (R223, R354): a store, or the slots of an EDGEW, perform at their home, and the flag is lowered. -/
def execStorePerform (id : Nat) (s : State) : Host.Outcome State Fault Refusal :=
  match findReq s id with
  | none => .next s
  | some r =>
    match r.kind with
    | .store =>
      if r.done then .next (if routeClear s r.route then completeReq s r (fun w => w) else s)
      else if r.seq.isSome then .next s
      else match performStore s r with
        | none => .next s
        | some s1 => .next (completeReq s1 r (fun w => w))
    | .edgePut e => .next ((performPut s r e).getD s)
    | _ => .next s

end Sys2Proof.Machine
end

