-- ==== Sys2Proof/Machine/Code.lean ====
section
/-! DEFINITION. Code pages (R367 to R380): fetching bricks, the code checker, CFETCH, CSTAT and CEVICT, and the events that land,
fetch and refetch a brick. -/

namespace Sys2Proof.Machine

/-! ## Reading through a translation -/

/-- What a read of virtual bytes comes to: the bytes and their physical runs, or the page that keeps it from being made. -/
inductive VRead where
  | ok (bytes : List Byte) (runs : List (Nat × Nat))
  | park (page : Nat) (cause : Option Nat)
/-- Read virtual bytes of a partition through the TLBs of a core or none, 4 KiB page by page; `fuel` bounds the pages. -/
def readVirtBy (core : Option Nat) (s : State) (p : Nat) (k : Access) (prot : Option Nat) : Nat → Nat → Nat → VRead
  | 0, _, _ => .ok [] []
  | fuel + 1, va, n =>
    if n = 0 then .ok [] [] else
    let m := min n (4096 - va % 4096)
    match xlate s p va k prot core with
    | .park page c => .park page c
    | .ok pa =>
      match readVirtBy core s p k prot fuel (va + m) (n - m) with
      | .ok bs runs => .ok (readBytes s.mem pa m ++ bs) ((pa, m) :: runs)
      | .park page c => .park page c
/-- Read virtual bytes of a partition, by no core. -/
def readVirt (s : State) (p : Nat) (k : Access) (prot : Option Nat) (fuel va n : Nat) : VRead := readVirtBy none s p k prot fuel va n
/-- The pages that a run of bytes needs at most. -/
def pagesFor (n : Nat) : Nat := n / 4096 + 2

/-! ## The checker -/

/-- The registers that an opcode's fields name, as its meaning reads and writes them (R371, test 4). -/
def staticUse (opc : Nat) (f : FWord) (x : Option LExt) : Use :=
  let e := x.getD { c := 0, x24 := 0, imm32 := 0 }
  let m := if isTy64 e.ty0 then 2 else 1
  let n := if x.isSome then m else 1
  let off := offRegs x
  let dab : Use := { d := 1, a := 1, b := 1 }
  let dabc : Use := { d := 1, a := 1, b := 1, c := 1 }
  let da : Use := { d := 1, a := 1 }
  if [0x001, 0x162].contains opc then { d := 1, b := 1 }
  else if [0x002, 0x003, 0x006, 0x007, 0x00A, 0x00B, 0x00F, 0x010, 0x011, 0x012, 0x013, 0x016, 0x017, 0x018, 0x019, 0x01B, 0x040, 0x041,
    0x042, 0x044, 0x045, 0x049, 0x053, 0x054, 0x055, 0x057, 0x058, 0x080, 0x081, 0x082, 0x083, 0x084, 0x128].contains opc then dab
  else if [0x004, 0x009, 0x015, 0x01A, 0x01C, 0x020].contains opc then dabc
  else if [0x00C, 0x00D, 0x014, 0x01D, 0x01E, 0x01F, 0x047, 0x048, 0x04A, 0x04B, 0x04C, 0x04D, 0x04E, 0x04F, 0x050, 0x051, 0x052, 0x089,
    0x08A, 0x0DA, 0x10A, 0x10B, 0x109, 0x12B, 0x12C, 0x161, 0x176, 0x17A, 0x17E].contains opc then da
  else if opc = 0x043 || opc = 0x056 then (if x.isSome then dabc else dab)
  else if [0x00E, 0x046].contains opc then { a := 1, b := 1 }
  else if [0x005, 0x059, 0x05A, 0x05C, 0x05D].contains opc then { d := 2, a := 2, b := 2 }
  else if opc = 0x05B then { d := 2, a := 2, b := 2, c := 2 }
  else if opc = 0x05E then { a := 2, b := 2 }
  else if opc = 0x008 then { d := 2, a := 1, b := 1 }
  else if opc = 0x021 then (if f.v then { d := 2, a := 2, b := 1 } else dab)
  else if opc = 0x023 then (if f.v then { a := 1, b := 1 } else { d := 1 })
  else if 0x05F ≤ opc && opc ≤ 0x061 then { d := tyRegs e.ty8, a := tyRegs e.ty16 }
  else if opc = 0x085 then { d := 1, a := 4, b := 1 }
  else if opc = 0x086 then { d := 1, a := 8, b := 1 }
  else if opc = 0x087 then { d := 4, a := 1, b := 1 }
  else if opc = 0x088 then { d := 8, a := 1, b := 1 }
  else if opc = 0x08B then { d := 2, a := 1, c := 1 }
  else if opc = 0x0A0 || opc = 0x0A1 || opc = 0x0A5 then { a := 1, b := 1, c := 1 }
  else if opc = 0x0A3 then { d := 2 }
  else if opc = 0x0A4 then { a := 2 }
  else if opc = 0x0A7 || opc = 0x12D || opc = 0x131 || opc = 0x140 || opc = 0x141 || opc = 0x173 || opc = 0x175 || opc = 0x17D then { b := 1 }
  else if 0x0C0 ≤ opc && opc ≤ 0x0C9 then { d := regsOfSize (2 ^ ((opc - 0x0C0) % 5)), a := off }
  else if opc = 0x0CA || opc = 0x121 || opc = 0x170 || opc = 0x17C then { a := 1 }
  else if opc = 0x0CB then (if f.d = 3 || f.d = 4 || f.d = 6 then {} else { a := 1 })
  else if 0x0CC ≤ opc && opc ≤ 0x0D7 then
    { d := n, a := off, b := if x.isSome then n else 0, c := if opc = 0x0D3 || opc = 0x0D6 then n else 0 }
  else if opc = 0x0D8 then { a := off, b := n }
  else if opc = 0x106 || opc = 0x107 || opc = 0x108 || opc = 0x160 then { d := 1, a := off }
  else if [0x0A8, 0x102, 0x148, 0x149, 0x163, 0x172, 0x174, 0x178].contains opc then { d := 1 }
  else if opc = 0x127 then (if f.v then { d := 4 } else {})
  else if opc = 0x129 then { d := 4, a := 1 }
  else if opc = 0x14B || opc = 0x14C then { d := slotRegs (e.xbits 3 2) }
  else if opc = 0x177 || opc = 0x17F then { d := 1, a := 2 }
  else if opc = 0x179 then { d := 1, a := 2, c := if e.far then 2 else 1 }
  else if opc = 0x180 then { d := 1, a := 4 }
  else {}

/-- A group of a brick as the checker sees it: the word where it begins, what it decodes to, its length, and its instruction
word's opcode and fields, none for a P word or a group without an instruction. -/
structure CGroup where
  at_ : Nat
  dec : Decoded
  len : Nat
  opc : Option (Nat × FWord × Option LExt)
/-- The groups of a brick from word `k` on (R31). -/
def brickGroups : Nat → Nat → List Code → List CGroup
  | 0, _, _ => []
  | _ + 1, _, [] => []
  | fuel + 1, k, w :: ws =>
    let dec := decodeGroup (w :: ws)
    let len := match dec with | .ok _ _ _ n => n | .bad _ n => n
    let whole := if (leadingPrefixes (w :: ws)).length = (w :: ws).length && (w :: ws).length < 3 then (w :: ws).length + 1 else len
    let opc := match instrWord ((w :: ws).take len) with
      | none => none
      | some (i, x) => if fmtOf i = 1 then none else some ((opcOf i).toNat, fieldsF i, if fmtOf i = 3 then x.map fieldsL else none)
    { at_ := k, dec := dec, len := whole, opc := opc } :: brickGroups fuel (k + max 1 whole) ((w :: ws).drop (max 1 whole))
/-- The padding NOP (R371, test 7). -/
def padNop : Code := 0x0000003DE0C8C8C8
/-- The words of a brick before its padding. -/
def unpadded (ws : List Code) : Nat := (ws.reverse.dropWhile (fun w => w = padNop)).length
/-- The code offsets that a BRA or CALL, or the join point of a BRA.E, names. -/
def groupTargets (g : CGroup) (base : Nat) : List Int :=
  match g.opc with
  | none => []
  | some (opc, f, x) =>
    if opc ≠ 0x120 && opc ≠ 0x123 then []
    else
      let pc : Int := (base + 8 * g.at_ : Nat)
      match x with
      | none => [pc + 8 * f.off24.toInt]
      | some e => (pc + e.imm32.toInt) :: (if opc = 0x120 && f.v then [pc + 8 * e.x24.toInt] else [])
/-- The declared entries of an object, as code offsets at the launch's level. -/
def entryOffs (o : CodeObj) : List Nat := o.entries.filterMap id
/-- A v register beyond REGMAX is named by a decoded group (R371, test 4), MMA's scale registers among them (R173). (DEDUCED, log 46) -/
def checkRegs (g : CGroup) (regmax : Nat) : Bool :=
  match g.dec with
  | .ok _ r i _ =>
    (match i with
      | .pairWord p => ((halfX p).regs ++ (halfY p).regs).any (fun k => decide (k ≥ regmax))
      | .mma _ x => (match g.opc with | some (opc, f, y) => regsBeyond (staticUse opc f y) f y r regmax | none => false) ||
          [x.xbits 0 8, x.xbits 8 8].any (fun k => isV k && decide (k ≥ regmax))
      | _ => (match g.opc with | some (opc, f, x) => regsBeyond (staticUse opc f x) f x r regmax | none => false))
  | .bad _ _ => false
/-- A BARA without its BARW before the next declared entry (R371, test 5). -/
def checkBara (g : CGroup) (later : List CGroup) (ents : List Nat) (base : Nat) : Bool :=
  match g.opc with
  | some (0x141, f, _) =>
    let span := later.takeWhile (fun h => !ents.contains (base + 8 * h.at_))
    !span.any (fun h => match h.opc with
      | some (0x142, k, _) => decide (k.d.toNat % 64 = f.d.toNat % 64) && (match h.dec with | .ok _ _ _ _ => true | .bad _ _ => false)
      | _ => false)
  | _ => false
/-- The last group of a brick may end it (R371, test 7). -/
def endsBrick (g : CGroup) : Bool :=
  match g.dec, g.opc with
  | .ok _ _ _ _, some (opc, f, x) =>
    [0x120, 0x121, 0x122, 0x124, 0x126].contains opc && f.gp = 15 && !f.gn && !(opc = 0x120 && x.isSome && f.v)
  | _, _ => false
/-- The first test that a group fails (R371); `starts` are the first words of the brick's groups. -/
def groupFail (l : Launch) (step base : Nat) (starts : List Nat) (last : Nat) (g : CGroup) (later : List CGroup) : Option Nat :=
  let o := l.obj
  let ents := entryOffs o
  let ok := match g.dec with | .ok _ _ _ _ => true | .bad _ _ => false
  let okTarget (t : Int) : Bool := decide (0 ≤ t) && (ents.contains t.toNat ||
    (decide (base ≤ t.toNat) && decide (t % 8 = 0) && starts.contains ((t.toNat - base) / 8)))
  if g.at_ + g.len > 512 then some 1
  else if (match g.dec with | .bad c _ => decide (c = 0x06) | .ok _ _ _ _ => false) then some 2
  else if ok && (groupTargets g base).any (fun t => !okTarget t) then some 3
  else if checkRegs g l.pkt.regmax then some 4
  else if ok && checkBara g later ents base then some 5
  else if ok && (match g.opc with
      | some (0x122, _, some e) => ((o.entries[e.imm32.toNat % 65536]?).getD none).isNone
      | _ => false) then some 6
  else if g.at_ = last && !endsBrick g then some 7
  else match g.opc with
    | some (opc, _, _) =>
      let named := o.lifetime.any (fun e => decide (e % 512 = opc))
      let exper := opc = 0x08A || opc = 0x08B
      if ok && ((exper && (decide (o.step ≠ step) || !named)) || ((opc = 0x008 || opc = 0x131) && !named)) then some 8 else none
    | none => none
/-- The first failing group of a brick, with its word. (DEDUCED, log 46) -/
def firstBad (l : Launch) (step base : Nat) (starts : List Nat) (last : Nat) : List CGroup → Option (Nat × Nat)
  | [] => none
  | g :: gs =>
    if g.at_ > last then none
    else match groupFail l step base starts last g gs with
      | some k => some (k, g.at_)
      | none => firstBad l step base starts last gs
/-- The code checker (R371, R372): the code and the word of the first failing test. (DEDUCED, log 46) -/
def checkBrick (l : Launch) (step num : Nat) (ws : List Code) : Option (Nat × Nat) :=
  let n := unpadded ws
  let gs := brickGroups 512 0 ws
  let last := (gs.filter (fun g => decide (g.at_ < n))).foldl (fun _ g => g.at_) 0
  if n = 0 then some (7, 0)
  else match firstBad l step (num * 4096) (gs.map (·.at_)) last gs with
    | some r => some r
    | none =>
      match l.obj.digests[num]? with
      | some d => if Config.sha384 ((ws.map codeBytes).flatten) = d then none else some (9, 0)
      | none => none

/-! ## The code store -/

/-- Bricks in a core's slots. -/
def coreBricks (s : State) (core : Nat) : List Brick := s.bricks.filter (fun b => decide (b.core = core))
/-- The lowest free slot of a core (R367). -/
def freeSlot (s : State) (core : Nat) : Option Nat := (List.range 32).find? (fun k => !(coreBricks s core).any (fun b => b.slot == k))
/-- A thread of a launch on a core, or in its cluster's den, has its program counter in a brick (R368, R377). -/
def brickHeld (s : State) (core lk num : Nat) : Bool :=
  s.warps.any (fun w => decide (w.name.launch = lk) && w.threads.any (fun t => t.st != .exited && decide (t.pc / 4096 = num) &&
    (decide (w.core = core) || (t.den.isSome && decide (clusterOf w.core = clusterOf core)))))
/-- The Landed or Failed brick of a core that has gone longest unexecuted among those holding no program counter (R368). -/
def evictable (s : State) (core : Nat) : Option Brick :=
  ((coreBricks s core).filter (fun b => (match b.st with | .fetching _ => false | _ => true) && !brickHeld s core b.lk b.num)).foldl
    (fun acc b => match acc with | none => some b | some a => if b.used < a.used then some b else some a) none
/-- A brick enters a slot, Fetching (R375). -/
def startFetch (s : State) (core lk num slot : Nat) (waiters : List (WName × Nat × Nat)) : State :=
  { s with bricks := s.bricks ++
      [{ core := core, lk := lk, num := num, slot := slot, st := .fetching 0, words := [], used := s.free, waiters := waiters }] }
/-- A brick leaves its slot: the loop buffer of a warp that stands in it is released (R93). -/
def dropLoop (b : Brick) (w : Warp) : Warp :=
  if w.core = b.core ∧ w.name.launch = b.lk then { w with loopBuf := w.loopBuf.filter (fun p => decide (p.1 / 4096 ≠ b.num)) } else w
/-- A brick leaves its slot, and the loop buffers over it. -/
def dropBrick (s : State) (b : Brick) : State :=
  { s with
    bricks := s.bricks.filter (fun x => !(decide (x.core = b.core) && decide (x.lk = b.lk) && decide (x.num = b.num)))
    warps := s.warps.map (dropLoop b) }
/-- The code offset of a launch's entry. -/
def entryPc (l : Launch) : Nat := ((l.obj.entries[l.pkt.entry]?).getD none).getD 0
/-- A launch has a gang that is still to start. -/
def startsLeft (s : State) (l : Launch) : Bool :=
  l.failed.isNone && !l.complDue &&
  (decide (l.nextGang * l.pkt.gang < l.nblk) || s.gangs.any (fun g => decide (g.launch = l.lk) && decide (g.st = .killed)))
/-- A warp of a launch on a core has a thread that stands in an absent brick (R368). -/
def brickNeeded (s : State) (core lk num : Nat) : Bool :=
  (findBrick s core lk num).isNone &&
  (match findLaunch s lk with | some l => decide (num < l.obj.nbrick) | none => false) &&
  s.warps.any (fun w => decide (w.core = core) && decide (w.name.launch = lk) &&
    w.threads.any (fun t => t.st != .exited && decide (t.pc / 4096 = num)))
/-- A fetch that waits is still wanted: by a thread that stands in the brick, by a restored CFETCH, or by a block that is to start. -/
def FetchWait.wanted (s : State) (e : FetchWait) : Bool :=
  brickNeeded s e.core e.lk e.num || e.waiters.any (fun k => (findWarp s k.1).isSome) ||
  (match findLaunch s e.lk with | some l => startsLeft s l && decide (e.num = entryPc l / 4096) | none => false)
/-- It is the fetch of this brick on this core. -/
def FetchWait.is (e : FetchWait) (core lk num : Nat) : Bool := decide (e.core = core) && decide (e.lk = lk) && decide (e.num = num)
/-- The fetches that wait for a slot, in the order of waiting (R368). -/
def fetchLine (s : State) : List FetchWait := s.fetchq.filter (fun e => e.wanted s)
/-- A fetch enters the line, or joins its own entry there. -/
def queueFetch (s : State) (core lk num : Nat) (ws : List (WName × Nat × Nat)) : State :=
  if s.fetchq.any (fun e => e.is core lk num) then
    { s with fetchq := s.fetchq.map (fun e => if e.is core lk num then { e with waiters := e.waiters ++ ws } else e) }
  else { s with fetchq := s.fetchq ++ [{ core := core, lk := lk, num := num, waiters := ws }] }
/-- Another fetch of the core has waited longer. -/
def fetchBehind (s : State) (core lk num : Nat) : Bool := ((fetchLine s).takeWhile (fun e => !e.is core lk num)).any (fun e => decide (e.core = core))
/-- The dispatcher's own fetch of a brick (R368): it may evict; none where every slot is held, or another fetch comes first. -/
def implicitFetch (s : State) (core lk num : Nat) : Option State :=
  match findBrick s core lk num with
  | some _ => some s
  | none =>
    if fetchBehind s core lk num then none else
    let ws := ((s.fetchq.filter (fun e => e.is core lk num)).map (·.waiters)).flatten
    let s1 := { s with fetchq := s.fetchq.filter (fun e => !e.is core lk num) }
    match freeSlot s core with
    | some k => some (startFetch s1 core lk num k ws)
    | none => (evictable s core).map (fun b => startFetch (dropBrick s1 b) core lk num b.slot ws)
/-- The dispatcher's own fetch, in line where it cannot be made now. -/
def fetchOrWait (s : State) (core lk num : Nat) : State := (implicitFetch s core lk num).getD (queueFetch s core lk num [])

/-! ## Instructions -/

/-- The status word of CFETCH and CEVICT. -/
def codeStatus (n : Nat) : Word := BitVec.ofNat 32 (n * 2 ^ 28)
/-- CFETCH (R375). (DEDUCED, log 47) -/
def execCfetch (f : FWord) (x : LExt) (s : State) : Host.Outcome State Fault Refusal :=
  let u : Use := { d := 1, a := 1, q := false, lock := true, solo := true, bad := !isSZ f.a.toNat }
  issue u f (some x) s (fun c f' tids =>
    let off := (readCode s c c.w tids (tids.headD 0) f'.a.toNat).toNat + x.imm32.toNat
    let num := off / 4096
    if off ≥ codeLimit c.l then raise s c { cause := 0x10, tids := tids.take 1, faddr := off } else
    let me := (c.w.name, c.w.depth, f.sig.toNat)
    let give (st : State) (n : Nat) (flag : Bool) : State :=
      let w1 := if flag then raiseFlag c.w c.w.depth none f.sig.toNat else c.w
      finish st c tids (if flag then (schedF f).sent else schedF f) (giveWord c u f' tids (applyMarks w1 u f' (some x) none 0 tids) (codeStatus n))
    match findBrick s c.w.core c.l.lk num with
    | some b =>
      (match b.st with
        | .landed => give s 1 false
        | .failed _ _ => give s 4 false
        | .fetching _ => give (modBrick s c.w.core c.l.lk num (fun y => { y with waiters := y.waiters ++ [me] })) 2 true)
    | none =>
      match freeSlot s c.w.core with
      | none => give s 3 false
      | some k => give (startFetch s c.w.core c.l.lk num k [me]) 0 true)
/-- The word of CSTAT (R376). -/
def cstatWord (s : State) (core : Nat) (l : Launch) (off : Nat) : Word :=
  if off ≥ codeLimit l then 0
  else match findBrick s core l.lk (off / 4096) with
    | none => 0
    | some b =>
      match b.st with
      | .fetching _ => BitVec.ofNat 32 (1 * 2 ^ 30 + b.slot * 2 ^ 9)
      | .landed => BitVec.ofNat 32 (2 * 2 ^ 30 + b.slot * 2 ^ 9)
      | .failed reason word => BitVec.ofNat 32 (3 * 2 ^ 30 + reason * 2 ^ 20 + b.slot * 2 ^ 9 + word)
/-- CSTAT (R376). (DEDUCED, log 47) -/
def execCstat (f : FWord) (s : State) : Host.Outcome State Fault Refusal :=
  let u : Use := { d := 1, a := 1, q := false, lock := true, bad := !(isV f.a.toNat || isSZ f.a.toNat) }
  issue u f none s (fun c f' tids =>
    aluBody u none (fun i => { vals := [cstatWord s c.w.core c.l (w32 i.a).toNat] }) s c f' tids)
/-- CEVICT (R377). -/
def execCevict (f : FWord) (s : State) : Host.Outcome State Fault Refusal :=
  let u : Use := { d := 1, a := 1, q := false, lock := true, solo := true, bad := !isSZ f.a.toNat }
  issue u f none s (fun c f' tids =>
    let num := (readCode s c c.w tids (tids.headD 0) f'.a.toNat).toNat / 4096
    let give (st : State) (w : Warp) (n : Nat) : State := finish st c tids (schedF f) (giveWord c u f' tids w (codeStatus n))
    match findBrick s c.w.core c.l.lk num with
    | none => give s c.w 1
    | some b =>
      match b.st with
      | .fetching _ => give s c.w 3
      | _ => if brickHeld s c.w.core c.l.lk num then give s c.w 2 else give (dropBrick s b) (dropLoop b c.w) 0)

/-! ## Events -/

/-- A record of KIND 3 (R373, R459): its token, and the state. -/
def brickRecord (s : State) (b : Brick) (code va : Nat) : Nat × State :=
  let p := partOf b.lk
  let (tok, s1) := newToken s p
  let n : WName := { launch := b.lk, blk := 0xFFFFFFFF, shadow := false, w := 0 }
  let tk : Token := { token := tok, kind := 3, code := code, w := n, mask := 0, pc := b.num * 4096, addr := va, ref := b.num, core := b.core }
  let s2 := modPart s1 p (fun q => { q with tokens := q.tokens ++ [tk] })
  (tok, pushRecord s2 p b.core b.lk
    { code := code, orig := 0, kind := 3, depth := 0, token := tok, lid := lidOf b.lk, blk := 0xFFFFFFFF, unit := b.num
      core := b.core, warp := 0, pc := b.num * 4096, addr := va, mask := 0 })
/-- A fetch ends: the brick is Landed or Failed, and the flags that wait for it are lowered (R375). -/
def endFetch (s : State) (b : Brick) (st : BrickSt) (ws : List Code) : State :=
  let s1 := modBrick s b.core b.lk b.num (fun x => { x with st := st, words := ws, waiters := [], used := s.free })
  b.waiters.foldl (fun acc k => modWarpAny acc k.1 (fun w => lowerFlag w k.2.1 none k.2.2)) s1
/-- The code words that bytes hold. -/
def wordsOfBytes : Nat → List Byte → List Code
  | 0, _ => []
  | n + 1, bs => codeOfBytes (bs.take 8) :: wordsOfBytes n (bs.drop 8)
/-- The virtual address of a brick (R361). -/
def brickVa (l : Launch) (num : Nat) : Nat := l.obj.base + l.obj.codeoff + num * 4096
/-- The leaves of the pages of a brick are read as a load's (R214, R373): one page, or two where it crosses a page's end. -/
def touchBrick (s : State) (p va core : Nat) : State :=
  let s1 := touchLeaf s p va false (some core)
  if va % 4096 = 0 then s1 else touchLeaf s1 p (va / 4096 * 4096 + 4096) false (some core)
/-- A brick that is Fetching is read and checked (R371, R373). -/
def landBrick (s : State) (b : Brick) (l : Launch) : State :=
  let p := partOf l.lk
  let va := brickVa l b.num
  match readVirtBy (some b.core) s p .code l.bound 3 va 4096 with
  | .park _ none => s
  | .park _ (some c) =>
    if !fqRoom s p then s else
    let (tok, s1) := brickRecord s b c va
    modBrick s1 b.core b.lk b.num (fun x => { x with st := .fetching tok })
  | .ok bs runs =>
    if runs.any (fun r => isPoisoned s r.1 r.2) then
      if !fqRoom s p then s else endFetch (brickRecord s b 0x80 va).2 b (.failed 0 0) []
    else
      let ws := wordsOfBytes 512 bs
      let s1 := touchBrick s p va b.core
      match checkBrick l (s.feat.toNat / 2 ^ 24) b.num ws with
      | none => endFetch s1 b .landed ws
      | some (k, w) => endFetch s1 b (.failed k w) ws
/-- BRICK_CHECK_COMPLETE (R371, R373): the read and the check of a brick that no record holds are complete. -/
def execBrickCheckComplete (core lk brick : Nat) (s : State) : Host.Outcome State Fault Refusal :=
  match findBrick s core lk brick, findLaunch s lk with
  | some b, some l => .next (if b.st = .fetching 0 then landBrick s b l else s)
  | _, _ => .next s
/-- BRICK_IMPLICIT_FETCH (R368): the dispatcher fetches a brick that a starting or resumed warp, or a vector, needs; where no slot is to be
had it waits in line. -/
def execBrickImplicitFetch (core lk brick : Nat) (s : State) : Host.Outcome State Fault Refusal :=
  if brickNeeded s core lk brick || (fetchLine s).any (fun e => e.is core lk brick) then
    match implicitFetch s core lk brick with
    | some t => .next t
    | none => .next (if s.fetchq.any (fun e => e.is core lk brick) then s else queueFetch s core lk brick [])
  else .next s
/-- CODE_PARITY_REFETCH (R370): a word of a Landed brick fails its parity; the brick is read and checked again. -/
def execCodeParityRefetch (core lk brick : Nat) (s : State) : Host.Outcome State Fault Refusal :=
  match findBrick s core lk brick with
  | none => .next s
  | some b =>
    match b.st with
    | .landed => .next (countErr (modBrick s core lk brick (fun x => { x with st := .fetching 0, words := [] })) (partOf lk) 3)
    | _ => .next s

end Sys2Proof.Machine
end

