-- ==== Sys2Proof/Machine/Accept.lean ====
section
/-! DEFINITION. Acceptance of a launch packet (R342 to R345, R353, R361 to R366): reading the packet and what it names, the tests
of R345, and LAUNCH_ACCEPT. -/

namespace Sys2Proof.Machine

/-! ## Reading -/

/-- What acceptance finds on its way: a value; that it must wait for a page on the move (`none`); or a refusal, by its reason and
DETAIL. -/
abbrev Chk (α : Type) := Except (Option (Nat × Nat)) α

/-- Refuse unless a condition holds. -/
def need (b : Bool) (reason detail : Nat) : Chk Unit := if b then .ok () else .error (some (reason, detail))
/-- A page that holds some of these bytes is on its way to another tier (TIER 2 or 3). -/
def runMoving (s : State) (p : Nat) : Nat → Nat → Nat → Bool
  | 0, _, _ => false
  | fuel + 1, va, n =>
    if n = 0 then false else
    let m := min n (4096 - va % 4096)
    (match findLeaf s p va with
      | some l => decide (pteTier l.pte = 2) || decide (pteTier l.pte = 3)
      | none => false) || runMoving s p fuel (va + m) (n - m)
/-- Bytes that the dispatcher reads through the partition's translation (R342, R345). -/
def dispRead (s : State) (p : Nat) (prot : Option Nat) (va n reason detail : Nat) : Chk (List Byte) :=
  if runMoving s p (pagesFor n) va n then .error none
  else match readVirt s p .load prot (pagesFor n) va n with
    | .ok bs _ => .ok bs
    | .park _ none => .error none
    | .park _ (some _) => .error (some (reason, detail))
/-- The little-endian number of `n` bytes from an offset of what was read (R4). -/
def fieldAt (bs : List Byte) (off n : Nat) : Nat := ofBytes ((bs.drop off).take n)

/-! ## The packet -/

/-- The fields of a launch packet (R343). -/
def packetOf (bs : List Byte) : Packet :=
  { code := fieldAt bs 0 8, entry := fieldAt bs 8 2, gang := fieldAt bs 0x0A 1, prio := fieldAt bs 0x0B 1, qos := fieldAt bs 0x0C 1
    accum := fieldAt bs 0x0D 1, regmax := fieldAt bs 0x0E 1, regtyp := fieldAt bs 0x0F 1
    gridx := fieldAt bs 0x10 4, gridy := fieldAt bs 0x14 4, gridz := fieldAt bs 0x18 4
    blkx := fieldAt bs 0x1C 2, blky := fieldAt bs 0x1E 2, blkz := fieldAt bs 0x20 2
    flags := fieldAt bs 0x22 2, smem := fieldAt bs 0x24 4, privw := fieldAt bs 0x28 4, ngrp := fieldAt bs 0x2C 2
    segtab := fieldAt bs 0x30 8, grptab := fieldAt bs 0x38 8, compl := fieldAt bs 0x40 8, tag := fieldAt bs 0x48 8 }
/-- Edge binding `i` of a packet (R353). (DEDUCED, log 48) -/
def bindingOf (bs : List Byte) (i : Nat) : EdgeBind :=
  let x := fieldAt bs (0x50 + 8 * i) 8
  { off := bitsOf x 0 48, seg := bitsOf x 48 4, role := bitsOf x 52 2 }
/-- The packet's fields with whether each is in its range, by byte offset (R343, R353; reason 1 of R345). (DEDUCED, log 48) -/
def packetTests (bs : List Byte) (p : Packet) : List (Nat × Bool) :=
  [(0x0A, p.gang == 1 || p.gang == 2 || p.gang == 4), (0x0B, decide (p.prio < 8)), (0x0C, decide (p.qos < 16)),
   (0x0D, decide (p.accum ≤ 8)), (0x0E, decide (1 ≤ p.regmax) && decide (p.regmax ≤ 128)),
   (0x0F, decide (1 ≤ p.regtyp) && decide (p.regtyp ≤ p.regmax)),
   (0x10, decide (1 ≤ p.gridx) && decide (p.gridx * p.gridy * p.gridz ≤ 2 ^ 31)), (0x14, decide (1 ≤ p.gridy)), (0x18, decide (1 ≤ p.gridz)),
   (0x1C, decide (1 ≤ p.blkx) && decide (p.blkx * p.blky * p.blkz ≤ 2048)), (0x1E, decide (1 ≤ p.blky)), (0x20, decide (1 ≤ p.blkz)),
   (0x22, decide (p.flags < 128)), (0x24, decide (p.smem ≤ 262144) && p.smem % 128 == 0), (0x28, decide (p.privw ≤ 65536)),
   (0x2C, decide (p.ngrp ≤ 256)), (0x2E, fieldAt bs 0x2E 1 == 0), (0x2F, fieldAt bs 0x2F 1 == 0), (0x30, p.segtab % 256 == 0),
   (0x38, p.ngrp == 0 || p.grptab % 16 == 0), (0x40, p.compl % 16 == 0)] ++
  (List.range 8).map (fun i => (0x50 + 8 * i, decide (fieldAt bs (0x50 + 8 * i) 8 / 2 ^ 54 = 0) && decide ((bindingOf bs i).role ≤ 2))) ++
  (List.range 112).map (fun k => (0x90 + k, fieldAt bs (0x90 + k) 1 == 0))

/-! ## The code object -/

/-- Feature bits that a level needs, in the header (R361). -/
def reqOf (h : List Byte) (lv : Nat) : Nat := fieldAt h (8 + 4 * lv) 4
/-- A level is present. -/
def levelOn (h : List Byte) (lv : Nat) : Bool := bitOf (fieldAt h 7 1) lv
/-- Bits of `a` are all in `b`. -/
def subBits (a b : Nat) : Bool := decide (a &&& b = a)
/-- The header check (R362). -/
def headerOk (h : List Byte) : Bool :=
  let u := fieldAt h
  u 0 4 == 0x4E4B4C4A && u 4 2 == 1 && decide (1 ≤ u 7 1) && decide (u 7 1 < 8) &&
  (!(levelOn h 0 && levelOn h 1) || subBits (reqOf h 1) (reqOf h 0)) &&
  (!(levelOn h 1 && levelOn h 2) || subBits (reqOf h 2) (reqOf h 1)) &&
  (!(levelOn h 0 && levelOn h 2) || subBits (reqOf h 2) (reqOf h 0)) &&
  decide (1 ≤ u 0x14 2) && decide (u 0x16 2 ≤ 256) &&
  u 0x18 8 % 64 == 0 && u 0x20 8 % 8 == 0 && u 0x28 8 % 4096 == 0 && decide (1 ≤ u 0x30 4) && decide (u 0x30 4 ≤ 4096) &&
  u 0x34 4 % 4 == 0 && u 0x38 8 % 256 == 0 && u 0x40 8 % 64 == 0 &&
  (decide (u 0x40 8 = 0) == decide (u 0x48 8 = 0)) && (h.drop 0x50).all (fun b => b == 0)
/-- The launch's level (R366): 0 tile, 1 loop, 2 scalar. -/
def chooseLevel (feat : Word) (h : List Byte) : Option Nat :=
  (List.range 3).find? (fun lv => levelOn h lv && subBits (reqOf h lv) feat.toNat)
/-- Entry `i` of the cross-reference table (R363). -/
def xrefOf (t : List Byte) (i : Nat) : List Byte := (t.drop (32 * i)).take 32
/-- The code offset of an entry at a level, or at the next lower level present (R366). -/
def resolveEntry (h e : List Byte) (lv : Nat) : Option Nat :=
  ((List.range 3).filter (fun k => decide (lv ≤ k) && levelOn h k && fieldAt e (4 * k) 4 != 0xFFFFFFFF)).head?.map (fun k => fieldAt e (4 * k) 4)
/-- Every page of a run is mapped with PROT = 1 (R365). -/
def runProt (s : State) (p : Nat) : Nat → Nat → Nat → Bool
  | 0, _, _ => true
  | fuel + 1, va, n =>
    if n = 0 then true else
    let m := min n (4096 - va % 4096)
    (match findLeaf s p va with | some l => l.pte.getLsbD 4 | none => false) && runProt s p fuel (va + m) (n - m)
/-- The KEY of the leaf that maps an address. -/
def keyAt (s : State) (p va : Nat) : Nat := match findLeaf s p va with | some l => pteKey l.pte | none => 0
/-- The signature's part of reason 2 (R365): the header and tables signed, the epilogue section's digest. The digests of the bricks,
and the digest that the object signs. -/
def signedOk (s : State) (p : Nat) (prot : Option Nat) (code : Nat) (h xr lf : List Byte) : Chk (List (List Byte) × List Byte) := do
  let n := fieldAt h 0x30 4
  let dg ← dispRead s p prot (code + fieldAt h 0x40 8) (48 * (n + 1)) 2 0
  let sg ← dispRead s p prot (code + fieldAt h 0x48 8) 112 2 0
  let ep ← dispRead s p prot (code + fieldAt h 0x38 8) (fieldAt h 0x34 4) 2 0
  let d := Config.sha384 (h ++ xr ++ lf ++ dg)
  need ((findPart s p).codeKeys.any (fun k => Config.ecdsaOk (k ++ d) sg)) 2 0
  need (Config.sha384 ep = (dg.drop (48 * n)).take 48) 2 0
  .ok ((List.range n).map (fun i => (dg.drop (48 * i)).take 48), d)
/-- The code object of a packet as bound, the slot of a protected launch, and the cross-reference entry of its kernel (reason 2 of
R345). -/
def bindObject (s : State) (p : Nat) (k : Packet) : Chk (CodeObj × Nat × List Byte) := do
  let guard := bitOf k.flags 4
  let hkey := if guard then some (keyAt s p k.code) else none
  let h ← dispRead s p hkey k.code 128 2 0
  need (headerOk h) 2 0
  let key := if guard then keyAt s p (k.code + fieldAt h 0x28 8) else 0
  let prot := if guard then some key else none
  let xr ← dispRead s p prot (k.code + fieldAt h 0x18 8) (32 * fieldAt h 0x14 2) 2 0
  let lf ← dispRead s p prot (k.code + fieldAt h 0x20 8) (2 * fieldAt h 0x16 2) 2 0
  let isSigned := fieldAt h 0x40 8 != 0
  need (!guard || isSigned) 2 0
  let (digests, dig) ← (if isSigned then signedOk s p prot k.code h xr lf else .ok ([], []))
  need (!guard || (runProt s p (pagesFor (4096 * 4096)) (k.code + fieldAt h 0x28 8) (4096 * fieldAt h 0x30 4) &&
    runProt s p (pagesFor (fieldAt h 0x34 4)) (k.code + fieldAt h 0x38 8) (fieldAt h 0x34 4))) 2 0
  match chooseLevel s.feat h with
  | none => .error (some (2, 0))
  | some lv =>
    let ents := (List.range (fieldAt h 0x14 2)).map (fun i => resolveEntry h (xrefOf xr i) lv)
    need ((ents[k.entry]?).getD none).isSome 2 0
    .ok ({ base := k.code, codeoff := fieldAt h 0x28 8, nbrick := fieldAt h 0x30 4, step := fieldAt h 6 1, entries := ents
           lifetime := (List.range (fieldAt h 0x16 2)).map (fun i => fieldAt lf (2 * i) 2), digests := digests, level := lv
           codedig := dig }, key, xrefOf xr k.entry)

/-! ## The tables -/

/-- Blocks of a packet. -/
def Packet.nblk (k : Packet) : Nat := k.gridx * k.gridy * k.gridz
/-- Warps per block. -/
def Packet.nwarp (k : Packet) : Nat := (k.blkx * k.blky * k.blkz + 127) / 128
/-- One block fits an empty core, and the packet agrees with the kernel's directives (reason 4; R82, R157, R363). -/
def fitsCore (k : Packet) (e : List Byte) : Bool :=
  let per := (k.nwarp + 3) / 4
  decide (k.nwarp ≤ 16) && decide (per * ((k.regtyp + 1) / 2) ≤ 256) && decide (per * k.accum ≤ 64) &&
  fieldAt e 0x0C 1 == k.regmax && fieldAt e 0x0D 1 == k.regtyp && fieldAt e 0x0E 1 == k.accum && fieldAt e 0x10 4 == k.smem &&
  fieldAt e 0x14 4 == k.privw
/-- A segment table entry (R203), where it breaks nothing of R204 and agrees with the kernel's declaration `decl`. -/
def segEntry (t : List Byte) (i decl : Nat) : Option Seg :=
  let lo := fieldAt t (16 * i) 8
  let hi := fieldAt t (16 * i + 8) 8
  let g : Seg :=
    { hint := bitsOf hi 48 2, atm := bitOf hi 46, wr := bitOf hi 45, rd := bitOf hi 44, kind := bitsOf hi 41 3, limit := bitsOf hi 0 41, base := lo }
  if hi / 2 ^ 50 = 0 ∧ ¬ bitOf hi 47 ∧ lo / 2 ^ 57 = 0 ∧ lo % 256 = 0 ∧ g.limit ≤ 2 ^ 40 ∧ lo + g.limit ≤ 2 ^ 57 ∧ (decl = 15 ∨ decl = g.kind)
  then some g else none
/-- The segment table (reason 5). -/
def readSegs (s : State) (p : Nat) (prot : Option Nat) (k : Packet) (e : List Byte) : Chk (List Seg) := do
  let t ← dispRead s p prot k.segtab 256 5 0xFFFF
  (List.range 16).mapM (fun i =>
    match segEntry t i (fieldAt e 0x18 8 / 16 ^ i % 16) with | some g => .ok g | none => .error (some (5, i)))
/-- The numbers rise strictly. -/
def rising : List Nat → Bool
  | x :: y :: xs => decide (x < y) && rising (y :: xs)
  | _ => true
/-- Group entry `g` with its list (reason 6, but for the limit of 4 groups to a block). -/
def readGroup1 (s : State) (p : Nat) (prot : Option Nat) (nblk : Nat) (t : List Byte) (g : Nat) : Chk Group := do
  let spec := fieldAt t (16 * g) 8
  let count := fieldAt t (16 * g + 8) 4
  let mode := fieldAt t (16 * g + 12) 1
  need (fieldAt t (16 * g + 13) 3 == 0 && decide (mode ≤ 1) && decide (1 ≤ count) && decide (count ≤ 2 ^ 31)) 6 g
  if mode = 0 then
    let first := bitsOf spec 0 32
    let stride := bitsOf spec 32 32
    need (decide (1 ≤ stride) && decide (first + (count - 1) * stride < nblk)) 6 g
    .ok { mode := 0, first := first, stride := stride, count := count, list := [] }
  else
    need (spec % 4 == 0 && decide (count ≤ nblk)) 6 g
    let bs ← dispRead s p prot spec (4 * count) 6 g
    let ms := (List.range count).map (fun i => fieldAt bs (4 * i) 4)
    need (rising ms && ms.all (fun b => decide (b < nblk))) 6 g
    .ok { mode := 1, first := 0, stride := 1, count := count, list := ms }
/-- The members of a group. -/
def Group.members (g : Group) : List Nat := if g.mode = 1 then g.list else (List.range g.count).map (fun k => g.first + k * g.stride)
/-- A group that makes some block a member of more than 4. -/
def crowded (gs : List Group) (i : Nat) : Bool :=
  decide (4 ≤ i) && match gs[i]? with
    | some g => g.members.any (fun b => decide (((gs.take i).filter (fun h => h.has b)).length ≥ 4))
    | none => false
/-- The group table (reason 6). -/
def readGroups (s : State) (p : Nat) (prot : Option Nat) (k : Packet) : Chk (List Group) := do
  if k.ngrp = 0 then .ok [] else
    let t ← dispRead s p prot k.grptab (16 * k.ngrp) 6 0xFFFF
    let gs ← (List.range k.ngrp).mapM (fun g => readGroup1 s p prot k.nblk t g)
    match (List.range k.ngrp).find? (crowded gs) with
    | some i => .error (some (6, i))
    | none => .ok gs
/-- One edge binding (reason 8; R353). -/
def edgeCheck (s : State) (p : Nat) (prot : Option Nat) (segs : List Seg) (b : EdgeBind) (i : Nat) : Chk Unit :=
  if b.role = 0 then .ok ()
  else do
    let g := segs.getD b.seg {}
    need (b.off % 64 == 0 && g.kind == 5 && decide (b.off + 64 ≤ g.limit)) 8 i
    let bs ← dispRead s p prot (g.base + b.off) 64 8 i
    let h := readEdge (bs.mapIdx (fun k x => (k, x)) |>.filter (fun e => e.2 != emptyByte)) 0 0
    need (h.mbz && decide (h.szc ≤ 2) && decide (b.off + 64 + h.slots * slotBytes h.szc ≤ g.limit)) 8 i
    need (if b.role = 1 then !h.pv else !h.cv && (h.pv || h.closed)) 8 i
/-- Every test of R345, in its order, and the launch as bound. -/
def checkLaunch (s : State) (p lk : Nat) (bs : List Byte) : Chk Launch := do
  let k := packetOf bs
  match (packetTests bs k).find? (fun t => !t.2) with
  | some t => .error (some (1, t.1))
  | none =>
    let (obj, key, e) ← bindObject s p k
    let prot := if bitOf k.flags 4 then some key else none
    need (k.nblk % max 1 k.gang == 0) 3 0
    need (fitsCore k e) 4 0
    let segs ← readSegs s p prot k e
    let groups ← readGroups s p prot k
    need (!(bitOf (fieldAt e 0x0F 1) 1 && k.ngrp == 0)) 7 0
    let edges := (List.range 8).map (bindingOf bs)
    let _ ← (List.range 8).mapM (fun i => edgeCheck s p prot segs (edges.getD i { off := 0, seg := 0, role := 0 }) i)
    need ((!bitOf k.flags 4 || (findPart s p).protok) && !(bitOf k.flags 1 && k.gang == 4)) 9 0
    .ok { lk := lk, part := p, lid := lidOf lk, pkt := k, segs := segs, groups := groups, edges := edges, obj := obj, key := key
          started := false, nextGang := 0, doneBlocks := 0, relaunch := 0, bars := [], failed := none, complDue := false
          edgeClosed := [], groupDies := [], remote := [], pktdig := Config.sha384 bs }
/-- The launch that a refused packet leaves until its completion record is written: `failed` holds KIND 1, the reason, and DETAIL. -/
def refusedLaunch (p lk : Nat) (bs : List Byte) (reason detail : Nat) : Launch :=
  { lk := lk, part := p, lid := lidOf lk, pkt := packetOf bs, segs := [], groups := [], edges := [], obj := {}, key := 0
    started := false, nextGang := 0, doneBlocks := 0, relaunch := 0, bars := [], failed := some (256 + reason, detail), complDue := true
    edgeClosed := [], groupDies := [], remote := [], pktdig := [] }

/-! ## LAUNCH_ACCEPT -/

/-- A launch queue of a partition (R341). -/
def Part.queue (p : Part) (q : Nat) : Queue := (aget p.queues q).getD {}
/-- A partition with a launch queue changed. -/
def Part.modQueue (p : Part) (q : Nat) (f : Queue → Queue) : Part := { p with queues := aset p.queues q (f (p.queue q)) }
/-- The identifier of the packet with sequence number `n` in queue `q` (R342). -/
def lidFor (q n : Nat) : Nat := q * 2 ^ 28 + n % 2 ^ 28
/-- The launch key of a partition's identifier. -/
def lkOf (p lid : Nat) : Nat := p * 2 ^ 32 + lid
/-- The address of the slot of a sequence number (R341). -/
def slotVa (k : Queue) (n : Nat) : Nat := k.qbase + 256 * (n % 16)
/-- A queue whose slot cannot be read writes a record of KIND 6, and accepts nothing until the answer (R342). -/
def queueRecord (s : State) (p q code va lid : Nat) : State :=
  if !fqRoom s p then s else
  let (tok, s1) := newToken s p
  let n : WName := { launch := lkOf p lid, blk := 0xFFFFFFFF, shadow := false, w := 0 }
  let tk : Token := { token := tok, kind := 6, code := code, w := n, mask := 0, pc := 0, addr := va, ref := q, core := 0 }
  let s2 := modPart s1 p (fun x => ({ x with tokens := x.tokens ++ [tk] }).modQueue q (fun k => { k with token := some tok }))
  pushRecord s2 p 0 (lkOf p lid)
    { code := code, orig := 0, kind := 6, depth := 0, token := tok, lid := lid, blk := 0xFFFFFFFF, unit := q, core := 0, warp := 0
      pc := 0, addr := va, mask := 0 }
/-- The sequence number that the next packet accepted from a queue has: QHEAD counts from the last enable. -/
def nextSeqOf (k : Queue) : Nat := k.qhead.toNat
/-- The packet has been taken: QHEAD advances, and bricks and results of an earlier launch of the same identifier are gone. -/
def advanceHead (s : State) (p q lk : Nat) : State :=
  let s1 := modPart s p (fun x => x.modQueue q (fun k =>
    { k with qhead := k.qhead + 1, last := some lk, befores := k.befores.filter (fun e => decide (e.1 ≠ nextSeqOf k)) }))
  { s1 with bricks := s1.bricks.filter (fun b => decide (b.lk ≠ lk)), completed := s1.completed.filter (fun e => decide (e.1 ≠ lk))
            ends := s1.ends.filter (fun e => decide (e.1 ≠ lk)) }
/-- A launch accepted from a queue: the launch accepted before it (R348), and what LAUNCH ordered before its start (R357). -/
def asAccepted (k : Queue) (l : Launch) : Launch :=
  { l with prev := k.last, before := ((k.befores.find? (fun e => decide (e.1 = nextSeqOf k))).map (·.2)).getD [] }
/-- LAUNCH_ACCEPT (R342, R345): the dispatchers read the next packet of a queue, and all that it names, and accept or refuse it. -/
def execLaunchAccept (part q : Nat) (s : State) : Host.Outcome State Fault Refusal :=
  let pt := findPart s part
  let k := pt.queue q
  let lid := lidFor q (nextSeqOf k)
  let lk := lkOf part lid
  if !k.en || decide (k.qhead = k.qtail) || k.token.isSome || decide (pt.heldCompl.length ≥ 64) || (findLaunch s lk).isSome || decide (q ≥ 16)
  then .next s
  else
    let va := slotVa k (nextSeqOf k)
    if runMoving s part 2 va 256 then .next s
    else match readVirt s part .load none 2 va 256 with
      | .park _ none => .next s
      | .park _ (some c) => .next (queueRecord s part q c va lid)
      | .ok bs _ =>
        match checkLaunch s part lk bs with
        | .error none => .next s
        | .ok l => let s1 := advanceHead s part q lk; .next { s1 with launches := s1.launches ++ [asAccepted k l] }
        | .error (some (r, d)) =>
          let s1 := advanceHead s part q lk
          .next { s1 with launches := s1.launches ++ [asAccepted k (refusedLaunch part lk bs r d)] }

end Sys2Proof.Machine
end

