-- ==== Sys2Proof/Machine/Launch.lean ====
section
/-! DEFINITION. Launch queues, placement and completion (R341, R342, R346 to R350, R357 to R359): LAUNCH, LWAIT, GRPQ, LSTAT, and
the events QTAIL_WRITE, QUEUE_ENABLE, GANG_START and COMPLETION_RECORD_WRITE. -/

namespace Sys2Proof.Machine

/-! ## Queue registers -/

/-- A write of QTAIL (R341, R342): ignored where the queue is disabled, fed only by LAUNCH and written by the host, or would hold more
than 16 packets. -/
def writeTail (s : State) (p q : Nat) (val : Word) (host : Bool) : State :=
  let k := (findPart s p).queue q
  if !k.en || (host && k.devl) || decide ((val - k.qhead).toNat > 16) then s
  else modPart s p (fun x => x.modQueue q (fun y => { y with qtail := val }))
/-- QTAIL_WRITE (R342): the host appends packets. -/
def execQtailWrite (part q : Nat) (val : BitVec 32) (s : State) : Host.Outcome State Fault Refusal :=
  if q ≥ 16 then .next s else .next (writeTail s part q val true)
/-- A write of a queue's control register (R341): enabling it starts it at sequence number 0, with no slot waiting on an answer. (DEDUCED, log 50) -/
def writeControl (s : State) (p q : Nat) (val : Word) : State :=
  let n := val.toNat
  let s1 := modPart s p (fun x => x.modQueue q (fun k => { k with vec := bitsOf n 2 4, devl := bitOf n 1, en := bitOf n 0 }))
  if bitOf n 0 then
    modPart s1 p (fun x => ({ x with tokens := x.tokens.filter (fun t => !(t.kind == 6 && t.ref == q)) }).modQueue q
      (fun k => { k with qhead := 0, qtail := 0, token := none, befores := [] }))
  else s1
/-- QUEUE_ENABLE (R341): a write of the register that holds VEC, DEVL and EN. (DEDUCED, log 50) -/
def execQueueEnable (part q : Nat) (val : BitVec 32) (s : State) : Host.Outcome State Fault Refusal :=
  if q ≥ 16 then .next s else .next (writeControl s part q val)

/-! ## LAUNCH and LWAIT -/

/-- A load of 256 aligned bytes in the segment of a LAUNCH (R357). -/
def packetOp (x : LExt) : MemOp := { seg := x.seg, unit := 1, size := 256, align := 256, use := .load, kind := .load false }
/-- The bytes of accesses read at their home. -/
def readAll (s : State) (l : Launch) (core : Nat) (n : WName) (accs : List Acc) : State × List Byte :=
  accs.foldl (fun acc a => let (st, bs) := readAcc acc.1 l core n a; (st, acc.2 ++ bs)) (s, [])
/-- An earlier store or atomic of these threads has still to perform. -/
def storesDue (s : State) (n : WName) (tids : List Nat) : Bool :=
  s.reqs.any (fun r => decide (r.w = n) && r.writes && !r.done && r.tids.any (fun t => tids.contains t))
/-- A LAUNCH reads its packet (R357): the state with its accesses recorded, and the bytes. -/
def packetIn (s : State) (c : Ctx) (accs : List Acc) : State × List Byte :=
  readAll (recordAll (touchedBy s c false accs) c 2 accs) c.l c.w.core c.w.name accs
/-- The packet written into the slot of a queue's tail, which advances (R342, R357), with what happens before its launch's start. -/
def packetOut (s : State) (p q va pa : Nat) (bs : List Byte) (k : Clock) : State :=
  modPart (markGranule (writePhys (touchLeaf s p va true) pa bs) p va) p (fun y => y.modQueue q (fun z =>
    { z with qtail := z.qtail + 1, befores := (z.qtail.toNat, k) :: z.befores.filter (fun e => decide (e.1 ≠ z.qtail.toNat)) }))
/-- What the issuing threads of a LAUNCH order before the launched work (R357). -/
def launchClock (c : Ctx) (tids : List Nat) : Clock := tids.foldl (fun (k : Clock) t => k.join (c.w.race.before c.w.name t)) []
/-- Append a packet that a LAUNCH has read, and give its identifier (R357). The warp stands in `w`. -/
def launchSend (s : State) (c : Ctx) (u : Use) (f : FWord) (q : Nat) (w : Warp) (tids : List Nat) (accs : List Acc) : State :=
  let p := partOf c.l.lk
  let k := (findPart s p).queue q
  let va := slotVa k k.qtail.toNat
  match xlate s p va .store none with
  | .park page cause =>
    if cause.isSome && !fqRoom s p then stall s c 13 else parkOn s c true tids page cause va
  | .ok pa =>
    if isCow s p va then stall s c 14 else
    let lid := BitVec.ofNat 32 (lidFor q k.qtail.toNat)
    let w1 := { w with race := w.race.advance tids }
    finish (leaveOnce (packetOut (packetIn s c accs).1 p q va pa (packetIn s c accs).2 (launchClock c tids)) c [(0, [lid])]) c tids (schedF f)
      (giveWord c u f tids (onceMore c.l w1) lid)
/-- A LAUNCH whose packet's segment, alignment, queue and privilege are in order. The warp stands in `w`. -/
def launchBody (s : State) (c : Ctx) (u : Use) (f : FWord) (x : LExt) (q : Nat) (off : Int) (w : Warp) (tids : List Nat) : State :=
  let m := packetOp x
  let t := tids.headD 0
  let pieces := segPieces c (c.l.segAt m.seg) m t off [] [] true
  let k := (findPart s (partOf c.l.lk)).queue q
  match (if skipped c t then none else (pieces.filterMap (fun a => (watchOf s c m a).map (fun w => (w, a.va)))).head?) with
  | some (n, va) => swapOutHit s c { cause := 0x71, tids := [t], faddr := va, unit := n, pc := c.pc }
  | none =>
    match translate s c m pieces with
    | .tier4 => stall s c 14
    | .park page cause va =>
      if cause.isSome && !fqRoom s (partOf c.l.lk) then stall s c 13 else parkOn s c true tids page cause va
    | .perform accs =>
      match raceHit s c 2 accs with
      | some r => raise s c { cause := 0x30, tids := [t], faddr := wrapTo 64 off, peer := some (racePeer r 2) }
      | none =>
        if storesDue s c.w.name tids then stall s c 14
        else if mustCompare c then compareWait s c
        else if c.l.twin && c.w.name.shadow then
          match aget c.w.twinRes c.w.once with
          | none => stall s c 14
          | some res =>
            finish s c tids (schedF f) (giveWord c u f tids { onceMore c.l w with twinRes := adel c.w.twinRes c.w.once }
              (((res.head?.map (·.2)).getD []).headD 0))
        else if (k.qtail - k.qhead).toNat ≥ 16 then stall s c 14
        else if accs.any (accPoison s) then consume s c 0x80 [t] (((accs.find? (accPoison s)).map (·.va)).getD 0)
        else launchSend s c u f q w tids accs
/-- How LAUNCH uses its fields. -/
def launchUse (f : FWord) (x : LExt) : Use := { d := 1, a := offRegs (some x), q := false, lock := true, solo := true, bad := !offOk f (some x) }
/-- LAUNCH (R357). -/
def execLaunch (f : FWord) (x : LExt) (s : State) : Host.Outcome State Fault Refusal :=
  let u := launchUse f x
  issue u f (some x) s (fun c f' tids =>
    if acqHeld s c.w tids then stall s c 2 else
    let q := x.xbits 0 4
    let k := (findPart s (partOf c.l.lk)).queue q
    let off := memOff s c f' (some x) 1 (tids.take 1) (tids.headD 0)
    let w1 := applyMarks c.w { a := offRegs (some x) } f' (some x) none 0 tids
    match segCause c (c.l.segAt x.seg) (packetOp x) off with
    | some e => raise s c { cause := e, tids := tids.take 1, faddr := wrapTo 64 off }
    | none =>
      if !k.en || (!isSup s c.l.lk && !k.devl) then raise s c { cause := 0x58, tids := tids.take 1, faddr := q }
      else launchBody s c u f' x q off w1 tids)

/-- What an LWAIT on an identifier of its partition finds (R358): the first word of the record, or that it must wait. A packet that is
appended and not yet accepted is waited for. (DEDUCED, log 49) -/
def lwaitWord (s : State) (p n : Nat) : Option Word :=
  let q := n / 2 ^ 28
  let k := (findPart s p).queue q
  let back := (k.qtail.toNat + 2 ^ 32 - n % 2 ^ 28) % 2 ^ 28
  if (findLaunch s (lkOf p n)).isSome then none
  else if back < 1 || back > 2 ^ 27 || back ≤ (k.qtail - k.qhead).toNat then none
  else some (agetD s.completed (lkOf p n) 0xFF000000)
/-- What the end of a launch orders before what follows it (R350). -/
def endOf (s : State) (lk : Nat) : Clock := ((s.ends.find? (fun e => decide (e.1 = lk))).map (·.2)).getD []
/-- LWAIT (R358). A wait on the issuing launch, or on a queue that is disabled, raises 0x58. -/
def execLwait (f : FWord) (s : State) : Host.Outcome State Fault Refusal :=
  let u : Use := { d := 1, a := 1, q := false, lock := true, solo := true, bad := !isSZ f.a.toNat }
  issue u f none s (fun c f' tids =>
    let n := (readCode s c c.w tids (tids.headD 0) f'.a.toNat).toNat
    let q := n / 2 ^ 28
    if n = c.l.lid || !((findPart s (partOf c.l.lk)).queue q).en then raise s c { cause := 0x58, tids := tids.take 1, faddr := q }
    else match lwaitWord s (partOf c.l.lk) n with
      | none => hold s c tids (schedF f) (.retry 2)
      | some x =>
        finish (dropForAcquire s c.l c.w.core) c tids (schedF f)
          (giveWord c u f' tids { c.w with race := tids.foldl (fun r t => r.receive t (endOf s (lkOf (partOf c.l.lk) n))) c.w.race } x))

/-! ## GRPQ and LSTAT -/

/-- The groups of a block in ascending order, one per byte, 0xFF in unused bytes (R359). (DEDUCED, log 49) -/
def mineWord (l : Launch) (blk : Nat) : Word :=
  let mine := (List.range l.groups.length).filter (fun k => match l.groups[k]? with | some g => g.has blk | none => false)
  BitVec.ofNat 32 ((List.range 4).foldl (fun acc i => acc + mine.getD i 0xFF % 256 * 256 ^ i) 0)
/-- The result of GRPQ (R359). -/
def grpqWord (l : Launch) (blk sel n : Nat) : Word :=
  if sel = 2 then mineWord l blk
  else match l.groups[n]? with
    | none => if sel = 0 then 0xFFFFFFFF else 0
    | some g => if sel = 1 then BitVec.ofNat 32 g.count else if g.has blk then BitVec.ofNat 32 (g.rank blk) else 0xFFFFFFFF
/-- GRPQ (R359). -/
def execGrpq (f : FWord) (s : State) : Host.Outcome State Fault Refusal :=
  let u : Use := { d := 1, b := 1, q := false, bad := !f.i && !isUniCode f.b.toNat }
  issue u f none s (fun c f' tids =>
    let n := if f.i then f.b.toNat else (uniformB s c f').toNat
    aluBody u none (fun _ => { vals := [grpqWord c.l c.b.blk (f.a.toNat % 4) n] }) s c f' tids)
/-- A warp retires (R303) when its threads have exited and its matrix queue is empty, or what is left of it waits for an emulation that no
thread can perform. -/
def warpDone (w : Warp) : Bool :=
  (aliveTids w).isEmpty && (match w.mq with | [] => true | e :: _ => (w.tiles.getD e.tile zeroTile).emu) && decide (w.compare ≠ 1)
/-- A request that the end of its warp does not wait for (R346, R487). -/
def outlives (r : Req) : Bool := match r.kind with | .tmove _ => true | .scrub _ => true | _ => false
/-- A warp has retired and every reply to it has arrived (R303): what it held is free. -/
def warpRetired (s : State) (w : Warp) : Bool := warpDone w && s.reqs.all (fun r => decide (r.w ≠ w.name) || outlives r)
/-- A block's warps, resident or in an image. -/
def warpsOfBlock (s : State) (b : Block) : List Warp :=
  (s.warps ++ savedWarps s).filter (fun w => decide (w.name.launch = b.launch) && decide (w.name.blk = b.blk) && decide (w.name.shadow = b.shadow))
/-- Every warp of a block has retired, and its channels are empty: the block has finished. -/
def blockDone (s : State) (b : Block) : Bool :=
  (warpsOfBlock s b).all (warpRetired s) &&
  s.copies.all (fun e => !(decide (e.w.launch = b.launch) && decide (e.w.blk = b.blk) && decide (e.w.shadow = b.shadow)) || decide (e.ch ≥ 16))
/-- The blocks of a launch that have finished (R359): those of gangs that are over, and those of a gang that goes on with the others. -/
def blocksDone (s : State) (l : Launch) : Nat :=
  l.doneBlocks + ((s.blocks ++ (s.images.map (·.blocks)).flatten).filter (fun b => decide (b.launch = l.lk) && !b.shadow && blockDone s b)).length
/-- The result of LSTAT (R359). -/
def lstatWord (s : State) (l : Launch) (g : Gang) (blk sel : Nat) : Word :=
  BitVec.ofNat 32 (match sel with
    | 0 => l.lid
    | 1 => blk
    | 2 => l.nblk
    | 3 => blocksDone s l
    | 4 => g.relaunches
    | 5 => l.pkt.prio + l.pkt.qos * 2 ^ 8 + l.pkt.flags * 2 ^ 16
    | _ => l.pkt.ngrp)
/-- LSTAT (R359). -/
def execLstat (f : FWord) (s : State) : Host.Outcome State Fault Refusal :=
  let u : Use := { d := 1, q := false }
  issue u f none s (fun c f' tids => aluBody u none (fun _ => { vals := [lstatWord s c.l c.g c.b.blk (f.a.toNat % 8)] }) s c f' tids)

/-! ## Room -/

/-- What a quadrant holds: resident warps, the charges against each bank, tiles, and whether it takes warps (R13, R82, R157,
R463). -/
structure QLoad where
  n : Nat
  chg : Nat
  tiles : Nat
  ok : Bool
  deriving DecidableEq, Repr
/-- The charge of a warp of a launch against each bank (R82). -/
def warpCharge (l : Launch) : Nat := (l.pkt.regtyp + 1) / 2
/-- The load of a quadrant now: that of its warps which have not retired (R303). -/
def quadLoad (s : State) (core q : Nat) : QLoad :=
  let ls := (s.warps.filter (fun w => decide (w.core = core) && decide (w.quad = q) && !warpRetired s w)).filterMap (fun w => findLaunch s w.name.launch)
  { n := ls.length, chg := (ls.map warpCharge).foldl (· + ·) 0, tiles := (ls.map (·.pkt.accum)).foldl (· + ·) 0
    ok := !(findQuad s core q).out }
/-- A warp of these needs fits a quadrant. -/
def QLoad.fits (q : QLoad) (chg tiles : Nat) : Bool :=
  q.ok && decide (q.n < 32) && decide (q.chg + chg ≤ 256) && decide (q.tiles + tiles ≤ 64)
/-- The quadrant that a warp goes to: of those where it fits, one with the fewest warps, the lowest number. (DESIGN CHOICE, log 51) -/
def bestQuad (qs : List QLoad) (chg tiles : Nat) : Option Nat :=
  (List.range qs.length).foldl (fun best i =>
    match qs[i]? with
    | none => best
    | some q =>
      if !q.fits chg tiles then best
      else match best.bind (fun j => qs[j]?) with
        | some r => if q.n < r.n then some i else best
        | none => some i) none
/-- Quadrants for `k` warps, one after another. (DESIGN CHOICE, log 51) -/
def spreadWarps (chg tiles : Nat) : Nat → List QLoad → Option (List Nat)
  | 0, _ => some []
  | k + 1, qs =>
    match bestQuad qs chg tiles with
    | none => none
    | some i =>
      match qs[i]? with
      | none => none
      | some q => (spreadWarps chg tiles k (qs.set i { q with n := q.n + 1, chg := q.chg + chg, tiles := q.tiles + tiles })).map (i :: ·)
/-- A core that a scrub job which is not complete holds (R487). -/
def heldCore (s : State) (core : Nat) : Bool :=
  s.scrub.any (fun j => j.kind == 0 && decide (j.done < j.units.length) && j.units.contains core)
/-- The quadrants for the warps of a block of a launch on a core, where the core has room for it (R13, R82, R157, R483, R487). -/
def coreRoom (s : State) (l : Launch) (core : Nat) : Option (List Nat) :=
  let there := s.blocks.filter (fun b => decide (b.core = core))
  let smem := (there.filterMap (fun b => findLaunch s b.launch)).map (·.pkt.smem) |>.foldl (· + ·) 0
  let alone := there.all (fun b => decide (b.launch = l.lk) ||
    (!l.protected_ && (match findLaunch s b.launch with | some m => !m.protected_ | none => true)))
  if heldCore s core || (findDie s (dieOf core)).tripped || !alone || decide (smem + l.pkt.smem > 262144) then none
  else spreadWarps (warpCharge l) l.pkt.accum l.warpsPerBlock ((List.range 4).map (quadLoad s core))
/-- Cores of a cluster for the blocks of a gang, each with the quadrants of its warps (R347): the lowest that have room. -/
def clusterRoom (s : State) (l : Launch) (cluster : Nat) : Option (List (Nat × List Nat)) :=
  let fit := (List.range 4).filterMap (fun i => (coreRoom s l (4 * cluster + i)).map (fun qs => (4 * cluster + i, qs)))
  if fit.length < l.pkt.gang then none else some (fit.take l.pkt.gang)

/-- The segment that holds private frames, if any. -/
def privSeg (l : Launch) : Option Seg := (stackSeg l).map l.segAt
/-- Private frames of a launch in use (R208): those of blocks, resident or in images, some warp of which has not exited. -/
def usedFrames (s : State) (lk : Nat) : List Nat :=
  ((s.blocks ++ (s.images.map (·.blocks)).flatten).filter (fun b =>
    decide (b.launch = lk) && (warpsOfBlock s b).any (fun w => !(aliveTids w).isEmpty))).map (·.frame)
/-- `n` free private frames (R208); frame 0 for every block where frames have no size. -/
def freeFrames (s : State) (l : Launch) (n : Nat) : Option (List Nat) :=
  match privSeg l with
  | none => some (List.replicate n 0)
  | some g =>
    if frameBytes l = 0 then some (List.replicate n 0)
    else
      let used := usedFrames s l.lk
      let free := (List.range (min (g.limit / frameBytes l) (used.length + n))).filter (fun k => !used.contains k)
      if free.length < n then none else some (free.take n)
/-- The reservation of a warp in the dispatcher save area (R85). -/
def warpReserve (l : Launch) : Nat := (12288 + 3 * l.pkt.regmax * 528 + 4095) / 4096 * 4096
/-- Bytes of a retained launch record (R351): those of the packet, the segment table and the group table with its lists; what the object's
binding takes is not stated. (DESIGN CHOICE, log 24) -/
def recordBytes (l : Launch) : Nat :=
  512 + 16 * l.groups.length + ((l.groups.map (fun g => 4 * g.list.length)).foldl (· + ·) 0) + Config.bindingBytes l.obj.entries.length
/-- A launch has a retained record (R351): it was accepted, and its last gang has not finished. -/
def hasRecord (l : Launch) : Bool := !l.complDue && l.failed.isNone
/-- Bytes of a partition's dispatcher save area in use (R85): reservations of resident warps that have not retired, retained launch records,
and the dispatcher's own images. (DESIGN CHOICE, log 24) -/
def saveUsed (s : State) (p : Nat) : Nat :=
  ((s.warps.filter (fun w => decide (partOf w.name.launch = p) && !warpRetired s w)).filterMap
    (fun w => (findLaunch s w.name.launch).map warpReserve)).foldl (· + ·) 0 +
  ((s.launches.filter (fun l => decide (l.part = p) && hasRecord l)).map recordBytes).foldl (· + ·) 0 +
  ((s.images.filter (fun im => decide (im.part = p) && decide (im.why ≤ 3))).map (·.size)).foldl (· + ·) 0
/-- The save area has room for more bytes; a partition without a stated limit always has (log 24). -/
def saveRoom (s : State) (p n : Nat) : Bool :=
  (findPart s p).saveArea == 0 || decide (saveUsed s p + n ≤ (findPart s p).saveArea)

/-! ## GANG_START -/

/-- A thread as a block starts it (R78, R343). (DESIGN CHOICE, log 4) -/
def newThread (pc n t : Nat) : Thread :=
  { tid := t, st := if t < n then .ready else .exited, pc := pc, rk := 0, held := 0, retd := 0, cnt := 0, arr := [], den := none }
/-- A warp as a block starts it (R78, R182, R407). (DESIGN CHOICE, log 4) -/
def newWarp (l : Launch) (name : WName) (core quad adm pc : Nat) : Warp :=
  let n := l.pkt.blkx * l.pkt.blky * l.pkt.blkz - 128 * name.w
  { name := name, core := core, quad := quad, adm := adm, swap := .resident, swaps := 0
    threads := (List.range 128).map (newThread pc n)
    frames := [{}], fpm := 0, ejmax := 4, ejto := 0x00100000, qto := 0x01000000, trapvec := 0, emuvec := 0, emuacc := 0
    tiles := List.replicate l.pkt.accum zeroTile, epStore := [], epk := [], mq := [], race := {}, pend := [], halt := none, stopReq := false
    skip := none, groupWait := [], promoted := [], ableFor := 0, aged := false, young := false, joinPasses := [], latch1 := [], hazards := []
    lastStall := 0, since := 0, holds := [], sig := 0, checked := [], compare := 0, nstores := 0, once := 0, twinRes := [], loopBuf := none, stepArm := none, stepped := false }
/-- A block, as it starts on a core (R208, R327, R347). (DEDUCED, log 3) -/
def newBlock (l : Launch) (blk grank core frame : Nat) (sh : Bool) : Block :=
  { launch := l.lk, blk := blk, shadow := sh, core := core, grank := grank, frame := frame, scratch := [], spoison := [], bars := []
    burrows := [], wptr := [] }
/-- The warps of a block on the quadrants chosen for them. -/
def newWarps (l : Launch) (blk core adm : Nat) (sh : Bool) (quads : List Nat) : List Warp :=
  quads.mapIdx (fun i q => newWarp l { launch := l.lk, blk := blk, shadow := sh, w := i } core q (adm + i) (entryPc l))
/-- The bricks of a launch's entry on the cores of a gang are there, or being fetched (R368). -/
def entryBricks (s : State) (l : Launch) (cores : List Nat) : Option State :=
  if entryPc l ≥ codeLimit l then some s
  else cores.foldl (fun acc k => acc.bind (fun st => implicitFetch st k l.lk (entryPc l / 4096))) (some s)
/-- Where some of them cannot be fetched, they wait in line for a slot (R368). -/
def entryWaits (s : State) (l : Launch) (cores : List Nat) : State :=
  cores.foldl (fun st k => if (findBrick st k l.lk (entryPc l / 4096)).isNone && !st.fetchq.any (fun e => e.is k l.lk (entryPc l / 4096))
    then fetchOrWait st k l.lk (entryPc l / 4096) else st) s
/-- What happens before the start of a launch (R350, R357): what its LAUNCH ordered, and the end of its predecessor where it is ordered. -/
def startClock (s : State) (l : Launch) : Clock :=
  if l.flag 5 then l.before.join (((l.prev).map (endOf s)).getD []) else l.before
/-- The detector state of a warp as its block starts (R252): a relaunched warp whose races were lost stays so (R255). -/
def startRace (k : Clock) (lost : Bool) : RaceSt :=
  { lost := lost, thr := if k.isEmpty then [] else (List.range 128).map (fun t => { tid := t, clk := k : ThrRace }) }
/-- The L1s that the work on some cores uses are emptied of lines that are not private, so that work which starts or is restored there reads
nothing older than what happens before it (R234 to R237, R350, R357). -/
def freshCores (s : State) (l : Launch) (cores : List Nat) : State := cores.foldl (fun st k => dropForAcquire st l k) s
/-- A gang starts on cores with private frames (R347): its blocks and their warps are there, each with its trace record. (DEDUCED, log 3) -/
def placeGang (s : State) (l : Launch) (rank0 cluster : Nat) (sh : Bool) (room : List (Nat × List Nat)) (frames : List Nat) : State :=
  let lost := match s.gangs.find? (fun g => decide (g.launch = l.lk) && decide (g.rank0 = rank0) && decide (g.shadow = sh)) with
    | some g => g.lost
    | none => []
  (room.zip frames).foldl (fun (acc : Nat × State) e =>
    let blk := rank0 + acc.1
    let st := freshCores acc.2 l [e.1.1]
    let ws := (newWarps l blk e.1.1 st.nextId sh e.1.2).map (fun w => { w with race := startRace (startClock s l) (lost.contains w.name) })
    let st1 := { st with blocks := st.blocks ++ [newBlock l blk acc.1 e.1.1 e.2 sh], warps := st.warps ++ ws, nextId := st.nextId + ws.length }
    (acc.1 + 1, traceRec st1 (partOf l.lk) 5 0 0 (4 * cluster) l.lk blk (entryPc l) 0 0)) (0, s) |>.2
/-- The first block of the gang that a launch starts next: a killed gang again, else the next in order (R347, R351). -/
def nextGangOf (s : State) (l : Launch) : Option Nat :=
  match minNat ((s.gangs.filter (fun g => decide (g.launch = l.lk) && decide (g.st = .killed) && !g.shadow)).map (·.rank0)) with
  | some r => some r
  | none => if l.nextGang * l.pkt.gang < l.nblk then some (l.nextGang * l.pkt.gang) else none
/-- An edge binding joins two launches (R426). -/
def joined (l m : Launch) : Bool :=
  decide (l.part = m.part) && decide (l.lk ≠ m.lk) &&
  l.edges.any (fun a => a.role != 0 && m.edges.any (fun b => b.role != 0 && decide (edgeVa l a = edgeVa m b)))
/-- A launch may start a gang (R348): it is not over, no cut of it is due, and where it is ordered the record of the launch that its queue
accepted before it is written. -/
def mayStart (s : State) (l : Launch) : Bool :=
  l.failed.isNone && !l.complDue && !s.cuts.any (fun k => k.due && k.lks.contains l.lk) &&
  (l.started || !l.flag 5 || (match l.prev with | some k => decide (k = l.lk) || (findLaunch s k).isNone | none => true))
/-- A binding whose header cannot be reached for the moment: its page is on its way, or its granule is being copied. -/
def edgesMoving (s : State) (l : Launch) : Bool :=
  l.edges.any (fun b => b.role != 0 && (isCow s (partOf l.lk) (edgeVa l b) ||
    (match xlate s (partOf l.lk) (edgeVa l b) .atomic l.bound with | .park _ none => true | _ => false)))
/-- The other clusters of a partition that a shadow may run on (R464). -/
def shadowRoom (s : State) (l : Launch) (cluster : Nat) : Option (Nat × List (Nat × List Nat)) :=
  ((findPart s (partOf l.lk)).clusters.filterMap (fun k =>
    if k = cluster then none else (clusterRoom s l k).map (fun r => (k, r)))).head?
/-- A gang's record as it starts: one that starts again after a kill counts a relaunch and keeps its credits (R351, R462). -/
def freshGang (s : State) (l : Launch) (rank0 cluster : Nat) (sh : Bool) : Gang :=
  let base : Gang :=
    { launch := l.lk, rank0 := rank0, shadow := sh, cluster := cluster, st := .running, bars := [], relaunches := 0, epoch := 0
      restored := false, credits := [], ckBytes := 0, ckWord1 := 0, marks := [] }
  match s.gangs.find? (fun g => decide (g.launch = l.lk) && decide (g.rank0 = rank0) && decide (g.shadow = sh)) with
  | some g => { g with cluster := cluster, st := .running, bars := [], marks := [], relaunches := g.relaunches + 1 }
  | none => base
/-- State with a gang's record in the place of an earlier one. -/
def putGang (s : State) (g : Gang) : State :=
  { s with gangs := s.gangs.filter (fun x => !(decide (x.launch = g.launch) && decide (x.rank0 = g.rank0) && decide (x.shadow = g.shadow))) ++ [g] }
/-- The dies noted for a launch's barriers as blocks first start (R324): that of block 0 for its grid barriers, under 256, the number beyond
the last group. -/
def noteDies (l : Launch) (rank0 cluster : Nat) : List (Nat × Nat) :=
  (List.range l.groups.length).foldl (fun acc k =>
    match l.groups[k]? with
    | some g => if decide (rank0 ≤ g.low) && decide (g.low < rank0 + l.pkt.gang) && (aget acc k).isNone then aset acc k (cluster / 60) else acc
    | none => acc) (if rank0 = 0 ∧ (aget l.groupDies 256).isNone then aset l.groupDies 256 (cluster / 60) else l.groupDies)
/-- The next gang of a launch started on a cluster; none where it does not fit (R85, R208, R347, R368, R464). -/
def startGang (s : State) (l : Launch) (cluster : Nat) : Option State :=
  match nextGangOf s l, clusterRoom s l cluster with
  | some r, some room =>
    let runs := if l.twin then 2 else 1
    (match freeFrames s l (runs * l.pkt.gang), (if l.twin then shadowRoom s l cluster else some (0, [])) with
      | some fs, some (k2, room2) =>
        if !saveRoom s (partOf l.lk) (runs * l.pkt.gang * l.warpsPerBlock * warpReserve l) then none
        else match entryBricks s l ((room ++ room2).map (·.1)) with
          | none => none
          | some s0 =>
            let again := decide (r < l.nextGang * l.pkt.gang)
            let s1 := if l.started then s0 else edgeStart s0 l
            let s2 := placeGang (putGang s1 (freshGang s l r cluster false)) l r cluster false room fs
            let s3 := if l.twin then placeGang (putGang s2 (freshGang s l r k2 true)) l r k2 true room2 (fs.drop l.pkt.gang) else s2
            some (modLaunch s3 l.lk (fun y =>
              { y with
                started := true, nextGang := if again then y.nextGang else y.nextGang + 1, groupDies := noteDies y r cluster
                relaunch := if again then y.relaunch + 1 else y.relaunch }))
      | _, _ => none)
  | _, _ => none
/-- The space of a cluster was freed for the blocks of other launches (R325, R356): by a gang saved at a barrier for its own launch, by
one saved at an edge for its own launch and those on the other side. (DEDUCED, log 66) -/
def spaceHeld (s : State) (l : Launch) (cluster : Nat) : Bool :=
  s.images.any (fun im => decide (im.gang.cluster = cluster) && decide (im.launch ≠ l.lk) &&
    (im.why == 1 || (im.why == 2 && !(match findLaunch s im.launch with | some m => joined m l | none => false))))
/-- The next gang of a launch may start on a cluster now (R325, R348, R353, R356). -/
def readyOn (s : State) (l : Launch) (cluster : Nat) : Bool :=
  mayStart s l && (nextGangOf s l).isSome && !spaceHeld s l cluster && (l.started || !edgesMoving s l)
/-- GANG_START (R347, R348): the next gang of a launch starts on a cluster of its partition, unless a gang of a higher priority could
start there; one that only a brick keeps from starting puts its fetch in line (R368). -/
def execGangStart (lk cluster : Nat) (s : State) : Host.Outcome State Fault Refusal :=
  match findLaunch s lk with
  | none => .next s
  | some l =>
    let rival := s.launches.any (fun m => decide (m.part = l.part) && decide (m.pkt.prio > l.pkt.prio) && readyOn s m cluster &&
      (startGang s m cluster).isSome)
    if !(findPart s l.part).clusters.contains cluster || rival || !readyOn s l cluster then .next s
    else match startGang s l cluster with
      | some t => .next t
      | none => .next (match clusterRoom s l cluster with | some room => entryWaits s l (room.map (·.1)) | none => s)

/-! ## COMPLETION_RECORD_WRITE -/

/-- Bytes 0x0 to 0x3 of a launch's completion record (R346). -/
def complWord (l : Launch) : Nat := match l.failed with | none => 0 | some (k, d) => k * 65536 + d
/-- The completion record (R346). -/
def complBytes (l : Launch) : List Byte := toBytes (complWord l) 4 ++ toBytes l.relaunch 4 ++ toBytes l.pkt.tag 8
/-- Something of a launch has still to perform: a store, an atomic or a copy entry (R346). -/
def launchBusy (s : State) (lk : Nat) : Bool :=
  s.reqs.any (fun r => decide (r.w.launch = lk) && r.writes && !r.done) || s.copies.any (fun e => decide (e.w.launch = lk))
/-- A record's bytes, in one page or across two. -/
def writeRun (s : State) (p va : Nat) (bs : List Byte) : RecOut :=
  let m := 4096 - va % 4096
  if bs.length ≤ m then writeRec s p va bs
  else match writeRec s p va (bs.take m) with
    | .done s1 => writeRec s1 p (va + m) (bs.drop m)
    | o => o
/-- An entry of an agent of another launch. -/
def foreign (lk : Nat) (k : Clock) : Clock := k.filter (fun e => decide (e.1.block.1 ≠ lk))
/-- The launch's record is written, or would have been: its first word is kept for LWAIT, for the last 4,096 launches of each queue
(R358), with what its end orders (R350), and nothing of the launch remains; what its reductions have left open is dropped.
(DESIGN CHOICE, log 98) -/
def retire (s : State) (l : Launch) : State :=
  let same (e : Nat × Word) : Bool := decide (e.1 / 2 ^ 28 = l.lk / 2 ^ 28)
  let near (e : Nat × Clock) : Bool := decide (e.1 / 2 ^ 28 = l.lk / 2 ^ 28)
  { s with
    ends := (l.lk, foreign l.lk (l.after.join (startClock s l))) ::
      ((s.ends.filter (fun e => near e && decide (e.1 ≠ l.lk))).take 4095 ++ s.ends.filter (fun e => !near e))
    completed := (l.lk, BitVec.ofNat 32 (complWord l)) ::
      ((s.completed.filter (fun e => same e && decide (e.1 ≠ l.lk))).take 4095 ++ s.completed.filter (fun e => !same e))
    launches := s.launches.filter (fun x => decide (x.lk ≠ l.lk))
    gangs := s.gangs.filter (fun g => decide (g.launch ≠ l.lk))
    images := s.images.filter (fun im => decide (im.launch ≠ l.lk))
    chunks := s.chunks.filter (fun c => decide (c.lk ≠ l.lk))
    sectors := (s.sectors.map (fun x =>
        { x with stores := x.stores.filter (fun r => decide (r.lk ≠ l.lk)), reads := x.reads.filter (fun r => decide (r.lk ≠ l.lk)) })).filter
      (fun x => !x.stores.isEmpty || !x.reads.isEmpty) }
/-- The vector of a launch's queue, where its packet asks for it (R346). -/
def irqOf (s : State) (l : Launch) : State :=
  if l.flag 6 then raiseMsi s l.part ((findPart s l.part).queue (l.lid / 2 ^ 28)).vec else s
/-- COMPLETION_RECORD_WRITE (R346, R353, R400, R482): the record of a launch that is over, its edges left, its vector raised; before that,
the report of another package that a migrated gang has finished. -/
def execCompletionRecordWrite (lk : Nat) (s : State) : Host.Outcome State Fault Refusal :=
  match findLaunch s lk with
  | none => .next s
  | some l =>
    let refused := match l.failed with | some (k, _) => decide (k / 256 = 1) | none => false
    if !l.complDue && !l.remote.isEmpty then
      .next (settleBars (modLaunch s lk (fun y => { y with remote := y.remote.tail, doneBlocks := y.doneBlocks + y.pkt.gang }))
        { launch := lk, blk := l.remote.headD 0, shadow := false, w := 0 })
    else if !l.complDue || (!refused && launchBusy s lk) || (l.started && edgesMoving s l) then .next s
    else
      let left (st : State) : State := if l.started then edgeFinish st l else st
      if l.pkt.compl = 0 then .next (irqOf (retire (left s) l) l)
      else match writeRun s l.part l.pkt.compl (complBytes l) with
        | .wait => .next s
        | .done s2 => .next (irqOf (retire (left s2) l) l)
        | .fail =>
          let held : ComplRec := { lk := lk, launch := l, addr := l.pkt.compl, bytes := complBytes l, vec := none }
          let s2 := modPart s l.part (fun x => { x with heldCompl := x.heldCompl ++ [held], crerr := true, weaddr := l.pkt.compl })
          .next (irqOf (raiseMsi (retire s2 l) l.part (findPart s l.part).fqvec) l)

end Sys2Proof.Machine
end

