-- ==== Sys2Proof/Machine/Kill.lean ====
section
/-! DEFINITION. Removing a gang from the machine, as a kill, a discard and a save have in common, and the kill itself: its record,
its relaunch, and the end of a launch that cannot go on (R351, R461, R462). -/

namespace Sys2Proof.Machine

/-- A block of a gang's range, of either run of a twin. -/
def ofGang (lk rank0 gang : Nat) (n : WName) : Bool :=
  decide (n.launch = lk) && decide (rank0 ≤ n.blk) && decide (n.blk < rank0 + gang)
/-- A request whose warp is gone (R418, R461): what was sent still performs, with nowhere to reply to; everything else is dropped. (DEDUCED, log 53) -/
def detachReq (r : Req) : Option Req :=
  let off : Req :=
    { r with dcode := opZero, sig := 15, den := none, depth := 0, once := 2 ^ 32 + r.id
             order := if r.order = 1 then 0 else if r.order = 3 then 2 else r.order }
  match r.kind with
  | .store => if r.done then none else some off
  | .atom op ty _ => if r.done || r.w.shadow then none else some { off with kind := .atom op ty 15 }
  | .edgePut _ => some off
  | .edgeTake _ => if r.done || r.accs.isEmpty then none else some { off with kind := .edgeTake 15 }
  | .tmove _ => some off
  | .scrub _ => some off
  | .kslot _ => some off
  | _ => none
/-- Requests with those of the warps named detached. (DEDUCED, log 53) -/
def detachReqs (s : State) (f : WName → Bool) : State :=
  { s with reqs := s.reqs.filterMap (fun r => if f r.w then detachReq r else some r) }
/-- The copy entries of warps that are gone (R277, R461): channel entries are abandoned, those of the package engines go on. -/
def detachCopies (s : State) (f : WName → Bool) : State :=
  { s with copies := s.copies.filterMap (fun e => if !f e.w then some e else if e.ch < 16 then none else some { e with sig := 15 }) }
/-- Records that no longer wait for an answer: those of warps whose context has stopped (R399), but for package engines, bricks and
queue slots. (DEDUCED, log 90) -/
def voidTokens (s : State) (p : Nat) (f : WName → Bool) : State :=
  modPart s p (fun q => { q with tokens := q.tokens.filter (fun t => t.kind == 2 || t.kind == 3 || t.kind == 6 || !f t.w) })
/-- The private lines of cores go home (R417). -/
def flushPrivate (s : State) (cores : List Nat) : State := flushLines s (fun l => l.priv && cores.contains l.core) true
/-- The cores whose L1s the blocks of a launch on these cores use: the whole cluster's where the launch has them fused (R213). -/
def l1Cores (l : Option Launch) (cores : List Nat) : List Nat :=
  if (l.map (·.flag 2)).getD false then (cores.map (fun k => (List.range 4).map (fun i => k / 4 * 4 + i))).flatten else cores
/-- What the end of a launch orders, with what its threads know of other launches (R232, R350). -/
def noteEnd (s : State) (w : Warp) : State :=
  let k := w.race.thr.foldl (fun (acc : Clock) x => acc.join (foreign w.name.launch x.clk)) []
  if k.isEmpty then s else modLaunch s w.name.launch (fun l => { l with after := l.after.join k })
/-- A brick leaves its core with the last block of its launch there (R368); one that is being read stays until it is there. -/
def brickStays (blocks : List Block) (b : Brick) : Bool :=
  (match b.st with | .fetching _ => true | _ => false) || blocks.any (fun x => decide (x.launch = b.lk) && decide (x.core = b.core))
/-- The blocks and warps of a gang leave their cores, with what belonged to them there: stores that waited to be checked, flags of brick
fetches, matrix queues, den slots, bricks that no block of the launch uses now. -/
def vacate (s : State) (f : WName → Bool) : State :=
  let mine (b : Block) : Bool := f { launch := b.launch, blk := b.blk, shadow := b.shadow, w := 0 }
  let gone := s.blocks.filter mine
  let left := s.blocks.filter (fun b => !mine b)
  let s0 := (s.warps.filter (fun w => f w.name)).foldl noteEnd s
  let s1 := flushPrivate s0 ((gone.map (fun b => l1Cores (findLaunch s b.launch) [b.core])).flatten)
  { s1 with
    blocks := left
    warps := s1.warps.filter (fun w => !f w.name)
    bricks := (s1.bricks.filter (fun b => !gone.any (fun x => decide (x.launch = b.lk) && decide (x.core = b.core)) || brickStays left b)).map
      (fun b => { b with waiters := b.waiters.filter (fun k => !f k.1) })
    fetchq := s1.fetchq.map (fun e => { e with waiters := e.waiters.filter (fun k => !f k.1) })
    quads := s1.quads.map (fun q => { q with swapOrder := q.swapOrder.filter (fun n => !f n) }) }
/-- A gang is removed for good (R418, R461): nothing of it remains but what it has sent. -/
def removeGang (s : State) (lk rank0 gang : Nat) : State :=
  let f := ofGang lk rank0 gang
  let s1 := vacate (voidTokens (detachCopies (detachReqs s f) f) (partOf lk) f) f
  { s1 with images := s1.images.filter (fun im => !(decide (im.launch = lk) && decide (rank0 ≤ im.block0) && decide (im.block0 < rank0 + gang))) }
/-- Arrivals of a gang withdrawn from the open phases of grid and group barriers (R462). -/
def withdraw (s : State) (lk rank0 gang : Nat) : State :=
  modLaunch s lk (fun l => { l with bars := l.bars.map (fun b => { b with arrived := b.arrived.filter (fun e => !ofGang lk rank0 gang e.1) }) })
/-- The phases of grid and group barriers that a gang's threads have passed (R462): for a thread that goes on, every phase that is
complete; for one that has exited, those of its own arrivals. -/
def passedPhases (l : Launch) (ws : List Warp) : List (WName × Nat × Arrival) :=
  (ws.map (fun w => (l.bars.map (fun b =>
    if b.level = 4 && !(match l.groups[b.idx]? with | some g => g.has w.name.blk | none => false) then [] else
    if decide (b.owner = 1) != w.name.shadow then [] else
    w.threads.filterMap (fun t =>
      let k := if t.st != .exited then b.phase
        else match t.arr.find? (fun a => decide (a.level = b.level) && decide (a.idx = b.idx)) with
          | some a => min (a.phase + 1) b.phase
          | none => 0
      if k = 0 then none else some (w.name, t.tid, { level := b.level, idx := b.idx, phase := k : Arrival })))).flatten)).flatten
/-- Every gang of a launch that has not finished is discarded (R462). -/
def discardLaunch (s : State) (l : Launch) : State :=
  let g0 := removeGang s l.lk 0 (2 ^ 31)
  { g0 with gangs := g0.gangs.map (fun g => if g.launch = l.lk ∧ g.st ≠ .finished then { g with st := .finished } else g) }
/-- A launch ends as failed: KIND 2, the cause, the failing block (R346, R462). -/
def failLaunch (s : State) (l : Launch) (cause blk : Nat) : State :=
  modLaunch (discardLaunch s l) l.lk (fun x => { x with failed := some (512 + cause, min blk 0xFFFF), complDue := true })
/-- The record of a kill, which asks for no answer (R461). -/
def killRecord (s : State) (n : WName) (depth cause addr pc : Nat) (mask : Mask) (core : Nat) : State :=
  pushRecord s (partOf n.launch) core n.launch
    { code := cause, orig := 0, kind := 5, depth := depth, token := 0, lid := lidOf n.launch, blk := n.blk, unit := 0, core := 0, warp := n.w
      pc := pc, addr := addr, mask := mask }
/-- Kill the gang of a block (R461, R462): its warps, registers and memory on the core are gone; what it had sent performs; it is to be
started again, or the launch ends. The warp, address, program counter and mask are those of the record. -/
def killGang (s : State) (l : Launch) (g : Gang) (n : WName) (depth cause addr pc : Nat) (mask : Mask) : State :=
  let size := max 1 l.pkt.gang
  let ws := (s.warps ++ savedWarps s).filter (fun w => ofGang l.lk g.rank0 size w.name)
  let core := match findWarp s n with | some w => w.core | none => 4 * g.cluster
  let s1 := withdraw (removeGang s l.lk g.rank0 size) l.lk g.rank0 size
  let s2 := countErr (killRecord s1 n depth cause addr pc mask core) l.part 7
  let again := (l.relaunchable || l.twin) && decide (g.relaunches < 3)
  if again then
    let credits := passedPhases l ws
    let lost := ((ws.filter (·.race.lost)).map (·.name)).eraseDups
    { s2 with gangs := s2.gangs.map (fun x => if x.launch = l.lk ∧ x.rank0 = g.rank0 then
      { x with st := .killed, bars := [], credits := credits.filter (fun c => c.1.shadow == x.shadow), marks := []
               lost := lost.filter (fun n => n.shadow == x.shadow) } else x) }
  else failLaunch s2 l cause n.blk
/-- The gang of a block killed on a supervisor's answer, or on a cause of the reliability path. -/
def killFor (s : State) (n : WName) (cause addr pc : Nat) (mask : Mask) : State :=
  match findLaunch s n.launch, findGang s n.launch n.blk false with
  | some l, some g =>
    if g.st = .killed || g.st = .finished then s
    else killGang s l g n (match findWarp s n with | some w => w.depth | none => 0) cause addr pc mask
  | _, _ => s

end Sys2Proof.Machine
end

