-- ==== Sys2Proof/Machine/Trap.lean ====
section
/-! DEFINITION. Traps and emulation (R381 to R411): the entry of a group that encodes no instruction, TRAP, ERET, OWRD, OWWR, HALT,
WSTOP, the three forms of WRESUME and FWCALL, and the events of the record queues. -/

namespace Sys2Proof.Machine

/-! ## HANDLER_ENTRY -/

/-- Scheduling fields and guard of a group's instruction word (R33, R47); a group without one has none. -/
def schedOf (ws : List Code) : Sched :=
  match instrWord ws with
  | none => { stall := 1, wait := 0, sig := 15, gn := false, gp := 15 }
  | some (w, _) => if fmtOf w = 1 then schedP (fieldsP w) else schedF (fieldsF w)
/-- The operand codes of a group's fields that name registers (R385). -/
def fieldCodes (ws : List Code) : List Nat :=
  match instrWord ws with
  | none => []
  | some (w, x) =>
    (if fmtOf w = 1 then
      let p := fieldsP w
      [p.xd.toNat, p.xs.toNat, p.yd.toNat, p.ys.toNat]
    else
      let f := fieldsF w
      [f.d.toNat, f.a.toNat] ++ (if f.i then [] else [f.b.toNat]) ++
        (if fmtOf w = 3 then (match x with | some e => [(fieldsL e).c.toNat] | none => []) else [])).filter isVS
/-- A group of the uniform path: its D names an s register (R40). -/
def uniWords (ws : List Code) : Bool :=
  match instrWord ws with
  | none => false
  | some (w, _) => fmtOf w != 1 && isS (fieldsF w).d.toNat
/-- HANDLER_ENTRY (R72, R73, R383, R385): the group encodes no instruction, and raises the first cause of R73 that it meets. -/
def execHandlerEntry (cause : Nat) (s : State) : Host.Outcome State Fault Refusal :=
  let ws := s.iss.words
  issueWith s (fun _ =>
    { q := schedOf ws, den := false, cause := some cause, named := fieldCodes ws, dests := [], uni := uniWords ws })
    (fun _ _ => s)

/-! ## TRAP and ERET -/

/-- TRAP (R395). -/
def execTrap (f : FWord) (s : State) : Host.Outcome State Fault Refusal :=
  issue { a := 1 } f none s (fun c _ tids => raise s c { cause := 0xB0 + f.bLo, tids := tids })
/-- ERET (R394): its threads wait at it until the frame can close. -/
def execEret (f : FWord) (s : State) : Host.Outcome State Fault Refusal :=
  issue {} f none s (fun c _ tids =>
    if c.w.depth = 0 then raise s c { cause := 0x61, tids := tids }
    else
      let s1 := hold s c tids (schedF f) (.eret f.v)
      match findWarp s1 c.w.name with
      | some w => if frameDone s1 w then modWarp s1 c.w.name closeFrame else s1
      | none => s1)

/-! ## The operand window -/

/-- Words of the group that opened a frame (R389). -/
def Window.words (n : Window) : List Code :=
  (List.range (n.ewlen.toNat % 8)).map (fun i => n.ewg.getD (2 * i + 1) 0 ++ n.ewg.getD (2 * i) 0)
/-- The format of the group's instruction word. -/
def Window.fmt (n : Window) : Nat := bitsOf n.ewop.toNat 9 2
/-- The operand code of field `k` of the interrupted group, with its REP step applied (R391): 0 D, 1 A, 2 B, 3 C. -/
def Window.code (n : Window) (k : Nat) : Nat :=
  let r := repOf (n.words.takeWhile (fun w => fmtOf w == 2))
  let rk := bitsOf n.ewlen.toNat 5 4
  let base := match k with | 0 => n.ewd.toNat | 1 => n.ewa.toNat | 2 => n.ewb.toNat | _ => n.ewc.toNat % 256
  base + (if k ≤ 2 then rk * repStep r k else 0)
/-- B of the interrupted group is an immediate. -/
def Window.immB (n : Window) : Bool := bitOf n.ewop.toNat 12
/-- What a field of the window names (R391). -/
inductive WinOp where
  | v (r : Nat)
  | s (r : Nat)
  | q (n : Nat)
  | imm
  | pw
  | special (code : Nat)
  deriving DecidableEq, Repr
/-- The operand that field `k` and offset `j` name, or the cause that naming it raises (R393); a reserved code raises 0x07. (DEDUCED, log 52) -/
def winOp (n : Window) (depth regmax k j : Nat) : Except Nat WinOp :=
  if depth = 0 || (k = 3 && n.fmt ≠ 3) then .error 0x62
  else if k = 4 then (if j = 0 then .ok .pw else .error 0x62)
  else if k = 2 && n.immB then (if j = 0 then .ok .imm else .error 0x62)
  else
    let c := n.code k
    if isV c then (if c + j ≥ 128 || c + j ≥ regmax then .error 0x62 else .ok (.v (c + j)))
    else if isS c then (if c + j ≥ 0xC0 then .error 0x62 else .ok (.s (c - 0x80 + j)))
    else if j ≠ 0 then .error 0x62
    else if isQ c then .ok (.q (c - 0xC0))
    else if c ≤ 0xD1 then .ok (.special c) else .error 0x07
/-- Word `j` of what an entry captured of an operand of `n` registers, for a thread: the registers, or the two words of a scratchpad
descriptor (R164). -/
def MOper.word (op : MOper) (n j t : Nat) : Option Word :=
  match op with
  | .regs vals => if j < n then some (vals.getD (n * t + j) 0) else none
  | .scratch off rp tp rot => if j = 0 then some (BitVec.ofNat 32 off) else if j = 1 then some (BitVec.ofNat 32 (rp * 2 ^ 16 + tp * 16 + rot)) else none
  | .zero => none
/-- The words that a queued matrix entry captured of an operand field, by thread (R422): MWR's pair, the registers or descriptors of MMA and
MMAT, the descriptor of MDRAIN, and their format word. `k` is the field, `j` the offset within it. -/
def captured (e : MEntry) (k j t : Nat) : Option Word :=
  match k, e.op with
  | 1, 2 => e.a.word 2 j t
  | 1, 4 => e.a.word 1 j t
  | 1, 5 => e.a.word 1 j t
  | 1, 6 => e.a.word 1 j t
  | 2, 4 => e.b.word 1 j t
  | 2, 5 => e.b.word 1 j t
  | 3, 4 => if j = 0 then some e.fmtw else none
  | 3, 5 => if j = 0 then some e.fmtw else none
  | 3, 6 => if j = 0 then some e.fmtw else none
  | _, _ => none
/-- The entry that the current frame serves. -/
def convEntry (w : Warp) : Option MEntry := w.cur.conv.bind (fun id => w.mq.find? (fun e => decide (e.id = id)))
/-- The value of an operand of the interrupted group for one thread (R391). (DEDUCED, log 52) -/
def winRead (c : Ctx) (tids : List Nat) (k j t : Nat) (op : WinOp) : Word :=
  let below := c.w.frameAt (c.w.depth - 1)
  match (convEntry c.w).bind (fun e => captured e k j t) with
  | some x => x
  | none =>
    match op with
    | .v r => below.getV t r
    | .s r => below.getS r
    | .imm => c.w.cur.win.ewimm
    | .pw => (below.getP t).zeroExtend 32
    | .special code => BitVec.ofNat 32 (specialVal c (if isS code then tids.headD 0 else t) code)
    | .q _ => 0
/-- OWRD (R391, R393): an operand of the interrupted group into d. -/
def execOwrd (f : FWord) (s : State) : Host.Outcome State Fault Refusal :=
  let u : Use := { d := 1 }
  issue u f none s (fun c f' tids =>
    let k := f.b.toNat % 8
    let j := f.b.toNat / 8 % 16
    let ts := if isUniform u f then tids.take 1 else tids
    match winOp c.w.cur.win c.w.depth c.l.pkt.regmax k j with
    | .error e => raise s c { cause := e, tids := ts }
    | .ok op =>
      let pops := match op with | .q n => [(1, n)] | _ => []
      let push := qPush u f'
      match qCause c.b c.w.name.w pops push ts.length with
      | some (e, n) => raise s c { cause := e, tids := ts, faddr := n }
      | none =>
        match qStall c.b pops push ts.length with
        | some (p, n) => stallAs s c (.burrow p n)
        | none =>
          if popsPoison c.b pops ts.length then consume s c 0x80 ts 0 else
          let (b1, qv) := popAll c.b c.w.name.w ts pops
          let val (t : Nat) : Word := match qv.find? (fun e => e.1.2 == t) with | some e => e.2 | none => winRead c tids k j t op
          let outs := ts.map (fun t => (t, ({ vals := [val t] } : AluOut)))
          let w1 := (if pops.isEmpty then id else interlock c.w) (writeOuts c.w c.den ts u f' outs)
          let b2 := match push with | none => b1 | some n => pushAll b1 c.w.name.w n (ts.map val)
          let (s1, w2) := qTransfer s c w1 ts pops push b2
          finish s1 c tids (schedF f) w2)
/-- The warp with an operand of the interrupted group written by each of some threads (R392). -/
def winWrite (w : Warp) (tids : List Nat) (val : Nat → Word) (op : WinOp) : Warp :=
  match op with
  | .v r => w.modFrame (w.depth - 1) (fun fr => tids.foldl (fun g t => g.setV t r (val t)) fr)
  | .s r => w.modFrame (w.depth - 1) (fun fr => fr.setS r (val (tids.headD 0)))
  | .pw => w.modFrame (w.depth - 1) (fun fr => tids.foldl (fun g t => g.setP t ((val t).extractLsb' 0 12)) fr)
  | _ => w
/-- OWWR (R392, R393): b into an operand of the interrupted group. -/
def execOwwr (f : FWord) (s : State) : Host.Outcome State Fault Refusal :=
  let u : Use := { b := 1, q := false, bad := !f.i && !(isV f.b.toNat || isUniCode f.b.toNat) }
  issue u f none s (fun c f' tids =>
    let k := f.d.toNat % 8
    let j := f.d.toNat / 8 % 16
    let val (t : Nat) : Word := if f.i then f.b.signExtend 32 else readCode s c c.w tids t f'.b.toNat
    let w0 := applyMarks c.w u f' none none 0 tids
    match winOp c.w.cur.win c.w.depth c.l.pkt.regmax k j with
    | .error e => raise s c { cause := e, tids := tids }
    | .ok op =>
      match op with
      | .imm => raise s c { cause := 0x62, tids := tids }
      | .special code => if code = opZero then finish s c tids (schedF f) w0 else raise s c { cause := 0x62, tids := tids }
      | .q n =>
        (match qCause c.b c.w.name.w [] (some n) tids.length with
          | some (e, a) => raise s c { cause := e, tids := tids, faddr := a }
          | none =>
            match qStall c.b [] (some n) tids.length with
            | some (p, m) => stallAs s c (.burrow p m)
            | none =>
              let (s1, w1) := qTransfer s c w0 tids [] (some n) (pushAll c.b c.w.name.w n (tids.map val))
              finish s1 c tids (schedF f) w1)
      | .v r =>
        if poolFits s c.w (c.w.depth - 1) [r] then finish s c tids (schedF f) (winWrite w0 tids val op) else stall s c 3
      | _ => finish s c tids (schedF f) (winWrite w0 tids val op))

/-! ## HALT -/

/-- HALT (R403): until %fqtail ≠ %fqhead, or n(b) cycles where that is not 0. -/
def execHalt (f : FWord) (s : State) : Host.Outcome State Fault Refusal :=
  issue { uniUse f with sup := true } f none s (fun c f' tids =>
    let p := findPart s (partOf c.l.lk)
    let n := (uniformB s c f').toNat
    let due := tids.any (fun t => match c.w.thread t with | some x => x.st == .halt && x.cnt == 1 | none => false)
    if p.fqtail != p.fqhead || due then finish s c tids (schedF f) c.w
    else modWarp (hold s c tids (schedF f) .halt) c.w.name (fun w =>
      w.modThreads tids (fun t => { t with cnt := if t.cnt = 0 && n != 0 then n + 1 else t.cnt })))
/-- HALT_TIMEOUT (R403): n(b) cycles have passed. -/
def execHaltTimeout (w : WName) (pc : Nat) (s : State) : Host.Outcome State Fault Refusal :=
  .next (modWarp s w (fun u => wake u (fun t => t.st == .halt && decide (t.held = 0) && decide (t.pc = pc) && decide (t.cnt = 1)) true))

/-! ## Stopping warps -/

/-- The program counter that a halt record names: that of the warp's lowest-numbered thread that has not exited. -/
def haltPc (w : Warp) : Nat := match w.threads.find? (fun t => t.st != .exited) with | some t => t.pc | none => 0
/-- A warp that stands at an instruction boundary halts, with a record of KIND 4 (R402, R445); where no record finds room it is asked to
again later. -/
def haltWarp (s : State) (n : WName) (code : Nat) : State :=
  match findWarp s n with
  | none => s
  | some w =>
    let p := partOf n.launch
    if w.halt.isSome then s
    else if !fqRoom s p then modWarp s n (fun x => { recallThreads x (ejectedTids x) with stopReq := true })
    else
      let (tok, s1) := newToken s p
      let s2 := modWarp s1 n (fun x => { recallThreads x (ejectedTids x) with halt := some { token := tok, code := code }, stopReq := false, stepArm := none, stepped := false })
      let mask := maskOf (aliveTids w)
      let tk : Token := { token := tok, kind := 4, code := code, w := n, mask := mask, pc := haltPc w, addr := 0, ref := 0, core := w.core }
      let s3 := modPart s2 p (fun x => { x with tokens := x.tokens ++ [tk] })
      pushRecord s3 p w.core n.launch
        { code := code, orig := 0, kind := 4, depth := w.depth, token := tok, lid := lidOf n.launch, blk := n.blk, unit := 0, core := 0
          warp := n.w, pc := haltPc w, addr := 0, mask := mask }
/-- WSTOP (R402). -/
def execWstop (f : FWord) (x : LExt) (s : State) : Host.Outcome State Fault Refusal :=
  let u : Use := { d := 1, a := 2, q := false, zero := false, sup := true, lock := true, solo := true, bad := !isS f.a.toNat }
  issue u f (some x) s (fun c f' tids =>
    let pair := readGroup s c c.w tids (tids.headD 0) f'.a.toNat 2
    let lk := lkOf (partOf c.l.lk) (pair.getD 0 0).toNat
    let blk := (pair.getD 1 0).toNat
    let chosen (n : WName) : Bool := decide (n.launch = lk) && decide (n.blk = blk) && (x.xbits 0 1 = 0 || decide (n.w = x.xbits 1 4))
    let here := (s.warps.filter (fun w => chosen w.name)).map (·.name)
    let held := s.blocks.any (fun b => decide (b.launch = lk) && decide (b.blk = blk)) ||
      s.images.any (fun im => im.blocks.any (fun b => decide (b.launch = lk) && decide (b.blk = blk)))
    let s1 := finish s c tids (schedF f) (giveWord c u f' tids c.w (if held then 0 else 1))
    let s2 := here.foldl (fun acc n => haltWarp acc n 0x72) s1
    { s2 with images := s2.images.map (fun im =>
        { im with warps := im.warps.map (fun w => if chosen w.name then { w with stopReq := true } else w) }) })

/-! ## WRESUME -/

/-- The causes that WRESUME.deliver may name: those of the trap path, 0x13 to 0x15, and TRAP's (R401, R410). -/
def deliverable (k : Nat) : Bool :=
  (decide (0x06 ≤ k) && decide (k ≤ 0x0D)) || (decide (0x0F ≤ k) && decide (k ≤ 0x1B)) || k == 0x30 || (decide (0x40 ≤ k) && decide (k ≤ 0x44)) ||
  k == 0x48 || (decide (0x50 ≤ k) && decide (k ≤ 0x58)) || k == 0x61 || k == 0x62 || (decide (0xB0 ≤ k) && decide (k ≤ 0xBF))
/-- A record of a partition that waits for an answer. (DEDUCED, log 90) -/
def findToken (s : State) (p tok : Nat) : Option Token :=
  if tok = 0 then none else (findPart s p).tokens.find? (fun t => decide (t.token = tok))
/-- A record that has been answered. -/
def dropToken (s : State) (p tok : Nat) : State :=
  modPart s p (fun q => { q with tokens := q.tokens.filter (fun t => decide (t.token ≠ tok)) })
/-- A parked thread whose record has been answered (R218). -/
def unpark (tok : Nat) (t : Thread) : Thread :=
  match t.st with | .parked p => if p.token = tok then { t with st := .parked { p with token := 0 } } else t | _ => t
/-- The threads parked on a record issue again (R218), beneath a hold too. -/
def unparkAll (s : State) (tok : Nat) : State :=
  { s with warps := s.warps.map (fun w =>
      { w with threads := w.threads.map (unpark tok), frames := w.frames.map (fun fr => { fr with back := fr.back.map (unpark tok) }) }) }
/-- The record of a gang that was saved is answered (R441): it may be restored once all of them are. -/
def unmark (s : State) (n : WName) (tok : Nat) : State :=
  { s with gangs := s.gangs.map (fun g => if g.launch = n.launch then { g with marks := g.marks.filter (· ≠ tok) } else g) }
/-- A record that belongs to a gang saved in swap-out mode, or that a restore has failed for. -/
def ofSaved (s : State) (t : Token) : Bool :=
  s.gangs.any (fun g => decide (g.launch = t.w.launch) && g.marks.contains t.token)
/-- Single step is enabled for a warp (R445). -/
def stepOn (s : State) (n : WName) : Bool :=
  let r := (findPart s (partOf n.launch)).step
  r.en && decide (r.lid = lidOf n.launch) && decide (r.blk = n.blk) && decide (r.warp = n.w)
/-- The record asks for nothing more: what waits for it goes on (R401). -/
def resumeRetry (s : State) (p : Nat) (t : Token) : State :=
  match t.kind with
  | 0 => unparkAll s t.token
  | 1 => { s with copies := s.copies.map (fun e => if e.token = some t.token then { e with token := none } else e) }
  | 2 => { s with copies := s.copies.map (fun e => if e.token = some t.token then { e with token := none } else e) }
  | 3 => modBrick s t.core t.w.launch t.ref (fun b => { b with st := .fetching 0, words := [] })
  | 6 => modPart s p (fun q => q.modQueue t.ref (fun k => { k with token := none }))
  | _ =>
    let s1 := if t.code = 0x83 then modReq s t.ref (fun r => { r with replays := 0 }) else s
    let arm := if stepOn s t.w then some 0 else none
    modWarp (unmark s1 t.w t.token) t.w (fun w =>
      if (w.halt.map (·.token)) = some t.token then { w with halt := none, stepArm := arm, stepped := false } else w)
/-- A cause to be delivered to a warp's trap vector before it starts another pass, after those that wait already. -/
def giveCause (t : Token) (cause : Nat) (w : Warp) : Warp :=
  { w with pend := w.pend ++ [{ cause := cause, tids := maskTids t.mask, faddr := t.addr, after := true, pc := t.pc, trap := true }] }
/-- No register that a group's operand fields name is recorded (R385). -/
def operandsFree (s : State) (w : Warp) (ws : List Code) : Bool :=
  (fieldCodes ws).all (fun r => !(recorded s w w.depth).contains r)
/-- Deliver a cause for the threads of a record (R401): now, or, where a frame holds one of them, the warp is saved, a register of the group is
recorded, or another cause waits, before the warp goes on. -/
def resumeDeliver (s : State) (p : Nat) (t : Token) (cause : Nat) : State :=
  let saved := ofSaved s t
  let s1 := resumeRetry s p t
  match findWarp s1 t.w with
  | none => if saved then modWarpAny s1 t.w (giveCause t cause) else s1
  | some w =>
    let tids := maskTids t.mask
    let set (x : Warp) : Warp := if t.kind = 0 then x.modThreads tids (fun y => if y.st = .exited then y else { y with st := .ready }) else x
    let s2 := modWarp s1 t.w set
    if w.threads.any (fun y => tids.contains y.tid && decide (y.held ≠ 0)) || !w.pend.isEmpty || !operandsFree s2 w (groupWordsOf s2 w t.pc)
    then modWarp s2 t.w (giveCause t cause)
    else
      let rk := match w.threads.find? (fun y => tids.contains y.tid) with | some y => y.rk | none => 0
      (deliverOn 1 s2 t.w (groupWordsOf s2 w t.pc) t.pc rk { cause := cause, tids := tids, faddr := t.addr } none).getD s2
/-- Kill on a supervisor's answer (R401). -/
def resumeKill (s : State) (p : Nat) (t : Token) : State :=
  match t.kind with
  | 3 => modBrick s t.core t.w.launch t.ref (fun b =>
      match b.st with | .fetching _ => { b with st := .failed 0 0, waiters := [] } | _ => b)
  | 6 => modPart s p (fun q => q.modQueue t.ref (fun k =>
      { k with token := none, qhead := k.qhead + 1, befores := k.befores.filter (fun e => decide (e.1 ≠ nextSeqOf k)) }))
  | 2 => killFor (resumeRetry s p t) t.w t.code t.addr t.pc t.mask
  | _ => killFor s t.w t.code t.addr t.pc t.mask
/-- The status of an answer, and the state it leaves (R401): `act` 0 retry, 1 deliver, 2 kill. -/
def answer (s : State) (p act tok c : Nat) : Nat × State :=
  match findToken s p tok with
  | none => (1, s)
  | some t =>
    let s1 := dropToken s p tok
    if act = 0 then (0, resumeRetry s1 p t)
    else if act = 1 then
      if t.kind ≠ 0 && t.kind ≠ 5 then (2, s)
      else if c ≠ 0 && !deliverable c then (3, s)
      else (0, resumeDeliver s1 p t (if c = 0 then t.code else c))
    else (0, match t.kind, findBrick s t.core t.w.launch t.ref with
      | 3, some b => b.waiters.foldl (fun acc k => modWarpAny acc k.1 (fun w => lowerFlag w k.2.1 none k.2.2)) (resumeKill s1 p t)
      | _, _ => resumeKill s1 p t)
/-- WRESUME (R401): acts once per warp. -/
def resumeOp (act : Nat) (f : FWord) (x : LExt) (s : State) : Host.Outcome State Fault Refusal :=
  let u : Use := { d := 1, a := 1, q := false, sup := true, lock := true, solo := true, bad := !isS f.a.toNat }
  issue u f (some x) s (fun c f' tids =>
    let tok := (readCode s c c.w tids (tids.headD 0) f'.a.toNat).toNat
    let (st, s1) := answer s (partOf c.l.lk) act tok (x.imm32.toNat % 256)
    finish s1 c tids (schedF f) (giveWord c u f' tids { (findWarp s1 c.w.name).getD c.w with hazards := c.w.hazards, holds := c.w.holds } (BitVec.ofNat 32 st)))
/-- WRESUME.retry. -/
def execWresumeRetry (f : FWord) (x : LExt) (s : State) : Host.Outcome State Fault Refusal := resumeOp 0 f x s
/-- WRESUME.deliver. -/
def execWresumeDeliver (f : FWord) (x : LExt) (s : State) : Host.Outcome State Fault Refusal := resumeOp 1 f x s
/-- WRESUME.kill. -/
def execWresumeKill (f : FWord) (x : LExt) (s : State) : Host.Outcome State Fault Refusal := resumeOp 2 f x s

/-! ## FWCALL -/

/-- The functions that management firmware knows (R480). (DEDUCED, log 55) -/
def fwKnown (fn : Nat) : Bool := [0x0001, 0x0002, 0x0003, 0x0010, 0x0011, 0x0020, 0x0030].contains fn
/-- An issue that sends a request and waits for its answer, with its restart point after it (R404, R434, R435). -/
def sendWait (s : State) (c : Ctx) (f f' : FWord) (kind : ReqKind) (tids : List Nat) : State :=
  let (id, s1) := freshId s
  let m : MemOp := { seg := 0, unit := 1, size := 4, align := 4, use := .load, kind := kind, dcode := f'.d.toNat, dn := 1 }
  let s2 := { s1 with reqs := s1.reqs ++ [{ mkReq s c m id f.sig.toNat tids [] with order := 0 }] }
  let s3 := finish s2 c tids (schedF f) (raiseFlag c.w c.w.depth none f.sig.toNat)
  modWarp s3 c.w.name (fun w => w.modThreads tids (fun t => { t with st := .reply id }))
/-- The answer of a request that its warp waits for: the warp goes on, or the answer waits for it (R418). -/
def answerReq (s : State) (r : Req) (x : Word) : State :=
  let res := r.tids.map (fun t => (t, [x]))
  deliverReply (modWarp s r.w (fun w => { w with threads := w.threads.map (fun t => if t.st = .reply r.id then { t with st := .ready } else t) })) r res
/-- FWCALL (R404): a function that the firmware does not know is answered at once. (DEDUCED, log 55) -/
def execFwcall (f : FWord) (x : LExt) (s : State) : Host.Outcome State Fault Refusal :=
  let u : Use := { d := 1, a := 4, q := false, zero := false, sup := true, lock := true, bad := !isS f.a.toNat }
  issue u f (some x) s (fun c f' tids =>
    let fn := x.imm32.toNat % 65536
    let args := readGroup s c c.w tids (tids.headD 0) f'.a.toNat 4
    if fwKnown fn then sendWait s c f f' (.fwcall fn args) tids
    else finish s c tids (schedF f) (giveWord c u f' tids c.w 1))

/-! ## The record queues -/

/-- FAULT_BACKLOG_DRAIN (R399): the oldest records that wait are written, as far as the ring has room. -/
def execFaultBacklogDrain (part : Nat) (s : State) : Host.Outcome State Fault Refusal := .next (drainBacklog s part 4100)
/-- FQERR_RETRY (R400): supervisor code asks for the held fault records to be tried again; the bit clears when all of them are made. -/
def execFqerrRetry (part : Nat) (s : State) : Host.Outcome State Fault Refusal :=
  .next (drainBacklog (modPart s part (fun q => { q with fqretry := true })) part 4100)
/-- The held completion records tried again, in order (R400): a launch leaves its edges as its record is written (R353). A page on its way is
waited for. -/
def retryCompl (s : State) (p : Nat) : List ComplRec → State
  | [] => modPart s p (fun q => { q with heldCompl := [], crerr := false, crretry := false })
  | r :: rest =>
    let held (k : Part → Part) : State := modPart s p (fun q => k { q with heldCompl := r :: rest })
    if r.launch.started && edgesMoving s r.launch then held id else
    match writeRun s p r.addr r.bytes with
    | .done s1 => retryCompl (if r.launch.started then edgeFinish s1 r.launch else s1) p rest
    | .wait => held id
    | .fail => raiseMsi (held (fun q => { q with crerr := true, crretry := false, weaddr := r.addr })) p (findPart s p).fqvec
/-- CRERR_RETRY (R400): supervisor code asks for the held completion records to be tried again; the bit clears when all of them are made. -/
def execCrerrRetry (part : Nat) (s : State) : Host.Outcome State Fault Refusal :=
  .next (retryCompl (modPart s part (fun q => { q with crretry := true })) part (findPart s part).heldCompl)
/-- TRERR_CLEAR (R400, R477). -/
def execTrerrClear (part : Nat) (s : State) : Host.Outcome State Fault Refusal :=
  .next (modPart s part (fun q => { q with trerr := false }))

end Sys2Proof.Machine
end

