-- ==== Sys2Proof/Machine/System.lean ====
section
/-! DEFINITION. The special registers (R405 to R409): the map, what each reads as, what a write stores, SRD and SWR. -/

namespace Sys2Proof.Machine

/-- The numbers of the special register map (R407). -/
def srListed (n : Nat) : Bool :=
  decide (n ≤ 0x21) || (decide (0x100 ≤ n) && decide (n ≤ 0x10B)) || (decide (0x110 ≤ n) && decide (n ≤ 0x117)) ||
  (decide (0x200 ≤ n) && decide (n ≤ 0x205)) || (decide (0x210 ≤ n) && decide (n ≤ 0x220)) || (decide (0x230 ≤ n) && decide (n ≤ 0x23F)) ||
  (decide (0xF00 ≤ n) && decide (n ≤ 0xF04)) || n == 0xF08 || n == 0xF09
/-- A special register that a privilege may read (R407). -/
def srReadable (sup : Bool) (n : Nat) : Bool := decide (n < 0xF00) || sup
/-- A special register that a privilege may write (R407). -/
def srWritable (sup : Bool) (n : Nat) : Bool :=
  n == 0x008 || n == 0x00B || n == 0x00C || n == 0x00D || n == 0x00E || n == 0x00F ||
  (sup && (n == 0x012 || (decide (0x210 ≤ n) && decide (n ≤ 0x220)) || (decide (0x230 ≤ n) && decide (n ≤ 0x23F)) ||
    (decide (0xF00 ≤ n) && decide (n ≤ 0xF03))))

/-- The physical registers that a warp holds over all its frames, those of results on their way among them (R83, R90). -/
def regTot (s : State) (w : Warp) : Nat := ((List.range w.frames.length).map (fun d => (heldAt s w d).length)).foldl (· + ·) 0
/-- %regocc (R89). -/
def regOcc (s : State) (c : Ctx) : Nat :=
  min c.w.swaps 255 * 2 ^ 24 + (heldAt s c.w c.w.depth).length * 2 ^ 16 + c.l.pkt.regmax * 2 ^ 8 + c.l.pkt.regtyp
/-- %emuseg (R409): the lowest segment bound with KIND 6. -/
def emuSegWord (l : Launch) : Nat :=
  match (List.range 16).find? (fun k => (l.segAt k).kind == 6) with | some k => 16 + k | none => 0
/-- %racelost (R255). -/
def raceLostWord (r : RaceSt) : Nat :=
  min r.ovf 255 * 2 ^ 8 + r.tab.table.length % 16 * 2 ^ 4 + (if r.tab.quiet then 2 else 0) + (if r.lost then 1 else 0)
/-- The scrub jobs of a partition that are not complete, in acceptance order (R487). -/
def jobsOf (s : State) (p : Nat) : List ScrubJob :=
  s.scrub.filter (fun j => decide (j.part = p) && decide (j.done < j.units.length))
/-- %scrprog (R487). -/
def scrProg (s : State) (p : Nat) : Nat :=
  match jobsOf s p with
  | [] => 0
  | j :: rest => 2 ^ 31 + (if j.resumed then 2 ^ 30 else 0) + j.kind % 4 * 2 ^ 28 + min rest.length 15 * 2 ^ 24 + j.done % 2 ^ 24
/-- A 64-bit counter of a die: %cyc, %ncy and %refcnt (R452 to R454). -/
def counterOf (d : Die) (n : Nat) : BitVec 64 :=
  if n = 0x200 then d.cyc else if n = 0x202 then d.ncyAcc.extractLsb' 16 64 else d.refcnt
/-- The number of a word .0 of a counter. -/
def isCounter0 (n : Nat) : Bool := n == 0x200 || n == 0x202 || n == 0x204
/-- The warp with word .1 of a counter latched by the read of its word .0 (R405). (DEDUCED, log 59) -/
def latchCounter (s : State) (w : Warp) (n : Nat) : Warp :=
  if isCounter0 n then { w with latch1 := aset w.latch1 (n + 1) ((counterOf (findDie s (dieOf w.core)) n).extractLsb' 32 32) }
  else if isCounter0 (n - 1) then { w with latch1 := adel w.latch1 n }
  else w

/-- %emudepth (R397): the open frames, and which of them the emulation vector opened. -/
def emuDepthWord (w : Warp) : Nat :=
  w.depth + ((List.range w.depth).map (fun k => if (w.frameAt (k + 1)).emu then 2 ^ (k + 2) else 0)).foldl (· + ·) 0

/-- The value of a special register for one thread (R407). The frame is the current one; a den thread reads as its warp does. -/
def srValue (s : State) (c : Ctx) (n t : Nat) : Word :=
  let win := c.w.cur.win
  let p := findPart s (partOf c.l.lk)
  let q := findQuad s c.w.core c.w.quad
  let depth := match findWarp s c.w.name with | some w => emuDepthWord w | none => 0
  let die := findDie s (dieOf c.w.core)
  if 0x004 ≤ n ∧ n ≤ 0x007 then maskWord win.fmask (n - 4)
  else if 0x014 ≤ n ∧ n ≤ 0x017 then agetD c.b.wptr (n - 0x14) 0
  else if 0x01D ≤ n ∧ n ≤ 0x020 then agetD c.w.epk (n - 0x1D) 0
  else if 0x106 ≤ n ∧ n ≤ 0x109 then maskWord win.ewmask (n - 0x106)
  else if 0x110 ≤ n ∧ n ≤ 0x117 then win.ewg.getD (n - 0x110) 0
  else if 0x210 ≤ n ∧ n ≤ 0x220 then agetD q.hist (n - 0x210) 0
  else if 0x230 ≤ n ∧ n ≤ 0x23F then agetD q.stall (n - 0x230) 0
  else if isCounter0 n then (counterOf die n).extractLsb' 0 32
  else if isCounter0 (n - 1) then (aget c.w.latch1 n).getD ((counterOf die (n - 1)).extractLsb' 32 32)
  else match n with
    | 0x000 => s.feat
    | 0x001 => win.cause
    | 0x002 => win.faddr.extractLsb' 0 32
    | 0x003 => win.faddr.extractLsb' 32 32
    | 0x008 => c.w.fpm
    | 0x009 => BitVec.ofNat 32 (regOcc s c)
    | 0x00A => BitVec.ofNat 32 (retdOf c t)
    | 0x00B => c.w.ejmax
    | 0x00C => c.w.ejto
    | 0x00D => c.w.qto
    | 0x00E => c.w.trapvec
    | 0x00F => c.w.emuvec
    | 0x010 => BitVec.ofNat 32 (emuSegWord c.l)
    | 0x011 => BitVec.ofNat 32 depth
    | 0x012 => c.w.emuacc
    | 0x013 => mstepWord c.w
    | 0x018 => BitVec.ofNat 32 c.g.ckBytes
    | 0x019 => c.g.ckWord1
    | 0x01A => c.w.race.peer
    | 0x01B => c.w.race.info
    | 0x01C => BitVec.ofNat 32 (raceLostWord c.w.race)
    | 0x021 => BitVec.ofNat 32 (regTot s ((findWarp s c.w.name).getD c.w))
    | 0x100 => win.ewop
    | 0x101 => win.ewd
    | 0x102 => win.ewa
    | 0x103 => win.ewb
    | 0x104 => win.ewc
    | 0x105 => win.ewimm
    | 0x10A => win.ewpc
    | 0x10B => win.ewlen
    | 0xF00 => BitVec.ofNat 32 p.fqbase
    | 0xF01 => BitVec.ofNat 32 (p.fqbase / 2 ^ 32)
    | 0xF02 => BitVec.ofNat 32 p.fqsize
    | 0xF03 => p.fqhead
    | 0xF04 => p.fqtail
    | 0xF08 => BitVec.ofNat 32 (scrProg s p.id)
    | 0xF09 => BitVec.ofNat 32 p.id
    | _ => 0

/-- The number that an SRD names (R405). -/
def srdNum (f : FWord) : Nat := 256 * f.aLo + f.b.toNat
/-- The number that an SWR names (R406). -/
def swrNum (f : FWord) : Nat := 256 * f.dLo + f.a.toNat
/-- The cause of naming a special register, before the causes of R73 that its operands raise (R406, R407). (DEDUCED, log 59) -/
def srCause (listed allowed : Bool) (rest : Option Nat) : Option Nat :=
  if !listed then some 0x01 else if !allowed then some 0x0E else rest
/-- SRD (R405). -/
def execSrd (f : FWord) (s : State) : Host.Outcome State Fault Refusal :=
  let u : Use := { d := 1, den := true }
  let n := srdNum f
  issueWith s
    (fun c =>
      let sp := specOf s c u f none
      { sp with cause := srCause (srListed n) (srReadable (isSup s c.l.lk) n) sp.cause })
    (fun c tids =>
      aluBody u none (fun i => { vals := [srValue s c n i.t] }) s { c with w := latchCounter s c.w n } (stepF f s.iss.rep c.rk) tids)

/-- A vector register as a write stores it (R409). -/
def vecWrite (x : Word) : Word := x &&& 0xFFFFFFF9
/-- %fqsize as a write stores it: the nearest limit of 4 to 16. -/
def fqsizeWrite (x : Word) : Nat := min (max x.toNat 4) 16
/-- The effect of a write on the warp. -/
def srWriteWarp (w : Warp) (n : Nat) (x : Word) : Warp :=
  match n with
  | 0x008 => { w with fpm := fpmWrite x }
  | 0x00B => { w with ejmax := ejmaxWrite x }
  | 0x00C => { w with ejto := ejtoWrite x }
  | 0x00D => { w with qto := x }
  | 0x00E => { w with trapvec := vecWrite x }
  | 0x00F => { w with emuvec := vecWrite x }
  | 0x012 => { w with emuacc := x }
  | _ => w
/-- The effect of a write on the quadrant's counters and the partition's fault queue. %fqbase keeps its low 12 bits zero. -/
def srWriteState (s : State) (c : Ctx) (n : Nat) (x : Word) : State :=
  let p := partOf c.l.lk
  if 0x210 ≤ n ∧ n ≤ 0x220 then modQuad s c.w.core c.w.quad (fun q => { q with hist := aput 0 q.hist (n - 0x210) x })
  else if 0x230 ≤ n ∧ n ≤ 0x23F then modQuad s c.w.core c.w.quad (fun q => { q with stall := aput 0 q.stall (n - 0x230) x })
  else match n with
    | 0xF00 => modPart s p (fun q => { q with fqbase := q.fqbase / 2 ^ 32 * 2 ^ 32 + x.toNat / 4096 * 4096 })
    | 0xF01 => modPart s p (fun q => { q with fqbase := x.toNat * 2 ^ 32 + q.fqbase % 2 ^ 32 })
    | 0xF02 => modPart s p (fun q => { q with fqsize := fqsizeWrite x })
    | 0xF03 => modPart s p (fun q => { q with fqhead := x })
    | _ => s
/-- SWR (R406): the value of the lowest-numbered issuing thread. -/
def execSwr (f : FWord) (s : State) : Host.Outcome State Fault Refusal :=
  let u : Use := { b := 1, q := false, bad := !f.i && !(isV f.b.toNat || isUniCode f.b.toNat) }
  let n := swrNum f
  issueWith s
    (fun c =>
      let sp := specOf s c u f none
      { sp with cause := srCause (srListed n) (srWritable (isSup s c.l.lk) n) sp.cause })
    (fun c tids =>
      let x : Word := if f.i then f.b.signExtend 32 else readCode s c c.w tids (tids.headD 0) f.b.toNat
      let w1 := applyMarks c.w u f none none 0 tids
      finish (srWriteState s c n x) c tids (schedF f) (srWriteWarp w1 n x))

end Sys2Proof.Machine
end

