-- ==== Sys2Proof/Machine/Image.lean ====
section
/-! DEFINITION. Stops, context images and restores (R412 to R425): bringing the warps of a gang to their restart points, the image of
a gang and its bytes, releasing the gang's resources, and placing it again. -/

namespace Sys2Proof.Machine

/-- The next state of an outcome, or the one before it. -/
def nextOr (s : State) : Host.Outcome State Fault Refusal → State
  | .next t => t
  | _ => s

/-! ## Restart points -/

/-- The state of a thread at its restart point (R416): whatever waits before its instruction stands before it, whatever waits after it
has gone on, a parked thread is parked without its record (R219), and a barrier, a JOIN, a WAITF, a QFENCE or an ERET is waited for as before. -/
def stopState : TState → TState
  | .retry _ => .ready
  | .burrow _ _ => .ready
  | .recall => .ready
  | .yield => .ready
  | .sleep => .ready
  | .halt => .ready
  | .reply _ => .ready
  | .parked p => .parked { p with token := 0 }
  | .ejected => .ready
  | st => st
/-- A thread at its restart point; the stop completes a RECALL (R311). (DEDUCED, log 61) -/
def stopThread (t : Thread) : Thread :=
  { t with st := stopState t.st, pc := if t.st = .recall then t.pc + 8 else t.pc, cnt := 0, den := none }
/-- A thread is still in an instruction at an address that it has issued: it waits in it, or at one of its repetitions (R35, R57). -/
def Thread.inside (t : Thread) (pc : Nat) : Bool :=
  match t.st with
  | .barrier _ _ _ => true
  | .join => true
  | .yield => true
  | .sleep => true
  | .waitf _ => true
  | .engines _ => true
  | .halt => true
  | .recall => true
  | .eret _ => true
  | _ => decide (t.rk > 0) && decide (t.pc = pc)
/-- The outstanding instructions of a warp that have not completed, each with the threads still in it (R35); a den slot's go with it (R292). -/
def Warp.sweep (w : Warp) : Warp :=
  let left (h : SigHold) : SigHold := { h with tids := h.tids.filter (fun t => w.threads.any (fun x => decide (x.tid = t) && x.inside h.pc)) }
  let open_ (h : SigHold) : Bool :=
    !h.ended && (match h.den with | some t => w.threads.any (fun x => decide (x.tid = t) && x.den.isSome) | none => true)
  { w with holds := (w.holds.map left).filter open_ }
/-- A warp at its restart point (R412, R417): its den threads recalled, its loop buffer released, every result ready; a halt loses its
record (R415). -/
def stopWarp (w : Warp) : Warp :=
  let w1 := recallThreads w (ejectedTids w)
  ({ w1 with
    threads := w1.threads.map stopThread
    frames := w1.frames.map (fun fr => { fr with back := fr.back.map stopThread })
    hazards := []
    holds := w1.holds.map (fun h => { h with left := 0 })
    since := 0
    loopBuf := none
    groupWait := []
    promoted := []
    ableFor := 0
    aged := false
    young := false
    joinPasses := []
    latch1 := []
    stepArm := none
    stepped := false
    halt := w1.halt.map (fun h => { h with token := 0 }) } : Warp).sweep
/-- A record of threads parked after their instruction (R50) is raised again when the warp goes on (R424): its cause waits in the warp. -/
def keepRecord (s : State) (t : Token) : State :=
  let mine (x : Thread) : Bool := match x.st with | .parked p => decide (p.token = t.token) | _ => false
  match findWarp s t.w with
  | none => s
  | some w =>
    let ts := w.threads.filter mine
    if t.kind ≠ 0 || ts.isEmpty || ts.any (fun x => decide (x.pc = t.pc)) then s
    else
      let r : CauseRec :=
        { cause := if t.code = 0x60 then t.orig else t.code, tids := maskTids t.mask, faddr := t.addr, after := true, pc := t.pc }
      modWarp s t.w (fun v => { v with
        pend := v.pend ++ [r], threads := v.threads.map (fun x => if mine x then { x with st := .ready } else x) })
/-- A request whose access stays within the gang's cores: scratchpads and private memory. -/
def Req.inCore (r : Req) : Bool := r.accesses && !r.done && r.accs.any (fun a => a.space != .phys || a.priv)
/-- One request performed, if it may be. -/
def performOne (s : State) (r : Req) : State :=
  match r.kind with
  | .load _ => nextOr s (execLoadReply r.id s)
  | .store => nextOr s (execStorePerform r.id s)
  | .atom _ _ _ => nextOr s (execAtomicPerform r.id s)
  | _ => s
/-- The accesses to scratchpads and private memory that a gang has sent are performed before its stop is complete (R417). (DEDUCED, log 61) -/
def drainCore (s : State) (f : WName → Bool) : State :=
  (s.reqs.filter (fun r => f r.w && r.inCore)).foldl performOne s
/-- An EPLD that waits for its read stands before it (R196, R416). -/
def dropEplds (s : State) (f : WName → Bool) : State :=
  (s.reqs.filter (fun r => f r.w && (match r.kind with | .epld _ _ => true | _ => false))).foldl (fun acc r =>
    dropReq (modWarp acc r.w (fun w => lowerFlag w r.depth none r.sig)) r.id) s

/-! ## Twins at a stop -/

/-- One waiting store of a primary performs (R465), with its record as it leaves the buffer (R466): the two runs are one party (R253). -/
def performChecked (s : State) (l : Launch) (w : Warp) (e : CheckStore) : State :=
  let a : Acc :=
    { tid := e.tid, space := .phys, addr := e.addr, va := e.va, off := 0, size := e.bytes.length, data := e.bytes, ops := [], priv := false
      l1 := false, alloc := false, tracked := e.tracked }
  let r : Req :=
    { id := 0, w := w.name, depth := 0, den := none, kind := .store, tids := [e.tid], accs := [a], dcode := opZero, dn := 1, order := e.order
      scope := e.scope, colour := 0, sig := 15, once := 0, seq := none, src := 0, route := [], replays := 0, lost := false, done := false, result := []
      rels := e.rels.map (fun x => (e.tid, x)), party := e.party, serial := false }
  let s1 := raceWrite (writeAcc s l w.core a) r false [] a
  if !e.tracked then s1
  else raceRecord s1 { src := agentOf w.name e.tid, ivl := e.ivl, party := e.party, kind := if e.marked then 3 else 1, lk := l.lk
                       blk := w.name.blk, ftid := w.name.w * 128 + e.tid, den := false, gran := e.va / 65536 } [] .phys e.addr
/-- A waiting store lies in a granule that is being copied (R427). -/
def checkedHeld (s : State) (w : Warp) : Bool := w.checked.any (fun e => isCow s (partOf w.name.launch) e.va)
/-- The two runs of a warp have matched at a compare point (R465): the primary's waiting stores perform in issue order, the shadow's
are discarded, and both signatures start again. -/
def twinMatch (s : State) (l : Launch) (w : Warp) : State :=
  let s1 := w.checked.foldl (fun acc e => performChecked acc l w e) s
  let clear (v : Warp) : Warp := { v with checked := [], sig := 0, nstores := 0, compare := if v.compare = 1 then 2 else v.compare }
  modWarp (modWarp s1 w.name clear) { w.name with shadow := true } clear
/-- Where the two runs of a warp stand. -/
def sameStand (w v : Warp) : Bool :=
  decide (w.threads.map (fun t => (t.tid, t.pc, t.rk, t.held)) = v.threads.map (fun t => (t.tid, t.pc, t.rk, t.held))) &&
  decide (w.frames.length = v.frames.length)
/-- The primary warps of a gang that stand where their twins do, with equal signatures and no store held. -/
def twinReady (s : State) (f : WName → Bool) : List Warp :=
  s.warps.filter (fun w => f w.name && !w.name.shadow && !checkedHeld s w &&
    (match findWarp s { w.name with shadow := true } with | some v => sameStand w v && decide (w.sig = v.sig) | none => false))

/-- Stop the gang of a block (R412, R417): none where an access of its own cores has still to perform. Twins that stand at the same
point are compared, as at every stop (R465). -/
def stopGang (s : State) (l : Launch) (g : Gang) : Option State :=
  let f := ofGang l.lk g.rank0 (max 1 l.pkt.gang)
  let s1 := drainCore s f
  if s1.reqs.any (fun r => f r.w && r.inCore) then none
  else
    let s2 := (s1.reqs.filter (fun r => f r.w && r.isFence)).foldl unfence (dropEplds s1 f)
    let s3 := voidTokens (((findPart s2 l.part).tokens.filter (fun t => f t.w)).foldl keepRecord s2) l.part f
    let s4 : State :=
      { s3 with
        warps := s3.warps.map (fun w => if f w.name then stopWarp w else w)
        copies := s3.copies.map (fun e => if f e.w && decide (e.ch < 16) then { e with token := none } else e) }
    some (if l.twin then (twinReady s4 f).foldl (fun acc w => twinMatch acc l w) s4 else s4)

/-! ## The image -/

/-- Bytes rounded up to whole 4 KiB pages. -/
def wholePages (n : Nat) : Nat := (n + 4095) / 4096 * 4096
/-- The sum of numbers. -/
def sumNat (xs : List Nat) : Nat := xs.foldl (· + ·) 0
/-- The live registers of a warp's frames, by depth. -/
def liveRegs (w : Warp) : List (Nat × Nat) :=
  ((List.range w.frames.length).map (fun d => (w.frameAt d).heldRegs.map (fun r => (d, r)))).flatten
/-- Those that differ from what the warp held at the last cut, in some thread or in being live (R420, R431). (DEDUCED, log 62) -/
def changedRegs (old : Option Warp) (w : Warp) : List (Nat × Nat) :=
  match old with
  | none => liveRegs w
  | some v => (liveRegs w).filter (fun e => decide (e.1 ≥ v.frames.length) ||
      (List.range 128).any (fun t => aget (w.frameAt e.1).v (t * 128 + e.2) != aget (v.frameAt e.1).v (t * 128 + e.2)))
/-- The tiles of a warp that an image holds: those in the accumulator memory; of a cut difference, those written since the last cut (R179,
R420). -/
def imageTiles (kind : Nat) (w : Warp) : List Tile := w.tiles.filter (fun t => !t.emu && (kind != 2 || t.written))
/-- The lines of a block's scratchpad that an image holds: all, or, of a cut difference, those written since the last cut (R420). -/
def imageLines (kind smem : Nat) (b : Block) : List Nat :=
  if kind = 2 then b.swritten.filter (fun k => decide (k < smem / 128)) else List.range (smem / 128)
/-- The registers of an image's register sections: those of each warp, or, of a cut difference, those changed since the cut whose images hold
`old`. -/
def imageRegs (kind : Nat) (old : List Warp) (warps : List Warp) : List (WName × Nat × Nat) :=
  (warps.map (fun w => ((if kind = 2 then changedRegs (old.find? (fun v => decide (v.name = w.name))) w else liveRegs w)).map
    (fun e => (w.name, e.1, e.2)))).flatten
/-- The registers of one warp among those of an image. -/
def regsOf (regs : List (WName × Nat × Nat)) (w : Warp) : List (Nat × Nat) := (regs.filter (fun e => decide (e.1 = w.name))).map (·.2)
/-- The bytes of a register's record (R420): a live mask, and 128 words, zero where it is not live. -/
def regRecord (w : Warp) (e : Nat × Nat) : List Byte :=
  let fr := w.frameAt e.1
  toBytes (maskOf ((List.range 128).filter (fun t => (aget fr.v (t * 128 + e.2)).isSome))).toNat 16 ++
    ((List.range 128).map (fun t => toBytes (fr.getV t e.2).toNat 4)).flatten
/-- The bytes of a tile. -/
def tileBytes (t : Tile) : List Byte := (t.elems.map (fun x => toBytes x.toNat 4)).flatten
/-- A section of an image: its TYPE, its length, and its bytes where the manual gives them. -/
structure Section where
  type : Nat
  len : Nat
  bytes : Option (List Byte) := none
/-- A section that is left out where it would hold nothing. -/
def Section.some? (x : Section) : Option Section := if x.len = 0 then none else some x
/-- The sections of a gang's image in the order of their offsets (R420); `launchLen` is the length of the launch section, of a cut's images
alone. (DESIGN CHOICE, log 60) -/
def imageSections (l : Launch) (kind : Nat) (blocks : List Block) (warps : List Warp) (regs : List (WName × Nat × Nat)) (launchLen : Nat) :
    List Section :=
  blocks.map (fun _ => { type := 2, len := 4096 }) ++ warps.map (fun w => { type := 4, len := 4096 * w.frames.length }) ++
  blocks.filterMap (fun b => ({ type := 3, len := 128 * (imageLines kind l.pkt.smem b).length
                                bytes := some (((imageLines kind l.pkt.smem b).map (fun k => readBytes b.scratch (128 * k) 128)).flatten) } : Section).some?) ++
  warps.filterMap (fun w => ({ type := 5, len := 528 * (regsOf regs w).length, bytes := some (((regsOf regs w).map (regRecord w)).flatten) } : Section).some?) ++
  warps.filterMap (fun w => ({ type := 6, len := 1024 * (imageTiles kind w).length
                               bytes := some (((imageTiles kind w).map tileBytes).flatten) } : Section).some?) ++
  warps.filterMap (fun w => ({ type := 7, len := 2048 * w.mq.length } : Section).some?) ++
  (({ type := 8, len := launchLen } : Section).some?).toList
/-- SIZE of an image of these sections (R419, R420). (DESIGN CHOICE, log 60) -/
def sizeOf (xs : List Section) : Nat := wholePages (4096 + sumNat (xs.map (·.len)))
/-- SIZE of a pre-emption image (R431). (DESIGN CHOICE, log 60) -/
def imageSize (l : Launch) (blocks : List Block) (warps : List Warp) : Nat :=
  sizeOf (imageSections l 0 blocks warps (imageRegs 0 [] warps) 0)
/-- The matrix element classes of a warp's queued entries, as bits of %feat (R422). -/
def queuedClasses (w : Warp) : Nat :=
  (w.mq.filter (fun e => e.op = 4 || e.op = 5)).foldl (fun acc e => acc ||| 2 ^ (2 + mfmtClass (fwAF e.fmtw))) 0
/-- A bit of LIVE. (DEDUCED, log 88) -/
def liveBit (b : Bool) (k : Nat) : Nat := if b then 2 ^ k else 0
/-- LIVE of a gang (R422). (DEDUCED, log 88) -/
def liveBits (l : Launch) (warps : List Warp) : Nat :=
  (warps.foldl (fun acc w => acc ||| queuedClasses w) 0) +
  liveBit (warps.any (fun w => w.mq.any (fun e => e.op == 5))) 7 +
  liveBit (warps.any (fun w => !w.epStore.isEmpty || w.mq.any (fun e => e.op == 6))) 8 +
  liveBit (warps.any (fun w => w.ejmax != 0)) 9 + liveBit (l.flag 2) 10 + liveBit l.twin 11 + liveBit l.protected_ 12 +
  (if l.obj.lifetime.any (fun e => e / 512 % 4 == 2) then l.obj.step * 2 ^ 24 else 0)
/-- A matrix entry, a thread or a request of these awaits a reply (R418). -/
def repliesDue (s : State) (f : WName → Bool) : Bool :=
  s.reqs.any (fun r => f r.w && (match r.kind with
    | .tmove _ => false
    | .scrub _ => false
    | .store => false
    | .arrive _ _ _ => false
    | .edgePut _ => false
    | .fence _ _ _ _ => false
    | .inval => false
    | _ => true))
/-- A warp as its image holds it: on no core, and resident once it is placed. -/
def imageWarp (w : Warp) : Warp := { w with core := 0, quad := 0, adm := 0, swap := .resident, swaps := 0, lastStall := min w.lastStall 1, since := 0 }
/-- The flags of a gang's outstanding CFETCHes, with their bricks (R379). -/
def fetchesOf (s : State) (f : WName → Bool) : List (WName × Nat × Nat × Nat) :=
  ((s.bricks.map (fun b => (b.waiters.filter (fun k => f k.1)).map (fun k => (k.1, k.2.1, k.2.2, b.num)))) ++
    (s.fetchq.map (fun e => (e.waiters.filter (fun k => f k.1)).map (fun k => (k.1, k.2.1, k.2.2, e.num))))).flatten
/-- The pre-emption image of a stopped gang (R418 to R420). -/
def makeImage (s : State) (l : Launch) (g : Gang) (id epoch why : Nat) : Image :=
  let f := ofGang l.lk g.rank0 (max 1 l.pkt.gang)
  let blocks := s.blocks.filter (fun b => f { launch := b.launch, blk := b.blk, shadow := b.shadow, w := 0 })
  let warps := s.warps.filter (fun w => f w.name)
  let regs := imageRegs 0 [] warps
  let secs := imageSections l 0 blocks warps regs 0
  { id := id, kind := 0, launch := l.lk, block0 := g.rank0, part := l.part, seq := 0, featsv := s.feat
    live := BitVec.ofNat 32 (liveBits l warps), nsec := 1 + secs.length, size := sizeOf secs
    epoch := epoch, gang := { g with epoch := epoch }, blocks := blocks.map (fun b => { b with core := 0 }), warps := warps.map imageWarp
    copies := (s.copies.filter (fun e => f e.w && decide (e.ch < 16))).map (fun e => { e with core := 0, token := none })
    fetches := fetchesOf s f, why := why, regs := regs }

/-- Bytes that the manual leaves open in an image. -/
def openBytes (id off n : Nat) : List Byte := (List.range n).map (fun i => Config.imageByte id (off + i))
/-- The section directory (R419): TYPE and the offset and length of each section; the unit numbers are left open. -/
def imageDir (id : Nat) : Nat → Nat → List Section → List Byte
  | _, _, [] => []
  | k, off, x :: rest =>
    toBytes x.type 1 ++ openBytes id (0x41 + 16 * k) 3 ++ toBytes off 4 ++ toBytes x.len 8 ++ imageDir id (k + 1) (off + x.len) rest
/-- The bytes of sections from an offset on. -/
def sectionBytes (id : Nat) : Nat → List Section → List Byte
  | _, [] => []
  | off, x :: rest => x.bytes.getD (openBytes id off x.len) ++ sectionBytes id (off + x.len) rest
/-- The 64 bytes of a gang image's header but for the checksum (R419). -/
def imageHeader (s : State) (im : Image) (gang : Nat) (fwd : Bool) (crc : BitVec 64) : List Byte :=
  toBytes 0x47435846 4 ++ toBytes 1 2 ++ toBytes im.kind 1 ++ toBytes gang 1 ++ toBytes (lidOf im.launch) 4 ++ toBytes im.block0 4 ++
  toBytes im.seq 4 ++ toBytes s.feat.toNat 4 ++ toBytes im.live.toNat 4 ++ toBytes im.nsec 4 ++ toBytes im.size 8 ++
  (if fwd then openBytes im.id 0x28 8 else toBytes 0 8) ++ toBytes crc.toNat 8 ++ toBytes (if im.kind = 0 then 0xA0 else 0) 1 ++ toBytes 0 3 ++
  toBytes im.epoch 4
/-- The bytes of a pre-emption image (R419, R420): header, directory, scratchpads, registers and tiles as the manual gives them, sections whose
layout it leaves open. (DESIGN CHOICE, log 60) -/
def imageBytes (s : State) (l : Launch) (im : Image) (fwd : Bool) : List Byte :=
  let gang := max 1 l.pkt.gang
  let secs := imageSections l im.kind im.blocks im.warps im.regs 0
  let dir := imageDir im.id 0 0 [{ type := 1, len := 4096 }] ++ imageDir im.id 1 4096 secs
  let body (crc : BitVec 64) : List Byte :=
    let front := (imageHeader s im gang fwd crc ++ dir).take 4096
    let all := front ++ openBytes im.id front.length (4096 - front.length) ++ sectionBytes im.id 4096 secs
    all ++ openBytes im.id all.length (im.size - all.length)
  body (crcBytes 0 (body 0))

/-! ## Saving -/

/-- A gang's records changed, those of both runs of a twin. -/
def modRuns (s : State) (lk rank0 : Nat) (f : Gang → Gang) : State :=
  { s with gangs := s.gangs.map (fun g => if g.launch = lk ∧ g.rank0 = rank0 then f g else g) }
/-- A trace record of TYPE 3 for a gang (R447). -/
def stopTrace (s : State) (l : Launch) (g : Gang) (code epoch : Nat) : State :=
  let pc := match s.warps.find? (fun w => ofGang l.lk g.rank0 (max 1 l.pkt.gang) w.name) with | some w => haltPc w | none => 0
  traceRec s l.part 3 code 0 (4 * g.cluster) l.lk g.rank0 pc epoch 0
/-- A stopped gang is saved (R413, R434): its image is kept, its save count advances, and its cores, registers, tiles, scratchpads and
den slots are free. -/
def saveGang (s : State) (l : Launch) (g : Gang) (why : Nat) : State × Image :=
  let f := ofGang l.lk g.rank0 (max 1 l.pkt.gang)
  let (id, s1) := freshId s
  let im := makeImage s1 l g id (g.epoch + 1) why
  let s2 := stopTrace s1 l g 0 (g.epoch + 1)
  let s3 := vacate { s2 with copies := s2.copies.filter (fun e => !(f e.w && decide (e.ch < 16))) } f
  (modRuns { s3 with images := s3.images ++ [im] } l.lk g.rank0
    (fun x => { x with st := .saved id, epoch := g.epoch + 1, restored := false }), im)
/-- The dispatcher save area holds what is in it (R348). -/
def saveFits (s : State) (p : Nat) : Bool := (findPart s p).saveArea == 0 || decide (saveUsed s p ≤ (findPart s p).saveArea)
/-- The gang of a block stopped and saved in the dispatcher save area: none where its stop is not complete or the area has no room. -/
def saveToArea (s : State) (l : Launch) (g : Gang) (why : Nat) : Option State :=
  (stopGang s l g).bind (fun s1 =>
    let s2 := (saveGang s1 l g why).1
    if saveFits s2 l.part then some s2 else none)

/-! ## Restoring -/

/-- The lowest feature of %feat that an image needs and that cannot be done without (R422): its bit, 24 for STEP. -/
def refusedFeature (s : State) (im : Image) : Option Nat :=
  let lacks (k : Nat) : Bool := im.live.getLsbD k && !s.feat.getLsbD k
  if lacks 11 then some 11
  else if lacks 12 then some 12
  else if im.live.toNat / 2 ^ 24 ≠ 0 && decide (im.featsv.toNat / 2 ^ 24 ≠ s.feat.toNat / 2 ^ 24) then some 24
  else none
/-- A feature that only emulation can provide is missing (R422): its lowest bit. -/
def convertFeature (s : State) (im : Image) : Option Nat :=
  [2, 3, 4, 5, 6, 7, 8].find? (fun k => im.live.getLsbD k && !s.feat.getLsbD k)
/-- The offset of a tile in the emulation segment (R422). -/
def emuTileOff (n : WName) (t : Nat) : Nat := (16 * n.blk + n.w) * 8192 + 1024 * t
/-- The segment of KIND 6 that a launch converts into. -/
def emuSeg (l : Launch) : Option Seg := ((List.range 16).find? (fun k => (l.segAt k).kind == 6)).map l.segAt
/-- The emulation segment covers every tile of the warps. -/
def emuCovers (l : Launch) (warps : List Warp) : Bool :=
  match emuSeg l with
  | none => false
  | some g => warps.all (fun w => decide (emuTileOff w.name w.tiles.length ≤ g.limit))
/-- The partition holds the key that a protected launch is bound to (R421, R484). -/
def keyHeld (s : State) (l : Launch) : Bool :=
  !l.protected_ || ((findPart s l.part).kmask.getLsbD l.key && decide (keyState s l.key = .loaded))
/-- The feature for which an image is refused, if any (R422): the lowest bit whose rule refuses it (R424). A protected launch's image is
refused as one whose protection the target lacks where the partition does not hold its key (R421). (DESIGN CHOICE, log 101) -/
def imageRefused (s : State) (l : Launch) (im : Image) : Option Nat :=
  if !keyHeld s l then some 12 else
  match convertFeature s im with
  | some k => if emuCovers l im.warps then refusedFeature s im else some k
  | none => refusedFeature s im
/-- A warp's tiles written into the emulation segment: none where a page of it cannot be written now. -/
def convertTiles (s : State) (l : Launch) (g : Seg) (w : Warp) : Option State :=
  (List.range w.tiles.length).foldl (fun acc k => acc.bind (fun st =>
    match w.tiles[k]? with
    | none => some st
    | some t => if t.emu then some st else
      match writeRun st l.part (g.base + emuTileOff w.name k) (tileBytes t) with
      | .done st' => some st'
      | _ => none)) (some s)
/-- A converted warp (R422). -/
def convertWarp (w : Warp) : Warp :=
  { w with tiles := w.tiles.map (fun t => { t with emu := true }), emuacc := BitVec.ofNat 32 (emuTileOff w.name 0) }
/-- The state and the warps of an image after conversion, where a feature is missing. -/
def convertImage (s : State) (l : Launch) (im : Image) : Option (State × List Warp) :=
  match convertFeature s im, emuSeg l with
  | some _, some g => (im.warps.foldl (fun acc w => acc.bind (fun st => convertTiles st l g w)) (some s)).map (fun st => (st, im.warps.map convertWarp))
  | _, _ => some (s, im.warps)
/-- The cores of a gang's blocks, and the quadrants of their warps, on a cluster. -/
abbrev Room := List (Nat × List Nat)
/-- Place the blocks and warps of one run of an image (R423), on cores whose L1s hold nothing older than what they have seen. -/
def placeRun (s : State) (l : Launch) (im : Image) (ws : List Warp) (sh : Bool) (room : Room) : State :=
  (im.blocks.filter (fun b => b.shadow == sh)).foldl (fun st b =>
    match room[b.blk - im.block0]? with
    | none => st
    | some (core, quads) =>
      let mine := ws.filter (fun w => w.name.blk == b.blk && w.name.shadow == sh)
      freshCores { st with
        blocks := st.blocks ++ [{ b with core := core }]
        warps := st.warps ++ mine.map (fun w => { w with core := core, quad := quads.getD w.name.w 0, adm := st.nextId + w.name.w })
        nextId := st.nextId + l.warpsPerBlock } l [core]) s
/-- Every register bank of the cores holds what its warps hold (R80, R424). -/
def banksFit (s : State) (cores : List Nat) : Bool :=
  cores.all (fun c => (List.range 4).all (fun q => [0, 1].all (fun odd => decide (bankUsed s c q odd ≤ 256))))
/-- The copy entries of an image re-entered, by channel number and in order (R277). -/
def reenterCopies (s : State) (im : Image) : State :=
  im.copies.foldl (fun st e =>
    let core := match findBlock st e.w.launch e.w.blk e.w.shadow with | some b => b.core | none => 0
    { st with copies := st.copies ++ [{ e with core := core }] }) s
/-- An outstanding CFETCH requested again on the new core (R379): its flag is lowered at once where the brick is there; where no slot is to be
had the fetch waits in line. -/
def refetch (s : State) (k : WName × Nat × Nat × Nat) : State :=
  match findWarp s k.1 with
  | none => s
  | some w =>
    match findBrick s w.core k.1.launch k.2.2.2 with
    | some b =>
      (match b.st with
        | .fetching _ => modBrick s w.core k.1.launch k.2.2.2 (fun y => { y with waiters := y.waiters ++ [(k.1, k.2.1, k.2.2.1)] })
        | _ => modWarp s k.1 (fun v => lowerFlag v k.2.1 none k.2.2.1))
    | none =>
      let s1 := queueFetch s w.core k.1.launch k.2.2.2 [(k.1, k.2.1, k.2.2.1)]
      (implicitFetch s1 w.core k.1.launch k.2.2.2).getD s1
/-- The bricks that hold program counters of a gang's warps fetched (R368, R424), or in line for a slot. -/
def fetchPcs (s : State) (f : WName → Bool) : State :=
  (s.warps.filter (fun w => f w.name)).foldl (fun st w =>
    (sortNat ((w.threads.filter (fun t => t.st != .exited)).map (fun t => t.pc / 4096))).foldl (fun st2 n =>
      if (match findLaunch st2 w.name.launch with | some l => decide (n < l.obj.nbrick) | none => false) then fetchOrWait st2 w.core w.name.launch n
      else st2) st) s
/-- Restore an image on a cluster (R423, R424): none where it does not fit or a page that conversion writes is not there. -/
def restoreImage (s : State) (l : Launch) (im : Image) (cluster : Nat) : Option State :=
  let f := ofGang l.lk im.block0 (max 1 l.pkt.gang)
  match clusterRoom s l cluster, (if l.twin then shadowRoom s l cluster else some (0, [])) with
  | some room, some (k2, room2) =>
    (convertImage s l im).bind (fun (s0, ws) =>
      let s1 := { s0 with images := s0.images.filter (fun x => decide (x.id ≠ im.id)) }
      let s2 := placeRun (placeRun s1 l im ws false room) l im ws true room2
      if !banksFit s2 ((room ++ room2).map (·.1)) || !saveFits s2 l.part then none
      else
        let s3 := modRuns s2 l.lk im.block0 (fun g => { g with st := .running, cluster := if g.shadow then k2 else cluster, restored := true, marks := [] })
        let s4 := fetchPcs (im.fetches.foldl refetch (reenterCopies s3 im)) f
        let s5 := { s4 with warps := s4.warps.map (fun w => if f w.name && stepOn s4 w.name then { w with stepArm := some 0, stepped := false } else w) }
        some (stopTrace s5 l { im.gang with cluster := cluster } 3 im.epoch))
  | _, _ => none
/-- The clusters of a partition in ascending order that an image fits on; the first. -/
def anyCluster (s : State) (l : Launch) (im : Image) : Option (Nat × State) :=
  (findPart s l.part).clusters.findSome? (fun k => (restoreImage s l im k).map (fun t => (k, t)))
/-- A halt that a stop has parted from its record raises it again (R399, R415), where one finds room. -/
def rehalt (s : State) (n : WName) : State :=
  match findWarp s n with
  | none => s
  | some w =>
    match w.halt with
    | none => s
    | some h =>
      if h.token ≠ 0 || !fqRoom s (partOf n.launch) then s
      else if h.code = 0x72 || h.code = 0x73 then haltWarp (modWarp s n (fun x => { x with halt := none })) n h.code
      else haltWithRecord s w h.code 0 (match w.mq with | e :: _ => e.id | [] => 0) 0 (haltPc w) (aliveTids w)

end Sys2Proof.Machine
end

