-- ==== Sys2Proof/Machine/Context.lean ====
section
/-! DEFINITION. Contexts (R325, R348, R356, R412 to R425, R431, R434, R435, R482): CTXSV, CTXLD, and the events of pre-emption,
saving, restoring, migration and %ckcost. -/

namespace Sys2Proof.Machine

/-! ## Where a gang stands -/

/-- A cut is still to be taken of a launch's group (R426). -/
def cutDue (s : State) (lk : Nat) : Bool := s.cuts.any (fun k => k.due && k.lks.contains lk)
/-- The warps of a gang on its cores, both runs of a twin. -/
def gangWarps (s : State) (l : Launch) (g : Gang) : List Warp := s.warps.filter (fun w => ofGang l.lk g.rank0 (max 1 l.pkt.gang) w.name)
/-- The image of a saved gang. -/
def gangImage (s : State) (g : Gang) : Option Image :=
  match g.st with | .saved id => s.images.find? (fun im => decide (im.id = id)) | _ => none
/-- The launch and the gang of a block, of the primary run. -/
def launchGang (s : State) (lk blk : Nat) : Option (Launch × Gang) :=
  match findLaunch s lk, findGang s lk blk false with | some l, some g => some (l, g) | _, _ => none

/-! ## Memory operands of the context instructions -/

/-- How CTXSV and CTXLD use their fields: `pair` says that A names a pair. (DEDUCED, log 63) -/
def ctxUse (f : FWord) (x : LExt) (pair : Bool) : Use :=
  let n := offRegs (some x)
  { d := 1, a := if pair then 2 else 1, c := n, q := false, sup := true, lock := true
    bad := !isS f.a.toNat || !(isS x.c.toNat || (x.c.toNat == opZero && !x.far)) }
/-- The offset of their memory operand, whose register is C (R434). -/
def ctxOff (s : State) (c : Ctx) (f : FWord) (x : LExt) (tids : List Nat) : Int :=
  memOff s c { f with a := x.c } (some x) 1 (tids.take 1) (tids.headD 0)
/-- Runs of at most a page from a virtual address. -/
def pageRuns (t va : Nat) (bs : List Byte) : Nat → Nat → Nat → List Acc
  | 0, _, _ => []
  | fuel + 1, off, n =>
    if n = 0 then []
    else
      let m := min n (4096 - (va + off) % 4096)
      accPiece t .phys (va + off) off m bs [] false false false false :: pageRuns t va bs fuel (off + m) (n - m)
/-- The accesses that reach `n` bytes of a segment. -/
def imagePieces (c : Ctx) (g : Seg) (m : MemOp) (t : Nat) (off : Int) (bs : List Byte) : List Acc :=
  if g.kind = 1 || g.kind = 2 || g.kind = 3 then segPieces c g m t off bs [] true
  else pageRuns t (g.base + off.toNat) bs (pagesFor m.size) 0 m.size
/-- A memory operand that parks, waits or may be reached. -/
inductive Reach where
  | go (accs : List Acc)
  | not (s : State)
/-- Reach the bytes of an image (R216, R427), parking the issuing threads where a page of it is not there. -/
def reachImage (s : State) (c : Ctx) (m : MemOp) (tids : List Nat) (off : Int) (bs : List Byte) : Reach :=
  match translate s c m (imagePieces c (c.l.segAt m.seg) m (tids.headD 0) off bs) with
  | .tier4 => .not (stall s c 14)
  | .park page cause va =>
    if cause.isSome && !fqRoom s (partOf c.l.lk) then .not (stall s c 13) else .not (parkOn s c true tids page cause va)
  | .perform accs =>
    if m.use == .store && accs.any (fun a => isCow s (partOf c.l.lk) a.va) then .not (stall s c 14) else .go accs

/-! ## CTXSV -/

/-- The status word of CTXSV (R434). -/
def ctxsvWord (status size : Nat) : Word := BitVec.ofNat 32 (status * 2 ^ 28 + size / 4096)
/-- A word into a destination of a warp, at a frame depth. -/
def putDest (depth dcode : Nat) (tids : List Nat) (x : Word) (w : Warp) : Warp :=
  if isS dcode then w.modFrame depth (fun fr => fr.setS (dcode - 0x80) x)
  else if isV dcode then setRegs w depth (tids.map (fun t => (t, dcode, x)))
  else w
/-- State with the place noted where CTXSV has written an image, which later replies change there (R418). -/
def placeImage (s : State) (id va : Nat) : State :=
  { s with images := s.images.map (fun im => if im.id = id then { im with place := some va, stale := false } else im) }
/-- A gang that CTXSV may save is stopped, its image written and its resources released; the status goes to the issuing warp, wherever
it is then (R418, R434). A gang that a cut has left at its stop for it goes on from there if it is not saved. (DEDUCED, log 63) -/
def ctxsvSave (s0 : State) (c : Ctx) (u : Use) (f : FWord) (x : LExt) (off : Int) (l : Launch) (g : Gang) (tids : List Nat) : State :=
  let m : MemOp := { seg := x.seg, unit := 1, size := 1, align := 4096, use := .store, kind := .store }
  let s := modRuns s0 l.lk g.rank0 (fun y => { y with st := .running })
  let done := finish s c tids (schedF f) (giveWord c u f tids c.w (ctxsvWord 0 0))
  match stopGang done l g with
  | none => stall s c 14
  | some s1 =>
    let pend := repliesDue s1 (ofGang l.lk g.rank0 (max 1 l.pkt.gang))
    let (s2, im) := saveGang s1 l g 4
    match segCause c (c.l.segAt x.seg) { m with size := im.size } off with
    | some k => raise s c { cause := k, tids := tids.take 1, faddr := wrapTo 64 off }
    | none =>
      match reachImage s c { m with size := im.size } tids off (imageBytes s2 l im pend) with
      | .not t => t
      | .go accs =>
        let s3 := accs.foldl (fun acc a => writeAcc acc c.l c.w.core a) (touchedBy s2 c true accs)
        modWarpAny (placeImage s3 im.id ((c.l.segAt x.seg).base + off.toNat)) c.w.name (putDest c.w.depth f.d.toNat tids (ctxsvWord 0 im.size))
/-- CTXSV (R434). A cut of the gang that is due is taken first, and the gang then waits at its stop for the CTXSV (R415). -/
def execCtxsv (f : FWord) (x : LExt) (s : State) : Host.Outcome State Fault Refusal :=
  let u := ctxUse f x true
  issue u f (some x) s (fun c f' tids =>
    let pair := readGroup s c c.w (tids.take 1) (tids.headD 0) f'.a.toNat 2
    let lk := lkOf (partOf c.l.lk) (pair.getD 0 0).toNat
    let g := c.l.segAt x.seg
    let off := ctxOff s c f' x tids
    let give (n : Nat) : State := finish s c tids (schedF f) (giveWord c u f' tids c.w (ctxsvWord n 0))
    if !((g.kind = 0 || g.kind = 6) && g.wr) then raise s c { cause := 0x11, tids := tids.take 1, faddr := wrapTo 64 off }
    else if off % 4096 ≠ 0 then raise s c { cause := 0x12, tids := tids.take 1, faddr := wrapTo 64 off }
    else match launchGang s lk (pair.getD 1 0).toNat with
      | none => give 1
      | some (l, y) =>
        if cutDue s lk then stall (modRuns s lk y.rank0 (fun z => if z.st = .stopping 1 then { z with st := .stopping 4 } else z)) c 14
        else match y.st with
          | .running => ctxsvSave s c u f' x off l y tids
          | .stopping 4 => ctxsvSave s c u f' x off l y tids
          | .stopping _ => give 2
          | _ => give 1)

/-! ## CTXLD -/

/-- The status word of CTXLD (R435). -/
def ctxldWord (status code detail cluster : Nat) : Word :=
  BitVec.ofNat 32 (status * 2 ^ 28 + code * 2 ^ 20 + detail * 2 ^ 8 + cluster)
/-- A little-endian field of an image's bytes. -/
def fieldOf (bs : List Byte) (lo n : Nat) : Nat := ofBytes ((bs.drop lo).take n)
/-- The bytes of an image with the checksum field zero. -/
def zeroCrc (bs : List Byte) : List Byte := bs.take 0x30 ++ toBytes 0 8 ++ bs.drop 0x38
/-- The end of the last section that a directory names. -/
def dirEnd (bs : List Byte) (n : Nat) : Nat :=
  (List.range n).foldl (fun m k => max m (fieldOf bs (0x40 + 16 * k + 4) 4 + fieldOf bs (0x40 + 16 * k + 8) 8)) 0
/-- SIZE disagrees with a directory of `n` entries: of more than the first page holds, with the entries that it holds. (DESIGN CHOICE, log 60) -/
def dirBad (bs : List Byte) (n size : Nat) : Bool :=
  if n ≤ 252 then decide (wholePages (dirEnd bs n) ≠ size) else decide (wholePages (dirEnd bs 252) > size)
/-- The reason for which the bytes of an image are invalid (R425), in the order of the rule. -/
def imageReason (s : State) (p : Nat) (bs : List Byte) : Option Nat :=
  let size := fieldOf bs 0x20 8
  let n := fieldOf bs 0x1C 4
  if fieldOf bs 0 4 ≠ 0x47435846 || fieldOf bs 4 2 ≠ 1 then some 1
  else if (crcBytes 0 (zeroCrc bs)).toNat ≠ fieldOf bs 0x30 8 then some 2
  else match findLaunch s (lkOf p (fieldOf bs 8 4)) with
    | none => some 3
    | some l =>
      if !(s.gangs.any (fun g => decide (g.launch = l.lk) && !g.shadow && decide (g.rank0 = fieldOf bs 0xC 4) &&
          decide (g.epoch = fieldOf bs 0x3C 4) && !g.restored && (gangImage s g).isSome)) then some 4
      else if dirBad bs n size then some 5
      else if fieldOf bs 6 1 ≠ 0 then some 6
      else none
/-- What the bytes of an image come to for a CTXLD, and the image of the gang that they name. -/
def ctxldImage (s : State) (p : Nat) (bs : List Byte) : Option (Launch × Image) :=
  match findLaunch s (lkOf p (fieldOf bs 8 4)) with
  | none => none
  | some l => ((findGang s l.lk (fieldOf bs 0xC 4) false).bind (gangImage s)).map (fun im => (l, im))
/-- The bytes of a memory operand read at their home. -/
def ctxRead (s : State) (c : Ctx) (accs : List Acc) : List Byte := (readAll s c.l c.w.core c.w.name accs).2
/-- Place an image that has passed its tests (R424, R435): on the cluster named, or on the dispatcher's choice. -/
def ctxldPlace (s : State) (c : Ctx) (u : Use) (f : FWord) (l : Launch) (im : Image) (target : Nat) (tids : List Nat) : State :=
  let after (x : Word) : State := finish s c tids (schedF f) (giveWord c u f tids c.w x)
  let mine := (findPart s l.part).clusters
  match imageRefused s l im with
  | some k => after (ctxldWord 2 0xA1 k 0xFF)
  | none =>
    match (if target = 0xFFFFFFFF then mine else mine.filter (· == target)).findSome? (fun k =>
        restoreImage (after (ctxldWord 0 0 0 (k % 256))) l im k) with
    | some t => t
    | none => after (ctxldWord 1 0 0 0xFF)
/-- CTXLD (R435). -/
def execCtxld (f : FWord) (x : LExt) (s : State) : Host.Outcome State Fault Refusal :=
  let u := ctxUse f x false
  issue u f (some x) s (fun c f' tids =>
    let target := (readCode s c c.w (tids.take 1) (tids.headD 0) f'.a.toNat).toNat
    let off := ctxOff s c f' x tids
    let g := c.l.segAt x.seg
    let m (n : Nat) : MemOp := { seg := x.seg, unit := 1, size := n, align := 4096, use := .load, kind := .load false }
    let one := tids.take 1
    if target ≥ 240 && target ≠ 0xFFFFFFFF then raise s c { cause := 0x07, tids := one }
    else match segCause c g (m 64) off with
      | some k => raise s c { cause := k, tids := one, faddr := wrapTo 64 off }
      | none =>
        match reachImage s c (m 64) tids off [] with
        | .not t => t
        | .go hd =>
          let front := ctxRead s c hd
          let size := fieldOf front 0x20 8
          let give (w : Word) : State := finish (touchedBy s c false hd) c tids (schedF f) (giveWord c u f' tids c.w w)
          if fieldOf front 0 4 ≠ 0x47435846 || fieldOf front 4 2 ≠ 1 then give (ctxldWord 3 0xA2 1 0xFF)
          else match segCause c g (m (max 64 size)) off with
            | some k => raise s c { cause := k, tids := one, faddr := wrapTo 64 off }
            | none =>
              match reachImage s c (m (max 64 size)) tids off [] with
              | .not t => t
              | .go accs =>
                let bs := ctxRead s c accs
                if accs.any (accPoison s) then consume s c 0x80 one (((accs.find? (accPoison s)).map (·.va)).getD 0)
                else match imageReason s (partOf c.l.lk) (bs.take (max 64 size)) with
                  | some r => give (ctxldWord 3 0xA2 r 0xFF)
                  | none =>
                    match ctxldImage s (partOf c.l.lk) bs with
                    | none => give (ctxldWord 3 0xA2 4 0xFF)
                    | some (l, im) =>
                      if cutDue s l.lk then stall s c 14 else ctxldPlace (touchedBy s c false accs) c u f' l im target tids)

/-! ## Pre-emption by the dispatcher -/

/-- PREEMPTION (R348, R412, R413): a stop request reaches the cores of a gang that runs; its warps stand at their restart points. It is
not made where the save area cannot hold the image. One that meets a cut is served by the cut's stop: the gang stays at it (R415). -/
def execPreemption (lk blk : Nat) (s : State) : Host.Outcome State Fault Refusal :=
  match launchGang s lk blk with
  | none => .next s
  | some (l, g) =>
    if (saveToArea s l g 0).isNone then .next s
    else if cutDue s lk then .next (modRuns s lk g.rank0 (fun y => if y.st = .stopping 1 then { y with st := .stopping 3 } else y))
    else if g.st ≠ .running then .next s
    else .next (match stopGang s l g with
      | some t => modRuns t lk g.rank0 (fun y => { y with st := .stopping 0 })
      | none => s)
/-- CONTEXT_IMAGE_WRITTEN (R413, R434): the image of a stopped gang is in the dispatcher save area and its resources are free. -/
def execContextImageWritten (lk blk : Nat) (s : State) : Host.Outcome State Fault Refusal :=
  match launchGang s lk blk with
  | none => .next s
  | some (l, g) =>
    if g.st ≠ .stopping 0 || cutDue s lk then .next s
    else .next (match saveToArea s l g 0 with | some t => t | none => s)

/-- A record that a restore of the dispatcher's raises (R435): KIND 5, naming the gang's rank-0 block; the gang waits for its answer. -/
def restoreRecord (s : State) (l : Launch) (g : Gang) (im : Image) (code : Nat) : State :=
  if !fqRoom s l.part then s
  else
    let (tok, s1) := newToken s l.part
    let n : WName := { launch := l.lk, blk := g.rank0, shadow := false, w := 0 }
    let w := im.warps.find? (fun w => decide (w.name = n))
    let mask := match w with | some v => maskOf (aliveTids v) | none => 0
    let pc := match w with | some v => haltPc v | none => 0
    let tk : Token := { token := tok, kind := 5, code := code, w := n, mask := mask, pc := pc, addr := 0, ref := 0, core := 4 * g.cluster }
    let s2 := modPart s1 l.part (fun y => { y with tokens := y.tokens ++ [tk] })
    let s3 := modRuns s2 l.lk g.rank0 (fun y => if y.shadow then y else { y with marks := y.marks ++ [tok] })
    pushRecord s3 l.part (4 * g.cluster) l.lk
      { code := code, orig := 0, kind := 5, depth := match w with | some v => v.depth | none => 0, token := tok, lid := l.lid, blk := g.rank0
        unit := 0, core := 0, warp := 0, pc := pc, addr := 0, mask := mask }
/-- A gang saved at an edge leaves its space to the other side while a gang of it could start there (R356). -/
def edgeHeld (s : State) (l : Launch) (im : Image) (cluster : Nat) : Bool :=
  im.why == 2 && s.launches.any (fun m => joined l m && readyOn s m cluster && (startGang s m cluster).isSome)
/-- GANG_RESTORE (R424): the dispatcher restores a gang that it saved, once every record about it is answered (R441). -/
def execGangRestore (lk blk cluster : Nat) (s : State) : Host.Outcome State Fault Refusal :=
  match launchGang s lk blk with
  | none => .next s
  | some (l, g) =>
    match gangImage s g with
    | none => .next s
    | some im =>
      if im.why = 4 || !g.marks.isEmpty || cutDue s lk || !(findPart s l.part).clusters.contains cluster || spaceHeld s l cluster ||
          edgeHeld s l im cluster then .next s
      else match imageRefused s l im with
        | some _ => .next (restoreRecord s l g im 0xA1)
        | none => .next ((restoreImage s l im cluster).getD s)

/-! ## Saving for want of room -/

/-- A gang of a launch is ready to start and fits on no cluster. -/
def cannotStart (s : State) (l : Launch) : Bool :=
  mayStart s l && (nextGangOf s l).isSome && (findPart s l.part).clusters.all (fun k => (startGang s l k).isNone)
/-- A thread that waits at a grid or group barrier whose phase is open (R325). -/
def atWideBarrier (s : State) (n : WName) (t : Thread) : Bool :=
  match t.st with
  | .barrier level idx phase => decide (level ≥ 3) && decide ((findBar s n level idx).phase = phase)
  | .exited => true
  | _ => false
/-- A thread that waits at an EDGEW or an EDGER (R356). -/
def atEdge (t : Thread) : Bool := match t.st with | .retry c => c == 8 | .exited => true | _ => false
/-- Every warp of a gang waits, and none of it has a frame open. -/
def allWait (s : State) (l : Launch) (g : Gang) (f : Warp → Thread → Bool) : Bool :=
  (gangWarps s l g).all (fun w => w.threads.all (f w))
/-- DISPATCHER_BARRIER_SAVE (R325). (DEDUCED, log 66) -/
def execDispatcherBarrierSave (lk blk : Nat) (s : State) : Host.Outcome State Fault Refusal :=
  match launchGang s lk blk with
  | none => .next s
  | some (l, g) =>
    if g.st = .running && !cutDue s lk && cannotStart s l && allWait s l g (fun w t => atWideBarrier s w.name t) then
      .next ((saveToArea s l g 1).getD s)
    else .next s
/-- DISPATCHER_EDGE_SAVE (R356): to start blocks of a launch on the other side of an edge, or of the same. -/
def execDispatcherEdgeSave (lk blk : Nat) (s : State) : Host.Outcome State Fault Refusal :=
  match launchGang s lk blk with
  | none => .next s
  | some (l, g) =>
    if g.st = .running && !cutDue s lk && s.launches.any (fun m => joined l m && cannotStart s m) && allWait s l g (fun _ t => atEdge t) then
      .next ((saveToArea s l g 2).getD s)
    else .next s

/-! ## Migration -/

/-- GANG_MIGRATE (R324, R482): a gang that the dispatcher has saved goes on in another package of the fabric; its forwarding goes with it, what
it has sent performs, its blocks stay members of their barriers, and the home package waits for the report that it has finished. (PRESUMED,
log 87) -/
def execGangMigrate (lk blk package : Nat) (s : State) : Host.Outcome State Fault Refusal :=
  match launchGang s lk blk with
  | none => .next s
  | some (l, g) =>
    match gangImage s g with
    | none => .next s
    | some im =>
      if im.why = 4 || !g.marks.isEmpty || cutDue s lk || !((findPart s l.part).fabric.any (fun e => e.1 == package)) then .next s
      else
        let f := ofGang lk g.rank0 (max 1 l.pkt.gang)
        let s1 := modRuns { s with images := s.images.filter (fun y => decide (y.id ≠ im.id)) } lk g.rank0 (fun y => { y with st := .finished, restored := true })
        .next (modLaunch { s1 with reqs := s1.reqs.filter (fun r => !(f r.w && r.done)) } lk
          (fun y => { y with remote := y.remote ++ [g.rank0] }))

/-! ## %ckcost -/

/-- Bytes in which a warp differs from its state at the last cut: register records, tiles written (R420, R431). (DEDUCED, log 62) -/
def warpDiff (old : Option Warp) (w : Warp) : Nat := 528 * (changedRegs old w).length + 1024 * (imageTiles (if old.isSome then 2 else 0) w).length
/-- Bytes of a block's scratchpad lines written since the last cut. -/
def scratchDiff (old : Option Block) (b : Block) (smem : Nat) : Nat := if old.isSome then 128 * (imageLines 2 smem b).length else smem
/-- What the last cut of a gang's launch holds of the gang, if it is the gang as it was started last. -/
def lastCutImage (s : State) (g : Gang) : Option Image :=
  ((s.cuts.filter (fun k => !k.due && k.lks.contains g.launch)).getLast?).bind
    (fun k => k.images.find? (fun im => decide (im.launch = g.launch) && decide (im.block0 = g.rank0) && decide (im.gang.relaunches = g.relaunches)))
/-- DIFF and CYC of a gang whose image has these bytes (R431). -/
def ckWordOf (s : State) (l : Launch) (g : Gang) (bytes : Nat) : Word :=
  let im := lastCutImage s g
  let ws := gangWarps s l g
  let bs := s.blocks.filter (fun b => ofGang l.lk g.rank0 (max 1 l.pkt.gang) { launch := b.launch, blk := b.blk, shadow := b.shadow, w := 0 })
  let d := sumNat (ws.map (fun w => warpDiff (im.bind (fun i => i.warps.find? (fun v => decide (v.name = w.name)))) w)) +
    sumNat (bs.map (fun b => scratchDiff (im.bind (fun i => i.blocks.find? (fun o => o.blk == b.blk && o.shadow == b.shadow))) b l.pkt.smem))
  let rate := 128 * max 1 bs.length
  let cyc := (4096 + (bytes + rate - 1) / rate + 15) / 16
  BitVec.ofNat 32 (min ((d + 4095) / 4096) 4095 * 2 ^ 20 + min cyc (2 ^ 20 - 1))
/-- CKCOST_UPDATE (R431): %ckcost of a gang's warps, as its image would be now. -/
def execCkcostUpdate (lk blk : Nat) (s : State) : Host.Outcome State Fault Refusal :=
  match launchGang s lk blk with
  | none => .next s
  | some (l, g) =>
    let ws := gangWarps s l g
    if ws.isEmpty then .next s
    else
      let bs := s.blocks.filter (fun b => ofGang lk g.rank0 (max 1 l.pkt.gang) { launch := b.launch, blk := b.blk, shadow := b.shadow, w := 0 })
      let bytes := imageSize l bs ws
      .next (modRuns s lk g.rank0 (fun y => { y with ckBytes := bytes, ckWord1 := ckWordOf s l g bytes }))

end Sys2Proof.Machine
end

