-- ==== Sys2Proof/Machine/Cut.lean ====
section
/-! DEFINITION. Checkpoints (R426 to R430, R433): CKPT and its query, the cut of a group, the copying of its granules, its commit, and
the rollback to it. -/

namespace Sys2Proof.Machine

/-! ## Cut groups -/

/-- A launch has started and is not over (R426). -/
def Launch.isRunning (l : Launch) : Bool := l.started && !l.complDue
/-- A set of launches with those that an edge binding joins to one of them. -/
def growGroup (s : State) : Nat → List Nat → List Nat
  | 0, g => g
  | n + 1, g =>
    let near (m : Launch) : Bool := g.any (fun k => match findLaunch s k with | some l => joined l m | none => false)
    growGroup s n (g ++ (s.launches.filter (fun m => m.isRunning && !g.contains m.lk && near m)).map (·.lk))
/-- The cut group of a launch (R426). -/
def cutGroup (s : State) (lk : Nat) : List Nat := growGroup s s.launches.length [lk]
/-- The cuts that a launch of a group has taken part in, the oldest first. -/
def cutsOf (s : State) (lks : List Nat) : List Cut := s.cuts.filter (fun k => lks.any (fun n => k.lks.contains n))
/-- The number of the last committed cut of a launch (R433). -/
def lastCommitted (s : State) (lk : Nat) : Nat :=
  match ((cutsOf s [lk]).filter (·.committed)).getLast? with | some k => k.seq | none => 0
/-- FLAGS.checkpointable (R343). -/
def Launch.checkpointable (l : Launch) : Bool := l.flag 3
/-- The next number of a partition's cuts (R433). (DEDUCED, log 62) -/
def nextCutSeq (s : State) (p : Nat) : Nat :=
  let n := (findPart s p).cutSeq + 1
  if n ≥ 2 ^ 27 then 1 else n
/-- A cut of a group requested: its gangs that run are to stop (R426). -/
def beginCut (s : State) (p : Nat) (lks : List Nat) (taker : Option Taker) : State :=
  let seq := nextCutSeq s p
  let cut : Cut :=
    { seq := seq, part := p, lks := lks, due := true, images := [], gangs := [], launches := [], chunks := [], mem := [], poison := []
      troot := 0, saved := [], copies := [], reqs := [], committed := false, taker := taker }
  let s1 := modPart { s with cuts := s.cuts ++ [cut] } p (fun q => { q with cutSeq := seq })
  { s1 with gangs := s1.gangs.map (fun g => if lks.contains g.launch && decide (g.st = .running) then { g with st := .stopping 1 } else g) }

/-! ## CKPT -/

/-- The status word of CKPT (R433). -/
def ckptWord (status roll seq : Nat) : Word := BitVec.ofNat 32 (status * 2 ^ 28 + roll * 2 ^ 27 + seq)
/-- Why no cut of a group is taken now: the status word; none where one may be (R433). -/
def ckptRefusal (s : State) (lks : List Nat) : Option Word :=
  match (cutsOf s lks).find? (fun k => k.due || !k.committed) with
  | some k => some (ckptWord 1 0 k.seq)
  | none => if s.launches.any (fun l => lks.contains l.lk && !l.checkpointable) then some (ckptWord 2 0 0) else none
/-- How CKPT uses its fields. -/
def ckptUse : Use := { d := 1, q := false, lock := true }
/-- CKPT (R433): the status is written, and the cut begins with the gangs of the group at their stops. (DEDUCED, log 64) -/
def execCkpt (f : FWord) (s : State) : Host.Outcome State Fault Refusal :=
  issue ckptUse f none s (fun c f' tids =>
    let done (st : State) (w : Warp) (x : Word) : State := finish st c tids (schedF f) (giveWord c ckptUse f' tids (onceMore c.l w) x)
    if mustCompare c then compareWait s c
    else if c.l.twin && c.w.name.shadow then
      match aget c.w.twinRes c.w.once with
      | none => stall s c 2
      | some res => done s { c.w with twinRes := adel c.w.twinRes c.w.once } (((res.head?.map (·.2)).getD []).headD 0)
    else
      let lks := cutGroup s c.l.lk
      match ckptRefusal s lks with
      | some x => done (leaveOnce s c [(0, [x])]) c.w x
      | none =>
        let x := ckptWord 0 0 (nextCutSeq s c.l.part)
        let taker : Taker := { w := c.w.name, depth := c.w.depth, dcode := f'.d.toNat, tids := tids, once := c.w.once }
        beginCut (done (leaveOnce s c [(0, [x])]) c.w x) c.l.part lks (some taker))
/-- CKPT.q (R433). (DEDUCED, log 64) -/
def execCkptQ (f : FWord) (s : State) : Host.Outcome State Fault Refusal :=
  issue ckptUse f none s (fun c f' tids =>
    finish s c tids (schedF f) (giveWord c ckptUse f' tids c.w (ckptWord 4 0 (lastCommitted s c.l.lk))))

/-! ## The cut -/

/-- Every key of a contribution that has no result yet has been registered by its rank, and its chunk is open (R153). (DEDUCED, log 65) -/
def contributed (s : State) (r : Req) (sum : Bool) (grp tag base : Nat) : Bool :=
  match (findLaunch s r.w.launch).bind (fun l => l.groups[grp]?) with
  | none => true
  | some g => r.accs.all (fun a => match findChunk s r.w.launch sum grp tag (chunkIdx base a) with
      | some k => !k.complete && k.ranks.contains (g.rank r.w.blk) | none => false)
/-- A request that a cut does not wait for (R426): those that are no part of a context, and contributions to chunks that stay open,
which the cut keeps with its launch section. -/
def cutKeeps (s : State) (r : Req) : Bool :=
  match r.kind with
  | .tmove _ => true
  | .scrub _ => true
  | .coll sum grp tag base => contributed s r sum grp tag base
  | _ => false
/-- A gang is to come to its stop for a cut: the cut's own, one that a pre-emption or a CTXSV has met, one whose image a hit asks for (R415). -/
def GangSt.stopsForCut (st : GangSt) : Bool := match st with | .stopping n => decide (1 ≤ n) | _ => false
/-- The gangs of a group brought to their stops; whether every one is there. -/
def stopGroup (s : State) (lks : List Nat) : State × Bool :=
  (s.gangs.filter (fun g => lks.contains g.launch && !g.shadow && g.st.stopsForCut)).foldl (fun acc g =>
    match findLaunch acc.1 g.launch with
    | none => acc
    | some l => match stopGang acc.1 l g with
      | some t => (t, acc.2)
      | none => (acc.1, false)) (s, true)
/-- A granule lies in a segment whose writes are tracked (R427). -/
def trackedBy (ls : List Launch) (num : Nat) : Bool :=
  ls.any (fun l => l.segs.any (fun g => (g.kind == 0 || g.kind == 3 || g.kind == 5 || g.kind == 6) &&
    decide (g.base / 65536 ≤ num) && decide (num * 65536 < g.base + g.limit)))
/-- An image with nothing written since the cut that takes it. -/
def Image.cleared (im : Image) : Image :=
  { im with
    blocks := im.blocks.map (fun b => { b with swritten := [] })
    warps := im.warps.map (fun w => { w with tiles := w.tiles.map (fun t => { t with written := false }) }) }
/-- An image as a cut holds it (R419, R420): the difference from the gang's image in the last cut, or a full one where there is none. -/
def Image.asCut (im : Image) (l : Launch) (old : Option Image) (seq id launchLen : Nat) : Image :=
  let kind := if old.isSome then 2 else 1
  let regs := imageRegs kind ((old.map (·.warps)).getD []) im.warps
  let secs := imageSections l kind im.blocks im.warps regs launchLen
  ({ im with id := id, kind := kind, seq := seq, regs := regs, nsec := 1 + secs.length, size := sizeOf secs, why := 5, place := none } : Image).cleared
/-- The images of a group's gangs at the cut instant (R419, R426), numbered from `id`; that of a launch's first gang holds the launch section
(R420). (DESIGN CHOICE, log 60) -/
def cutImages (s : State) (seq : Nat) (ls : List Launch) (gs : List Gang) (id : Nat) : List Image :=
  (gs.zipIdx).filterMap (fun e =>
    let g := e.1
    let len := if gs.any (fun y => decide (y.launch = g.launch) && decide (y.rank0 < g.rank0)) then 0 else Config.launchSection seq
    match ls.find? (fun l => decide (l.lk = g.launch)) with
    | none => none
    | some l =>
      (match g.st with
        | .saved _ => gangImage s g
        | .running => some (makeImage s l g 0 g.epoch 5)
        | .stopping _ => some (makeImage s l g 0 g.epoch 5)
        | _ => none).map (fun (im : Image) => im.asCut l (lastCutImage s g) seq (id + e.2) len))
/-- Where a gang stands once a cut of it is taken: it resumes in place, or is saved next where a pre-emption has met the cut (R415, R426). -/
def GangSt.afterCut (st : GangSt) : GangSt :=
  match st with
  | .stopping 1 => .running
  | .stopping 3 => .stopping 0
  | x => x
/-- The cut instant (R426): images, launch section, memory and granules as they stand; the gangs resume in place, with nothing written
since. (DEDUCED, log 65) -/
def takeCut (s : State) (k : Cut) : State :=
  let ls := s.launches.filter (fun l => k.lks.contains l.lk)
  let cores := (ls.map (fun l => l1Cores (some l) ((s.blocks.filter (fun b => decide (b.launch = l.lk))).map (·.core)))).flatten
  let s1 := flushPrivate s cores
  let gs := s1.gangs.filter (fun g => k.lks.contains g.launch)
  let marked := (s1.granules.filter (fun g => decide (g.part = k.part) && !g.cow && trackedBy ls g.num)).map (·.num)
  let mine := gs.filter (fun g => !g.shadow)
  let clear (b : Block) : Block := { b with swritten := [] }
  let k1 : Cut :=
    { k with due := false, images := cutImages s1 k.seq ls mine s1.nextId, gangs := gs, launches := ls
             chunks := s1.chunks.filter (fun y => k.lks.contains y.lk), mem := s1.mem, poison := s1.poison
             troot := (findPart s1 k.part).troot, saved := marked
             copies := s1.copies.filter (fun e => k.lks.contains e.w.launch && decide (e.ch ≥ 16))
             reqs := s1.reqs.filter (fun r => k.lks.contains r.w.launch) }
  let s2 : State :=
    { s1 with
      cuts := s1.cuts.map (fun y => if y.due && y.lks = k.lks then k1 else y)
      granules := s1.granules.map (fun g => if g.part = k.part ∧ marked.contains g.num then { g with cow := true } else g)
      gangs := s1.gangs.map (fun g => if k.lks.contains g.launch then { g with st := g.st.afterCut } else g)
      blocks := s1.blocks.map (fun b => if k.lks.contains b.launch then clear b else b)
      warps := s1.warps.map (fun w => if k.lks.contains w.name.launch then { w with tiles := w.tiles.map (fun t => { t with written := false }) } else w)
      images := s1.images.map (fun im => if k.lks.contains im.launch then im.cleared else im)
      nextId := s1.nextId + gs.length }
  mine.foldl (fun acc g => match ls.find? (fun l => decide (l.lk = g.launch)) with
    | some l => stopTrace acc l g 1 g.epoch | none => acc) s2
/-- CHECKPOINT_CUT (R426): the cut that is due of a launch's group goes on, or one that management asks for begins. -/
def execCheckpointCut (lk : Nat) (s : State) : Host.Outcome State Fault Refusal :=
  match s.cuts.find? (fun k => k.due && k.lks.contains lk), findLaunch s lk with
  | some k, _ =>
    let (s1, all) := stopGroup s k.lks
    if all && s1.reqs.all (fun r => !k.lks.contains r.w.launch || cutKeeps s1 r) then .next (takeCut s1 k) else .next s1
  | none, some l =>
    let lks := cutGroup s lk
    if l.isRunning && (ckptRefusal s lks).isNone then .next (beginCut s l.part lks none) else .next s
  | none, none => .next s
/-- COW_COPY (R428): the badger has copied a granule to staging, and it is CLEAN. -/
def execCowCopy (part gran : Nat) (s : State) : Host.Outcome State Fault Refusal :=
  .next { s with granules := s.granules.filter (fun g => !(decide (g.part = part) && decide (g.num = gran) && g.cow)) }
/-- CUT_COMMIT (R429): every byte of a cut has been streamed. -/
def execCutCommit (lk : Nat) (s : State) : Host.Outcome State Fault Refusal :=
  let ready (k : Cut) : Bool := !k.due && !k.committed && k.lks.contains lk &&
    !s.granules.any (fun g => decide (g.part = k.part) && g.cow && k.saved.contains g.num)
  .next { s with cuts := s.cuts.map (fun k => if ready k then { k with committed := true } else k) }

/-! ## Rollback -/

/-- Where the bytes of a page stand: the frame that its leaf names, in HBM4, on the CXL tier or in flash. -/
def leafBytes (l : LeafAt) (va : Nat) : Option Nat :=
  let fr := bitsOf l.pte.toNat 12 40 * 4096
  let at_ (tier : Nat) : Nat := frameAddr tier fr + va % 2 ^ l.shift
  match pteTier l.pte with
  | 1 => some (at_ 1)
  | 3 => some (at_ 1)
  | 4 => some (at_ 4)
  | 5 => some (at_ 5)
  | 2 => some (at_ (if isCxl fr then 4 else 5))
  | _ => none
/-- One 4 KiB run of memory as a cut holds it, returned to where its page is now (R430). -/
def restorePage (s : State) (k : Cut) (va : Nat) : State :=
  match (walkFrom k.mem va k.troot 5).bind (fun l => leafBytes l va), (walkFrom s.mem va (findPart s k.part).troot 5).bind (fun l => leafBytes l va) with
  | some src, some dst =>
    let keep := s.mem.filter (fun e => !(decide (dst ≤ e.1) && decide (e.1 < dst + 4096)))
    let old := k.mem.filter (fun e => decide (src ≤ e.1) && decide (e.1 < src + 4096))
    let clean := s.poison.filter (fun g => !(decide (dst ≤ g * 64) && decide (g * 64 < dst + 4096)))
    let bad := k.poison.filter (fun g => decide (src ≤ g * 64) && decide (g * 64 < src + 4096))
    { s with
      mem := old.foldl (fun m e => writeByte m (e.1 - src + dst) e.2) keep
      poison := bad.foldl (fun acc g => insertNat (g + dst / 64 - src / 64) acc) clean
      l1 := s.l1.filter (fun ln => !(decide (dst ≤ ln.line * 128) && decide (ln.line * 128 < dst + 4096)))
      releases := s.releases.filter (fun x => !(x.space == .phys && decide (dst ≤ x.addr) && decide (x.addr < dst + 4096))) }
  | _, _ => s
/-- The granules that may have been written since a cut: those not CLEAN, and those that later cuts have saved. -/
def writtenSince (s : State) (k : Cut) : List Nat :=
  sortNat ((s.granules.filter (fun g => decide (g.part = k.part) && trackedBy k.launches g.num)).map (·.num) ++
    ((s.cuts.filter (fun y => decide (y.part = k.part))).dropWhile (fun y => decide (y.seq ≠ k.seq))).tail.foldl (fun acc y => acc ++ y.saved.filter (trackedBy k.launches)) [])
/-- A page of these granules is on the move, so its content cannot be returned now (R271). -/
def anyMoving (s : State) (p : Nat) (nums : List Nat) : Bool :=
  s.tier.any (fun r => decide (r.part = p) && r.moving && nums.any (fun n => decide (r.page < (n + 1) * 65536) && decide (n * 65536 < r.page + pageBytes)))
/-- Requests after a rollback (R430): none of the group's but those that are no part of a context, which no longer raise a flag unless
the cut knows them. -/
def rollReqs (s : State) (k : Cut) : List Req :=
  s.reqs.filterMap (fun r =>
    if !k.lks.contains r.w.launch then some r
    else match r.kind with
      | .tmove _ => some { r with sig := 15 }
      | .scrub _ => some (if k.reqs.any (fun q => decide (q.id = r.id)) then r else { r with sig := 15 })
      | .kslot _ => some { r with sig := 15, dcode := opZero }
      | _ => none) ++
  k.reqs.filter (fun r => match r.kind with | .coll _ _ _ _ => true | _ => false)
/-- A warp of a cut's image as it resumes after a rollback (R430, R433): flags of TMOVE requests, and of scrub requests that are over,
are lowered; the CKPT that took the cut finds ROLL set. -/
def rollWarp (s : State) (k : Cut) (w : Warp) : Warp :=
  let undone (r : Req) : Bool := match r.kind with
    | .tmove _ => true
    | .scrub _ => !s.reqs.any (fun q => decide (q.id = r.id))
    | _ => false
  let w1 := (k.reqs.filter (fun r => decide (r.w = w.name) && undone r)).foldl (fun acc r => lowerFlag acc r.depth none r.sig) w
  match k.taker with
  | none => w1
  | some t =>
    let x := ckptWord 0 1 k.seq
    if w1.name = t.w then putDest t.depth t.dcode t.tids x w1
    else if { w1.name with shadow := false } = t.w ∧ (aget w1.twinRes t.once).isSome then { w1 with twinRes := aset w1.twinRes t.once [(0, [x])] }
    else w1
/-- A gang record after a rollback: its image waits to be placed, and no earlier image of it is valid any longer. -/
def rollGang (s : State) (ims : List Image) (g : Gang) : Gang :=
  let epoch := match s.gangs.find? (fun y => decide (y.launch = g.launch) && decide (y.rank0 = g.rank0) && y.shadow == g.shadow) with
    | some y => y.epoch + 1 | none => g.epoch + 1
  let st : GangSt := match ims.find? (fun im => decide (im.launch = g.launch) && decide (im.block0 = g.rank0)) with
    | some im => .saved im.id | none => g.st
  { g with st := st, epoch := epoch, restored := false, marks := [] }
/-- The race records after a rollback (R256, R430): none of a tracked granule, nor of the group's scratchpads. -/
def rollSectors (s : State) (k : Cut) : List Sector :=
  let gone (r : AccRec) : Bool := decide (partOf r.lk = k.part) && trackedBy k.launches r.gran
  (s.sectors.filter (fun x => match x.space with | .scratch lk _ _ => !k.lks.contains lk | .phys => true)).filterMap (fun x =>
    if x.space != .phys then some x
    else
      let y : Sector := { x with stores := x.stores.filter (fun r => !gone r), reads := x.reads.filter (fun r => !gone r) }
      if y.stores.isEmpty && y.reads.isEmpty then none else some y)
/-- Roll a cut group back to a committed cut (R430). -/
def rollback (s : State) (k : Cut) : State :=
  let f (n : WName) : Bool := k.lks.contains n.launch
  let nums := writtenSince s k
  let ims := k.images.mapIdx (fun i im => { im with id := s.nextId + i, warps := im.warps.map (rollWarp s k) })
  let s1 := vacate (voidTokens { s with reqs := rollReqs s k, images := s.images.filter (fun im => !k.lks.contains im.launch) } k.part f) f
  let s2 := nums.foldl (fun acc n => (List.range 16).foldl (fun st i => restorePage st k (n * 65536 + 4096 * i)) acc) s1
  { s2 with
    images := s2.images ++ ims
    gangs := s2.gangs.filter (fun g => !k.lks.contains g.launch) ++ k.gangs.map (rollGang s ims)
    launches := s2.launches.map (fun l => (k.launches.find? (fun y => decide (y.lk = l.lk))).getD l)
    chunks := s2.chunks.filter (fun y => !k.lks.contains y.lk) ++ k.chunks
    copies := s2.copies.filter (fun e => !f e.w) ++ k.copies.map (fun e => { e with done := 0, token := none })
    sectors := rollSectors s2 k
    granules := s2.granules.filter (fun g => !(decide (g.part = k.part) && nums.contains g.num)) ++
      nums.map (fun n => { part := k.part, num := n, cow := false })
    cuts := (s2.cuts.takeWhile (fun y => !(decide (y.seq = k.seq) && decide (y.part = k.part)))) ++ [k] ++
      ((s2.cuts.dropWhile (fun y => !(decide (y.seq = k.seq) && decide (y.part = k.part)))).tail.filter (fun y => !y.lks.any (fun n => k.lks.contains n)))
    nextId := s2.nextId + ims.length }
/-- CTXLD.roll (R430, R435). -/
def execCtxldRoll (f : FWord) (x : LExt) (s : State) : Host.Outcome State Fault Refusal :=
  let u : Use := { d := 1, a := 2, q := false, sup := true, lock := true, bad := !isS f.a.toNat }
  issue u f (some x) s (fun c f' tids =>
    let pair := readGroup s c c.w (tids.take 1) (tids.headD 0) f'.a.toNat 2
    let lk := lkOf (partOf c.l.lk) (pair.getD 0 0).toNat
    let give (w : Word) : State := finish s c tids (schedF f) (giveWord c u f' tids c.w w)
    match (cutsOf s [lk]).find? (fun k => decide (k.seq = (pair.getD 1 0).toNat)) with
    | none => give (if (findLaunch s lk).isNone then ctxldWord 3 0xA2 3 0xFF else ctxldWord 1 0 0 0xFF)
    | some k =>
      if k.lks.any (fun n => (findLaunch s n).isNone) then give (ctxldWord 3 0xA2 3 0xFF)
      else if k.due || !k.committed then give (ctxldWord 1 0 0 0xFF)
      else if anyMoving s k.part (writtenSince s k) then stall s c 14
      else rollback (give (ctxldWord 0 0 0 0xFF)) k)

end Sys2Proof.Machine
end

