-- ==== Sys2Proof/Machine/Debug.lean ====
section
/-! DEFINITION. Debug, trace and counters (R84 to R86, R437 to R455): BRK and TRACE, breakpoint hits and their records, single step,
register swaps, the partition's register writes, and the cycles that counters count. -/

namespace Sys2Proof.Machine

/-! ## BRK and TRACE -/

/-- BRK (R439): the threads go on past it, and the hit is delivered in swap-out mode (R441). -/
def execBrk (f : FWord) (s : State) : Host.Outcome State Fault Refusal :=
  issue {} f none s (fun c _ tids =>
    let s1 := finish s c tids (schedF f) c.w
    let s2 := swapOutHit s1 c { cause := 0x70, tids := tids, faddr := c.pc, unit := f.b.toNat, pc := c.pc }
    { s2 with iss := { s2.iss with stalled := false } })
/-- TRACE (R448): one record for the lowest-numbered issuing thread, or with V = 1 one for each. A burrow gives every
issuing thread an element (R329). Nothing where it is not enabled. (DEDUCED, log 67) -/
def execTrace (f : FWord) (s : State) : Host.Outcome State Fault Refusal :=
  let u : Use := { a := 1 }
  issue u f none s (fun c f' tids =>
    let p := findPart s (partOf c.l.lk)
    if !p.trace.en || !bitOf p.trace.types 0 then finish s c tids (schedF f) c.w else
    let ts := if f.v then tids else tids.take 1
    let pops := qPops u f' none
    match qCause c.b c.w.name.w pops none tids.length with
    | some (k, n) => raise s c { cause := k, tids := tids, faddr := n }
    | none =>
      match qStall c.b pops none tids.length with
      | some (push, n) => stallAs s c (.burrow push n)
      | none =>
        if popsPoison c.b pops tids.length then consume s c 0x80 tids 0 else
        let (b1, qv) := popAll c.b c.w.name.w tids pops
        let (s1, w1) := qTransfer s c (applyMarks c.w u f' none none 0 tids) tids pops none b1
        let val (t : Nat) : Nat := ((operandVals s c tids qv t 1 f'.a.toNat 1).headD 0).toNat
        finish (ts.foldl (fun acc t =>
          traceRec acc (partOf c.l.lk) 0 f.d.toNat c.w.depth c.w.core c.l.lk c.b.blk c.pc (val t) (c.w.name.w * 128 + t)) s1)
          c tids (schedF f) w1)

/-! ## Breakpoint hits -/

/-- The code breakpoint that a group's first word matches (R440). -/
def brkAt (s : State) (n : WName) (pc : Nat) : Option Nat :=
  ((findPart s (partOf n.launch)).brk.find? (fun e => e.2.val && decide (e.2.lid = lidOf n.launch) && decide (pc = 8 * e.2.off))).map (·.1)
/-- The threads of the group in the latch that a code breakpoint hits (R440, R442). (DEDUCED, log 67) -/
def brkTids (s : State) (c : Ctx) : List Nat := (issuing s c (schedOf s.iss.words)).filter (fun t => !skipped c t)
/-- CODE_BREAKPOINT_HIT (R440, R441): a group that is chosen to issue hits a code breakpoint before anything of it is performed. -/
def execCodeBreakpointHit (w : WName) (pc : Nat) (s : State) : Host.Outcome State Fault Refusal :=
  match findWarp s w, brkAt s w pc with
  | some v, some b =>
    let s1 := { s with iss := { w := some w, pc := pc, words := groupWordsOf s v pc } }
    (match ctxOf s1 with
      | none => .next s
      | some c =>
        let tids := brkTids s1 c
        if tids.isEmpty || !gangRuns s w || v.halt.isSome then .next s
        else .next (swapOutHit s1 c { cause := 0x70, tids := tids, faddr := pc, unit := 256 + b, pc := pc }))
  | _, _ => .next s

/-- What a warp keeps of a breakpoint or watchpoint hit until its record is written (R441). -/
def CauseRec.isHit (r : CauseRec) : Bool := (r.cause == 0x70 || r.cause == 0x71) && !r.trap
/-- A warp that hit, as the image holds it (R442): its hit will be told by its record, and it carries a skip mark. -/
def markHit (w : Warp) : Warp :=
  match w.pend.find? CauseRec.isHit with
  | some r => { w with pend := w.pend.filter (fun x => !x.isHit), skip := some { pc := r.pc, mask := maskOf r.tids } }
  | none => w
/-- The warps of a gang that have hit, with what their records say. -/
def hitsOf (ws : List Warp) : List (Warp × CauseRec) :=
  (ws.map (fun w => (w.pend.filter CauseRec.isHit).map (fun r => (w, r)))).flatten
/-- The record of one hit (R441): KIND 5, with a token that the gang waits for. -/
def hitRecord (s : State) (l : Launch) (g : Gang) (w : Warp) (r : CauseRec) : State :=
  let (tok, s1) := newToken s l.part
  let tk : Token :=
    { token := tok, kind := 5, code := r.cause, w := w.name, mask := maskOf r.tids, pc := r.pc, addr := r.faddr, ref := 0, core := w.core }
  let s2 := modPart s1 l.part (fun y => { y with tokens := y.tokens ++ [tk] })
  let s3 := modRuns s2 l.lk g.rank0 (fun y => if y.shadow then y else { y with marks := y.marks ++ [tok] })
  pushRecord s3 l.part w.core l.lk
    { code := r.cause, orig := 0, kind := 5, depth := w.depth, token := tok, lid := l.lid, blk := w.name.blk, unit := r.unit, core := 0
      warp := w.name.w, pc := r.pc, addr := r.faddr, mask := maskOf r.tids }
/-- SWAP_OUT_MODE_RECORD (R441): a gang that a breakpoint or watchpoint has stopped is saved, and then each hit writes its record. -/
def execSwapOutModeRecord (lk blk : Nat) (s : State) : Host.Outcome State Fault Refusal :=
  match launchGang s lk blk with
  | none => .next s
  | some (l, g) =>
    let hits := hitsOf (gangWarps s l g)
    let room := decide ((findPart s l.part).backlog.length + hits.length ≤ 4096)
    let stopping := s.gangs.any (fun y => decide (y.launch = lk) && decide (y.rank0 = g.rank0) && decide (y.st = .stopping 2))
    if !stopping || !room || cutDue s lk then .next s
    else match saveToArea s l g 3 with
      | none => .next s
      | some s1 =>
        let s2 := { s1 with images := s1.images.map (fun im =>
          if im.launch = lk ∧ im.block0 = g.rank0 then { im with warps := im.warps.map markHit } else im) }
        .next (hits.foldl (fun acc h => hitRecord acc l g h.1 h.2) s2)

/-! ## Single step -/

/-- SINGLE_STEP_HALT (R445): a warp in single step has issued one group. -/
def execSingleStepHalt (w : WName) (s : State) : Host.Outcome State Fault Refusal :=
  match findWarp s w with
  | none => .next s
  | some v => if v.stepArm.isSome && v.stepped then .next (haltWarp s w 0x73) else .next s
/-- SINGLE_STEP_TIMEOUT (R445): it could not issue within 1,024 core cycles. -/
def execSingleStepTimeout (w : WName) (s : State) : Host.Outcome State Fault Refusal :=
  match findWarp s w with
  | none => .next s
  | some v => if decide (v.stepArm.getD 0 ≥ 1024) && !v.stepped then .next (haltWarp s w 0x73) else .next s

/-! ## Register swap -/

/-- A thread of a warp stands at an instruction that the register pool cannot serve (R83). -/
def poolStalled (w : Warp) : Bool := w.threads.any (fun t => t.st == .retry 3)
/-- The warp that a swap takes (R84): the youngest resident warp of the quadrant that holds a physical register. -/
def swapVictim (s : State) (core quad : Nat) : Option Warp :=
  (s.warps.filter (fun w => decide (w.core = core) && decide (w.quad = quad) && w.swap == .resident && decide (regTot s w > 0))).foldl (fun acc w =>
    match acc with | some v => if v.adm < w.adm then some w else acc | none => some w) none
/-- REGISTER_SWAP (R84): after 128 cycles without an issue, with a warp that waits for the pool, the youngest warp stops. (DESIGN CHOICE, log 86) -/
def execRegisterSwap (core quad : Nat) (s : State) : Host.Outcome State Fault Refusal :=
  let due := decide ((findQuad s core quad).poolIdle ≥ 128) &&
    s.warps.any (fun w => decide (w.core = core) && decide (w.quad = quad) && poolStalled w)
  match swapVictim s core quad with
  | none => .next s
  | some v =>
    if !due || !gangRuns s v.name then .next s
    else
      let mine (n : WName) : Bool := decide (n = v.name)
      let p := partOf v.name.launch
      let s0 := (s.reqs.filter (fun r => mine r.w && r.isFence)).foldl unfence s
      let s1 := voidTokens (((findPart s0 p).tokens.filter (fun t => mine t.w)).foldl keepRecord s0) p mine
      let s2 := modWarp (dropEplds s1 mine) v.name (fun w => { stopWarp w with swap := .swappingOut, swaps := w.swaps + 1 })
      let s3 := modQuad s2 core quad (fun q => { q with poolIdle := 0 })
      .next (traceRec s3 p 3 2 v.depth core v.name.launch v.name.blk (haltPc v)
        (match findGang s v.name.launch v.name.blk v.name.shadow with | some g => g.epoch | none => 0) (v.name.w * 128))
/-- SWAP_OUT_COMPLETE (R86): once no MRD or MDRAIN is queued the registers are written out, and the pool has them back. Warps swapped out
together are readmitted in the order in which their registers were written out. (DESIGN CHOICE, log 86) -/
def execSwapOutComplete (w : WName) (s : State) : Host.Outcome State Fault Refusal :=
  match findWarp s w with
  | none => .next s
  | some v =>
    if v.swap ≠ .swappingOut || v.mq.any (fun e => e.op == 3 || e.op == 6) then .next s
    else
      let s1 := modWarp s w (fun u => { u with swap := .swapped })
      .next (modQuad s1 v.core v.quad (fun q => { q with swapOrder := q.swapOrder ++ [w] }))
/-- REGISTER_READMIT (R86): the warp swapped out first is readmitted when each bank has room for what it wrote out. -/
def execRegisterReadmit (core quad : Nat) (s : State) : Host.Outcome State Fault Refusal :=
  match (findQuad s core quad).swapOrder with
  | [] => .next s
  | n :: rest =>
    match findWarp s n with
    | none => .next (modQuad s core quad (fun q => { q with swapOrder := rest }))
    | some v =>
      if [0, 1].all (fun odd => decide (bankUsed s core quad odd + heldInBank s v odd ≤ 256)) then
        .next (modQuad (modWarp s n (fun u => { u with swap := .readmitting })) core quad (fun q => { q with swapOrder := rest }))
      else .next s
/-- RELOAD_COMPLETE (R86). -/
def execReloadComplete (w : WName) (s : State) : Host.Outcome State Fault Refusal :=
  .next (modWarp s w (fun u => if u.swap = .readmitting then { u with swap := .resident } else u))

/-! ## Register writes -/

/-- A write of the trace ring's control (R446): enabling it clears the counters. (DEDUCED, log 14) -/
def writeTrace (s : State) (p : Nat) (v : Nat) : State :=
  modPart s p (fun q => { q with trace :=
    { q.trace with types := bitsOf v 8 6, tsz := max 7 (bitsOf v 4 4), en := bitOf v 0
                   terr := q.trace.terr && !bitOf v 0
                   ttail := if bitOf v 0 then 0 else q.trace.ttail, thead := if bitOf v 0 then 0 else q.trace.thead
                   tdrop := if bitOf v 0 then 0 else q.trace.tdrop } })
/-- TRACE_ENABLE (R446). -/
def execTraceEnable (part : Nat) (val : BitVec 32) (s : State) : Host.Outcome State Fault Refusal := .next (writeTrace s part val.toNat)
/-- The table's entry for a comparator. -/
def watchAt (q : Part) (k : Nat) : Watch := (aget q.watch k).getD {}
/-- A write of a debug register (R438), by its offset. (DEDUCED, log 69) -/
def writeDebug (q : Part) (off v : Nat) : Part :=
  if 0x2100 ≤ off ∧ off < 0x2180 then
    let k := (off - 0x2100) / 32
    if off % 32 = 0 then { q with watch := aset q.watch k { watchAt q k with addr := v } }
    else if off % 32 = 8 then
      { q with watch := aset q.watch k { watchAt q k with lid := bitsOf v 32 32, val := bitOf v 31, acc := bitsOf v 8 2, lg := min 30 (max 2 (bitsOf v 0 6)) } }
    else q
  else if 0x2200 ≤ off ∧ off < 0x2240 then
    if off % 16 = 0 then { q with brk := aset q.brk ((off - 0x2200) / 16) { lid := bitsOf v 32 32, off := bitsOf v 3 29, val := bitOf v 0 } } else q
  else if off = 0x2300 then { q with step := { q.step with blk := bitsOf v 32 32, lid := bitsOf v 0 32 } }
  else if off = 0x2308 then { q with step := { q.step with en := bitOf v 4, warp := bitsOf v 0 4 } }
  else q
/-- A write of partition control (R477), which only the supervisor's answers of records go beyond. (DESIGN CHOICE, log 22, DEDUCED, log 69) -/
def writeCtl (s : State) (p off v : Nat) (sup : Bool) : State :=
  if off = 0x0008 then modPart s p (fun q => { q with troot := bitsOf v 12 40 * 4096 })
  else if off = 0x0010 then modPart s p (fun q => { q with fqvec := v % 16 })
  else if off = 0x0070 ∧ sup = true then
    let s1 := if bitOf v 0 then nextOr s (execFqerrRetry p s) else s
    let s2 := if bitOf v 1 then nextOr s1 (execTrerrClear p s1) else s1
    if bitOf v 2 then nextOr s2 (execCrerrRetry p s2) else s2
  else s
/-- REGISTER_WRITE (R341, R438, R446, R470, R476, R477, R479): a write into the partition's register space, by the host or, where `sup`
is true, by supervisor code. What no table names, and what is read-only, ignores it. -/
def execRegisterWrite (part off : Nat) (val : BitVec 64) (sup : Bool) (s : State) : Host.Outcome State Fault Refusal :=
  let v := val.toNat
  .next (
    if off < 0x100 then writeCtl s part off v sup
    else if 0x1000 ≤ off ∧ off < 0x1200 then
      let q := (off - 0x1000) / 32
      if off % 32 = 0 then modPart s part (fun x => x.modQueue q (fun k => { k with qbase := v }))
      else if off % 32 = 8 then writeTail s part q (BitVec.ofNat 32 v) (!sup)
      else if off % 32 = 16 then writeControl s part q (BitVec.ofNat 32 v)
      else s
    else if 0x2000 ≤ off ∧ off < 0x2400 then modPart s part (fun q => writeDebug q off v)
    else if off = 0x2400 then modPart s part (fun q => { q with trace := { q.trace with base := v } })
    else if off = 0x2408 then writeTrace s part (v % 2 ^ 32)
    else if off = 0x2410 then modPart s part (fun q => { q with trace := { q.trace with thead := BitVec.ofNat 32 v } })
    else if 0x2800 ≤ off ∧ off < 0x2824 ∧ off % 4 = 0 then modPart s part (fun q => { q with err := aput 0 q.err ((off - 0x2800) / 4) (BitVec.ofNat 32 v) })
    else if 0x3010 ≤ off ∧ off < 0x3020 ∧ 1 ≤ v % 256 then modPart s part (fun q => { q with qosW := aput 16 q.qosW (off - 0x3010) (v % 256) })
    else s)

/-! ## Cycles -/

/-- A flag, a recorded register or the guard's recorded predicate keeps a group from issuing once its warp's STALL distance is over (R286). -/
def groupBlocked (s : State) (w : Warp) (ws : List Code) : Bool :=
  let q := schedOf ws
  let v := w.age (w.lastStall - w.since)
  !flagsReady v none q || ((fieldCodes ws ++ (if q.gp < 12 then [256 + q.gp] else [])).any (fun r => (recorded s v v.depth).contains r))
/-- The contributions of a warp to reductions that await their results (R153). -/
def collReqs (s : State) (w : Warp) : List Req :=
  s.reqs.filter (fun r => decide (r.w = w.name) && (match r.kind with | .coll _ _ _ _ => true | _ => false))
/-- Why the group of a warp's threads at a program counter cannot issue (R286, R451): 0 where nothing keeps it, 5 where it waits for the
results of reductions alone (R153). (DEDUCED, log 68) -/
def groupCode (s : State) (w : Warp) (pc : Nat) : Nat :=
  match findBrick s w.core w.name.launch (pc / 4096) with
  | none => 10
  | some b =>
    if b.st ≠ .landed then 10
    else
      let ws := groupAtPc s b pc
      let colls := collReqs s w
      if w.swap = .swapped || w.swap = .readmitting then 3
      else if w.compare = 1 then 2
      else if !groupBlocked s w ws then 0
      else if groupBlocked { s with reqs := s.reqs.filter (fun r => !colls.any (fun k => k.id == r.id)) }
          (colls.foldl (fun acc r => lowerFlag acc r.depth r.den r.sig) w) ws then 2 else 5
/-- The program counters of a warp's ready threads. -/
def readyPcs (w : Warp) : List Nat :=
  sortNat ((w.threads.filter (fun t => t.st == .ready && decide (t.held = 0) && t.den.isNone)).map (·.pc))
/-- What held a thread back at its issue holds it no longer (R231, R286): the matrix queue has fewer than 8 entries, the queue of a CPY or BCPY
has room, no acquire or fence of the thread holds its access, its earlier accesses have performed before a push. (DEDUCED, log 15) -/
def heldNoMore (s : State) (w : Warp) (t : Thread) : Bool :=
  match t.st with
  | .retry 11 => decide (w.mq.length < 8)
  | .retry 14 =>
    (match instrWord (groupWordsOf s w t.pc) with
      | some (x, _) =>
        (decide (opcOf x = 0x100) && !copyFull s w.core (fieldsF x).d.toNat) || (decide (opcOf x = 0x105) && !copyFull s w.core (engineCh (fieldsF x).d.toNat))
      | none => false)
  | .retry 2 =>
    (match instrWord (groupWordsOf s w t.pc) with
      | some (x, _) => opcOf x != 0x161 && !acqHeld s w [t.tid] && (!isQ (fieldsF x).d.toNat || !accessesLeft s w.name s.nextId [t.tid])
      | none => false)
  | _ => false
/-- The program counters of a warp's eligible groups (R281, R286): the ready ones, and those held back at issue that could go on now. -/
def eligiblePcs (s : State) (w : Warp) : List Nat :=
  let back := sortNat ((w.threads.filter (fun t => decide (t.held = 0) && t.den.isNone && heldNoMore s w t)).map (·.pc))
  (sortNat (readyPcs w ++ back)).filter (fun pc => groupCode s w pc == 0)
/-- A warp that can start a pass (R286). -/
def canStart (s : State) (w : Warp) : Bool :=
  gangRuns s w.name && w.halt.isNone && w.swap == .resident && !w.threads.any (fun t => match t.st with | .reply _ => true | _ => false) &&
  decide (w.lastStall ≤ w.since) && !(eligiblePcs s w).isEmpty
/-- The stall code of a thread's state (R451); 0 for none. (DEDUCED, log 68) -/
def threadCode (s : State) (w : Warp) (t : Thread) : Nat :=
  match t.st with
  | .retry c => c
  | .waitf _ => 2
  | .engines _ => 14
  | .burrow push _ => if push then 7 else 6
  | .barrier level _ _ => if level < 4 then 4 else 5
  | .join => if w.threads.any (fun x => x.den.isSome) then 12 else 4
  | .recall => 12
  | .eret _ => 13
  | .reply id => if s.reqs.any (fun r => decide (r.id = id) && (match r.kind with | .fwcall _ _ => true | _ => false)) then 13 else 0
  | .yield => 15
  | .sleep => 15
  | .halt => 15
  | .parked _ => 9
  | _ => 0
/-- The stall code charged for a warp (R451): the lowest that holds, 1 where none does. (DEDUCED, log 68) -/
def warpCode (s : State) (w : Warp) : Nat :=
  let swapC := if w.swap = .swapped || w.swap = .readmitting then [3] else []
  let codes := (w.threads.map (threadCode s w)) ++ (readyPcs w).map (groupCode s w) ++ swapC
  (minNat (codes.filter (· ≠ 0))).getD 1
/-- A quadrant after one core cycle (R84, R450, R451). -/
def quadCycle (s : State) (q : Quad) : Quad :=
  let ws := s.warps.filter (fun w => decide (w.core = q.core) && decide (w.quad = q.quad))
  let n := min 16 (ws.filter (canStart s)).length
  let oldest := ws.foldl (fun (acc : Option Warp) w => match acc with | some v => if w.adm < v.adm then some w else acc | none => some w) none
  let code := match oldest with | none => none | some w => some (if q.issued then 0 else warpCode s w)
  { q with
    hist := aput 0 q.hist n (agetD q.hist n 0 + 1)
    stall := match code with | some k => aput 0 q.stall k (agetD q.stall k 0 + 1) | none => q.stall
    poolIdle := if !q.issued && ws.any poolStalled then q.poolIdle + 1 else 0
    issued := false }
/-- A thread after one core cycle: timed waits, of which a YIELD's runs while its warp has no other eligible group, and the den cycles of its
slot, of which three pass in two core cycles (R16, R295, R313, R314, R337, R403). (DEDUCED, log 74) -/
def threadCycle (odd alone : Bool) (t : Thread) : Thread :=
  let t1 := { t with den := t.den.map (fun d => { d with cycles := d.cycles + (if odd then 2 else 1) }) }
  match t.st with
  | .sleep => { t1 with cnt := if t.cnt > 1 then t.cnt - 1 else t.cnt }
  | .yield => { t1 with cnt := if alone && decide (t.cnt > 1) then t.cnt - 1 else t.cnt }
  | .halt => { t1 with cnt := if t.cnt > 1 then t.cnt - 1 else t.cnt }
  | .burrow _ _ => { t1 with cnt := t.cnt + 1 }
  | _ => t1
/-- A warp after one core cycle: results come nearer (R77). -/
def warpCycle (s : State) (odd : Bool) (w : Warp) : Warp :=
  { w.age 1 with
    since := w.since + 1
    threads := w.threads.map (threadCycle odd (eligiblePcs s w).isEmpty)
    ableFor := if canStart s w then w.ableFor + 1 else 0
    stepArm := w.stepArm.map (· + 1) }
/-- INC of a clock setting in units of 100 MHz: 1,114,112 ÷ setting to the nearest integer (R454). -/
def ncyInc (mult : Nat) : Nat := (2 * 1114112 + mult) / (2 * max 1 mult)
/-- Quadrants that hold warps and that State does not list yet. -/
def listQuads (s : State) : State :=
  s.warps.foldl (fun acc w =>
    if acc.quads.any (fun q => decide (q.core = w.core) && decide (q.quad = w.quad)) then acc
    else { acc with quads := acc.quads ++ [idleQuad acc w.core w.quad] }) s
/-- CORE_CYCLE (R450 to R454): one cycle of a die's cores. A die that relocks, or a package without its reference, makes none. -/
def execCoreCycle (die : Nat) (s : State) : Host.Outcome State Fault Refusal :=
  let d := findDie s die
  if s.refLost || d.relock.isSome || d.tripped then .next s
  else
    let s0 := listQuads s
    let odd := d.cyc.getLsbD 0
    let s1 := modDie s0 die (fun x => { x with cyc := x.cyc + 1, ncyAcc := x.ncyAcc + BitVec.ofNat 80 (ncyInc x.mult), stretch := x.stretch - 1 })
    .next { s1 with
      quads := s1.quads.map (fun q => if dieOf q.core = die then quadCycle s0 q else q)
      warps := s1.warps.map (fun w => if dieOf w.core = die then warpCycle s0 odd w else w) }
/-- REFERENCE_TICK (R453, R454): 10 ns pass on every die; on one that relocks %ncy goes on by 17. -/
def execReferenceTick (s : State) : Host.Outcome State Fault Refusal :=
  if s.refLost then .next s
  else .next { s with dies := s.dies.map (fun x =>
    match x.relock with
    | none => { x with refcnt := x.refcnt + 1 }
    | some n => { x with refcnt := x.refcnt + 1, ncyAcc := x.ncyAcc + BitVec.ofNat 80 (17 * 65536), relock := some (n - 1) }) }

end Sys2Proof.Machine
end

