-- ==== Sys2Proof/Machine/Reliability.lean ====
section
/-! DEFINITION. Reliability (R24, R456 to R470, R475): the kill of a gang, the comparison of twins, corrected errors, and the failures of
links and joins. -/

namespace Sys2Proof.Machine

/-- A cause that kills (R459). -/
def killing (k : Nat) : Bool := k == 0x80 || k == 0x84 || k == 0x85
/-- A pending cause that kills its gang: data consumed, not a cause that an answer gives. -/
def CauseRec.kills (r : CauseRec) : Bool := killing r.cause && !r.after && !r.trap
/-- GANG_KILL (R459 to R463): the kill that a warp of the gang has pending, with what its record says; or, where none has one, that of
the uncorrectable error that the warp given meets in a register, a tile, or its block's scratchpad. -/
def execGangKill (lk blk : Nat) (k : KillMet) (s : State) : Host.Outcome State Fault Refusal :=
  match launchGang s lk blk with
  | none => .next s
  | some (l, g) =>
    match (gangWarps s l g).findSome? (fun w => (w.pend.find? CauseRec.kills).map (fun r => (w, r))) with
    | some (w, r) => .next (killFor s w.name r.cause r.faddr r.pc (maskOf r.tids))
    | none =>
      match findWarp s { launch := lk, blk := blk, shadow := false, w := k.w } with
      | some w => if killing k.cause then .next (killFor s w.name k.cause (if k.cause = 0x84 then 0 else k.addr) (haltPc w) (maskOf (aliveTids w))) else .next s
      | none => .next s

/-- The threads of a warp that wait at a compare point, by number and program counter (R465). -/
def comparePoint (w : Warp) : List (Nat × Nat × Nat) := (w.threads.filter (fun t => t.st == .retry 2)).map (fun t => (t.tid, t.pc, t.rk))
/-- TWIN_COMPARE (R465, R467): both runs of a warp wait at a compare point. Where the points and the signatures match, the primary's
waiting stores perform and both go on; otherwise both are killed. A waiting store on a granule that is being copied is waited for
(R427). -/
def execTwinCompare (w : WName) (s : State) : Host.Outcome State Fault Refusal :=
  match findWarp s { w with shadow := false }, findWarp s { w with shadow := true }, findLaunch s w.launch with
  | some a, some b, some l =>
    if a.compare ≠ 1 || b.compare ≠ 1 || !gangRuns s a.name then .next s
    else if decide (a.sig = b.sig) && decide (comparePoint a = comparePoint b) then
      (if checkedHeld s a then .next s else .next (twinMatch s l a))
    else .next (killFor (countErr s l.part 8) a.name 0x82 0 (haltPc a) (maskOf ((comparePoint a).map (·.1))))
  | _, _, _ => .next s

/-- CORRECTED_ERROR (R456, R457, R470): a correctable error is corrected in place, changing no value, and counted: 0 HBM4, 1 L2, 2 on a
core. (DEDUCED, log 57) -/
def execCorrectedError (part ctr : Nat) (s : State) : Host.Outcome State Fault Refusal :=
  if ctr ≤ 2 then .next (countErr s part ctr) else .next s
/-- PATROL_SCRUB (R457): a controller reads an address and writes back what it corrects: no value changes. -/
def execPatrolScrub (_pa : Nat) (s : State) : Host.Outcome State Fault Refusal := .next s

/-- State with a link port changed. -/
def modPort (s : State) (k : Nat) (f : Port → Port) : State := { s with ports := s.ports.map (fun p => if p.id = k then f p else p) }
/-- LANE_FAILURE (R24, R469): a port at full width drops to half. (DEDUCED, log 58, DESIGN CHOICE, log 91) -/
def execLaneFailure (port : Nat) (s : State) : Host.Outcome State Fault Refusal :=
  .next (modPort s port (fun p => { p with lanes := min p.lanes 4 }))
/-- Management firmware runs (R495): no update has stopped it. -/
def fwRuns (s : State) : Bool := s.booted && decide (s.fw.phase = .idle)
/-- LINK_RETRAIN (R24, R475): management firmware trains a port at full width, at half width or disabled; both ends set up new keys. (DESIGN CHOICE, log 91) -/
def execLinkRetrain (port lanes : Nat) (s : State) : Host.Outcome State Fault Refusal :=
  if fwRuns s && (lanes == 8 || lanes == 4 || lanes == 0) then
    .next (modPort s port (fun p => { p with lanes := lanes, epoch := p.epoch + 1, laneErrs := 0 }))
  else .next s
/-- UCIE_MODULE_FAILURE (R469): a module beyond repair leaves its join. -/
def execUcieModuleFailure (join : Nat) (s : State) : Host.Outcome State Fault Refusal :=
  .next { s with joins := s.joins.map (fun j => if j.1 = join then (j.1, j.2 - 1) else j) }
/-- FLIT_AUTH_FAILURE (R475): the flit is dropped and replayed, and counts as a lane error. (DESIGN CHOICE, log 70) -/
def execFlitAuthFailure (port : Nat) (s : State) : Host.Outcome State Fault Refusal :=
  .next (modPort s port (fun p => { p with laneErrs := p.laneErrs + 1, replays := p.replays + 1 }))
/-- LINK_KEY_RENEWAL (R475): 2³² flits have passed since the last, and the port's keys are renewed. (DESIGN CHOICE, log 70) -/
def execLinkKeyRenewal (port : Nat) (s : State) : Host.Outcome State Fault Refusal :=
  .next (modPort s port (fun p => { p with epoch := p.epoch + 1 }))

end Sys2Proof.Machine
end

