-- ==== Sys2Proof/Machine/Platform.lean ====
section
/-! DEFINITION. The platform (R3, R15, R17, R28, R408, R471 to R498): key slots, scrub jobs, management firmware's functions and its live
update, clocks and power, boot and resets, and the host's accesses. -/

namespace Sys2Proof.Machine

/-! ## Key slots -/

/-- A slot is bound to a launch of the partition that has a resident gang or a saved image (R484). -/
def slotBound (s : State) (p slot : Nat) : Bool :=
  s.launches.any (fun l => decide (l.part = p) && l.protected_ && decide (l.key = slot) &&
    s.gangs.any (fun g => decide (g.launch = l.lk) && g.st != .finished && g.st != .killed))
/-- State with a key slot in a state; an EMPTY slot is not listed. -/
def setKey (s : State) (slot : Nat) (k : KeySt) : State := { s with keys := aput .empty s.keys slot k }
/-- Bits 1:0 of the status word. -/
def keyCode (k : KeySt) : Nat := match k with | .empty => 0 | .loaded => 1 | .zeroising => 2
/-- The status word of KSLOT (R484). -/
def kslotWord (s : State) (status slot : Nat) : Word := BitVec.ofNat 32 (status * 2 ^ 28 + keyCode (keyState s slot))
/-- How KSLOT uses its fields. -/
def kslotUse (f : FWord) : Use := { d := 1, a := 1, q := false, sup := true, lock := true, bad := !isSZ f.a.toNat }
/-- Issue KSLOT on a slot that is the partition's. -/
def kslotOp (f : FWord) (x : LExt) (s : State) (body : Ctx → FWord → List Nat → Nat → State) : Host.Outcome State Fault Refusal :=
  issue (kslotUse f) f (some x) s (fun c f' tids =>
    let slot := x.xbits 0 8
    if !(findPart s (partOf c.l.lk)).kmask.getLsbD slot then
      finish s c tids (schedF f) (giveWord c (kslotUse f) f' tids c.w (kslotWord s 1 slot))
    else body c f' tids slot)
/-- The handle that a number names (R480, R484): unused, and made for this slot. (DESIGN CHOICE, log 71) -/
def findHandle (s : State) (h : Word) (slot : Nat) : Bool := s.handles.any (fun k => decide (k.handle = h) && decide (k.slot = slot) && !k.used)
/-- KSLOT.load (R484). A slot that is being zeroised is waited for. -/
def execKslotLoad (f : FWord) (x : LExt) (s : State) : Host.Outcome State Fault Refusal :=
  kslotOp f x s (fun c f' tids slot =>
    let h := readCode s c c.w (tids.take 1) (tids.headD 0) f'.a.toNat
    let done (st : State) (status : Nat) : State := finish st c tids (schedF f) (giveWord c (kslotUse f) f' tids c.w (kslotWord st status slot))
    if keyState s slot = .zeroising then stall s c 14
    else if !findHandle s h slot then done s 3
    else done (setKey { s with handles := s.handles.map (fun k => if k.handle = h ∧ k.slot = slot then { k with used := true } else k) } slot .loaded) 0)
/-- Lines held under a slot are dropped without write-back, and the slot is being zeroised (R484). -/
def zeroise (s : State) (slot : Nat) : State := setKey { s with l1 := s.l1.filter (fun ln => decide (ln.key ≠ slot)) } slot .zeroising
/-- KSLOT.zero (R484): its status, and its flag, come when the slot is EMPTY. (DEDUCED, log 72) -/
def execKslotZero (f : FWord) (x : LExt) (s : State) : Host.Outcome State Fault Refusal :=
  kslotOp f x s (fun c f' tids slot =>
    if slotBound s (partOf c.l.lk) slot then finish s c tids (schedF f) (giveWord c (kslotUse f) f' tids c.w (kslotWord s 2 slot))
    else
      let (id, s1) := freshId (zeroise s slot)
      let m : MemOp := { seg := 0, unit := 1, size := 4, align := 4, use := .load, kind := .kslot slot, dcode := f'.d.toNat, dn := 1 }
      let r : Req := { mkReq s c m id f.sig.toNat tids [] with order := 0 }
      finish { s1 with reqs := s1.reqs ++ [r] } c tids (schedF f).sent (raiseFlag c.w c.w.depth none f.sig.toNat))
/-- KSLOT.query (R484). -/
def execKslotQuery (f : FWord) (x : LExt) (s : State) : Host.Outcome State Fault Refusal :=
  kslotOp f x s (fun c f' tids slot =>
    finish s c tids (schedF f) (giveWord c (kslotUse f) f' tids c.w (kslotWord s 0 slot)))
/-- One word for every thread of a request. -/
def wordFor (r : Req) (x : Word) : List (Nat × List Word) := r.tids.map (fun t => (t, [x]))
/-- ZEROISATION_COMPLETE (R484): the key is overwritten, the slot is EMPTY, and the KSLOT.zero that asked for it completes. (DEDUCED, log 72) -/
def execZeroisationComplete (slot : Nat) (s : State) : Host.Outcome State Fault Refusal :=
  if keyState s slot ≠ .zeroising then .next s
  else
    let s1 := setKey s slot .empty
    .next ((s.reqs.filter (fun r => decide (r.kind = .kslot slot) && !r.done)).foldl (fun acc r =>
      deliverReply acc r (wordFor r (kslotWord s1 0 slot))) s1)

/-! ## Scrub jobs -/

/-- The status word of SCRUB (R486). -/
def scrubWord (status : Nat) : Word := BitVec.ofNat 32 (status * 2 ^ 28)
/-- The cores of a partition's clusters. -/
def coresOf (p : Part) : List Nat := (p.clusters.map (fun k => (List.range 4).map (· + 4 * k))).flatten
/-- Jobs that are not complete. -/
def openJobs (s : State) : Nat := (s.scrub.filter (fun j => decide (j.done < j.units.length))).length
/-- A job accepted: it holds its resources from now on (R487). -/
def addJob (s : State) (p kind req : Nat) (units : List Nat) : State :=
  let (id, s1) := freshId s
  { s1 with scrub := s1.scrub ++ [{ id := id, part := p, kind := kind, units := units, done := 0, resumed := false, reqId := req }] }
/-- How SCRUB uses its fields. -/
def scrubUse (f : FWord) : Use := { d := 1, a := 2, q := false, zero := false, sup := true, lock := true, bad := !isS f.a.toNat }
/-- Answer a SCRUB: refused with a status, or accepted with the units of its job (R486). -/
def scrubAnswer (s : State) (c : Ctx) (f f' : FWord) (tids : List Nat) (kind : Nat) (out : Except Nat (List Nat)) : State :=
  match out with
  | .error st => finish s c tids (schedF f) (giveWord c (scrubUse f) f' tids c.w (scrubWord st))
  | .ok units =>
    let (id, s1) := freshId s
    let m : MemOp := { seg := 0, unit := 1, size := 4, align := 4, use := .load, kind := .scrub id }
    let r : Req := { mkReq s c m id f.sig.toNat tids [] with order := 0 }
    let s2 := addJob { s1 with reqs := s1.reqs ++ [r] } (partOf c.l.lk) kind id units
    finish s2 c tids (schedF f).sent (raiseFlag (giveWord c (scrubUse f) f' tids c.w (scrubWord 0)) c.w.depth none f.sig.toNat)
/-- The two registers of the pair that A names. -/
def pairOf (s : State) (c : Ctx) (f : FWord) (tids : List Nat) : Nat × Nat :=
  let p := readGroup s c c.w (tids.take 1) (tids.headD 0) f.a.toNat 2
  ((p.getD 0 0).toNat, (p.getD 1 0).toNat)
/-- SCRUB.cores (R486). -/
def execScrubCores (f : FWord) (x : LExt) (s : State) : Host.Outcome State Fault Refusal :=
  issue (scrubUse f) f (some x) s (fun c f' tids =>
    let (first, n) := pairOf s c f' tids
    let mine := coresOf (findPart s (partOf c.l.lk))
    let units := (List.range (min n 961)).map (· + first)
    scrubAnswer s c f f' tids 0 (
      if n = 0 || n > 960 || units.any (fun k => !mine.contains k) then .error 1
      else if s.blocks.any (fun b => units.contains b.core) then .error 2
      else if openJobs s ≥ 16 then .error 3
      else .ok units))
/-- The frame that a page's job scrubs (R486): where the page is, or where it will have landed; none for a page that is absent. -/
def scrubFrame (s : State) (p va : Nat) : Option (Nat × LeafAt) :=
  match walkFrom s.mem va (findPart s p).troot 5 with
  | none => none
  | some l =>
    let fr := bitsOf l.pte.toNat 12 40 * 4096 + va % 2 ^ l.shift
    match pteTier l.pte with
    | 0 => none
    | 5 => some (frameAddr 5 fr, l)
    | 2 => some (match tierMoving s p (pageOf va) with | some r => frameAddr r.target r.frame + va % pageBytes | none => fr, l)
    | 3 => some (match tierMoving s p (pageOf va) with | some r => frameAddr r.target r.frame + va % pageBytes | none => fr, l)
    | _ => some (fr, l)
/-- The frames of a run of pages in ascending order, or the status that refuses them (R486). -/
def scrubFrames (s : State) (p : Nat) : Nat → Nat → Except Nat (List Nat)
  | 0, _ => .ok []
  | n + 1, va =>
    match scrubFrame s p va with
    | none => .error 4
    | some (fr, l) =>
      let out := !(decide (fr ≥ flashBase) || inRanges s p (if isCxl fr then 4 else 1) fr 4096)
      let bound := decide (keyState s (pteKey l.pte) = .loaded) && slotBound s p (pteKey l.pte)
      match scrubFrames s p n (va + 4096) with
      | .error e => .error (if out then 1 else if bound then min 2 e else e)
      | .ok fs => if out then .error 1 else if bound then .error 2 else .ok (fr / 4096 :: fs)
/-- SCRUB.pages (R486). -/
def execScrubPages (f : FWord) (x : LExt) (s : State) : Host.Outcome State Fault Refusal :=
  issue (scrubUse f) f (some x) s (fun c f' tids =>
    let (lo, hi) := pairOf s c f' tids
    let va := lo + hi * 2 ^ 32
    let n := x.imm32.toNat
    scrubAnswer s c f f' tids 1 (
      if va % 4096 ≠ 0 || n = 0 || n ≥ 2 ^ 24 then .error 1
      else match scrubFrames s (partOf c.l.lk) n va with
        | .ok fs => if openJobs s ≥ 16 then .error 3 else .ok fs
        | .error e => .error (if e = 4 && openJobs s ≥ 16 then 3 else e)))
/-- One unit of a job scrubbed (R486): a core's L1 lines and bricks are gone; a frame's bytes are zero, its poison is gone. -/
def scrubUnit (s : State) (kind u : Nat) : State :=
  if kind = 0 then
    { s with
      l1 := s.l1.filter (fun ln => decide (ln.core ≠ u))
      bricks := s.bricks.filter (fun b => decide (b.core ≠ u)) }
  else
    let a := u * 4096
    { s with
      mem := s.mem.filter (fun e => !(decide (a ≤ e.1) && decide (e.1 < a + 4096)))
      poison := s.poison.filter (fun g => !(decide (a ≤ g * 64) && decide (g * 64 < a + 4096))) }
/-- A unit waits for the landing of a move to its frame (R486). -/
def unitWaits (s : State) (kind u : Nat) : Bool :=
  kind == 1 && s.tier.any (fun r => r.moving &&
    decide (frameAddr r.target r.frame ≤ u * 4096) && decide (u * 4096 < frameAddr r.target r.frame + pageBytes))
/-- The head job of a partition goes on by up to `n` units; with its last unit it is complete, and its flag is lowered (R486, R487). -/
def scrubRun (s : State) (p : Nat) : Nat → State
  | 0 => s
  | n + 1 =>
    match jobsOf s p with
    | [] => s
    | j :: _ =>
      let u := j.units.getD j.done 0
      if unitWaits s j.kind u then s
      else
        let s1 := scrubUnit s j.kind u
        if j.done + 1 < j.units.length then
          scrubRun { s1 with scrub := s1.scrub.map (fun k => if k.id = j.id then { k with done := k.done + 1 } else k) } p n
        else
          let s2 := { s1 with scrub := s1.scrub.filter (fun k => decide (k.id ≠ j.id)) }
          match findReq s2 j.reqId with
          | some r => completeReq s2 r (fun w => w)
          | none => s2
/-- SCRUB_JOB_COMPLETE (R487): the head job of a partition is done, and what it held is free. -/
def execScrubJobComplete (part : Nat) (s : State) : Host.Outcome State Fault Refusal :=
  .next (match jobsOf s part with | [] => s | j :: _ => scrubRun s part (j.units.length - j.done))

/-! ## Management firmware's functions -/

/-- A call of a function that waits for its answer, while management firmware runs (R404, R480, R495). -/
def callOf (s : State) (id fn : Nat) : Option (Req × List Word × Nat) :=
  match findReq s id with
  | none => none
  | some r => match r.kind with
    | .fwcall k args => if k = fn && !r.done && fwRuns s then some (r, args, partOf r.w.launch) else none
    | _ => none
/-- Argument `k` of a call. -/
def argAt (args : List Word) (k : Nat) : Nat := (args.getD k 0).toNat
/-- The 64-bit number of arguments 0 and 1. -/
def argAddr (args : List Word) : Nat := argAt args 0 + argAt args 1 * 2 ^ 32
/-- Answer a call with a word that its arguments give. -/
def answerCall (s : State) (id fn : Nat) (f : Req → List Word → Nat → State × Nat) : Host.Outcome State Fault Refusal :=
  match callOf s id fn with
  | none => .next s
  | some (r, args, p) =>
    let (s1, x) := f r args p
    .next (answerReq s1 r (BitVec.ofNat 32 x))
/-- PINFO (R480): the partition's clusters, counted. -/
def execPinfo (id : Nat) (s : State) : Host.Outcome State Fault Refusal :=
  answerCall s id 0x0001 (fun _ _ p => (s, (findPart s p).clusters.length))
/-- The frames that FPOOLADD and FPOOLDEL name: (tier, place, base) of each; none where an argument is invalid, or a locator lies beyond the
flash tier (R19, R21). -/
def poolArgs (s : State) (args : List Word) : Option (List (Nat × Nat × Nat)) :=
  let base := argAddr args
  let n := argAt args 2
  let tier := argAt args 3 % 16
  let place := argAt args 3 / 16 % 4
  if !(tier == 1 || tier == 4 || tier == 5) || base % pageBytes ≠ 0 || n = 0 || n > 2 ^ 24 ||
      decide (tier = 5 ∧ base + n * pageBytes > flashBytes s) then none
  else some ((List.range n).map (fun k => (tier, if tier = 5 then 0 else place, base + k * pageBytes)))
/-- A frame lies in the ranges that a partition owns in a tier (R273). -/
def ownsFrame (s : State) (p : Nat) (e : Nat × Nat × Nat) : Bool :=
  (findPart s p).ranges.any (fun r => decide (r.1 = e.1) && decide (r.2.1 ≤ e.2.2) && decide (e.2.2 + pageBytes ≤ r.2.1 + r.2.2))
/-- A 2 MiB frame that a scrub job holds a part of (R487). -/
def frameHeld (s : State) (e : Nat × Nat × Nat) : Bool :=
  let a := frameAddr e.1 e.2.2
  s.scrub.any (fun j => j.kind == 1 && decide (j.done < j.units.length) && j.units.any (fun u => decide (a ≤ u * 4096) && decide (u * 4096 < a + pageBytes)))
/-- FPOOLADD (R273, R480, R487). -/
def execFpooladd (id : Nat) (s : State) : Host.Outcome State Fault Refusal :=
  answerCall s id 0x0002 (fun _ args p =>
    match poolArgs s args with
    | none => (s, 2)
    | some fs =>
      if fs.any (fun e => !ownsFrame s p e || frameHeld s e) then (s, 3)
      else ((fs.filter (fun e => !(findPart s p).pool.contains e)).foldl (fun acc e => poolGive acc p e) s, 0))
/-- FPOOLDEL (R480): frames that are not free in the pool are an invalid argument. -/
def execFpooldel (id : Nat) (s : State) : Host.Outcome State Fault Refusal :=
  answerCall s id 0x0003 (fun _ args p =>
    match poolArgs s args with
    | none => (s, 2)
    | some fs => if fs.any (fun e => !(findPart s p).pool.contains e) then (s, 2) else (fs.foldl (fun acc e => poolTake acc p e) s, 0))
/-- KWRAP (R480): a key handle for a slot of the partition, or status 2 where the wrapped key does not unwrap. (DESIGN CHOICE, log 71) -/
def execKwrap (id : Nat) (s : State) : Host.Outcome State Fault Refusal :=
  answerCall s id 0x0010 (fun _ args p =>
    let slot := argAt args 2
    if slot ≥ 256 then (s, 2)
    else if !(findPart s p).kmask.getLsbD slot then (s, 3)
    else match xlate s p (argAddr args) .load none with
      | .park _ _ => (s, 2)
      | .ok _ =>
        if !Config.freePolicy s.free then (s, 2)
        else
          let h := Config.freeWord s.free
          ({ s with handles := s.handles ++ [{ handle := h, slot := slot, used := false }] }, h.toNat))
/-- 48 bytes of a digest. -/
def digest48 (bs : List Byte) : List Byte := (bs ++ List.replicate 48 0).take 48
/-- A digest that the root firmware holds. -/
def deviceDig (which arg : Nat) : List Byte := (List.range 48).map (Config.deviceDigest which arg)
/-- The 512 bytes of a quote on a launch (R485). -/
def quoteBytes (s : State) (l : Launch) (nonce : List Byte) : List Byte :=
  let body := toBytes 0x4F515447 4 ++ toBytes s.feat.toNat 4 ++ deviceDig 0 s.cfgRec.recver ++ deviceDig 1 0 ++ deviceDig 2 s.fw.version ++
    digest48 l.obj.codedig ++ digest48 l.pktdig ++ toBytes l.lid 4 ++ toBytes l.key 4 ++ (nonce ++ List.replicate 64 0).take 64
  body ++ (List.range 96).map (Config.ecdsaSign (Config.sha384 body)) ++ List.replicate 96 0
/-- ATTEST (R485): status 2 for a launch that is not protected or has neither a resident gang nor a saved image, and for a buffer that
cannot be reached. -/
def execAttest (id : Nat) (s : State) : Host.Outcome State Fault Refusal :=
  match callOf s id 0x0011 with
  | none => .next s
  | some (r, args, p) =>
    let bad : Host.Outcome State Fault Refusal := .next (answerReq s r 2)
    let va := argAddr args
    match findLaunch s (lkOf p (argAt args 2)) with
    | none => bad
    | some l =>
      if !l.protected_ || !s.gangs.any (fun g => decide (g.launch = l.lk) && g.st != .finished && g.st != .killed) then bad
      else match readVirt s p .load none (pagesFor 64) (va + argAt args 3) 64 with
        | .park _ none => .next s
        | .park _ (some _) => bad
        | .ok nonce _ =>
          match writeRun s p va (quoteBytes s l nonce) with
          | .wait => .next s
          | .fail => bad
          | .done s1 => .next (answerReq s1 r 0)
/-- LINKST (R480). -/
def execLinkst (id : Nat) (s : State) : Host.Outcome State Fault Refusal :=
  answerCall s id 0x0020 (fun _ args _ =>
    match s.ports.find? (fun q => decide (q.id = argAt args 0)) with
    | none => (s, 2)
    | some q => (s, (Config.linkWord q.lanes).toNat))
/-- PWRQ (R480). -/
def execPwrq (id : Nat) (s : State) : Host.Outcome State Fault Refusal :=
  answerCall s id 0x0030 (fun _ args _ =>
    if argAt args 0 ≥ 4 then (s, 2)
    else let d := findDie s (argAt args 0); (s, (Config.powerWord d.mult d.cap d.throttle).toNat))

/-! ## Live firmware update -/

/-- A partition in the hand-over record (R494). -/
def handPart (q : Part) : HandPart :=
  { id := q.id, clusters := q.clusters, quotas := [q.qhbm, q.qcxl, q.qflash], weights := q.weights, qosW := q.qosW, codeKeys := q.codeKeys
    pool := q.pool, cutSeq := q.cutSeq, ckptRegion := q.ckptRegion }
/-- A die in the hand-over record (R494). -/
def handDie (d : Die) : HandDie := { id := d.id, mult := d.mult, cap := d.cap, throttle := d.throttle, tripped := d.tripped }
/-- The hand-over record that the running image writes for an image of a version (R494). (DESIGN CHOICE, log 26) -/
def handOver (s : State) (version : Nat) : HandOver :=
  { format := 1, oldVersion := s.fw.version, newVersion := version, parts := s.parts.map handPart, records := s.launches
    forwards := (s.reqs.filter (fun r => (findWarp s r.w).isNone)).map (·.id), fabric := s.ports
    peers := (s.parts.map (fun q => q.fabric.map (fun e => (q.id, e.1, e.2)))).flatten, power := s.dies.map handDie
    calls := (s.reqs.filter (fun r => !r.done && (match r.kind with | .fwcall _ _ => true | _ => false))).map (·.id)
    cuts := s.cuts.map (fun k => (k.seq, k.committed)) }
/-- FW_UPDATE_LOAD (R493, R494): the image is checked, and the old one quiesces and writes its hand-over record; one that fails ends the
update. (DESIGN CHOICE, log 26) -/
def execFwUpdateLoad (version : Nat) (sigOk : Bool) (s : State) : Host.Outcome State Fault Refusal :=
  if fwRuns s && sigOk && decide (s.fw.stored ≤ version) then
    .next { s with fw := { s.fw with phase := .loaded version, handover := some (handOver s version) } }
  else .next s
/-- FW_UPDATE_SWITCH (R493): the management cores start in the new half. -/
def execFwUpdateSwitch (s : State) : Host.Outcome State Fault Refusal :=
  match s.fw.phase with
  | .loaded v => .next { s with fw := { s.fw with half := 1 - s.fw.half, phase := .switched v } }
  | _ => .next s
/-- FW_UPDATE_COMMIT (R493): the new image acknowledges, and the root firmware records its version. -/
def execFwUpdateCommit (s : State) : Host.Outcome State Fault Refusal :=
  match s.fw.phase with
  | .switched v => .next { s with fw := { s.fw with version := v, stored := max s.fw.stored v, phase := .idle } }
  | _ => .next s
/-- FW_UPDATE_ROLLBACK (R496): the old half runs again. -/
def execFwUpdateRollback (s : State) : Host.Outcome State Fault Refusal :=
  match s.fw.phase with
  | .switched _ => .next { s with fw := { s.fw with half := 1 - s.fw.half, phase := .idle } }
  | _ => .next s

/-! ## Clocks and power -/

/-- A die begins to relock to a setting: 2 µs are 200 ticks of the reference (R15). -/
def beginRelock (d : Die) (mult : Nat) : Die := { d with relock := some 200, mult := mult, heldStep := none }
/-- A step of a die's clock asked for (R15): held while the die relocks. -/
def stepClock (d : Die) (mult : Nat) : Die :=
  match d.relock with
  | some _ => { d with heldStep := some mult }
  | none => if d.mult = mult then { d with heldStep := none } else beginRelock d mult
/-- CLOCK_STEP_REQUEST (R15, R497, R498): management firmware sets a die's clock, in units of 100 MHz from 8 to 19, and its power cap in watts
where it gives one. A step up waits for the end of throttling; a later request takes the place of one that waits. (DESIGN CHOICE, log 75) -/
def execClockStepRequest (die : Nat) (ask : ClockAsk) (s : State) : Host.Outcome State Fault Refusal :=
  if !fwRuns s || ask.mult < 8 || ask.mult > 19 then .next s
  else .next (modDie s die (fun d0 =>
    let d := match ask.cap with | some w => { d0 with cap := w } | none => d0
    if d.throttle > 0 && d.mult < ask.mult then { d with heldStep := some ask.mult } else stepClock d ask.mult))
/-- PLL_RELOCK_COMPLETE (R15): the relock ends, and a step that was held begins. -/
def execPllRelockComplete (die : Nat) (s : State) : Host.Outcome State Fault Refusal :=
  .next (modDie s die (fun d =>
    match d.relock with
    | none => d
    | some _ => match d.heldStep with
      | some m => if m = d.mult || (d.throttle > 0 && d.mult < m) then { d with relock := none } else beginRelock d m
      | none => { d with relock := none }))
/-- The setting from which a step of a die counts: the held target while a step is held during a relock. R15 and R498 do not say from which a
hardware step-down counts then. (DESIGN CHOICE, log 75) -/
def Die.target (d : Die) : Nat := match d.relock, d.heldStep with | some _, some m => m | _, _ => d.mult
/-- A window over a cap, or too hot (R498): 100 MHz down, or at 0.8 GHz one step of throttling. -/
def capStep (d : Die) : Die :=
  if d.target > 8 then stepClock d (d.target - 1) else { d with throttle := min 3 (d.throttle + 1) }
/-- A window under its cap (R498): one step of throttling back; after the last a step up that was held begins. -/
def easeStep (d : Die) : Die :=
  if d.throttle > 1 then { d with throttle := d.throttle - 1 }
  else match d.heldStep, d.relock with
    | some m, none => stepClock { d with throttle := 0, heldStep := none } m
    | _, _ => { d with throttle := 0 }
/-- A die's share of the package limit (R27, R28, R498): a quarter of what the limit leaves beside the power of R27's other parts, so that the
dies' caps keep the total within the limit. (DESIGN CHOICE, log 75) -/
def shareOf (s : State) : Nat := (s.cfgRec.plimit - (if s.cfgRec.order = 0 then 480 else 560)) / 4
/-- The power cap of a die in watts (R498): its share of the package limit, or the lower cap that management firmware has set. -/
def capOf (s : State) (d : Die) : Nat := if d.cap = 0 then shareOf s else min d.cap (shareOf s)
/-- POWER_WINDOW (R498): a 1 ms window of a die ends with its power and junction temperature. -/
def execPowerWindow (die watts degC : Nat) (s : State) : Host.Outcome State Fault Refusal :=
  .next (modDie s die (fun d => if watts > capOf s d || degC ≥ 105 then capStep d else easeStep d))
/-- THERMAL_TRIP (R498): a die at 115 °C holds its cores in reset; every gang resident there is killed with cause 0x80. (DESIGN CHOICE, log 75) -/
def execThermalTrip (die : Nat) (s : State) : Host.Outcome State Fault Refusal :=
  let hot := s.warps.filter (fun w => dieOf w.core == die)
  .next (hot.foldl (fun acc w =>
    if (findWarp acc w.name).isSome then killFor acc { w.name with shadow := w.name.shadow } 0x80 0 (haltPc w) (maskOf (aliveTids w)) else acc)
    (modDie s die (fun d => { d with tripped := true })))
/-- SUPPLY_DROOP (R28, R497): the core clock is stretched for at most 64 cycles. -/
def execSupplyDroop (die : Nat) (s : State) : Host.Outcome State Fault Refusal := .next (modDie s die (fun d => { d with stretch := 64 }))

/-! ## Boot and resets -/

/-- A partition's resources stay as management firmware set them; its registers are as after reset (R477, R478). -/
def resetPart (q : Part) : Part :=
  { id := q.id, clusters := q.clusters, qhbm := q.qhbm, qcxl := q.qcxl, qflash := q.qflash, kmask := q.kmask, protok := q.protok
    weights := q.weights, qosW := q.qosW, pool := q.pool, ranges := q.ranges, saveArea := q.saveArea, codeKeys := q.codeKeys
    ckptRegion := q.ckptRegion, fabric := q.fabric, nextToken := q.nextToken, cutSeq := q.cutSeq, troot := q.troot, fqvec := q.fqvec }
/-- Every launch and what belongs to it is gone; what is kept outlives a reset that does not cut the power (R488, R490, R496). (DEDUCED, log 76) -/
def packageReset (s : State) : State :=
  { State.reset with
    cfgRec := s.cfgRec, recverMax := s.recverMax, mem := s.mem, poison := s.poison, scrub := s.scrub, refLost := s.refLost
    parts := s.parts.map (fun q => { resetPart q with troot := 0, fqvec := 0, qosW := [] })
    fw := { s.fw with half := match s.fw.phase with | .switched _ => 1 - s.fw.half | _ => s.fw.half, phase := .idle, handover := none }
    agenda := s.agenda, turn := s.turn, free := s.free, nextId := s.nextId }
/-- REFERENCE_CLOCK_LOSS (R17): without its reference the package is held in reset. -/
def execReferenceClockLoss (lost : Bool) (s : State) : Host.Outcome State Fault Refusal :=
  if lost then .next { packageReset s with refLost := true } else .next { s with refLost := false }
/-- The configuration record passes its check (R491). -/
def cfgOk (s : State) : Bool :=
  let r := s.cfgRec
  decide (r.magic = 0x47464352) && r.mbz && decide (r.order ≤ 2) && decide (r.featen < 2 ^ 15) &&
  !(decide (r.order = 2) && (bitOf r.featen 0 || bitOf r.featen 1)) && !(decide (r.order ≠ 0) && !bitOf r.featen 14) &&
  r.sigOk && decide (s.recverMax ≤ r.recver)
/-- %feat (R408): FEATEN's bits, bit 14 where a flash target answers, and the stepping. -/
def featOf (r : CfgRec) : Word :=
  BitVec.ofNat 32 (r.step * 2 ^ 24 + r.featen % 2 ^ 14 + (if bitOf r.featen 14 && r.flashFitted then 2 ^ 14 else 0))
/-- PACKAGE_BOOT (R3, R408, R488, R490): the record is checked, %feat set, scrub jobs resumed, and the partitions are ready. A package
whose record fails, or that has no reference clock, stays in reset. -/
def execPackageBoot (s : State) : Host.Outcome State Fault Refusal :=
  if s.booted || s.refLost || !cfgOk s then .next s
  else .next { s with
    feat := featOf s.cfgRec, booted := true, recverMax := max s.recverMax s.cfgRec.recver
    scrub := s.scrub.map (fun j => { j with resumed := true })
    keys := aput .empty s.keys 0 .loaded
    parts := s.parts.map (fun q => { q with ready := true }) }
/-- POWER_LOSS (R488): memory but for the flash tier is gone, every key slot is zeroised, no scrub job is left. (DEDUCED, log 76) -/
def execPowerLoss (s : State) : Host.Outcome State Fault Refusal :=
  .next { packageReset s with
    mem := s.mem.filter (fun e => decide (flashBase ≤ e.1)), poison := s.poison.filter (fun g => decide (flashBase ≤ g * 64))
    scrub := [], keys := [] }

/-- What a gang has sent performs before its launch is gone (R417). (DEDUCED, log 77) -/
def performSent (s : State) (f : WName → Bool) : State := (s.reqs.filter (fun r => f r.w && r.writes && !r.done)).foldl performOne s
/-- The partition's registers that a function-level reset sets back (R478). (DEDUCED, log 77) -/
def flrPart (q : Part) : Part := { resetPart q with ready := true }
/-- FUNCTION_LEVEL_RESET (R478, R488): the partition's gangs and images are discarded, its key slots zeroised, its cores handed to the
scrub engine, and its queues, fault queue, trace ring, debug registers and error counters are as after reset. -/
def execFunctionLevelReset (part : Nat) (s : State) : Host.Outcome State Fault Refusal :=
  if !s.booted then .next s else
  let f (n : WName) : Bool := decide (partOf n.launch = part)
  let lkOurs (lk : Nat) : Bool := decide (partOf lk = part)
  let q := findPart s part
  let s1 := vacate (performSent s f) f
  let s2 : State := { s1 with
    launches := s1.launches.filter (fun l => !lkOurs l.lk)
    gangs := s1.gangs.filter (fun g => !lkOurs g.launch)
    images := s1.images.filter (fun im => !lkOurs im.launch)
    cuts := s1.cuts.filter (fun k => decide (k.part ≠ part))
    granules := s1.granules.filter (fun g => decide (g.part ≠ part))
    chunks := s1.chunks.filter (fun k => !lkOurs k.lk)
    bricks := s1.bricks.filter (fun b => !lkOurs b.lk)
    fetchq := s1.fetchq.filter (fun e => !lkOurs e.lk)
    ends := s1.ends.filter (fun e => !lkOurs e.1)
    completed := s1.completed.filter (fun e => !lkOurs e.1)
    reqs := s1.reqs.filter (fun r => !f r.w)
    copies := s1.copies.filter (fun e => !f e.w)
    tlb := s1.tlb.filter (fun t => decide (t.part ≠ part)) }
  let s3 := ((List.range 256).filter (fun k => q.kmask.getLsbD k)).foldl zeroise s2
  let s4 := if q.clusters.isEmpty then s3 else addJob s3 part 0 0 (coresOf q)
  .next (modPart s4 part flrPart)

/-! ## Host accesses -/

/-- The physical address of an offset of a partition's HDM window (R472): its HBM4 ranges, one after another. (DEDUCED, log 78) -/
def hdmPa : List (Nat × Nat × Nat) → Nat → Option Nat
  | [], _ => none
  | r :: rest, off =>
    if r.1 ≠ 1 then hdmPa rest off
    else if off < r.2.2 then some (r.2.1 + off) else hdmPa rest (off - r.2.2)
/-- The virtual addresses at which a table of level `n + 1` maps a physical address, and whether the leaf has PROT (R214). (DEDUCED, log 78) -/
def mapsTo (m : List Host.Cell) (pa : Nat) : Nat → Nat → Nat → List (Nat × Bool)
  | 0, _, _ => []
  | n + 1, table, base =>
    let shift := 12 + 9 * n
    ((List.range 512).map (fun i =>
      let e := BitVec.ofNat 64 (readNat m (table + 8 * i) 8)
      let va := base + i * 2 ^ shift
      if !e.getLsbD 0 then []
      else if n = 0 || e.getLsbD 7 then
        (if pteTier e ≠ 5 && decide (bitsOf e.toNat 12 40 * 4096 ≤ pa) && decide (pa < bitsOf e.toNat 12 40 * 4096 + 2 ^ shift)
         then [(va + (pa - bitsOf e.toNat 12 40 * 4096), e.getLsbD 4)] else [])
      else mapsTo m pa n (pteFrame e) va)).flatten
/-- HOST_HDM_ACCESS (R427, R428, R472, R483, R487): a host access of `size` bytes at an offset of the partition's window, a write where it
carries bytes. A read changes nothing. A write to a frame that is mapped with PROT or held by a scrub job is dropped; one to a granule
that is being copied is held. -/
def execHostHdmAccess (part va size : Nat) (wdata : Option (List (BitVec 8))) (s : State) : Host.Outcome State Fault Refusal :=
  match wdata, hdmPa (findPart s part).ranges va with
  | some bs, some pa =>
    let maps := mapsTo s.mem pa 5 (findPart s part).troot 0
    if heldFrame s pa || maps.any (·.2) || maps.any (fun e => isCow s part e.1) || bs.length ≠ size || pa % 4096 + size > 4096 then .next s
    else .next (maps.foldl (fun acc e => markGranule acc part e.1) (writePhys s pa bs))
  | _, _ => .next s

end Sys2Proof.Machine
end

