-- ==== Sys2Proof/Machine/Prefix.lean ====
section
/-! DEFINITION. The prefix words (R51 to R58): each only sets the latch of the group being issued; the instruction they bind
to reads it there. -/

namespace Sys2Proof.Machine

/-- ORD (R52): the order, scope and colour of the memory instruction of its group. -/
def execOrd (o : OrdWord) (s : State) : Host.Outcome State Fault Refusal := .next { s with iss := { s.iss with ord := some o } }
/-- REP (R54, R55): the repetitions of the instruction of its group. -/
def execRep (r : RepWord) (s : State) : Host.Outcome State Fault Refusal := .next { s with iss := { s.iss with rep := some r } }

end Sys2Proof.Machine
end

