-- ==== Sys2Proof/Machine/Dispatch.lean ====
section
/-! DEFINITION. One arm per constructor of Instr: each a direct call of the meaning in its family's file. -/

namespace Sys2Proof.Machine

def exec (i : Instr) (s : State) : Host.Outcome State Fault Refusal :=
  match i with
  | .nop f => Sys2Proof.Machine.execNop f s
  | .movF f => Sys2Proof.Machine.execMovF f s
  | .movL f x => Sys2Proof.Machine.execMovL f x s
  | .iaddF f => Sys2Proof.Machine.execIaddF f s
  | .iaddL f x => Sys2Proof.Machine.execIaddL f x s
  | .isubF f => Sys2Proof.Machine.execIsubF f s
  | .isubL f x => Sys2Proof.Machine.execIsubL f x s
  | .iaddt f x => Sys2Proof.Machine.execIaddt f x s
  | .iadd64 f => Sys2Proof.Machine.execIadd64 f s
  | .imulF f => Sys2Proof.Machine.execImulF f s
  | .imulL f x => Sys2Proof.Machine.execImulL f x s
  | .imulh f => Sys2Proof.Machine.execImulh f s
  | .imulw f => Sys2Proof.Machine.execImulw f s
  | .imad f x => Sys2Proof.Machine.execImad f x s
  | .iminF f => Sys2Proof.Machine.execIminF f s
  | .iminL f x => Sys2Proof.Machine.execIminL f x s
  | .imaxF f => Sys2Proof.Machine.execImaxF f s
  | .imaxL f x => Sys2Proof.Machine.execImaxL f x s
  | .iabs f => Sys2Proof.Machine.execIabs f s
  | .ineg f => Sys2Proof.Machine.execIneg f s
  | .isetF f => Sys2Proof.Machine.execIsetF f s
  | .isetL f x => Sys2Proof.Machine.execIsetL f x s
  | .sel f x => Sys2Proof.Machine.execSel f x s
  | .andF f => Sys2Proof.Machine.execAndF f s
  | .andL f x => Sys2Proof.Machine.execAndL f x s
  | .orF f => Sys2Proof.Machine.execOrF f s
  | .orL f x => Sys2Proof.Machine.execOrL f x s
  | .xorF f => Sys2Proof.Machine.execXorF f s
  | .xorL f x => Sys2Proof.Machine.execXorL f x s
  | .andnF f => Sys2Proof.Machine.execAndnF f s
  | .andnL f x => Sys2Proof.Machine.execAndnL f x s
  | .not f => Sys2Proof.Machine.execNot f s
  | .blut f x => Sys2Proof.Machine.execBlut f x s
  | .shl f => Sys2Proof.Machine.execShl f s
  | .shr f => Sys2Proof.Machine.execShr f s
  | .sar f => Sys2Proof.Machine.execSar f s
  | .rol f => Sys2Proof.Machine.execRol f s
  | .funs f x => Sys2Proof.Machine.execFuns f x s
  | .bfe f x => Sys2Proof.Machine.execBfe f x s
  | .bfi f x => Sys2Proof.Machine.execBfi f x s
  | .popc f => Sys2Proof.Machine.execPopc f s
  | .clz f => Sys2Proof.Machine.execClz f s
  | .brev f => Sys2Proof.Machine.execBrev f s
  | .bpick f x => Sys2Proof.Machine.execBpick f x s
  | .lea f x => Sys2Proof.Machine.execLea f x s
  | .pset f => Sys2Proof.Machine.execPset f s
  | .pmov f => Sys2Proof.Machine.execPmov f s
  | .faddF f => Sys2Proof.Machine.execFaddF f s
  | .faddL f x => Sys2Proof.Machine.execFaddL f x s
  | .fsubF f => Sys2Proof.Machine.execFsubF f s
  | .fsubL f x => Sys2Proof.Machine.execFsubL f x s
  | .fmulF f => Sys2Proof.Machine.execFmulF f s
  | .fmulL f x => Sys2Proof.Machine.execFmulL f x s
  | .ffmaF f => Sys2Proof.Machine.execFfmaF f s
  | .ffmaL f x => Sys2Proof.Machine.execFfmaL f x s
  | .fmin f => Sys2Proof.Machine.execFmin f s
  | .fmax f => Sys2Proof.Machine.execFmax f s
  | .fsetF f => Sys2Proof.Machine.execFsetF f s
  | .fsetL f x => Sys2Proof.Machine.execFsetL f x s
  | .fabs f => Sys2Proof.Machine.execFabs f s
  | .fneg f => Sys2Proof.Machine.execFneg f s
  | .fdivF f => Sys2Proof.Machine.execFdivF f s
  | .fdivL f x => Sys2Proof.Machine.execFdivL f x s
  | .frcp f => Sys2Proof.Machine.execFrcp f s
  | .frsq f => Sys2Proof.Machine.execFrsq f s
  | .fsqrt f => Sys2Proof.Machine.execFsqrt f s
  | .fex2 f => Sys2Proof.Machine.execFex2 f s
  | .flg2 f => Sys2Proof.Machine.execFlg2 f s
  | .fsinp f => Sys2Proof.Machine.execFsinp f s
  | .fcosp f => Sys2Proof.Machine.execFcosp f s
  | .frnd f => Sys2Proof.Machine.execFrnd f s
  | .fclass f => Sys2Proof.Machine.execFclass f s
  | .fscl f => Sys2Proof.Machine.execFscl f s
  | .pkadd f => Sys2Proof.Machine.execPkadd f s
  | .pkmul f => Sys2Proof.Machine.execPkmul f s
  | .pkfmaF f => Sys2Proof.Machine.execPkfmaF f s
  | .pkfmaL f x => Sys2Proof.Machine.execPkfmaL f x s
  | .pkmin f => Sys2Proof.Machine.execPkmin f s
  | .pkmax f => Sys2Proof.Machine.execPkmax f s
  | .dadd f => Sys2Proof.Machine.execDadd f s
  | .dmul f => Sys2Proof.Machine.execDmul f s
  | .dfmaF f => Sys2Proof.Machine.execDfmaF f s
  | .dfmaL f x => Sys2Proof.Machine.execDfmaL f x s
  | .dmin f => Sys2Proof.Machine.execDmin f s
  | .dmax f => Sys2Proof.Machine.execDmax f s
  | .dset f => Sys2Proof.Machine.execDset f s
  | .cvtif f x => Sys2Proof.Machine.execCvtif f x s
  | .cvtfi f x => Sys2Proof.Machine.execCvtfi f x s
  | .cvtff f x => Sys2Proof.Machine.execCvtff f x s
  | .dp4i8 f => Sys2Proof.Machine.execDp4i8 f s
  | .dp8i4 f => Sys2Proof.Machine.execDp8i4 f s
  | .dp4f8 f => Sys2Proof.Machine.execDp4f8 f s
  | .dp8f4 f => Sys2Proof.Machine.execDp8f4 f s
  | .dp2bf f => Sys2Proof.Machine.execDp2bf f s
  | .qnt8 f x => Sys2Proof.Machine.execQnt8 f x s
  | .qnt4 f x => Sys2Proof.Machine.execQnt4 f x s
  | .dq8 f x => Sys2Proof.Machine.execDq8 f x s
  | .dq4 f x => Sys2Proof.Machine.execDq4 f x s
  | .scle f x => Sys2Proof.Machine.execScle f x s
  | .nrscl f x => Sys2Proof.Machine.execNrscl f x s
  | .nrsum f x => Sys2Proof.Machine.execNrsum f x s
  | .mma f x => Sys2Proof.Machine.execMma f x s
  | .mmat f x => Sys2Proof.Machine.execMmat f x s
  | .mzero f => Sys2Proof.Machine.execMzero f s
  | .mrd f => Sys2Proof.Machine.execMrd f s
  | .mwr f => Sys2Proof.Machine.execMwr f s
  | .mdrain f x => Sys2Proof.Machine.execMdrain f x s
  | .epld f x => Sys2Proof.Machine.execEpld f x s
  | .eparg f => Sys2Proof.Machine.execEparg f s
  | .mstat f => Sys2Proof.Machine.execMstat f s
  | .ld8F f => Sys2Proof.Machine.execLd8F f s
  | .ld8L f x => Sys2Proof.Machine.execLd8L f x s
  | .ld16F f => Sys2Proof.Machine.execLd16F f s
  | .ld16L f x => Sys2Proof.Machine.execLd16L f x s
  | .ld32F f => Sys2Proof.Machine.execLd32F f s
  | .ld32L f x => Sys2Proof.Machine.execLd32L f x s
  | .ld64F f => Sys2Proof.Machine.execLd64F f s
  | .ld64L f x => Sys2Proof.Machine.execLd64L f x s
  | .ld128F f => Sys2Proof.Machine.execLd128F f s
  | .ld128L f x => Sys2Proof.Machine.execLd128L f x s
  | .st8F f => Sys2Proof.Machine.execSt8F f s
  | .st8L f x => Sys2Proof.Machine.execSt8L f x s
  | .st16F f => Sys2Proof.Machine.execSt16F f s
  | .st16L f x => Sys2Proof.Machine.execSt16L f x s
  | .st32F f => Sys2Proof.Machine.execSt32F f s
  | .st32L f x => Sys2Proof.Machine.execSt32L f x s
  | .st64F f => Sys2Proof.Machine.execSt64F f s
  | .st64L f x => Sys2Proof.Machine.execSt64L f x s
  | .st128F f => Sys2Proof.Machine.execSt128F f s
  | .st128L f x => Sys2Proof.Machine.execSt128L f x s
  | .prf f => Sys2Proof.Machine.execPrf f s
  | .cctlWbl1 f => Sys2Proof.Machine.execCctlWbl1 f s
  | .cctlInvl1 f => Sys2Proof.Machine.execCctlInvl1 f s
  | .cctlInvl2 f => Sys2Proof.Machine.execCctlInvl2 f s
  | .cctlWball1 f => Sys2Proof.Machine.execCctlWball1 f s
  | .cctlInvall1 f => Sys2Proof.Machine.execCctlInvall1 f s
  | .cctlTlbinv f => Sys2Proof.Machine.execCctlTlbinv f s
  | .cctlTlbinvall f => Sys2Proof.Machine.execCctlTlbinvall f s
  | .ataddF f => Sys2Proof.Machine.execAtaddF f s
  | .ataddL f x => Sys2Proof.Machine.execAtaddL f x s
  | .atminF f => Sys2Proof.Machine.execAtminF f s
  | .atminL f x => Sys2Proof.Machine.execAtminL f x s
  | .atmaxF f => Sys2Proof.Machine.execAtmaxF f s
  | .atmaxL f x => Sys2Proof.Machine.execAtmaxL f x s
  | .atandF f => Sys2Proof.Machine.execAtandF f s
  | .atandL f x => Sys2Proof.Machine.execAtandL f x s
  | .atorF f => Sys2Proof.Machine.execAtorF f s
  | .atorL f x => Sys2Proof.Machine.execAtorL f x s
  | .atxorF f => Sys2Proof.Machine.execAtxorF f s
  | .atxorL f x => Sys2Proof.Machine.execAtxorL f x s
  | .atxchF f => Sys2Proof.Machine.execAtxchF f s
  | .atxchL f x => Sys2Proof.Machine.execAtxchL f x s
  | .atcas f x => Sys2Proof.Machine.execAtcas f x s
  | .atincw f x => Sys2Proof.Machine.execAtincw f x s
  | .atdecw f x => Sys2Proof.Machine.execAtdecw f x s
  | .atbadd f x => Sys2Proof.Machine.execAtbadd f x s
  | .atfaddF f => Sys2Proof.Machine.execAtfaddF f s
  | .atfaddL f x => Sys2Proof.Machine.execAtfaddL f x s
  | .red f x => Sys2Proof.Machine.execRed f x s
  | .fence f => Sys2Proof.Machine.execFence f s
  | .raceq f => Sys2Proof.Machine.execRaceq f s
  | .cpy f x => Sys2Proof.Machine.execCpy f x s
  | .cpyw f => Sys2Proof.Machine.execCpyw f s
  | .cptr f => Sys2Proof.Machine.execCptr f s
  | .cprst f => Sys2Proof.Machine.execCprst f s
  | .qfence f => Sys2Proof.Machine.execQfence f s
  | .bcpy f x => Sys2Proof.Machine.execBcpy f x s
  | .tmove f x => Sys2Proof.Machine.execTmove f x s
  | .tstat f x => Sys2Proof.Machine.execTstat f x s
  | .tcncl f x => Sys2Proof.Machine.execTcncl f x s
  | .cfetch f x => Sys2Proof.Machine.execCfetch f x s
  | .cstat f => Sys2Proof.Machine.execCstat f s
  | .cevict f => Sys2Proof.Machine.execCevict f s
  | .braF f => Sys2Proof.Machine.execBraF f s
  | .braL f x => Sys2Proof.Machine.execBraL f x s
  | .brx f => Sys2Proof.Machine.execBrx f s
  | .jmpf f x => Sys2Proof.Machine.execJmpf f x s
  | .callF f => Sys2Proof.Machine.execCallF f s
  | .callL f x => Sys2Proof.Machine.execCallL f x s
  | .ret f => Sys2Proof.Machine.execRet f s
  | .join f => Sys2Proof.Machine.execJoin f s
  | .exit f => Sys2Proof.Machine.execExit f s
  | .poll f => Sys2Proof.Machine.execPoll f s
  | .wpermF f => Sys2Proof.Machine.execWpermF f s
  | .wpermL f x => Sys2Proof.Machine.execWpermL f x s
  | .matchWarp f => Sys2Proof.Machine.execMatchWarp f s
  | .elect f => Sys2Proof.Machine.execElect f s
  | .wred f => Sys2Proof.Machine.execWred f s
  | .wscan f => Sys2Proof.Machine.execWscan f s
  | .ejctl f => Sys2Proof.Machine.execEjctl f s
  | .recall f => Sys2Proof.Machine.execRecall f s
  | .waitf f => Sys2Proof.Machine.execWaitf f s
  | .yield f => Sys2Proof.Machine.execYield f s
  | .sleep f => Sys2Proof.Machine.execSleep f s
  | .bar f => Sys2Proof.Machine.execBar f s
  | .bara f => Sys2Proof.Machine.execBara f s
  | .barw f => Sys2Proof.Machine.execBarw f s
  | .gbar f => Sys2Proof.Machine.execGbar f s
  | .gbara f => Sys2Proof.Machine.execGbara f s
  | .gbarw f => Sys2Proof.Machine.execGbarw f s
  | .qbind f x => Sys2Proof.Machine.execQbind f x s
  | .qclose f => Sys2Proof.Machine.execQclose f s
  | .qpopt f => Sys2Proof.Machine.execQpopt f s
  | .qstat f => Sys2Proof.Machine.execQstat f s
  | .qfree f => Sys2Proof.Machine.execQfree f s
  | .edgew f x => Sys2Proof.Machine.execEdgew f x s
  | .edger f x => Sys2Proof.Machine.execEdger f x s
  | .edgecl f => Sys2Proof.Machine.execEdgecl f s
  | .launch f x => Sys2Proof.Machine.execLaunch f x s
  | .lwait f => Sys2Proof.Machine.execLwait f s
  | .grpq f => Sys2Proof.Machine.execGrpq f s
  | .lstat f => Sys2Proof.Machine.execLstat f s
  | .trap f => Sys2Proof.Machine.execTrap f s
  | .eret f => Sys2Proof.Machine.execEret f s
  | .owrd f => Sys2Proof.Machine.execOwrd f s
  | .owwr f => Sys2Proof.Machine.execOwwr f s
  | .srd f => Sys2Proof.Machine.execSrd f s
  | .swr f => Sys2Proof.Machine.execSwr f s
  | .wresumeRetry f x => Sys2Proof.Machine.execWresumeRetry f x s
  | .wresumeDeliver f x => Sys2Proof.Machine.execWresumeDeliver f x s
  | .wresumeKill f x => Sys2Proof.Machine.execWresumeKill f x s
  | .wstop f x => Sys2Proof.Machine.execWstop f x s
  | .ckpt f => Sys2Proof.Machine.execCkpt f s
  | .ckptQ f => Sys2Proof.Machine.execCkptQ f s
  | .ctxsv f x => Sys2Proof.Machine.execCtxsv f x s
  | .ctxld f x => Sys2Proof.Machine.execCtxld f x s
  | .ctxldRoll f x => Sys2Proof.Machine.execCtxldRoll f x s
  | .brk f => Sys2Proof.Machine.execBrk f s
  | .trace f => Sys2Proof.Machine.execTrace f s
  | .halt f => Sys2Proof.Machine.execHalt f s
  | .kslotLoad f x => Sys2Proof.Machine.execKslotLoad f x s
  | .kslotZero f x => Sys2Proof.Machine.execKslotZero f x s
  | .kslotQuery f x => Sys2Proof.Machine.execKslotQuery f x s
  | .scrubCores f x => Sys2Proof.Machine.execScrubCores f x s
  | .scrubPages f x => Sys2Proof.Machine.execScrubPages f x s
  | .fwcall f x => Sys2Proof.Machine.execFwcall f x s
  | .ord o => Sys2Proof.Machine.execOrd o s
  | .rep r => Sys2Proof.Machine.execRep r s
  | .pairWord p => Sys2Proof.Machine.execPairWord p s
  | .epilogueRow core quad => Sys2Proof.Machine.execEpilogueRow core quad s
  | .matrixStep core quad upsets => Sys2Proof.Machine.execMatrixStep core quad upsets s
  | .qtailWrite part q val => Sys2Proof.Machine.execQtailWrite part q val s
  | .queueEnable part q val => Sys2Proof.Machine.execQueueEnable part q val s
  | .registerWrite part off val sup => Sys2Proof.Machine.execRegisterWrite part off val sup s
  | .launchAccept part q => Sys2Proof.Machine.execLaunchAccept part q s
  | .gangStart lk cluster => Sys2Proof.Machine.execGangStart lk cluster s
  | .completionRecordWrite lk => Sys2Proof.Machine.execCompletionRecordWrite lk s
  | .gangKill lk blk cause => Sys2Proof.Machine.execGangKill lk blk cause s
  | .preemption lk blk => Sys2Proof.Machine.execPreemption lk blk s
  | .contextImageWritten lk blk => Sys2Proof.Machine.execContextImageWritten lk blk s
  | .gangRestore lk blk cluster => Sys2Proof.Machine.execGangRestore lk blk cluster s
  | .dispatcherBarrierSave lk blk => Sys2Proof.Machine.execDispatcherBarrierSave lk blk s
  | .dispatcherEdgeSave lk blk => Sys2Proof.Machine.execDispatcherEdgeSave lk blk s
  | .gangMigrate lk blk package => Sys2Proof.Machine.execGangMigrate lk blk package s
  | .checkpointCut lk => Sys2Proof.Machine.execCheckpointCut lk s
  | .cowCopy part gran => Sys2Proof.Machine.execCowCopy part gran s
  | .cutCommit lk => Sys2Proof.Machine.execCutCommit lk s
  | .registerSwap core quad => Sys2Proof.Machine.execRegisterSwap core quad s
  | .swapOutComplete w => Sys2Proof.Machine.execSwapOutComplete w s
  | .registerReadmit core quad => Sys2Proof.Machine.execRegisterReadmit core quad s
  | .groupPromotion w pc => Sys2Proof.Machine.execGroupPromotion w pc s
  | .warpAging w => Sys2Proof.Machine.execWarpAging w s
  | .denHandover w tid => Sys2Proof.Machine.execDenHandover w tid s
  | .denRejoin w tid => Sys2Proof.Machine.execDenRejoin w tid s
  | .denTimeoutRecall w tid => Sys2Proof.Machine.execDenTimeoutRecall w tid s
  | .joinPassLimit w => Sys2Proof.Machine.execJoinPassLimit w s
  | .queueWaitTimeout w pc => Sys2Proof.Machine.execQueueWaitTimeout w pc s
  | .sleepExpiry w pc => Sys2Proof.Machine.execSleepExpiry w pc s
  | .haltTimeout w pc => Sys2Proof.Machine.execHaltTimeout w pc s
  | .yieldTimeout w pc => Sys2Proof.Machine.execYieldTimeout w pc s
  | .parkedGroupRelease w pc => Sys2Proof.Machine.execParkedGroupRelease w pc s
  | .faultBacklogDrain part => Sys2Proof.Machine.execFaultBacklogDrain part s
  | .crerrRetry part => Sys2Proof.Machine.execCrerrRetry part s
  | .fqerrRetry part => Sys2Proof.Machine.execFqerrRetry part s
  | .trerrClear part => Sys2Proof.Machine.execTrerrClear part s
  | .handlerEntry cause => Sys2Proof.Machine.execHandlerEntry cause s
  | .loadReply id => Sys2Proof.Machine.execLoadReply id s
  | .storePerform id => Sys2Proof.Machine.execStorePerform id s
  | .atomicPerform id => Sys2Proof.Machine.execAtomicPerform id s
  | .remoteRequestArrival id good => Sys2Proof.Machine.execRemoteRequestArrival id good s
  | .replayTimeout id => Sys2Proof.Machine.execReplayTimeout id s
  | .replyForward id => Sys2Proof.Machine.execReplyForward id s
  | .copyBeat id => Sys2Proof.Machine.execCopyBeat id s
  | .packageCopyBeat id => Sys2Proof.Machine.execPackageCopyBeat id s
  | .tierMoveStart part page => Sys2Proof.Machine.execTierMoveStart part page s
  | .tierMoveLanding part page => Sys2Proof.Machine.execTierMoveLanding part page s
  | .brickCheckComplete core lk brick => Sys2Proof.Machine.execBrickCheckComplete core lk brick s
  | .brickImplicitFetch core lk brick => Sys2Proof.Machine.execBrickImplicitFetch core lk brick s
  | .codeParityRefetch core lk brick => Sys2Proof.Machine.execCodeParityRefetch core lk brick s
  | .codeBreakpointHit w pc => Sys2Proof.Machine.execCodeBreakpointHit w pc s
  | .swapOutModeRecord lk blk => Sys2Proof.Machine.execSwapOutModeRecord lk blk s
  | .singleStepHalt w => Sys2Proof.Machine.execSingleStepHalt w s
  | .singleStepTimeout w => Sys2Proof.Machine.execSingleStepTimeout w s
  | .traceEnable part val => Sys2Proof.Machine.execTraceEnable part val s
  | .ckcostUpdate lk blk => Sys2Proof.Machine.execCkcostUpdate lk blk s
  | .twinCompare w => Sys2Proof.Machine.execTwinCompare w s
  | .collectiveContribution id => Sys2Proof.Machine.execCollectiveContribution id s
  | .groupBarrierArrival id => Sys2Proof.Machine.execGroupBarrierArrival id s
  | .clockStepRequest die mult => Sys2Proof.Machine.execClockStepRequest die mult s
  | .pllRelockComplete die => Sys2Proof.Machine.execPllRelockComplete die s
  | .powerWindow die watts degC => Sys2Proof.Machine.execPowerWindow die watts degC s
  | .thermalTrip die => Sys2Proof.Machine.execThermalTrip die s
  | .supplyDroop die => Sys2Proof.Machine.execSupplyDroop die s
  | .referenceClockLoss lost => Sys2Proof.Machine.execReferenceClockLoss lost s
  | .packageBoot => Sys2Proof.Machine.execPackageBoot s
  | .powerLoss => Sys2Proof.Machine.execPowerLoss s
  | .functionLevelReset part => Sys2Proof.Machine.execFunctionLevelReset part s
  | .laneFailure port => Sys2Proof.Machine.execLaneFailure port s
  | .linkRetrain port lanes => Sys2Proof.Machine.execLinkRetrain port lanes s
  | .ucieModuleFailure join => Sys2Proof.Machine.execUcieModuleFailure join s
  | .flitAuthFailure port => Sys2Proof.Machine.execFlitAuthFailure port s
  | .linkKeyRenewal port => Sys2Proof.Machine.execLinkKeyRenewal port s
  | .hostHdmAccess part va size wdata => Sys2Proof.Machine.execHostHdmAccess part va size wdata s
  | .patrolScrub pa => Sys2Proof.Machine.execPatrolScrub pa s
  | .correctedError part ctr => Sys2Proof.Machine.execCorrectedError part ctr s
  | .scrubJobComplete part => Sys2Proof.Machine.execScrubJobComplete part s
  | .fwUpdateLoad version sigOk => Sys2Proof.Machine.execFwUpdateLoad version sigOk s
  | .fwUpdateSwitch => Sys2Proof.Machine.execFwUpdateSwitch s
  | .fwUpdateCommit => Sys2Proof.Machine.execFwUpdateCommit s
  | .fwUpdateRollback => Sys2Proof.Machine.execFwUpdateRollback s
  | .pinfo id => Sys2Proof.Machine.execPinfo id s
  | .fpooladd id => Sys2Proof.Machine.execFpooladd id s
  | .fpooldel id => Sys2Proof.Machine.execFpooldel id s
  | .kwrap id => Sys2Proof.Machine.execKwrap id s
  | .attest id => Sys2Proof.Machine.execAttest id s
  | .linkst id => Sys2Proof.Machine.execLinkst id s
  | .pwrq id => Sys2Proof.Machine.execPwrq id s
  | .coreCycle die => Sys2Proof.Machine.execCoreCycle die s
  | .referenceTick => Sys2Proof.Machine.execReferenceTick s
  | .recallComplete w tid => Sys2Proof.Machine.execRecallComplete w tid s
  | .reloadComplete w => Sys2Proof.Machine.execReloadComplete w s
  | .zeroisationComplete slot => Sys2Proof.Machine.execZeroisationComplete slot s

end Sys2Proof.Machine
end

