-- ==== Sys2Proof/Machine/Turn.lean ====
section
/-! DEFINITION. What a step chooses (R281 to R287, R293, R368, R369, R440): the group that issues, the progress of the agents beside the
warps, and what follows every step at once. The manual leaves the order of agents' progress open; the order here is the model's (log 6),
and `State.agenda` may name any event at any time. -/

namespace Sys2Proof.Machine

/-! ## Issue -/

/-- A group that the lanes, or a den core for thread `den`, may issue. -/
structure Cand where
  n : WName
  pc : Nat
  rk : Nat
  den : Option Nat
  deriving DecidableEq, Repr

/-- The latch for a candidate with its raw words. (DESIGN CHOICE, log 5) -/
def latchFor (s : State) (c : Cand) (ws : List Code) : State :=
  { s with iss := { w := some c.n, pc := c.pc, rk := c.rk, den := c.den, words := ws } }
/-- A thread waits for the answer to a request. -/
def Thread.waitsReply (t : Thread) : Bool := match t.st with | .reply _ => true | _ => false
/-- A frame holds a thread of a pending cause. -/
def CauseRec.beneath (r : CauseRec) (w : Warp) : Bool := r.after && w.threads.any (fun t => r.tids.contains t.tid && decide (t.held ≠ 0))
/-- A pending cause keeps its warp from starting a pass (R388): not one whose threads a frame holds. -/
def pendHolds (w : Warp) : Bool := w.pend.any (fun r => !r.beneath w)
/-- Nothing but the conditions of its groups keeps a warp from starting a pass (R286, R402, R404, R412, R465). -/
def mayPass (s : State) (w : Warp) : Bool :=
  gangRuns s w.name && w.halt.isNone && !w.stopReq && w.swap == .resident && decide (w.compare ≠ 1) && !pendHolds w &&
  !w.threads.any Thread.waitsReply
/-- The groups of a warp in the order of R282 and R285: promoted ones first, then the lowest program counter; a REP group under way
alone (R290). -/
def laneCands (w : Warp) : List Cand :=
  let ts := w.threads.filter (fun t => t.st.tries && decide (t.held = 0) && t.den.isNone)
  match ts.find? (fun t => decide (t.rk > 0)) with
  | some t => [{ n := w.name, pc := t.pc, rk := t.rk, den := none }]
  | none =>
    let pcs := sortNat (ts.map (·.pc))
    let prom := w.promoted.filter (fun p => pcs.contains p)
    (prom ++ pcs.filter (fun p => !prom.contains p)).map (fun p => { n := w.name, pc := p, rk := 0, den := none })
/-- The den threads of a warp that their cores execute (R292, R294). (DEDUCED, log 16) -/
def denCands (w : Warp) : List Cand :=
  w.threads.filterMap (fun t => match t.den with
    | some d => if d.running && !d.recalled && t.st == .ejected && t.pc != d.joinPt then some { n := w.name, pc := t.pc, rk := t.rk, den := some t.tid } else none
    | none => none)
/-- The order of R287: aged warps by how long they could start, then the earliest admission, one that has yielded last (R313). (DEDUCED, log 15) -/
def goesBefore (a b : Warp) : Bool :=
  if a.aged != b.aged then a.aged
  else if a.aged then decide (a.ableFor ≥ b.ableFor)
  else if a.young != b.young then b.young
  else decide (a.adm ≤ b.adm)
/-- A warp put in its place. -/
def insertWarp (w : Warp) : List Warp → List Warp
  | [] => [w]
  | v :: vs => if goesBefore w v then w :: v :: vs else v :: insertWarp w vs
/-- The warps in the order of R287. -/
def warpOrder (ws : List Warp) : List Warp := ws.foldl (fun acc w => insertWarp w acc) []

/-- What stands between a candidate and its words (R367 to R369). -/
inductive Gate where
  | go (b : Brick)
  | wait
  | cause (k : Nat)
  deriving DecidableEq, Repr
/-- The gate of a candidate on its warp's core. (DEDUCED, log 16, DEDUCED, log 84) -/
def gateOf (s : State) (core : Nat) (c : Cand) : Gate :=
  match findLaunch s c.n.launch with
  | none => .wait
  | some l =>
    if c.pc ≥ codeLimit l then .cause 0x10
    else match findBrick s core l.lk (c.pc / 4096) with
      | none => .wait
      | some b => match b.st with
        | .fetching _ => .wait
        | .failed _ _ => .cause 0x0D
        | .landed => .go b
/-- The state with the prefixes of a group in its latch (R51). -/
def withPrefixes (s : State) (o : Option OrdWord) (r : Option RepWord) : State :=
  let s1 := match o with | some x => nextOr s (execOrd x s) | none => s
  match r with | some x => nextOr s1 (execRep x s1) | none => s1
/-- Run what a group decodes to, the group being in the latch: its instruction, or the cause of a group that encodes none (R383). -/
def runDecoded (s : State) (d : Decoded) : Host.Outcome State Fault Refusal :=
  match d with
  | .ok o r i _ => exec i (withPrefixes s o r)
  | .bad cause _ => execHandlerEntry cause s
/-- A code breakpoint stops the group that a candidate names (R440); a den thread is recalled first. (DESIGN CHOICE, log 83) -/
def breakAt (s : State) (w : Warp) (c : Cand) : Option State :=
  if c.rk ≠ 0 || (brkAt s c.n c.pc).isNone then none
  else if c.den.isSome then some (modWarp s c.n (fun x => askRecall x c.den.toList))
  else if groupCode s w c.pc ≠ 0 then none
  else
    let t := nextOr s (execCodeBreakpointHit c.n c.pc s)
    if t = s then none else some t
/-- A candidate tried: none where its warp may not start a pass or its brick is not there. (DEDUCED, log 84) -/
def tryCand (s : State) (c : Cand) : Option (Host.Outcome State Fault Refusal) :=
  match findWarp s c.n with
  | none => none
  | some w =>
    if !mayPass s w then none
    else match gateOf s w.core c with
      | .wait => none
      | .cause k =>
        let s1 := latchFor s c []
        (ctxOf s1).map (fun x => .next (raise s1 x { cause := k, tids := x.grp, faddr := c.pc }))
      | .go b =>
        match breakAt s w c with
        | some t => some (.next t)
        | none => some (runDecoded (latchFor s c (groupAtPc s b c.pc)) (decodeAt s b c.pc))

/-- Loop buffers of a quadrant in use (R93). -/
def loopsHeld (s : State) (w : Warp) : Nat :=
  (s.warps.filter (fun v => decide (v.core = w.core) && decide (v.quad = w.quad) && v.loopBuf.isSome && v.name != w.name)).length
/-- The loop buffer of a warp after the threads `grp` of it have issued the group at `pc` (R93). -/
def loopAfter (s : State) (pc : Nat) (bra : Bool) (grp : List Nat) (w : Warp) : Warp :=
  let goes := (w.threads.filter (fun t => grp.contains t.tid && t.st != .exited)).map (·.pc)
  let back := goes.filter (fun p => decide (p ≤ pc) && decide (p / 4096 = pc / 4096) && decide (pc - p < 64 * 8))
  let kept := w.loopBuf.filter (fun b => goes.all (fun p => decide (b.1 ≤ p) && decide (p ≤ b.2)))
  { w with loopBuf := match kept, back with
    | some b, _ => some b
    | none, p :: _ => if bra && decide (loopsHeld s w < 4) then some (p, pc) else none
    | none, [] => none }
/-- Whether a group's instruction is BRA. -/
def isBra (ws : List Code) : Bool :=
  match instrWord ws with | some (w, _) => decide (opcOf w = 0x120) && fmtOf w != 1 | none => false
/-- The counts of R285 after a pass of a warp: one more for each group that was eligible and did not issue, none for groups that are no more. -/
def countWaits (eligible : List Nat) (pc : Nat) (w : Warp) : Warp :=
  let here := (w.threads.filter (fun t => t.st != .exited)).map (·.pc)
  let kept := w.groupWait.filter (fun e => here.contains e.1)
  { w with
    groupWait := (eligible.filter (fun p => decide (p ≠ pc) && here.contains p)).foldl (fun acc p => aset acc p (agetD acc p 0 + 1)) kept
    promoted := w.promoted.filter (fun p => here.contains p) }
/-- The den core of a thread, by its number in the package, with the thread's slot of it (R14). -/
def denSlotOf (w : Warp) (t : Nat) : Option (Nat × Nat) := ((w.thread t).bind (·.den)).map (fun d => (2 * clusterOf w.core + d.core, d.slot))
/-- A den core has served a slot: its next round begins with the slot after it (R14, R293). -/
def denServed (s : State) (w : Warp) (t : Nat) : State :=
  match denSlotOf w t with
  | none => s
  | some (k, slot) => { s with denTurn := s.denTurn.filter (fun e => decide (e.1 ≠ k)) ++ [(k, (slot + 1) % 8)] }
/-- What follows the issue of a candidate at once: its brick was executed (R368), its warp's loop buffer (R93), the counts of R285, its den
core's round. (DEDUCED, log 15, DEDUCED, log 80) -/
def afterIssue (s t : State) (c : Cand) : State :=
  match findWarp s c.n with
  | none => t
  | some w =>
    let t1 := modBrick t w.core c.n.launch (c.pc / 4096) (fun b => { b with used := s.free })
    match c.den with
    | some d => denServed t1 w d
    | none =>
      let loop := loopAfter t1 c.pc (isBra (groupWordsOf s w c.pc)) (groupAt w c.pc c.rk)
      modWarp t1 c.n (fun v => countWaits (eligiblePcs s w) c.pc (loop v))
/-- A warp has a cause pending that kills its gang (R459). -/
def killDue (w : Warp) : Bool := w.pend.any CauseRec.kills
/-- Candidates tried in order until one issues: what the earlier ones left behind, and the outcome. (DEDUCED, log 80) -/
def issueFirst : List Cand → State → State × Option (Host.Outcome State Fault Refusal)
  | [], s => (s, none)
  | c :: cs, s =>
    match tryCand s c with
    | none => issueFirst cs s
    | some (.next t) =>
      if t.iss.stalled && !t.warps.any killDue then issueFirst cs { t with iss := {} } else (s, some (.next (afterIssue s t c)))
    | some o => (s, some o)
/-- The candidates of the lanes. -/
def laneOrder (s : State) : List Cand := ((warpOrder s.warps).map laneCands).flatten
/-- The candidates of a den core, from the slot that its round begins with (R14, R293). -/
def denRound (s : State) (k : Nat) : List Cand :=
  let cs := (s.warps.map (fun w => (denCands w).filterMap (fun c => (c.den.bind (denSlotOf w)).map (fun e => (e, c))))).flatten
  let first := agetD s.denTurn k 0
  ((List.range 8).map (fun i => (cs.filter (fun e => e.1 == (k, (first + i) % 8))).map (·.2))).flatten
/-- The candidates of the den cores, each core's in its own round; the core that has gone longest without serving a slot first. (DESIGN
CHOICE, log 83) -/
def denOrder (s : State) : List Cand :=
  let ks := sortNat ((s.warps.map (fun w => w.threads.filterMap (fun t => (denSlotOf w t.tid).map (·.1)))).flatten)
  let served := s.denTurn.map (·.1)
  ((ks.filter (fun k => !served.contains k) ++ served.filter (fun k => ks.contains k)).map (denRound s)).flatten

/-! ## Before a warp issues -/

/-- The queued matrix entry of a restored warp that is to be delivered before it issues anything else (R422). (DEDUCED, log 56) -/
def convDue (w : Warp) : Option MEntry :=
  match w.mq with
  | e :: _ =>
    if (w.tiles.getD e.tile zeroTile).emu && w.frames.all (fun fr => fr.conv != some e.id) && !(aliveTids w).isEmpty then some e else none
  | [] => none
/-- The pending cause of a warp that may be delivered now: its restart point is after the group, no frame holds a thread of it, and no register
of its group is recorded (R385, R388, R401). -/
def pendDue (s : State) (w : Warp) : Option CauseRec :=
  w.pend.find? (fun r => r.after && !r.beneath w && operandsFree s w (groupWordsOf s w r.pc))
/-- Deliver what a warp has to deliver before it starts another pass; none where there is nothing, or no room for its record. -/
def giveDue (s : State) (w : Warp) : Option State :=
  if !(gangRuns s w.name && w.halt.isNone && w.swap == .resident) then none
  else match pendDue s w with
    | some r =>
      let tids := r.tids.filter (fun t => (aliveTids w).contains t)
      let s1 := modWarp s w.name (fun v => { v with pend := v.pend.erase r })
      if tids.isEmpty then some s1
      else deliverOn (if r.trap then 1 else pathOf r.cause) s1 w.name (groupWordsOf s w r.pc) r.pc 0
        { cause := r.cause, tids := tids, faddr := r.faddr, ewmask := r.ewmask, peer := r.peer } none
    | none =>
      match convDue w with
      | some e =>
        if !mayPass s w || !operandsFree s w e.raw then none
        else deliver s w.name e.raw e.pc 0 { cause := 0x01, tids := aliveTids w } (some e.id)
      | none => none

/-! ## What follows every step at once -/

/-- Threads that wait for a phase that is complete already go on (R319): a gang restored after the phase, or threads beneath a frame. -/
def releaseLate (s : State) (w : Warp) : State :=
  let keys := (w.threads.filterMap (fun t => match t.st with | .barrier level idx _ => some (level, idx) | _ => none)).eraseDups
  keys.foldl (fun acc k =>
    let b := findBar acc w.name k.1 k.2
    if w.threads.any (fun t => t.released k.1 k.2 b.phase) then returnWarp acc k.1 k.2 b.phase w else acc) s
/-- One run of a gang has finished: every warp has retired, every reply has arrived, and its copy channels are empty (R303). (DEDUCED, log 40, DEDUCED, log 81) -/
def gangDone (s : State) (g : Gang) : Bool :=
  let f (n : WName) : Bool := ofGang g.launch g.rank0 (gangSize s g.launch) n && n.shadow == g.shadow
  decide (g.st = .running) && s.warps.all (fun w => !f w.name || warpDone w) && s.warps.any (fun w => f w.name) &&
  s.reqs.all (fun r => !f r.w || outlives r) && s.copies.all (fun e => !f e.w || decide (e.ch ≥ 16))
/-- The end of one run of a gang (R303, R447): its cores are free, and each block's end is traced. (DEDUCED, log 81) -/
def endGang (s : State) (g : Gang) : State :=
  let size := gangSize s g.launch
  let f (n : WName) : Bool := ofGang g.launch g.rank0 size n && n.shadow == g.shadow
  let p := partOf g.launch
  let ended := s.blocks.filter (fun b => decide (b.launch = g.launch) && decide (b.blk / max 1 size = g.rank0 / max 1 size) && b.shadow == g.shadow)
  let pc := match findLaunch s g.launch with | some l => entryPc l | none => 0
  let s1 := vacate (voidTokens s p f) f
  let s2 := modGang s1 g.launch g.rank0 g.shadow (fun x => { x with st := .finished })
  let s3 := modLaunch s2 g.launch (fun l => { l with doneBlocks := if g.shadow then l.doneBlocks else l.doneBlocks + ended.length })
  ended.foldl (fun acc b => traceRec acc p 5 1 0 b.core g.launch b.blk pc 0 0) s3
/-- A launch whose last gang has finished, here and in other packages (R346, R482). -/
def launchOver (s : State) (l : Launch) : Bool :=
  l.started && l.failed.isNone && !l.complDue && l.remote.isEmpty && decide (l.nextGang * l.pkt.gang ≥ l.nblk) &&
  s.gangs.all (fun g => decide (g.launch ≠ l.lk) || decide (g.st = .finished))
/-- What a step leaves to follow at once: fences and invalidations that are complete (R227, R239), instructions that are (R35), frames that
close (R394), barriers passed, gangs and launches that are over. -/
def settle (s : State) : State :=
  let s0 := s.reqs.foldl settleReq { s with iss := {} }
  let s1 := { s0 with warps := s0.warps.map (fun w => (if frameDone s0 w then closeFrame w else w).sweep) }
  let s2 := s1.warps.foldl releaseLate s1
  let s3 := (s2.gangs.filter (gangDone s2)).foldl endGang s2
  { s3 with launches := s3.launches.map (fun l => if launchOver s3 l then { l with complDue := true } else l) }

/-! ## Agents -/

/-- An agent's attempt: an event of the table of events with the names it acts on. -/
abbrev Attempt := State → Host.Outcome State Fault Refusal
/-- The first attempt that changes the state. -/
def firstChange (s : State) : List Attempt → Option State
  | [] => none
  | f :: fs =>
    let t := nextOr s (f s)
    if t = s then firstChange s fs else some t
/-- What a request waits for (R223, R241, R249, R324, R418, R480). -/
def reqAttempt (s : State) (r : Req) : Attempt :=
  if r.done && (findWarp s r.w).isNone then execReplyForward r.id
  else if r.seq.isSome && !r.done && r.accesses then
    (if r.lost || !routeUp s r.route then execReplayTimeout r.id else execRemoteRequestArrival r.id true)
  else match r.kind with
    | .load _ => execLoadReply r.id
    | .epld _ _ => execLoadReply r.id
    | .tstat => execLoadReply r.id
    | .store => execStorePerform r.id
    | .edgePut _ => execStorePerform r.id
    | .atom _ _ _ => execAtomicPerform r.id
    | .edgeTake _ => execAtomicPerform r.id
    | .coll _ _ _ _ => execCollectiveContribution r.id
    | .arrive _ _ _ => execGroupBarrierArrival r.id
    | .kslot slot => if r.done then execReplyForward r.id else execZeroisationComplete slot
    | .fwcall fn _ =>
      if r.done then execReplyForward r.id
      else if fn = 0x0001 then execPinfo r.id
      else if fn = 0x0002 then execFpooladd r.id
      else if fn = 0x0003 then execFpooldel r.id
      else if fn = 0x0010 then execKwrap r.id
      else if fn = 0x0011 then execAttest r.id
      else if fn = 0x0020 then execLinkst r.id
      else execPwrq r.id
    | .tmove _ => .next
    | .scrub _ => .next
    | .reply => .next
    | .fence _ _ _ _ => .next
    | .inval => .next
/-- The waits of a thread that time or an agent ends (R218, R292 to R295, R313, R314, R337, R403). -/
def threadAttempts (w : Warp) (t : Thread) : List Attempt :=
  (match t.den with
    | some d =>
      (if d.recalled then [execRecallComplete w.name t.tid] else if !d.running then [execDenHandover w.name t.tid] else
        [execDenRejoin w.name t.tid, execDenTimeoutRecall w.name t.tid])
    | none => []) ++
  (match t.st with
    | .sleep => [execSleepExpiry w.name t.pc]
    | .yield => [execYieldTimeout w.name t.pc]
    | .halt => [execHaltTimeout w.name t.pc]
    | .burrow _ _ => [execQueueWaitTimeout w.name t.pc]
    | .parked _ => [execParkedGroupRelease w.name t.pc]
    | _ => [])
/-- What is due of a warp. -/
def warpAttempts (w : Warp) : List Attempt :=
  (w.threads.map (threadAttempts w)).flatten ++
  (if w.stopReq && w.halt.isNone then [fun s => .next (haltWarp s w.name 0x72)] else []) ++
  (match w.halt with | some h => if h.token = 0 then [fun s => .next (rehalt s w.name)] else [] | none => []) ++
  (if w.stepArm.isSome then [execSingleStepHalt w.name, execSingleStepTimeout w.name] else []) ++
  (if decide (w.compare = 1) && !w.name.shadow then [execTwinCompare w.name] else []) ++
  (if w.swap = .swappingOut then [execSwapOutComplete w.name] else if w.swap = .readmitting then [execReloadComplete w.name] else []) ++
  [execJoinPassLimit w.name, execWarpAging w.name] ++
  (w.groupWait.filter (fun e => decide (e.2 ≥ 32))).map (fun e => execGroupPromotion w.name e.1)
/-- What is due of a quadrant: its engine, and its register pool. -/
def quadAttempts (core quad : Nat) : List Attempt :=
  [execMatrixStep core quad 0, execEpilogueRow core quad, execRegisterSwap core quad, execRegisterReadmit core quad]
/-- Bricks being fetched, the fetches that wait for a slot in the order of waiting, and bricks that warps on a core need (R368). -/
def brickAttempts (s : State) : List Attempt :=
  (s.bricks.filter (fun b => decide (b.st = .fetching 0))).map (fun b => execBrickCheckComplete b.core b.lk b.num) ++
  (fetchLine s).map (fun e => execBrickImplicitFetch e.core e.lk e.num) ++
  (s.warps.map (fun w => (sortNat ((w.threads.filter (fun t => t.st != .exited)).map (fun t => t.pc / 4096))).map (fun n =>
    execBrickImplicitFetch w.core w.name.launch n))).flatten
/-- What is due of a partition: its trace and fault rings and its held completion records (R399, R400), and its scrub jobs (R487). -/
def partAttempts (p : Part) : List Attempt :=
  (if !p.backlog.isEmpty && (!p.fqerr || p.fqretry) then [execFaultBacklogDrain p.id] else []) ++
  (if p.heldTrace.isEmpty then [] else [fun s => .next (drainTrace s p.id p.heldTrace.length)]) ++
  (if p.crretry then [fun s => .next (retryCompl s p.id p.heldCompl)] else []) ++
  [fun s => .next (scrubRun s p.id 1)] ++
  (p.queues.filter (fun q => decide (q.2.qhead ≠ q.2.qtail))).map (fun q => execLaunchAccept p.id q.1)
/-- The image of a gang that R325 has saved asks for no room while all its threads still wait at open barriers. -/
def wantsBack (s : State) (im : Image) : Bool :=
  decide (im.why ≠ 1) || im.warps.any (fun w => w.threads.any (fun t => !atWideBarrier s w.name t))
/-- A CTXSV waits at its issue. -/
def ctxsvWaits (s : State) : Bool :=
  s.warps.any (fun w => w.threads.any (fun t => t.st == .retry 14 &&
    (match instrWord (groupWordsOf s w t.pc) with | some (x, _) => opcOf x == 0x179 | none => false)))
/-- The bytes of an image that CTXSV has written, written again where a reply has changed it since (R418): those that can be reached. (DEDUCED,
log 63) -/
def refreshImage (id : Nat) (s : State) : State :=
  match s.images.find? (fun im => decide (im.id = id)) with
  | none => s
  | some im =>
    match findLaunch s im.launch, im.place with
    | some l, some va =>
      let bs := imageBytes s l im (repliesDue s (ofGang l.lk im.block0 (max 1 l.pkt.gang)))
      let t := (List.range ((bs.length + 4095) / 4096)).foldl (fun acc k =>
        match writeRun acc l.part (va + 4096 * k) ((bs.drop (4096 * k)).take 4096) with | .done st => st | _ => acc) s
      { t with images := t.images.map (fun x => if x.id = id then { x with stale := false } else x) }
    | _, _ => s
/-- What is due of a gang: an image, a record, a place (R413, R424, R426, R441). -/
def gangAttempts (s : State) (g : Gang) : List Attempt :=
  match g.st with
  | .stopping 0 => [execContextImageWritten g.launch g.rank0]
  | .stopping 1 => [execCheckpointCut g.launch]
  | .stopping 3 => [execCheckpointCut g.launch]
  | .stopping 4 =>
    if cutDue s g.launch then [execCheckpointCut g.launch]
    else if ctxsvWaits s then []
    else [fun s => .next (modRuns s g.launch g.rank0 (fun y => { y with st := .running }))]
  | .stopping _ => [execSwapOutModeRecord g.launch g.rank0]
  | .saved _ =>
    if (match gangImage s g with | some im => wantsBack s im | none => false) then
      (findPart s (partOf g.launch)).clusters.map (fun k => execGangRestore g.launch g.rank0 k)
    else []
  | _ => []
/-- What is due of a launch (R346, R347). -/
def launchAttempts (s : State) (l : Launch) : List Attempt :=
  (if l.complDue then [execCompletionRecordWrite l.lk] else []) ++
  (if mayStart s l && (nextGangOf s l).isSome then (findPart s l.part).clusters.map (fun k => execGangStart l.lk k) else [])
/-- The stops that make room (R325, R356). -/
def roomAttempts (s : State) : List Attempt :=
  (s.gangs.filter (fun g => decide (g.st = .running) && !g.shadow)).map (fun g => execDispatcherBarrierSave g.launch g.rank0) ++
  (s.gangs.filter (fun g => decide (g.st = .running) && !g.shadow)).map (fun g => execDispatcherEdgeSave g.launch g.rank0)
/-- Everything that an agent may do now, in the order in which the model tries it. -/
def attempts (s : State) : List Attempt :=
  s.reqs.map (reqAttempt s) ++
  s.copies.map (fun e => if e.ch < 16 then execCopyBeat e.id else execPackageCopyBeat e.id) ++
  (s.tier.map (fun r => if r.moving then execTierMoveLanding r.part r.page else execTierMoveStart r.part r.page)) ++
  (s.quads.map (fun q => quadAttempts q.core q.quad)).flatten ++
  (s.warps.map warpAttempts).flatten ++
  brickAttempts s ++
  (s.cuts.map (fun k => if k.due then execCheckpointCut (k.lks.headD 0) else execCutCommit (k.lks.headD 0))) ++
  (s.granules.filter (·.cow)).map (fun g => execCowCopy g.part g.num) ++
  (s.gangs.map (gangAttempts s)).flatten ++
  ((s.images.filter (·.stale)).map (fun im => fun t => .next (refreshImage im.id t))) ++
  (s.parts.map partAttempts).flatten ++
  (s.launches.map (launchAttempts s)).flatten ++
  (s.dies.filter (fun d => decide (d.relock = some 0))).map (fun d => execPllRelockComplete d.id) ++
  roomAttempts s
/-- The event that some agent performs next, if any is due. -/
def autoEvent (s : State) : Option State := let t := listQuads s; firstChange t (attempts t)

/-! ## Time -/

/-- A die makes a cycle in a period of 1.9 GHz, at its setting in units of 100 MHz (R15). (DEDUCED, log 74, DESIGN CHOICE, log 82) -/
def cycleDue (k : Nat) (d : Die) : Bool := decide (k * d.mult / 19 < (k + 1) * d.mult / 19)
/-- One cycle of a die, and every 1,024 cycles the figures of %ckcost of its gangs (R431). -/
def dieCycle (s : State) (die : Nat) : State :=
  let t := nextOr s (execCoreCycle die s)
  if (findDie t die).cyc.toNat % 1024 = 0 && (findDie t die).cyc != (findDie s die).cyc then
    (t.gangs.filter (fun g => decide (g.cluster / 60 = die) && !g.shadow && decide (g.st = .running))).foldl (fun acc g =>
      nextOr acc (execCkcostUpdate g.launch g.rank0 acc)) t
  else t
/-- Time passes by one period of 1.9 GHz: the dies that are due make a cycle, and every 19 periods the reference ticks. (DESIGN CHOICE, log 82) -/
def tickOnce (s : State) : State :=
  let s1 := (s.dies.filter (cycleDue s.tick)).foldl (fun acc d => dieCycle acc d.id) s
  let s2 := if s.tick % 19 = 0 then nextOr s1 (execReferenceTick s1) else s1
  { s2 with tick := s.tick + 1 }

/-! ## The rotation -/

/-- A turn of the lanes (`den` false) or of the den cores: what was tried, and what issued. -/
def issueTurn (den : Bool) (s : State) : State × Option (Host.Outcome State Fault Refusal) :=
  issueFirst (if den then denOrder s else laneOrder s) s
/-- State with the next turn set. -/
def nextTurn (k : Nat) (o : Host.Outcome State Fault Refusal) : Host.Outcome State Fault Refusal :=
  match o with
  | .next t => .next { t with turn := (k + 1) % 4 }
  | x => x
/-- The turns from `k` on, `n` of them: a lane issues, a den core issues, an agent acts, time passes; a turn with nothing to do passes
to the next. (DESIGN CHOICE, log 6) -/
def turnFrom : Nat → Nat → State → Host.Outcome State Fault Refusal
  | 0, k, s => nextTurn k (.next (tickOnce s))
  | n + 1, k, s =>
    if k = 0 then
      match s.warps.findSome? (giveDue s) with
      | some t => nextTurn 3 (.next t)
      | none =>
        match issueTurn false s with
        | (_, some o) => nextTurn 0 o
        | (t, none) => turnFrom n 1 t
    else if k = 1 then
      match issueTurn true s with
      | (_, some o) => nextTurn 1 o
      | (t, none) => turnFrom n 2 t
    else if k = 2 then
      match autoEvent s with
      | some t => nextTurn 2 (.next t)
      | none => turnFrom n 3 s
    else nextTurn 3 (.next (tickOnce s))
/-- The kill that a warp's pending cause asks for (R459). -/
def killFirst (s : State) : Option State :=
  match s.warps.find? killDue with
  | none => none
  | some w =>
    let t := nextOr s (execGangKill w.name.launch w.name.blk { cause := 0x80, w := w.name.w, addr := 0 } s)
    if t = s then none else some t
/-- One step of a package that has booted: a kill that is due, an event from outside, or a turn. (DESIGN CHOICE, log 85) -/
def running (s : State) : Host.Outcome State Fault Refusal :=
  match killFirst s with
  | some t => .next t
  | none =>
    match s.agenda with
    | i :: rest => exec i { s with agenda := rest, iss := {} }
    | [] => turnFrom 4 (s.turn % 4) s
/-- One step: a package in reset boots, or stays there while events from outside go on. (DESIGN CHOICE, log 6, DESIGN CHOICE, log 85) -/
def oneStep (s : State) : Host.Outcome State Fault Refusal :=
  if s.booted then running s
  else
    let t := nextOr s (execPackageBoot s)
    if t.booted then .next t
    else match s.agenda with
      | i :: rest => exec i { s with agenda := rest, iss := {} }
      | [] => .next t
/-- The end of a step: what follows at once, and the counter of free values goes on. (DESIGN CHOICE, log 7) -/
def sealStep (o : Host.Outcome State Fault Refusal) : Host.Outcome State Fault Refusal :=
  match o with
  | .next t => let u := settle t; .next { u with free := u.free + 1 }
  | x => x

/-! ## Placing an instruction -/

/-- The launch that `placed` loads: one block of one thread, with every register and tile, in partition 0. (DESIGN CHOICE, log 28) -/
def placedLaunch : Launch :=
  { lk := 0, part := 0, lid := 0, pkt := { regmax := 128, regtyp := 128, accum := 8, privw := 16 }, segs := [], groups := [], edges := []
    obj := { nbrick := 1, step := 0x10, entries := [some 0] }, key := 0, started := true, nextGang := 1, doneBlocks := 0, relaunch := 0
    bars := [], failed := none, complDue := false, edgeClosed := [], groupDies := [], remote := [], pktdig := [] }
/-- A booted package that holds only this launch, its thread standing at the code words given. (DESIGN CHOICE, log 28) -/
def placed (s : State) (ws : List Code) : State :=
  let t := if s.booted then s else nextOr s (execPackageBoot s)
  let n : WName := { launch := 0, blk := 0, shadow := false, w := 0 }
  { t with
    booted := true
    launches := [placedLaunch]
    gangs := [freshGang { t with gangs := [] } placedLaunch 0 0 false]
    blocks := [newBlock placedLaunch 0 0 0 0 false]
    warps := [{ newWarp placedLaunch n 0 0 0 0 with threads := [newThread 0 1 0] }]
    bricks := [{ core := 0, lk := 0, num := 0, slot := 0, st := .landed, words := ws, used := 0, waiters := [] }]
    agenda := [], turn := 0, iss := {} }

end Sys2Proof.Machine
end

