-- ==== Sys2Proof/Machine/Step.lean ====
section
/-! DEFINITION. One step of the package, and the placing of an instruction where the next step fetches it. -/

namespace Sys2Proof.Machine

/-- One step: what `oneStep` chooses, and what follows it at once. -/
def step (s : State) : Host.Outcome State Fault Refusal := sealStep (oneStep s)

/-- The state with an instruction stored where `step` fetches its next: in the landed brick 0 of a launch of one thread (`placed`, log 28). -/
def State.withFetchWord (s : State) (nbits w : Nat) : State := placed s (tableWords nbits w)

end Sys2Proof.Machine
end

