-- ==== Sys2Proof/Safety.lean ====
section
/-! DEFINITION. The terms that statements use: when a group issues and completes, what its instruction reads, what a state shows of a
warp afterwards, and the invariants of a run. -/

namespace Sys2Proof

/-! ## Encodings -/

/-- The prefix words of a group: ORD and REP, each at most once, in either order (R31, R51). -/
def prefixWords (repFirst : Bool) (o : Option OrdWord) (r : Option RepWord) : List Code :=
  if repFirst then r.toList.map packRep ++ o.toList.map packOrd else o.toList.map packOrd ++ r.toList.map packRep
/-- The instruction word `w` takes these prefixes: they encode something (R52, R54) and its opcode and operands accept them (R53, R56); a P
word takes none (R31). -/
def takesPrefixes (o : Option OrdWord) (r : Option RepWord) (w : Code) : Bool :=
  o.all (fun x => encOk (.ord x)) && r.all (fun x => encOk (.rep x)) &&
  if fmtOf w = 1 then o.isNone && r.isNone else !prefixMisplaced o r (opcOf w).toNat (fieldsF w)
/-- An instruction's words are read back: behind any prefixes that it takes and before any words, its own words decode to it; a prefix
word is read back by itself. -/
def ReadsBack (i : Instr) : Prop :=
  if fmtOf ((encode i).headD 0) = 2 then decodeTableWord 64 ((encode i).headD 0).toNat = some i
  else ∀ repFirst o r rest, takesPrefixes o r ((encode i).headD 0) = true →
    decodeGroup (prefixWords repFirst o r ++ encode i ++ rest) = .ok o r i ((prefixWords repFirst o r).length + (encode i).length)

/-- The word of an instruction: its format and its opcode, and what its other fields must be to encode it. -/
def Encodes (i : Instr) (fmt : BitVec 2) (opc : BitVec 9) (fields : Prop) : Prop :=
  fmtOf ((encode i).headD 0) = fmt ∧ opcOf ((encode i).headD 0) = opc ∧ (WellFormed i ↔ fields)
/-- IMM32 stands for B with I = 1, and is zero otherwise (R45). -/
def immIsB (f : FWord) (x : LExt) : Prop := f.i = false → x.imm32 = 0

end Sys2Proof

namespace Sys2Proof.Machine

/-! ## When an instruction runs -/

/-- The context and the issuing threads of the group in the latch where nothing keeps it from issuing (R36, R286, R293, R302, R118) and
it meets no cause of R73; none otherwise. The repetition is one that its REP prefix names (R55). -/
def starts (s : State) (spec : Ctx → Spec) : Option (Ctx × List Nat) :=
  match ctxOf s with
  | none => none
  | some c0 =>
    let c := startPass c0
    let sp := spec c
    let tids := issuing s c sp.q
    if c.grp.isEmpty || decide (c.rk ≥ repCount s.iss.rep) then none
    else if !gateOpen s c (c.sched sp.q) then none
    else if tids.isEmpty then none
    else if c.den.isSome && !sp.den then none
    else if sp.named.any (fun r => (recorded s c.w c.w.depth).contains r) then none
    else match sp.cause with
      | some _ => none
      | none => if poolOk s c.w sp.dests then some (c, tids) else none
/-- The same for an F word or L pair whose fields are used as `u` says. -/
def startsF (u : Use) (f : FWord) (x : Option LExt) (s : State) : Option (Ctx × List Nat) :=
  starts s (fun c => specOf s c u f x)

/-- An F word at the repetition being issued (R55). -/
def atRep (s : State) (c : Ctx) (f : FWord) : FWord := stepF f s.iss.rep c.rk
/-- The threads for which an instruction computes: all that issue, or on the uniform path the lowest-numbered (R40). -/
def actors (u : Use) (f : FWord) (tids : List Nat) : List Nat := if isUniform u f then tids.take 1 else tids
/-- What each acting thread reads, where the group issues by the conditions of `spec`, its q operands neither wait nor raise a cause (R329,
R330), what it pushes need not wait for accesses (R338), and no popped element is poisoned (R459). -/
def argsOf (spec : State → Ctx → Spec) (u : Use) (f : FWord) (x : Option LExt) (s : State) : Option (Ctx × List Nat × List AluIn) :=
  match starts s (spec s) with
  | none => none
  | some (c, tids) =>
    let f' := atRep s c f
    let ts := actors u f' tids
    let pops := qPops u f' x
    if (qCause c.b c.w.name.w pops (qPush u f') ts.length).isSome || (qStall c.b pops (qPush u f') ts.length).isSome ||
        ((qPush u f').isSome && accessesLeft s c.w.name s.nextId ts) || popsPoison c.b pops ts.length then none
    else some (c, tids, ts.map (fun t => aluIn s c u f' x ts (popAll c.b c.w.name.w ts pops).2 t))
/-- The same under the conditions that hold for every F word and L pair. -/
def args (u : Use) (f : FWord) (x : Option LExt) (s : State) : Option (Ctx × List Nat × List AluIn) :=
  argsOf (fun s c => specOf s c u f x) u f x s

/-! ## What a state shows afterwards -/

/-- The frame in which the group of a context runs: frame 0 for a den thread (R291), else the current one. -/
def frameIn (c : Ctx) (v : Warp) : Frame := if c.den.isSome then v.frames.getLastD {} else v.cur
/-- `n` registers from an operand code up, of a thread: a v or s register of the frame; nothing is claimed of q and zero. -/
def Holds (c : Ctx) (v : Warp) (t code : Nat) (vals : List Word) : Prop :=
  ∀ k y, vals[k]? = some y →
    (isV code = true → (frameIn c v).getV t (code + k) = y) ∧ (isS code = true → (frameIn c v).getS (code - 0x80 + k) = y)
/-- Predicates of a thread. -/
def HoldsP (c : Ctx) (v : Warp) (t : Nat) (preds : List (Nat × Bool)) : Prop :=
  (preds.map (·.1)).Nodup → ∀ p ∈ preds, p.1 < 12 → ((frameIn c v).getP t).getLsbD p.1 = p.2

/-- Everything of the package but its warps, the quadrants' counters, its blocks, and what the race detector keeps. -/
def elsewhere (s : State) : State := { s with warps := [], quads := [], blocks := [], sectors := [], releases := [] }
/-- Everything of a warp but its threads, its registers, %fpm, what the scheduler and the race detector keep of it, and the latches of the
counters read in halves. -/
def Warp.kept (w : Warp) : Warp :=
  { w with
    threads := [], frames := [], fpm := 0, race := {}, hazards := [], holds := [], latch1 := [], lastStall := 0, since := 0, ableFor := 0
    aged := false, young := false, skip := none, compare := 0, stepped := false, joinPasses := [], promoted := [], groupWait := [] }
/-- Everything of a frame but its registers. -/
def Frame.kept (fr : Frame) : Frame := { fr with v := [], s := [], p := [] }
/-- The frames that a group of this context does not run in. -/
def otherFrames (c : Ctx) (w : Warp) : List Frame := if c.den.isSome then w.frames.take w.depth else w.frames.tail
/-- The operand codes that an instruction writes through D or gives up by a last-read mark (R37). -/
def touched (u : Use) (f : FWord) (x : Option LExt) (r : Option RepWord) (rk : Nat) : List Nat :=
  (if u.d > 0 then codesFrom f.d.toNat u.d else []) ++
  (((fieldsOf u f x).filter (markApplies f r rk)).map (fun fl => codesFrom fl.code fl.n)).flatten

/-- The frame of an instruction that computes registers and predicates from registers, from `s` to `t`, where its warp was `w` and is `v`:
`ids` are the acting threads, `wrote` the predicates that each writes. Registers, predicates, every other field of the frame and of
the warp, other warps (but for what the detector keeps), and the rest of the package stay; where it names no q operand, its block too. -/
structure AluKeeps (u : Use) (f : FWord) (x : Option LExt) (s t : State) (c : Ctx) (w v : Warp) (ids : List Nat) (wrote : Nat → List Nat) :
    Prop where
  regs : ∀ τ r, r < 128 → (τ ∉ ids ∨ r ∉ touched u (atRep s c f) x s.iss.rep c.rk) → (frameIn c v).getV τ r = c.w.cur.getV τ r
  sregs : ∀ r, r < 64 → 0x80 + r ∉ touched u (atRep s c f) x s.iss.rep c.rk → (frameIn c v).getS r = c.w.cur.getS r
  preds : ∀ τ k, k < 12 → (τ ∈ ids → k ∉ wrote τ) → ((frameIn c v).getP τ).getLsbD k = (c.w.cur.getP τ).getLsbD k
  frame : (frameIn c v).kept = c.w.cur.kept
  others : otherFrames c v = otherFrames c w
  warp : v.kept = w.kept
  warps : ∀ n w', n ≠ c.w.name → findWarp s n = some w' → ∃ r, findWarp t n = some { w' with race := r }
  rest : elsewhere t = elsewhere s
  quiet : (fieldsOf u (atRep s c f) x).all (fun fl => !isQ fl.code) = true → t.blocks = s.blocks ∧ t.sectors = s.sectors ∧ t.releases = s.releases

/-- `o` is the completion of an instruction that computes registers and predicates from registers: a next state in which each acting
thread's destination holds what `fn` gives it for what all of them and it itself read, %fpm has accrued the exceptions and nothing else has
changed, provided that no enabled exception is among the results (R114, R116, R145). -/
def GivesOf (spec : State → Ctx → Spec) (u : Use) (f : FWord) (x : Option LExt) (s : State) (o : Host.Outcome State Fault Refusal)
    (fn : Ctx → List AluIn → AluIn → AluOut) : Prop :=
  ∀ c tids ins, argsOf spec u f x s = some (c, tids, ins) → trapOf c.w.fpm (ins.map (fun i => (i.t, fn c ins i))) = none →
    ∃ t w v, o = .next t ∧ findWarp s c.w.name = some w ∧ findWarp t c.w.name = some v ∧
      v.fpm = fpmAccrue w.fpm (allExc (ins.map (fun i => (i.t, fn c ins i)))) ∧
      (∀ i ∈ ins, Holds c v i.t (atRep s c f).d.toNat ((fn c ins i).vals.take u.d) ∧ HoldsP c v i.t (fn c ins i).preds) ∧
      AluKeeps u f x s t c w v (ins.map (·.t)) (fun τ => ((ins.filter (fun i => i.t == τ)).map (fun i => (fn c ins i).preds.map (·.1))).flatten)
/-- `o` is the trap of such an instruction where an enabled exception is among its results: %fpm accrues the exceptions, no register is
written, and the cause is raised with the restart point before the group (R116, R145). -/
def Traps (u : Use) (f : FWord) (x : Option LExt) (s : State) (o : Host.Outcome State Fault Refusal) (fn : Ctx → List AluIn → AluIn → AluOut) :
    Prop :=
  ∀ c tids ins k bad, args u f x s = some (c, tids, ins) → trapOf c.w.fpm (ins.map (fun i => (i.t, fn c ins i))) = some (k, bad) →
    let m := fpmAccrue c.w.fpm (allExc (ins.map (fun i => (i.t, fn c ins i))))
    o = .next (raise (modWarp s c.w.name (fun w => { w with fpm := m })) { c with w := { c.w with fpm := m } } { cause := k, tids := namedBy u (atRep s c f) x bad })
/-- Completion for an F word or L pair under the conditions that hold for all of them. -/
def Gives (u : Use) (f : FWord) (x : Option LExt) (s : State) (o : Host.Outcome State Fault Refusal) (fn : AluIn → AluOut) : Prop :=
  GivesOf (fun s c => specOf s c u f x) u f x s o (fun _ _ => fn)
/-- Completion and trap of an instruction that may signal an exception. -/
def Computes (u : Use) (f : FWord) (x : Option LExt) (s : State) (o : Host.Outcome State Fault Refusal) (fn : AluIn → AluOut) : Prop :=
  Gives u f x s o fn ∧ Traps u f x s o (fun _ _ => fn)
/-- Completion and trap of an instruction whose results depend on what all acting threads read. -/
def Collects (u : Use) (f : FWord) (x : Option LExt) (s : State) (o : Host.Outcome State Fault Refusal) (fn : List AluIn → AluIn → AluOut) : Prop :=
  GivesOf (fun s c => specOf s c u f x) u f x s o (fun _ => fn) ∧ Traps u f x s o (fun _ => fn)

/-! ## What an issue that computes nothing shows -/

/-- A thread but for the completion flags of its den slot. -/
def Thread.stance (t : Thread) : Thread := { t with den := t.den.map (fun d => { d with flags := [] }) }
/-- How the threads of a warp stand. -/
def places (w : Warp) : List Thread := w.threads.map Thread.stance
/-- The issue of a group moves its threads (R36, R55, R281): those that issue to the next repetition or past the group, those that its
guard turns off past it; a thread of another group that waits at a YIELD is ready again (R313). -/
def goOn (s : State) (c : Ctx) (tids : List Nat) (t : Thread) : Thread :=
  let run : TState := if t.den.isSome then .ejected else .ready
  if tids.contains t.tid && decide (c.rk + 1 < repCount s.iss.rep) then { t with rk := c.rk + 1, cnt := 0, again := false, st := run }
  else if tids.contains t.tid || c.grp.contains t.tid then { t with pc := c.pc + 8 * groupLen s, rk := 0, cnt := 0, again := false, st := run }
  else if c.den.isNone && t.st == .yield && decide (t.held = 0) then { t with st := .ready, cnt := 0 }
  else t
/-- What a state `t` shows after an issue at `s`: the frame in which the group runs is `g`, the other frames stay, the rest of the warp is
as in `k`, each thread has changed as `go` says, other warps stay (but for what the race detector keeps), and the rest of the package is as in
`s1`. -/
structure Shows (s t : State) (c : Ctx) (g : Frame) (k : Warp) (go : Thread → Thread) (s1 : State) : Prop where
  warp : ∃ w v, findWarp s c.w.name = some w ∧ findWarp t c.w.name = some v ∧ frameIn c v = g ∧ otherFrames c v = otherFrames c w ∧
    v.kept = k.kept ∧ places v = (places w).map go
  warps : ∀ n w', n ≠ c.w.name → findWarp s n = some w' → ∃ r, findWarp t n = some { w' with race := r }
  blocks : t.blocks = s1.blocks
  rest : elsewhere t = elsewhere s1

/-! ## Issues that end like any other -/

/-- The context and the threads of a collective instruction (R159) where nothing keeps its group from issuing: every thread of the warp that
has not exited stands at it and passes its guard, a place in the matrix queue is free where it needs one (R155), and it meets no cause. -/
def startsAll (busy : Bool) (s : State) (spec : Ctx → List Nat → Spec) : Option (Ctx × List Nat) :=
  match ctxOf s with
  | none => none
  | some c0 =>
    let c := startPass c0
    let sp0 := spec c c.grp
    let tids := issuing s c sp0.q
    let sp := spec c tids
    if c.grp.isEmpty || !gateOpen s c (c.sched sp.q) || tids.isEmpty || c.den.isSome then none
    else if sp.named.any (fun r => (recorded s c.w c.w.depth).contains r) then none
    else if collPartial c tids || !(collOthers c.w tids).isEmpty || (busy && decide (c.w.mq.length ≥ 8)) then none
    else match sp.cause with
      | some _ => none
      | none => if poolOk s c.w sp.dests then some (c, tids) else none
/-- `o` is the completion of an issue that starts as `start` says and meets `cond`: its group goes on, its warp is as in `w` and the rest of
the package as in `s1`. -/
def Leaves (start : Option (Ctx × List Nat)) (s : State) (o : Host.Outcome State Fault Refusal) (cond : Ctx → List Nat → Prop)
    (w : Ctx → List Nat → Warp) (s1 : Ctx → List Nat → State) : Prop :=
  ∀ c tids, start = some (c, tids) → cond c tids →
    ∃ t, o = .next t ∧ Shows s t c (w c tids).cur (w c tids) (goOn s c tids) (s1 c tids)
/-- A warp with a flag of its group's frame up by one (R33). -/
def flagUp (c : Ctx) (k : Nat) (w : Warp) : Warp := raiseFlag w c.w.depth c.den k
/-- An entry as the issue of a matrix instruction puts it into the queue of its warp (R155): `e` is what the instruction itself sets. -/
def queued (s : State) (c : Ctx) (f : FWord) (e : MEntry) : MEntry :=
  { e with id := s.nextId, depth := c.w.depth, raw := s.iss.words, pc := c.pc, len := groupLen s, sig := f.sig.toNat }
/-- The warp after the issue of a queued matrix instruction (R155, R156): the entry is last in its queue, its flag is up by one, the
registers of a last-read mark are given up. -/
def withEntry (s : State) (c : Ctx) (tids : List Nat) (f : FWord) (marks : Use) (e : MEntry) : Warp :=
  flagUp c f.sig.toNat { applyMarks c.w marks f none none 0 tids with mq := c.w.mq ++ [queued s c f e] }

/-- The vote of R160 passes and no cause of R158, R161, R162, R164 and R165 is met by MMA or MMAT on tiles `ds`, of `m` by `n` tiles and `ks`
K-steps. -/
def mmaClear (s : State) (c : Ctx) (tids : List Nat) (f : FWord) (x : LExt) (mmat : Bool) (ds : List Nat) (m n ks : Nat) : Bool :=
  let w := fmtWord s c x.c.toNat tids
  let oa := readOper s c f.a.toNat tids
  let ob := readOper s c f.b.toNat tids
  (fmtDissent s c x.c.toNat tids).isEmpty && (tileCause c.w c.l.pkt.accum ds).isNone &&
    (fmtTest w (!isDesc f.a.toNat) (!isDesc f.b.toNat) mmat).isNone &&
    (descCause oa).isNone && (descCause ob).isNone &&
    (boundCause c.l.pkt.smem (allPieces oa (mfmtBits (fwAF w)) (fwAT w) m ks ++ allPieces ob (mfmtBits (fwBF w)) (fwBT w) n ks)).isNone
/-- What a drain captures of its operand A (R175). -/
def drainDesc (s : State) (c : Ctx) (f : FWord) (tids : List Nat) : MOper := if isDesc f.a.toNat then readDesc s c f.a.toNat tids else .zero
/-- The vote of R160 passes and no cause of R198 is met by MDRAIN. -/
def drainClear (s : State) (c : Ctx) (tids : List Nat) (f : FWord) (x : LExt) : Bool :=
  let w := fmtWord s c x.c.toNat tids
  let prog := epProgram c.w (x.xbits 0 6)
  (fmtDissent s c x.c.toNat tids).isEmpty && (tileCause c.w c.l.pkt.accum [f.d.toNat]).isNone && decide (fwACC w ≤ 1) &&
    !(bitsOf w.toNat 23 9 ≠ 0 || (prog.any (fun y => epOp y = 14) && !isDesc f.a.toNat) || (prog.any (fun y => epOp y = 15) && !isV f.b.toNat)) &&
    (descCause (drainDesc s c f tids)).isNone && (epMisaligned prog (epArgs c.w)).isNone &&
    (boundCause c.l.pkt.smem (epSpans prog (epArgs c.w) (drainDesc s c f tids))).isNone
/-- When MMA issues (R159, R169). -/
def mmaSpec (s : State) (f : FWord) (x : LExt) (c : Ctx) (tids : List Nat) : Spec :=
  let cc := x.c.toNat
  let sc := if fmtCodeOk cc && (fmtDissent s c cc tids).isEmpty then scaleCodes x (fmtWord s c cc tids) else []
  matSpec f (decide (f.d.toNat ≥ 8) || !mmaOperOk f.a.toNat || !mmaOperOk f.b.toNat || !fmtCodeOk cc || sc.any (fun r => !isV r))
    (operCodes f.a.toNat ++ operCodes f.b.toNat ++ [cc] ++ sc) [] c
/-- When MMAT issues (R159, R169). -/
def mmatSpec (f : FWord) (x : LExt) (c : Ctx) : Spec :=
  matSpec f (decide (f.d.toNat ≥ 8) || !mmaOperOk f.a.toNat || !mmaOperOk f.b.toNat || !fmtCodeOk x.c.toNat)
    (operCodes f.a.toNat ++ operCodes f.b.toNat ++ [x.c.toNat]) [] c
/-- When MDRAIN issues (R159, R175, R191). -/
def mdrainSpec (f : FWord) (x : LExt) (c : Ctx) : Spec :=
  let a := f.a.toNat
  let b := f.b.toNat
  let prog := epProgram c.w (x.xbits 0 6)
  let dests := if isV b then (prog.map (strCodes b)).flatten else []
  let odd := isV b && prog.any (fun w => epOp w = 15 && epImm w % 4 = 0 && (b + epImm w / 4) % 2 = 1)
  let base := matSpec f (decide (f.d.toNat ≥ 8) || !(isDesc a || a == opZero) || !(isV b || b == opZero) || !fmtCodeOk x.c.toNat || odd)
    (operCodes a ++ [x.c.toNat]) [] c
  { base with
    cause := base.cause.orElse (fun _ => if dests.any (fun r => decide (r ≥ c.l.pkt.regmax)) then some 0x0B else none)
    dests := dests.filter isV
    named := ((operCodes a ++ [x.c.toNat]) ++ dests).filter (fun r => isV r || isS r) }

/-! ## Memory accesses -/

/-- The accesses of each thread of a memory instruction of a launch that has no twin, where nothing hinders it: no acquire is in flight (R231),
every thread passes the tests of its segment (R207, R228) and meets no watchpoint (R443), every page translates (R216), and none races
(R251). -/
def goesOut (m : MemOp) (one : Bool) (dataOf : Nat → List Byte) (opsOf : Nat → List Word) (f : FWord) (x : Option LExt) (s : State) (c : Ctx)
    (tids : List Nat) : Option (List (Nat × List Acc)) :=
  let ts := if one then tids.take 1 else tids
  let g := c.l.segAt m.seg
  let offs := ts.map (fun t => (t, memOff s c f x m.unit ts t))
  let pieces := offs.map (fun e => (e.1, segPieces c g m e.1 e.2 (dataOf e.1) (opsOf e.1) (ordFresh s)))
  let outs := pieces.map (fun e => (e.1, translate s c m e.2))
  let perf := outs.filterMap (fun e => e.2.accs.map (fun a => (e.1, a)))
  if c.l.twin || acqHeld s c.w tids || offs.any (fun e => (segCause c g m e.2).isSome) ||
      pieces.any (fun e => !skipped c e.1 && e.2.any (fun a => (watchOf s c m a).isSome)) ||
      decide ((findPart s (partOf c.l.lk)).backlog.length > 4096) || decide (perf.length ≠ outs.length) ||
      perf.any (fun e => e.2.isEmpty || (raceHit s c (raceKind s m.use) e.2).isSome) then none
  else some perf
/-- The bytes of the leaves that accesses go by (R214). -/
def touchBytes (s : State) (c : Ctx) (wr : Bool) : List Acc → List Nat
  | [] => []
  | a :: rest =>
    (match (if a.space == .phys then findLeaf s (partOf c.l.lk) a.va (some c.w.core) else none) with
      | some l => (List.range 8).map (l.pa + ·)
      | none => []) ++
      touchBytes (if a.space == .phys then touchLeaf s (partOf c.l.lk) a.va wr (some c.w.core) else s) c wr rest
/-- What a memory instruction is given: its access, the fields whose last reads count, whether one access stands for all threads, and the
bytes and operands of each thread. -/
structure MemForm where
  op : FWord → MemOp
  marks : Use
  one : FWord → Bool := fun f => isS f.d.toNat
  data : State → Ctx → List Nat → FWord → Nat → List Byte := fun _ _ _ _ _ => []
  ops : State → Ctx → List Nat → FWord → Nat → List Word := fun _ _ _ _ _ => []
/-- A memory instruction's requests sent (R223, R241), and its warp with its flag up (R33, R35, R57), its last-read registers given up and its
releases noted (R232): `perf` are its threads' accesses. -/
def outOf (m : MemForm) (f : FWord) (x : Option LExt) (s : State) (c : Ctx) (tids : List Nat) (perf : List (Nat × List Acc)) : State × Warp :=
  let op := m.op (atRep s c f)
  let wr := op.use == .store || op.use == .atomic
  let rr := if wr then writeRels s c tids else ([], c.w.race)
  sendAll (touchedBy s c wr (perf.map (·.2)).flatten) c op f.sig.toNat tids (m.one (atRep s c f)) rr.1 perf
    (applyMarks { c.w with race := rr.2 } m.marks (atRep s c f) x s.iss.rep c.rk tids)
/-- `o` is the completion of a memory instruction whose accesses nothing hinders (R223): one request for each home, with the accesses of the
threads that go there, is in flight, its flag counts (R33, R35), its threads have gone on, and nothing else has changed but the leaves'
accessed and dirty bits: no byte of memory outside those leaves, and no register but those given up. -/
def Sends (u : Use) (m : MemForm) (f : FWord) (x : Option LExt) (s : State) (o : Host.Outcome State Fault Refusal) : Prop :=
  ∀ c tids perf, startsF u f x s = some (c, tids) →
    goesOut (m.op (atRep s c f)) (m.one (atRep s c f)) (m.data s c tids (atRep s c f)) (m.ops s c tids (atRep s c f)) (atRep s c f) x s c tids =
      some perf →
    let op := m.op (atRep s c f)
    let wr := op.use == .store || op.use == .atomic
    ∃ t v rs, o = .next t ∧ findWarp t c.w.name = some v ∧
      Shows s t c (outOf m f x s c tids perf).2.cur c.w (goOn s c tids) (outOf m f x s c tids perf).1 ∧
      t.reqs = s.reqs ++ rs ∧ rs.map (·.accs) = (byHome perf).map (fun p => (p.map (·.2)).flatten) ∧
      (∀ r ∈ rs, r.w = c.w.name ∧ r.kind = op.kind ∧ r.dcode = op.dcode ∧ r.dn = op.dn ∧ r.done = false ∧ r.order = ordOrder s ∧
        r.scope = ordScope s ∧ ∀ t ∈ r.tids, t ∈ tids) ∧
      (c.den = none → c.w.frames ≠ [] → f.sig.toNat < 12 → 0 < flagCount v none f.sig.toNat) ∧
      ∀ a, a ∉ touchBytes s c wr (perf.map (·.2)).flatten → readByte t.mem a = readByte s.mem a

/-- A load of `size` bytes (R220, R223), sign-extended where `sg`. -/
def loadForm (f : FWord) (x : Option LExt) (size : Nat) (sg : Bool) : MemForm where
  op f' :=
    { seg := segOf f x, unit := size, size := size, align := size, use := .load, kind := .load sg, dcode := f'.d.toNat
      dn := regsOfSize size, cop := copOf x }
  marks := { a := offRegs x }
/-- A store of `size` bytes of D (R220). -/
def storeForm (f : FWord) (x : Option LExt) (size : Nat) : MemForm where
  op _ := { seg := segOf f x, unit := size, size := size, align := size, use := .store, kind := .store, cop := copOf x }
  marks := { a := offRegs x, dr := regsOfSize size }
  one f' := isSZ f'.d.toNat && isSZ f'.a.toNat
  data s c tids f' t := regBytes size (readGroup s c c.w tids t f'.d.toNat (regsOfSize size))
/-- Registers that hold a value of a type. -/
def valRegs (ty : Nat) : Nat := if isTy64 ty then 2 else 1
/-- An atomic (R240, R242): operation, type, and whether C is an operand. -/
def atomForm (f : FWord) (x : Option LExt) (op ty : Nat) (useC : Bool) : MemForm where
  op f' :=
    { seg := segOf f x, unit := 4, size := 4 * valRegs ty, align := 4 * valRegs ty, use := .atomic, dcode := f'.d.toNat, dn := valRegs ty
      kind := .atom op ty (match x with | some e => if op = 10 then e.sp else 15 | none => 15) }
  marks := match x with | none => { a := 1 } | some _ => { a := offRegs x, b := valRegs ty }
  ops s c tids f' t :=
    match x with
    | none => readGroup s c c.w tids t f'.d.toNat 1
    | some e => readGroup s c c.w tids t f'.b.toNat (valRegs ty) ++ (if useC then readGroup s c c.w tids t e.c.toNat (valRegs ty) else [])
/-- RED (R245). -/
def redForm (x : LExt) : MemForm where
  op _ :=
    { seg := x.seg, unit := 4, size := 4 * valRegs x.ty0, align := 4 * valRegs x.ty0, use := .atomic, dn := valRegs x.ty0
      kind := .atom (if x.rop = 6 then 11 else x.rop) x.ty0 15 }
  marks := { a := offRegs (some x), b := valRegs x.ty0 }
  one _ := false
  ops s c tids f' t := readGroup s c c.w tids t f'.b.toNat (valRegs x.ty0)
/-- The use of RED's fields. -/
def redUse (f : FWord) (x : LExt) : Use :=
  { a := offRegs (some x), b := valRegs x.ty0, q := false, den := true, bad := !offOk f (some x) || f.d.toNat != opZero }

/-! ## Requests at their home -/

/-- The bytes of an access at its home. -/
def homeBytes (s : State) (a : Acc) : List Byte :=
  match a.space with
  | .phys => readBytes s.mem a.addr a.size
  | .scratch lk blk sh => scratchBytes s lk blk sh a.addr a.size
/-- The values that a load gives its threads: the bytes of each thread's accesses together, as registers (R220). -/
def loadResult (s : State) (r : Req) (sg : Bool) : List (Nat × List Word) :=
  ((r.accs.map (·.tid)).eraseDups).map (fun t =>
    (t, loadWords sg r.dn (((r.accs.filter (fun a => a.tid == t)).map (homeBytes s)).flatten)))
/-- Memory after stores (R223). -/
def storeMem (m : List Host.Cell) (accs : List Acc) : List Host.Cell := accs.foldl (fun x a => writeBytes x a.addr a.data) m
/-- Memory after atomics, thread by thread, with the old values and the successes (R241, R242). -/
def atomRun (op ty : Nat) : List Host.Cell → List Acc → List Host.Cell × List (Nat × List Word)
  | m, [] => (m, [])
  | m, a :: rest =>
    let n := valRegs ty
    let old := readNat m a.addr (4 * n)
    let (new, ok) := atomF op ty old (opNat (a.ops.take n)) (opNat (a.ops.drop n))
    let (m2, res) := atomRun op ty (writeBytes m a.addr (toBytes new (4 * n))) rest
    (m2, (a.tid, (split64 (BitVec.ofNat 64 old)).take n ++ [bitWord ok]) :: res)
/-- A request that its home may perform now, of a warp that is resident and a launch without twins: no earlier access that it must follow is
in flight (R232, R235, R237), it meets no poison (R459), and it does not wait for a reply from another die. -/
def atHome (s : State) (r : Req) : Bool :=
  (findWarp s r.w).isSome && (match findLaunch s r.w.launch with | some l => !l.twin | none => false) && mayPerform s r && !r.done &&
    r.seq.isNone && !r.accs.any (accPoison s) && s.warps.all (fun w => w.checked.isEmpty)
/-- The request is over: `f` has changed its warp, its flag is down by one (R35), and it is gone; other warps and blocks stay. -/
structure Answered (s t : State) (r : Req) (f : Warp → Warp) : Prop where
  warp : ∃ w x, findWarp s r.w = some w ∧ findWarp t r.w = some { lowerFlag (f w) r.depth r.den r.sig with race := x }
  warps : ∀ n w', n ≠ r.w → findWarp s n = some w' → ∃ x, findWarp t n = some { w' with race := x }
  reqs : t.reqs = s.reqs.filter (fun q => decide (q.id ≠ r.id))
/-- Everything that the performance of a write may change besides its warp: memory, poison, lines of an L1 and the granules that are dirty
(R211, R427, R460). -/
def unwritten (s : State) : State := { elsewhere s with mem := [], poison := [], l1 := [], granules := [], reqs := [] }

/-! ## Control flow -/

/-- As `Leaves`, where each thread of the warp changes as `go` says. -/
def LeavesBy (start : Option (Ctx × List Nat)) (s : State) (o : Host.Outcome State Fault Refusal) (cond : Ctx → List Nat → Prop)
    (w : Ctx → List Nat → Warp) (s1 : Ctx → List Nat → State) (go : Ctx → List Nat → Thread → Thread) : Prop :=
  ∀ c tids, start = some (c, tids) → cond c tids →
    ∃ t, o = .next t ∧ Shows s t c (w c tids).cur (w c tids) (go c tids) (s1 c tids)
/-- Every target lies in the code segment, and its brick has landed in the core's store (R298, R369). -/
def reaches (s : State) (c : Ctx) (ts : List (Nat × Int)) : Prop :=
  ∀ e ∈ ts, 0 ≤ e.2 ∧ e.2 < codeLimit c.l ∧
    ∃ b, findBrick s c.w.core c.l.lk (e.2.toNat / 4096) = some b ∧ b.st = .landed
/-- Threads that issue go on and stand at their targets. -/
def goTo (s : State) (c : Ctx) (tids : List Nat) (ts : List (Nat × Int)) (t : Thread) : Thread :=
  match ts.find? (fun e => e.1 == t.tid) with
  | some e => { goOn s c tids t with pc := e.2.toNat }
  | none => goOn s c tids t
/-- One target for all threads. -/
def allTo (tids : List Nat) (a : Int) : List (Nat × Int) := tids.map (fun t => (t, a))
/-- The accesses of a CALL (`store`) or RET to the return stacks of its threads, by thread, where nothing hinders them (R301): a segment
holds the stacks and may be accessed so, no stack is full or empty, no acquire and no earlier access of the words is in flight, no
watchpoint and no page in the way, nothing poisoned. -/
def stackOut (s : State) (c : Ctx) (store : Bool) (tids : List Nat) : Option (List (Nat × List Acc)) :=
  match stackSeg c.l with
  | none => none
  | some seg =>
    let m := stackOp seg store
    let outs := stackAccs s c m (if store then toBytes (c.pc + 8 * groupLen s) 4 else [])
      (tids.map (fun t => (t, c.l.pkt.privw - (if store then 1 else 0) - retdOf c t)))
    let go := stackGo outs
    let accs := (go.map (·.2)).flatten
    if c.l.twin || !(if store then (c.l.segAt seg).wr else (c.l.segAt seg).rd) ||
        tids.any (fun t => if store then decide (retdOf c t ≥ c.l.pkt.privw) else decide (retdOf c t = 0)) ||
        acqHeld s c.w tids || stackBusy s c accs || !(stackHits s c m outs).isEmpty || decide (go.length ≠ outs.length) ||
        decide ((findPart s (partOf c.l.lk)).backlog.length > 4096) || accs.any (fun a => if store then isCow s (partOf c.l.lk) a.va else accPoison s a)
    then none else some go
/-- The return addresses of a CALL written to the stacks. -/
def stackStore (s : State) (c : Ctx) (accs : List Acc) : State :=
  accs.foldl (fun acc a => writeAcc (touchLeaf acc (partOf c.l.lk) a.va true (some c.w.core)) c.l c.w.core a) s
/-- A thread that an EXIT ends (R303). -/
def gone (tids : List Nat) (t : Thread) : Thread :=
  if tids.contains t.tid then { t with st := .exited, den := none, held := 0, cnt := 0 } else t
/-- A thread that waits beyond its instruction in a state for `n` more cycles. -/
def waiting (tids : List Nat) (st : TState) (n : Nat) (t : Thread) : Thread :=
  if tids.contains t.tid then { t with st := st, cnt := n + 1 } else t

/-! ## Barriers -/

/-- A thread that arrives at a barrier, and stays there for the phase where `wait` says so (R321). -/
def arrives (c : Ctx) (tids : List Nat) (level idx phase : Nat) (wait : Bool) (t : Thread) : Thread :=
  if tids.contains t.tid then
    let t1 := t.setArr level idx phase
    if wait then { t1 with pc := c.pc, st := .barrier level idx phase } else t1
  else t
/-- Threads may arrive at a barrier now with this count (R317, R321, R322): none of them has arrived in the open phase, every earlier store
and atomic of theirs has performed, no comparison of twins is due, no arrival of a thread before its restart counts for it (R462), and no
cause is met. -/
def mayJoin (s : State) (c : Ctx) (tids : List Nat) (level idx : Nat) (count : Int) : Prop :=
  let b := findBar s c.w.name level idx
  idx < barLimit level ∧ mustCompare c = false ∧ barCause b count tids.length = none ∧
    (∀ t ∈ tids, ∀ x, c.w.thread t = some x → x.lastArr level idx ≠ some b.phase) ∧
    (∀ r ∈ s.reqs, r.w = c.w.name → r.writes = true → r.done = false → ∀ t ∈ r.tids, t ∉ tids) ∧
    (level ≥ 3 → ∀ t ∈ tids, credit c.g c.w.name t level idx = 0)
/-- Threads wait for a barrier's phase: their last arrival is in the open one (R321). -/
def mustWait (s : State) (c : Ctx) (level idx : Nat) (t : Nat) : Bool :=
  match c.w.thread t with | some x => x.lastArr level idx == some (findBar s c.w.name level idx).phase | none => false
/-- What threads hand over with their arrival: everything before it (R232, R319). -/
def arrivals (c : Ctx) (tids : List Nat) : List (Nat × Clock) := tids.map (fun t => (t, c.w.race.before c.w.name t))
/-- `o` is an arrival at a barrier of warp, block or cluster (R317, R321): the warp's threads have moved, and then the arrivals count. -/
def ArrivesNear (start : Option (Ctx × List Nat)) (s : State) (o : Host.Outcome State Fault Refusal) (level idx : Nat) (count : Ctx → Int)
    (wait : Bool) : Prop :=
  ∀ c tids, start = some (c, tids) → level ≤ 2 → mayJoin s c tids level idx (count c) →
    ∃ t, o = .next (arriveBar t c.w.name level idx (count c).toNat (arrivals c tids)) ∧
      Shows s t c c.w.cur c.w (fun x => arrives c tids level idx (findBar s c.w.name level idx).phase wait (goOn s c tids x)) s
/-- `o` is an arrival at a grid or group barrier (R324): one message with the arrivals is on its way. -/
def ArrivesFar (start : Option (Ctx × List Nat)) (s : State) (o : Host.Outcome State Fault Refusal) (level idx : Nat) (count : Ctx → Int)
    (wait : Bool) (cond : Ctx → Prop) : Prop :=
  LeavesBy start s o (fun c tids => level ≥ 3 ∧ cond c ∧ mayJoin s c tids level idx (count c)) (fun c _ => c.w)
    (fun c tids => { s with
      nextId := s.nextId + 1
      reqs := s.reqs ++ [{ mkReq s c { seg := 0, unit := 1, size := 1, align := 1, use := .cache
                                       kind := .arrive level idx (findBar s c.w.name level idx).phase } s.nextId 15 tids [] with
        order := 0, rels := (c.w.race.release c.w.name (partyOf c.w none) tids (barScope level)).1 }] })
    (fun c tids x => arrives c tids level idx (findBar s c.w.name level idx).phase wait (goOn s c tids x))
/-- `o` is a wait for a barrier (R321): the threads whose last arrival is in the open phase stay at the instruction, the others go on, with an
acquire where some do that have arrived before. -/
def Awaits (start : Option (Ctx × List Nat)) (s : State) (o : Host.Outcome State Fault Refusal) (level idx : Nat) (cond : Ctx → Prop) : Prop :=
  LeavesBy start s o (fun c _ => cond c ∧ idx < barLimit level) (fun c _ => c.w)
    (fun c tids => if level < 2 ∨ c.w.backs level idx (tids.filter (fun t => !mustWait s c level idx t)) = [] then s
      else dropForAcquire s c.l c.w.core)
    (fun c tids x =>
      let y := goOn s c tids x
      if tids.contains x.tid && mustWait s c level idx x.tid then { y with pc := c.pc, st := .barrier level idx (findBar s c.w.name level idx).phase }
      else y)

/-- The instance that holds a barrier of a warp is there (R316). -/
def hasInstance (s : State) (n : WName) (level : Nat) : Bool :=
  if level ≤ 1 then (findBlock s n.launch n.blk n.shadow).isSome
  else if level = 2 then (findGang s n.launch n.blk n.shadow).isSome
  else (findLaunch s n.launch).isSome

/-! ## Engines -/

/-- What a CPY (`chan`) or BCPY appends (R260, R270), where nothing hinders it: no acquire in flight, room in the queue, the descriptor passes the
tests of R261, and no comparison of twins is due before a write to memory (R464). -/
def copyEntry (chan : Bool) (f : FWord) (x : LExt) (s : State) (c : Ctx) (tids : List Nat) : Option CopyEnt :=
  let ch := if chan then f.d.toNat else engineCh f.d.toNat
  let d := copyDesc (readGroup s c c.w tids (tids.headD 0) (atRep s c f).a.toNat 8)
  let g := c.l.segAt (x.xbits 0 4)
  let h := c.l.segAt (x.xbits 4 4)
  let queued := c.b.ptr ch + ((blockEnts s c.l.lk c.b.blk c.b.shadow ch).map (fun e => e.rb * e.rows - e.done)).foldl (· + ·) 0
  if acqHeld s c.w tids || copyFull s c.w.core ch || ((decide (h.kind = 0) || decide (h.kind = 6)) && mustCompare c) ||
      (descTest g h (if chan then [0, 6, 4, 1, 2] else [0, 6]) (if chan then [0, 6, 1, 2] else [0, 6]) d (if chan then some queued else none)).isSome ||
      (reachTest (extentFails g c.l.pkt.smem c.l.pkt.gang d.soff d.rb d.rows d.sp ++ extentFails h c.l.pkt.smem c.l.pkt.gang d.doff d.rb d.rows d.dp)).isSome
  then none
  else some
    { id := s.nextId, core := c.w.core, ch := ch, w := c.w.name, tid := tids.headD 0, depth := c.w.depth, ssrc := x.xbits 0 4, sdst := x.xbits 4 4
      soff := d.soff, doff := d.doff, rb := d.rb, rows := d.rows, sp := d.sp, dp := d.dp, ptr0 := none, done := 0, sig := f.sig.toNat, pc := c.pc
      token := none, party := partyOf c.w none, ivl := (c.w.race.thread (tids.headD 0)).ivl, clk := (issueClock c.w.race c.w.name tids).1 }
/-- What a copy entry's issue leaves of its warp: its flag is up by one, and a twin's signature has taken the entry in (R464). -/
def copyWarp (f : FWord) (x : LExt) (s : State) (c : Ctx) (tids : List Nat) : Warp :=
  let ws := readGroup s c c.w tids (tids.headD 0) (atRep s c f).a.toNat 8
  let w := flagUp c f.sig.toNat c.w
  if c.l.twin then
    { w with sig := crcBytes c.w.sig (sigBytes (x.xbits 4 4) (copyDesc ws).doff 32 (tids.headD 0) ((ws.map (fun y => toBytes y.toNat 4)).flatten)) }
  else w
/-- The interval at which a copy entry begins on its queue (R252): the bytes that its channel will have delivered before it, or its own number. -/
def copyStart (s : State) (c : Ctx) (ch : Nat) : Nat :=
  if ch < 16 then
    agetD c.b.wpast ch 0 + (c.b.ptr ch + ((blockEnts s c.l.lk c.b.blk c.b.shadow ch).map (fun e => e.rb * e.rows - e.done)).foldl (· + ·) 0)
  else s.nextId
/-- The pages of 2 MiB that the threads of TMOVE (`wr`), TSTAT or TCNCL name, where every thread passes the tests of its segment and no acquire is
in flight (R274, R275). -/
def tierPages (wr : Bool) (f : FWord) (x : LExt) (s : State) (c : Ctx) (tids : List Nat) : Option (List (Nat × Nat)) :=
  let ts := if isUniform (tierUse f x) f then tids.take 1 else tids
  let g := c.l.segAt x.seg
  let offs := ts.map (fun t => (t, memOff s c (atRep s c f) (some x) 1 ts t))
  if acqHeld s c.w tids || offs.any (fun e => (tierCause g wr e.2).isSome) then none
  else some (offs.map (fun e => (e.1, pageOf (g.base + e.2.toNat))))
/-- The bytes of the leaf of a page. -/
def atLeaf (l : LeafAt) : List Nat := (List.range 8).map (l.pa + ·)

/-! ## Launches -/

/-- How a LAUNCH goes, where nothing hinders it (R357): the accesses with which it reads its packet, and the slot of its queue's tail. No
acquire and no store of its threads is in flight, its segment and queue serve it, no watchpoint, page or race is in the way, nothing is
poisoned, the queue has room, and the launch has no twin. -/
def launchOut (f : FWord) (x : LExt) (s : State) (c : Ctx) (tids : List Nat) : Option (List Acc × Nat × Nat) :=
  let p := partOf c.l.lk
  let k := (findPart s p).queue (x.xbits 0 4)
  let g := c.l.segAt x.seg
  let off := memOff s c (atRep s c f) (some x) 1 (tids.take 1) (tids.headD 0)
  let pieces := segPieces c g (packetOp x) (tids.headD 0) off [] [] true
  let va := slotVa k k.qtail.toNat
  if acqHeld s c.w tids || (segCause c g (packetOp x) off).isSome || !k.en || (!isSup s c.l.lk && !k.devl) ||
      pieces.any (fun a => (watchOf s c (packetOp x) a).isSome) || storesDue s c.w.name tids || c.l.twin ||
      decide ((k.qtail - k.qhead).toNat ≥ 16) || isCow s p va then none
  else match translate s c (packetOp x) pieces, xlate s p va .store none with
    | .perform accs, .ok pa => if (raceHit s c 2 accs).isSome || accs.any (accPoison s) then none else some (accs, va, pa)
    | _, _ => none
/-- The machine has a partition of this number. -/
def hasPart (s : State) (p : Nat) : Bool := s.parts.any (fun q => decide (q.id = p))
/-- `o` changes nothing but a partition's registers and records, as `g` says. -/
def OnPart (s : State) (o : Host.Outcome State Fault Refusal) (p : Nat) (g : Part → Part) : Prop :=
  ∃ t, o = .next t ∧ t = { s with parts := t.parts } ∧ findPart t p = g (findPart s p) ∧ ∀ q, q ≠ p → findPart t q = findPart s q
/-- `o` changes nothing but a warp, as `g` says. -/
def OnWarp (s : State) (o : Host.Outcome State Fault Refusal) (n : WName) (g : Warp → Warp) : Prop :=
  ∃ t, o = .next t ∧ t = { s with warps := t.warps } ∧ ∀ m w, findWarp s m = some w → findWarp t m = some (if m = n then g w else w)
/-- `o` changes nothing but the threads of a warp, each as `g` says. -/
def OnThreads (s : State) (o : Host.Outcome State Fault Refusal) (n : WName) (g : Thread → Thread) : Prop :=
  OnWarp s o n (fun w => { w with threads := w.threads.map g })
/-- Every test of the acceptance of a queue's next packet that comes before its bytes (R342). -/
def mayAccept (s : State) (p q : Nat) : Bool :=
  let k := (findPart s p).queue q
  decide (q < 16) && k.en && decide (k.qhead ≠ k.qtail) && k.token.isNone && decide ((findPart s p).heldCompl.length < 64) &&
    (findLaunch s (lkOf p (lidFor q k.qhead.toNat))).isNone && !runMoving s p 2 (slotVa k k.qhead.toNat) 256
/-- A gang of a launch starts on a cluster now (R347, R348): the launch may start one there, and no launch of a higher priority could. -/
def startsGang (s : State) (l : Launch) (cluster : Nat) : Bool :=
  (findPart s l.part).clusters.contains cluster && readyOn s l cluster &&
    s.launches.all (fun m => !(decide (m.part = l.part) && decide (m.pkt.prio > l.pkt.prio) && readyOn s m cluster && (startGang s m cluster).isSome))
/-- A warp of a launch as a block starts it (R78), on the cluster given or, as a twin's shadow, on another (R464): no register written, every
thread at the launch's entry. -/
def freshWarp (l : Launch) (cluster : Nat) (w : Warp) : Prop :=
  w.name.launch = l.lk ∧ (if w.name.shadow then l.twin = true ∧ clusterOf w.core ≠ cluster else clusterOf w.core = cluster) ∧ w.frames = [{}] ∧ w.fpm = 0 ∧ w.mq = [] ∧
    ∀ t ∈ w.threads, t.pc = entryPc l ∧ t.held = 0 ∧ (t.st = .ready ∨ t.st = .exited)

/-! ## Exceptions -/

/-- `o` takes an exception with the restart point before the group (R382 to R385). -/
def Raises (start : Option (Ctx × List Nat)) (s : State) (o : Host.Outcome State Fault Refusal) (cond : Ctx → List Nat → Prop)
    (r : Ctx → List Nat → Raise) : Prop :=
  ∀ c tids, start = some (c, tids) → cond c tids → o = .next (raise s c (r c tids))
/-- What SWR meets before it performs (R406, R407): the special register is there and its privilege may write it. -/
def swrSpec (s : State) (f : FWord) (c : Ctx) : Spec :=
  let sp := specOf s c { b := 1, q := false, bad := !f.i && !(isV f.b.toNat || isUniCode f.b.toNat) } f none
  { sp with cause := if !srListed (swrNum f) then some 0x01 else if !srWritable (isSup s c.l.lk) (swrNum f) then some 0x0E else sp.cause }
/-- What a group that encodes no instruction needs to raise its cause (R383, R385): as an instruction that would meet none. -/
def entrySpec (s : State) : Spec :=
  { q := schedOf s.iss.words, den := false, cause := none, named := fieldCodes s.iss.words, dests := [], uni := uniWords s.iss.words }

/-- An instruction of the supervisor that gives each of its threads one status word (R401, R404, R484, R486): the warp afterwards. -/
def told (u : Use) (f : FWord) (s : State) (y : Word) (c : Ctx) (tids : List Nat) : Warp := giveWord c u (atRep s c f) tids c.w y
/-- A request that an instruction leaves to be answered, in flight (R404, R484, R486). -/
def asked (s : State) (c : Ctx) (f : FWord) (kind : ReqKind) (dcode dn : Nat) (tids : List Nat) : State :=
  { s with
    nextId := s.nextId + 1
    reqs := s.reqs ++ [{ mkReq s c { seg := 0, unit := 1, size := 4, align := 4, use := .load, kind := kind, dcode := dcode, dn := dn }
      s.nextId f.sig.toNat tids [] with order := 0 }] }
/-- A thread that waits for the answer of a request. -/
def awaiting (id : Nat) (tids : List Nat) (t : Thread) : Thread := if tids.contains t.tid then { t with st := .reply id } else t

/-! ## Contexts and checkpoints -/

/-- A warp of a gang. -/
def inGang (l : Launch) (g : Gang) (n : WName) : Bool := ofGang l.lk g.rank0 (max 1 l.pkt.gang) n
/-- What software sees of a frame (R418). -/
def Frame.seen (fr : Frame) : List (Nat × Word) × List (Nat × Word) × List (Nat × BitVec 12) × Window := (fr.v, fr.s, fr.p, fr.win)
/-- A gang has been saved (R413, R418): nothing of it is on the cores, and an image holds the frames of its warps as they stood when it had
stopped. -/
structure SavedGang (s t : State) (l : Launch) (g : Gang) (why : Nat) : Prop where
  warps : ∀ w ∈ t.warps, inGang l g w.name = false
  blocks : ∀ b ∈ t.blocks, inGang l g { launch := b.launch, blk := b.blk, shadow := b.shadow, w := 0 } = false
  image : ∃ im ∈ t.images, im.launch = l.lk ∧ im.block0 = g.rank0 ∧ im.why = why ∧ im.epoch = g.epoch + 1 ∧
    (∀ s1, stopGang s l g = some s1 → im.warps.map Warp.frames = (gangWarps s1 l g).map Warp.frames) ∧
    ∀ x ∈ t.gangs, x.launch = l.lk → x.rank0 = g.rank0 → x.st = .saved im.id ∧ x.epoch = g.epoch + 1 ∧ x.restored = false
/-- A saved gang that the dispatcher may move: it saved it itself, no record about it is unanswered, and no cut of it is due (R424, R482). -/
def movable (s : State) (g : Gang) (im : Image) : Bool := decide (im.why ≠ 4) && g.marks.isEmpty && !cutDue s g.launch
/-- The access of CTXLD to `n` bytes of an image (R435). -/
def imageOp (x : LExt) (n : Nat) : MemOp := { seg := x.seg, unit := 1, size := n, align := 4096, use := .load, kind := .load false }
/-- The header and the whole of an image that a CTXLD reaches, where its segment allows it, every page is there and nothing is poisoned, and
what it reads. -/
def imageRead (f : FWord) (x : LExt) (s : State) (c : Ctx) (tids : List Nat) : Option (List Acc × List Byte) :=
  let off := ctxOff s c (atRep s c f) x tids
  let g := c.l.segAt x.seg
  match segCause c g (imageOp x 64) off, reachImage s c (imageOp x 64) tids off [] with
  | none, .go hd =>
    let n := max 64 (fieldOf (ctxRead s c hd) 0x20 8)
    if fieldOf (ctxRead s c hd) 0 4 ≠ 0x47435846 || fieldOf (ctxRead s c hd) 4 2 ≠ 1 then none
    else match segCause c g (imageOp x n) off, reachImage s c (imageOp x n) tids off [] with
      | none, .go accs => if accs.any (accPoison s) then none else some (accs, (ctxRead s c accs).take n)
      | _, _ => none
  | _, _ => none

/-! ## Forms of operands and results -/

/-- d ← f(a). -/
def useA : Use := { d := 1, a := 1, den := true }
/-- d ← f(b). -/
def useB : Use := { d := 1, b := 1, den := true }
/-- d ← f(a, b). -/
def useAB : Use := { d := 1, a := 1, b := 1, den := true }
/-- d ← f(a, b, c). -/
def useABC : Use := { d := 1, a := 1, b := 1, c := 1, den := true }
/-- d ← f(a, b, d). -/
def useABD : Use := { d := 1, dr := 1, a := 1, b := 1, den := true }
/-- A comparison into predicate D[3:0] (R106, R123). -/
def useCmp (f : FWord) : Use := { a := 1, b := 1, den := true, bad := decide (f.dLo ≥ 12), preds := [f.dLo], pw := true }
/-- The result of a function of a. -/
def one (g : Word → Word) (i : AluIn) : AluOut := { vals := [g (w32 i.a)] }
/-- The result of a function of a and b. -/
def two (g : Word → Word → Word) (i : AluIn) : AluOut := { vals := [g (w32 i.a) (w32 i.b)] }
/-- The result of a function of a, b and c. -/
def three (g : Word → Word → Word → Word) (i : AluIn) : AluOut := { vals := [g (w32 i.a) (w32 i.b) (w32 i.c)] }
/-- An integer clamped to 32 bits in two's complement. -/
def satI32 (y : Int) : Word := BitVec.ofInt 32 (max (-2 ^ 31) (min (2 ^ 31 - 1) y))
/-- An integer clamped to 32 bits unsigned. -/
def satN32 (y : Int) : Word := BitVec.ofInt 32 (max 0 (min (2 ^ 32 - 1) y))
/-- The result of a function of two FP32 values in the mode of the form (R111, R115, R119), clamped where .sat is given (R120). -/
def fpTwo (f : FWord) (x : Option LExt) (g : Nat → Bool → FVal → FVal → Nat × Exc) (i : AluIn) : AluOut :=
  out32 f.v (g (rmOf x) (fpmFtz32 i.fpm) (f32 i.fpm (w32 i.a)) (f32 i.fpm (fpB f x i)))
/-- The result of a function of one FP32 value. -/
def fpOne (g : Bool → FVal → Nat × Exc) (i : AluIn) : AluOut := out32 false (g (fpmFtz32 i.fpm) (f32 i.fpm (w32 i.a)))
/-- The uses of the FP64 instructions: pairs, and the feature FP64 (R2, R130). -/
def useDD : Use := { d := 2, a := 2, b := 2, den := true, feat := some 0, lock := true }
/-- The result of a function of two FP64 values. -/
def dpTwo (g : Bool → FVal → FVal → Nat × Exc) (i : AluIn) : AluOut :=
  out64 (g (fpmFtz64 i.fpm) (f64 i.fpm (w64 i.a)) (f64 i.fpm (w64 i.b)))
/-- The use of a quantisation from `n` registers, or a dequantisation into them (R144, R147). -/
def useQnt (d a : Nat) : Use := { d := d, a := a, b := 1, zero := false, den := true, lock := true }

/-! ## Parts of statements -/

/-- Lines written back (R211): exactly the dirty lines that are named go home, byte for byte where they do not overlap; the lines named are
then gone or clean, the others stay. -/
def LinesGoHome : Prop :=
  ∀ (s : State) (named : L1Line → Bool) (drop : Bool),
    (∀ b, (∀ ln ∈ s.l1, named ln = true → ln.dirty = true → b < ln.line * 128 ∨ ln.line * 128 + ln.bytes.length ≤ b) →
      readByte (flushLines s named drop).mem b = readByte s.mem b) ∧
    (∀ ln ∈ s.l1, named ln = true → ln.dirty = true →
      (∀ l2 ∈ s.l1, named l2 = true → l2.dirty = true → l2 ≠ ln →
        ln.line * 128 + ln.bytes.length ≤ l2.line * 128 ∨ l2.line * 128 + l2.bytes.length ≤ ln.line * 128) →
      readBytes (flushLines s named drop).mem (ln.line * 128) ln.bytes.length = ln.bytes) ∧
    (flushLines s named true).l1 = s.l1.filter (fun ln => !named ln) ∧
    (∀ ln ∈ (flushLines s named false).l1, named ln = true → ln.dirty = false) ∧
    (∀ ln ∈ s.l1, named ln = false → ln ∈ (flushLines s named drop).l1)

/-- What PRF asks of the L1 (R226): the line of each thread whose access would pass every test and go to HBM4, where the L1 lacks it. -/
def prefetched (s : State) (c : Ctx) (f : FWord) (tids : List Nat) : State :=
  let m : MemOp := { seg := f.bHi, unit := 128, size := 1, align := 1, use := .prefetch, kind := .load false }
  tids.foldl (fun acc t =>
    match quietAcc s c m t (memOff s c (atRep s c f) none 128 tids t) with
    | none => acc
    | some a =>
      let k := l1Core c.l c.w.core a.addr
      if isHbm a.addr && (findLine acc k a.addr).isNone then putLine acc (lineFor acc k (partOf c.l.lk) a) else acc) s
/-- A line that enters an L1 (R211) is there then; the lines of other cores and sets stay, and so do those of its own set where that has fewer
than 8. -/
def LineEnters : Prop :=
  ∀ (s : State) (ln : L1Line),
    ln ∈ (putLine s ln).l1 ∧
    (∀ x ∈ s.l1, x.core ≠ ln.core ∨ x.line % 128 ≠ ln.line % 128 → x ∈ (putLine s ln).l1) ∧
    ((s.l1.filter fun x => x.core = ln.core ∧ x.line % 128 = ln.line % 128).length < 8 → putLine s ln = { s with l1 := ln :: s.l1 }) ∧
    elsewhere (putLine s ln) = elsewhere { s with l1 := (putLine s ln).l1, mem := (putLine s ln).mem }

/-- One word given to threads through D: a v register of each thread named, or an s register, holds it; no other register or predicate changes. -/
def WordsGiven : Prop :=
  ∀ (c : Ctx) (f : FWord) (ts : List Nat) (w : Warp) (res : List (Nat × Word)), c.den = none → (res.map (·.1)).Nodup → w.frames ≠ [] →
    let v := giveEach c f ts w res
    let d := f.d.toNat
    (isV d = true → (∀ e ∈ res, v.cur.getV e.1 d = e.2) ∧ (∀ r, v.cur.getS r = w.cur.getS r)) ∧
    (isS d = true → (∀ e, res.getLast? = some e → v.cur.getS (d - 0x80) = e.2) ∧ ∀ r, r ≠ d - 0x80 → v.cur.getS r = w.cur.getS r) ∧
    (∀ τ r, r < 128 → (τ ∉ res.map (·.1) ∨ r ≠ d) → v.cur.getV τ r = w.cur.getV τ r) ∧
    (∀ τ, v.cur.getP τ = w.cur.getP τ) ∧ v.cur.kept = w.cur.kept ∧ v.kept = w.kept

/-- The result of a reduction does not depend on the order in which its contributions arrive (R149, R151), and a rank counts once (R152). -/
def ContributionsCommute : Prop :=
  ∀ (s : State) (lk : Nat) (sum : Bool) (grp tag idx : Nat) (g : Group) (l : Launch) (r1 d1 r2 d2 : Nat) (m1 e1 m2 e2 : Int),
    findChunk s lk sum grp tag idx = none → (∀ d, engineEntries s d < 8192) → r1 ≠ r2 →
    let put (st : State) (r d : Nat) (m e : Int) := contribute st lk sum grp tag idx g l r d m e
    let see (st : State) := (findChunk st lk sum grp tag idx).map (fun k => (chunkWords k, k.complete, k.ranks))
    see (put (put s r1 d1 m1 e1) r2 d2 m2 e2) = see (put (put s r2 d2 m2 e2) r1 d1 m1 e1) ∧
    put (put s r1 d1 m1 e1) r1 d2 m2 e2 = put s r1 d1 m1 e1

end Sys2Proof.Machine
end

