-- ==== Sys2Proof/Certificates/Slice0/Obligations.lean ====
section
/-! DEFINITION. The statements for the provers. -/

section
open Sys2Proof Sys2Proof.Machine

/-! ## Instructions that compute registers and predicates -/

/-- The two-source integer and logic instructions give, in each acting thread, the value that the table of R96 gives. -/
def Obligations.IntegerTwoSource : Prop :=
  ∀ (f : FWord) (x : LExt) (s : State),
    Gives useAB f none s (exec (.iaddF f) s) (two fun a b => if f.v then satI32 (a.toInt + b.toInt) else a + b) ∧
    Gives useAB f (some x) s (exec (.iaddL f x) s) (two fun a b => if !f.v then a + b
      else if x.ty0 = 7 then satN32 (a.toNat + b.toNat) else satI32 (a.toInt + b.toInt)) ∧
    Gives useAB f none s (exec (.isubF f) s) (two fun a b => if f.v then satI32 (a.toInt - b.toInt) else a - b) ∧
    Gives useAB f (some x) s (exec (.isubL f x) s) (two fun a b => if !f.v then a - b
      else if x.ty0 = 7 then satN32 (a.toNat - b.toNat) else satI32 (a.toInt - b.toInt)) ∧
    Gives useAB f none s (exec (.imulF f) s) (two fun a b => BitVec.ofInt 32 (a.toInt * b.toInt)) ∧
    Gives useAB f (some x) s (exec (.imulL f x) s) (two fun a b => BitVec.ofInt 32 (a.toInt * b.toInt)) ∧
    Gives useAB f none s (exec (.imulh f) s) (two fun a b =>
      if f.v then (a.zeroExtend 64 * b.zeroExtend 64).extractLsb' 32 32 else (a.signExtend 64 * b.signExtend 64).extractLsb' 32 32) ∧
    Gives useAB f none s (exec (.iminF f) s) (two fun a b => if f.v then BitVec.ofNat 32 (min a.toNat b.toNat) else BitVec.ofInt 32 (min a.toInt b.toInt)) ∧
    Gives useAB f (some x) s (exec (.iminL f x) s) (two fun a b =>
      if f.v then BitVec.ofNat 32 (min a.toNat b.toNat) else BitVec.ofInt 32 (min a.toInt b.toInt)) ∧
    Gives useAB f none s (exec (.imaxF f) s) (two fun a b => if f.v then BitVec.ofNat 32 (max a.toNat b.toNat) else BitVec.ofInt 32 (max a.toInt b.toInt)) ∧
    Gives useAB f (some x) s (exec (.imaxL f x) s) (two fun a b =>
      if f.v then BitVec.ofNat 32 (max a.toNat b.toNat) else BitVec.ofInt 32 (max a.toInt b.toInt)) ∧
    Gives useAB f none s (exec (.andF f) s) (two fun a b => a &&& b) ∧
    Gives useAB f (some x) s (exec (.andL f x) s) (two fun a b => a &&& b) ∧
    Gives useAB f none s (exec (.orF f) s) (two fun a b => a ||| b) ∧
    Gives useAB f (some x) s (exec (.orL f x) s) (two fun a b => a ||| b) ∧
    Gives useAB f none s (exec (.xorF f) s) (two fun a b => a ^^^ b) ∧
    Gives useAB f (some x) s (exec (.xorL f x) s) (two fun a b => a ^^^ b) ∧
    Gives useAB f none s (exec (.andnF f) s) (two fun a b => a &&& ~~~b) ∧
    Gives useAB f (some x) s (exec (.andnL f x) s) (two fun a b => a &&& ~~~b) ∧
    Gives useAB f none s (exec (.shl f) s) (two fun a b => if b.toNat ≥ 32 then 0 else BitVec.ofNat 32 (a.toNat * 2 ^ b.toNat)) ∧
    Gives useAB f none s (exec (.shr f) s) (two fun a b => if b.toNat ≥ 32 then 0 else BitVec.ofNat 32 (a.toNat / 2 ^ b.toNat)) ∧
    Gives useAB f none s (exec (.sar f) s) (two fun a b => BitVec.ofInt 32 (a.toInt / 2 ^ min b.toNat 31)) ∧
    Gives useAB f none s (exec (.rol f) s) (two fun a b => (a <<< (b.toNat % 32)) ||| (a >>> (32 - b.toNat % 32)))

/-- The one-source instructions give the values of R97, the 64-bit and widening ones those of R98, the three-source ones those of R99 and
R105, whose encodings are as these rules say. A pair is two registers, the first the low word. -/
def Obligations.IntegerOneSourceAndWide : Prop :=
  ∀ (f : FWord) (x : LExt) (s : State),
    Gives useA f none s (exec (.iabs f) s) (one fun a => if a = 0x80000000 then (if f.v then 0x7FFFFFFF else 0x80000000)
      else BitVec.ofNat 32 a.toInt.natAbs) ∧
    Gives useA f none s (exec (.ineg f) s) (one fun a => if a = 0x80000000 then (if f.v then 0x7FFFFFFF else 0x80000000)
      else BitVec.ofInt 32 (-a.toInt)) ∧
    Gives useA f none s (exec (.not f) s) (one fun a => ~~~a) ∧
    Gives useA f none s (exec (.popc f) s) (one fun a => BitVec.ofNat 32 ((List.range 32).countP a.getLsbD)) ∧
    Gives useA f none s (exec (.clz f) s) (one fun a => if a = 0 then 32 else BitVec.ofNat 32 (31 - Nat.log2 a.toNat)) ∧
    Gives useA f none s (exec (.brev f) s) (one fun a => a.reverse) ∧
    Gives { d := 2, a := 2, b := 2, den := true } f none s (exec (.iadd64 f) s) (fun i => { vals := split64 (w64 i.a + w64 i.b) }) ∧
    Gives { d := 2, a := 1, b := 1, den := true } f none s (exec (.imulw f) s) (fun i =>
      { vals := split64 (if f.v then (w32 i.a).zeroExtend 64 * (w32 i.b).zeroExtend 64 else (w32 i.a).signExtend 64 * (w32 i.b).signExtend 64) }) ∧
    Gives useABC f (some x) s (exec (.iaddt f x) s) (three fun a b c =>
      BitVec.ofInt 32 (a.toInt + (if x.x24.getLsbD 0 then -b.toInt else b.toInt) + (if x.x24.getLsbD 1 then -c.toInt else c.toInt))) ∧
    Gives useABC f (some x) s (exec (.imad f x) s) (three fun a b c => BitVec.ofInt 32 (a.toInt * b.toInt + c.toInt)) ∧
    (f.v = false → Gives useAB f (some x) s (exec (.lea f x) s) (two fun a b => BitVec.ofNat 32 (a.toNat + b.toNat * 2 ^ x.xbits 0 5))) ∧
    (f.v = true → Gives { d := 2, a := 2, b := 1, den := true } f (some x) s (exec (.lea f x) s) (fun i =>
      { vals := split64 (BitVec.ofNat 64 ((w64 i.a).toNat + (w32 i.b).toNat * 2 ^ x.xbits 0 5)) })) ∧
    Encodes (.iaddt f x) 3 0x004 (f.v = false ∧ (∀ k, 2 ≤ k → x.x24.getLsbD k = false) ∧ immIsB f x) ∧
    Encodes (.imad f x) 3 0x009 (f.v = false ∧ x.x24 = 0 ∧ immIsB f x) ∧
    Encodes (.lea f x) 3 0x021 ((∀ k, 5 ≤ k → x.x24.getLsbD k = false) ∧ immIsB f x)

/-- The bit and field instructions give the values of R100 to R104, and their encodings are as these rules say. -/
def Obligations.FieldOperations : Prop :=
  ∀ (f : FWord) (x : LExt) (s : State),
    Gives useABC f (some x) s (exec (.blut f x) s) (three fun a b c => wordOfBits fun i =>
      x.imm32.getLsbD ((a.getLsbD i).toNat + 2 * (b.getLsbD i).toNat + 4 * (c.getLsbD i).toNat)) ∧
    Gives useABC f (some x) s (exec (.funs f x) s) (three fun a b c =>
      let k := min c.toNat 32
      if f.v then ((b ++ a) >>> k).extractLsb' 0 32 else ((b ++ a) <<< k).extractLsb' 32 32) ∧
    Gives useAB f (some x) s (exec (.bfe f x) s) (two fun a b =>
      let pos := (b.extractLsb' 0 8).toNat
      let len := (b.extractLsb' 8 8).toNat
      if len = 0 then 0
      else if pos ≥ 32 then (if f.v && a.msb then 0xFFFFFFFF else 0)
      else
        let n := min len (32 - pos)
        let y := a.extractLsb' pos n
        if f.v then y.signExtend 32 else y.zeroExtend 32) ∧
    Gives useABC f (some x) s (exec (.bfi f x) s) (three fun a b c =>
      let pos := (b.extractLsb' 0 8).toNat
      let len := (b.extractLsb' 8 8).toNat
      if len = 0 ∨ pos ≥ 32 then c
      else wordOfBits fun i => if pos ≤ i ∧ i < pos + min len (32 - pos) then a.getLsbD (i - pos) else c.getLsbD i) ∧
    Gives useABC f (some x) s (exec (.bpick f x) s) (three fun a b c => wordOfBits fun i =>
      let nib := (c.extractLsb' (4 * (i / 8)) 4)
      let j : BitVec 8 := (b ++ a).extractLsb' (8 * (nib.extractLsb' 0 3).toNat) 8
      if nib.getLsbD 3 then f.v && j.msb else j.getLsbD (i % 8)) ∧
    Encodes (.blut f x) 3 0x015 (f.v = false ∧ f.i = false ∧ x.x24 = 0 ∧ x.imm32.toNat < 256) ∧
    Encodes (.funs f x) 3 0x01A (x.x24 = 0 ∧ immIsB f x) ∧ Encodes (.bfe f x) 3 0x01B (x.x24 = 0 ∧ immIsB f x) ∧
    Encodes (.bfi f x) 3 0x01C (f.v = false ∧ x.x24 = 0 ∧ immIsB f x) ∧ Encodes (.bpick f x) 3 0x020 (x.x24 = 0 ∧ immIsB f x)

/-- The moves, comparisons, selections and predicate instructions give what R95 and R106 to R109 give. -/
def Obligations.MovesAndPredicates : Prop :=
  ∀ (f : FWord) (x : LExt) (s : State),
    Gives { den := true } f none s (exec (.nop f) s) (fun _ => {}) ∧
    Gives useB f none s (exec (.movF f) s) (fun i => { vals := [w32 i.b] }) ∧
    Gives useB f (some x) s (exec (.movL f x) s) (fun i => { vals := [w32 i.b] }) ∧
    Gives (useCmp f) f none s (exec (.isetF f) s) (fun i =>
      let r := condW f.dHi (w32 i.a) (w32 i.b)
      { preds := [(f.dLo, if f.v then i.p.getLsbD f.dLo && r else r)] }) ∧
    Gives (useCmp f) f (some x) s (exec (.isetL f x) s) (fun i =>
      let r := condW f.dHi (w32 i.a) (w32 i.b)
      { preds := [(f.dLo, if f.v then i.p.getLsbD f.dLo && r else r)] }) ∧
    Gives { d := 1, a := 1, b := 1, den := true, bad := decide (x.xbits 0 4 ≥ 12), preds := [x.xbits 0 4] } f (some x) s (exec (.sel f x) s) (fun i =>
      { vals := [if i.p.getLsbD (x.xbits 0 4) = !f.v then w32 i.a else w32 i.b] }) ∧
    Gives { den := true
            bad := decide (f.dLo ≥ 12) || (decide (f.dHi ≤ 3) && decide (f.aLo ≥ 12)) || (decide (f.dHi ≤ 5) && decide (f.bLo ≥ 12))
            preds := [f.dLo] ++ (if decide (f.dHi ≤ 3) then [f.aLo] else []) ++ (if decide (f.dHi ≤ 5) then [f.bLo] else []) }
      f none s (exec (.pset f) s) (fun i =>
        let j := i.p.getLsbD f.aLo
        let k := i.p.getLsbD f.bLo ^^ f.v
        { preds := [(f.dLo, match f.dHi with | 0 => j && k | 1 => j || k | 2 => j ^^ k | 3 => j && !k | 4 => k | 5 => !k | 6 => false | _ => true)] }) ∧
    (f.v = false → Gives { d := 1, s := false, den := true, preds := List.range 12 } f none s (exec (.pmov f) s) (fun i =>
      { vals := [i.p.zeroExtend 32] })) ∧
    (f.v = true → Gives { a := 1, b := 1, den := true, bad := decide (f.d.toNat ≠ 0xC8), preds := List.range 12 } f none s (exec (.pmov f) s) (fun i =>
      { preds := ((List.range 12).filter (fun k => (w32 i.b).getLsbD k)).map (fun k => (k, (w32 i.a).getLsbD k)) }))

/-- Rounding (R111, R45): to a multiple of 2^q, to nearest with ties to even, toward zero, up or down, and inexact exactly when the value
changes; and rounding a finite non-zero value of a format to that format gives it back with no exception. -/
def Obligations.FloatRounding : Prop :=
  (∀ (rm : Nat) (neg : Bool) (m : Nat) (e q : Int), e < q →
    let u := 2 ^ (q - e).toNat
    let r := roundAt rm neg m e false q
    r.2 = decide (m % u ≠ 0) ∧
    (rm = 0 → 2 * (r.1 * u) ≤ 2 * m + u ∧ 2 * m ≤ 2 * (r.1 * u) + u ∧ (2 * (r.1 * u) = 2 * m + u ∨ 2 * m = 2 * (r.1 * u) + u → r.1 % 2 = 0)) ∧
    (rm = 1 → r.1 = m / u) ∧
    (rm = 2 → r.1 = if neg then m / u else (m + u - 1) / u) ∧
    (rm = 3 → r.1 = if neg then (m + u - 1) / u else m / u)) ∧
  (∀ k ∈ [fmt16, fmtB16, fmt32, fmt64], ∀ (rm x : Nat) (neg : Bool) (m : Nat) (e : Int), x < 2 ^ k.width → unpackF k x = .fin neg m e → m ≠ 0 →
    roundPack k rm false neg m e false = (x, excNone))

/-- The FP32 instructions give the results of R120 to R128 by the model's exact functions, and trap under R116; FABS and FNEG, encoded as R122
says, clear and invert the sign bit, give the canonical NaN for a NaN and signal nothing. -/
def Obligations.SinglePrecision : Prop :=
  ∀ (f : FWord) (x : LExt) (s : State),
    Computes useAB f none s (exec (.faddF f) s) (fpTwo f none (addV fmt32)) ∧
    Computes useAB f (some x) s (exec (.faddL f x) s) (fpTwo f (some x) (addV fmt32)) ∧
    Computes useAB f none s (exec (.fsubF f) s) (fpTwo f none fun rm ftz a b => addV fmt32 rm ftz a b.negate) ∧
    Computes useAB f (some x) s (exec (.fsubL f x) s) (fpTwo f (some x) fun rm ftz a b => addV fmt32 rm ftz a b.negate) ∧
    Computes useAB f none s (exec (.fmulF f) s) (fpTwo f none (mulV fmt32)) ∧
    Computes useAB f (some x) s (exec (.fmulL f x) s) (fpTwo f (some x) (mulV fmt32)) ∧
    Computes useABD f none s (exec (.ffmaF f) s) (fun i =>
      out32 f.v (fmaV fmt32 0 (fpmFtz32 i.fpm) (f32 i.fpm (w32 i.a)) (f32 i.fpm (fpB f none i)) (f32 i.fpm (w32 i.d)))) ∧
    Computes useABC f (some x) s (exec (.ffmaL f x) s) (fun i =>
      out32 f.v (fmaV fmt32 x.rnd (fpmFtz32 i.fpm) (f32 i.fpm (w32 i.a)) (f32 i.fpm (fpB f (some x) i)) (f32 i.fpm (w32 i.c)))) ∧
    Computes useAB f none s (exec (.fmin f) s) (fpTwo f none fun _ ftz => minMaxV fmt32 ftz false) ∧
    Computes useAB f none s (exec (.fmax f) s) (fpTwo f none fun _ ftz => minMaxV fmt32 ftz true) ∧
    Computes (useCmp f) f none s (exec (.fsetF f) s) (fsetOut f none) ∧
    Computes (useCmp f) f (some x) s (exec (.fsetL f x) s) (fsetOut f (some x)) ∧
    Computes useA f none s (exec (.fabs f) s) (one fun a => if (unpackF fmt32 a.toNat).isNan then 0x7FC00000 else a &&& 0x7FFFFFFF) ∧
    Computes useA f none s (exec (.fneg f) s) (one fun a => if (unpackF fmt32 a.toNat).isNan then 0x7FC00000 else a ^^^ 0x80000000) ∧
    Computes useA f none s (exec (.frnd f) s) (fpOne (frndV fmt32 (f.b.toNat % 4))) ∧
    Computes useA f none s (exec (.fclass f) s) (one fun a => BitVec.ofNat 32 (classV fmt32 a.toNat)) ∧
    Computes useAB f none s (exec (.fscl f) s) (fun i => out32 false (sclV fmt32 (fpmFtz32 i.fpm) (f32 i.fpm (w32 i.a)) (w32 i.b).toInt)) ∧
    Computes { useAB with lock := true } f none s (exec (.fdivF f) s) (fpTwo f none (divV fmt32)) ∧
    Computes { useAB with lock := true } f (some x) s (exec (.fdivL f x) s) (fpTwo f (some x) (divV fmt32)) ∧
    Computes { useA with lock := true } f none s (exec (.frcp f) s) (fpOne fun ftz a => divV fmt32 0 ftz (.fin false 1 0) a) ∧
    Computes { useA with lock := true } f none s (exec (.frsq f) s) (fpOne (rsqrtV fmt32)) ∧
    Computes { useA with lock := true } f none s (exec (.fsqrt f) s) (fpOne (sqrtV fmt32)) ∧
    Computes { useA with lock := true } f none s (exec (.fex2 f) s) (fpOne (exp2V fmt32)) ∧
    Computes { useA with lock := true } f none s (exec (.flg2 f) s) (fpOne (log2V fmt32)) ∧
    Computes { useA with lock := true } f none s (exec (.fsinp f) s) (fpOne (sinpV fmt32)) ∧
    Computes { useA with lock := true } f none s (exec (.fcosp f) s) (fpOne (cospV fmt32)) ∧
    Encodes (.fabs f) 0 0x047 (f.v = false ∧ f.i = false) ∧ Encodes (.fneg f) 0 0x048 (f.v = false ∧ f.i = false)

/-- The packed 16-bit instructions give the results of R129, the FP64 ones those of R130, and trap under R116. -/
def Obligations.PackedAndDouble : Prop :=
  ∀ (f : FWord) (x : LExt) (s : State),
    Computes useAB f none s (exec (.pkadd f) s) (fun i => pk2 f.v i.fpm (fun k ftz => addV k 0 ftz) (w32 i.a) (w32 i.b)) ∧
    Computes useAB f none s (exec (.pkmul f) s) (fun i => pk2 f.v i.fpm (fun k ftz => mulV k 0 ftz) (w32 i.a) (w32 i.b)) ∧
    Computes useABD f none s (exec (.pkfmaF f) s) (fun i => pk3 f.v i.fpm 0 (w32 i.a) (w32 i.b) (w32 i.d)) ∧
    Computes useABC f (some x) s (exec (.pkfmaL f x) s) (fun i => pk3 f.v i.fpm x.rnd (w32 i.a) (w32 i.b) (w32 i.c)) ∧
    Computes useAB f none s (exec (.pkmin f) s) (fun i => pk2 f.v i.fpm (fun k ftz => minMaxV k ftz false) (w32 i.a) (w32 i.b)) ∧
    Computes useAB f none s (exec (.pkmax f) s) (fun i => pk2 f.v i.fpm (fun k ftz => minMaxV k ftz true) (w32 i.a) (w32 i.b)) ∧
    Computes useDD f none s (exec (.dadd f) s) (dpTwo (addV fmt64 0)) ∧
    Computes useDD f none s (exec (.dmul f) s) (dpTwo (mulV fmt64 0)) ∧
    Computes { useDD with dr := 2 } f none s (exec (.dfmaF f) s) (fun i =>
      out64 (fmaV fmt64 0 (fpmFtz64 i.fpm) (f64 i.fpm (w64 i.a)) (f64 i.fpm (w64 i.b)) (f64 i.fpm (w64 i.d)))) ∧
    Computes { useDD with c := 2 } f (some x) s (exec (.dfmaL f x) s) (fun i =>
      out64 (fmaV fmt64 x.rnd (fpmFtz64 i.fpm) (f64 i.fpm (w64 i.a)) (f64 i.fpm (w64 i.b)) (f64 i.fpm (w64 i.c)))) ∧
    Computes useDD f none s (exec (.dmin f) s) (dpTwo fun ftz => minMaxV fmt64 ftz false) ∧
    Computes useDD f none s (exec (.dmax f) s) (dpTwo fun ftz => minMaxV fmt64 ftz true) ∧
    Computes { useCmp f with a := 2, b := 2, feat := some 0, lock := true } f none s (exec (.dset f) s) (fun i =>
      let r := fcmpV f.dHi (f64 i.fpm (w64 i.a)) (f64 i.fpm (w64 i.b))
      { preds := [(f.dLo, if f.v then i.p.getLsbD f.dLo && r.1 else r.1)], exc := r.2 })

/-- A P word (R47 to R50): both halves read before either writes; each issuing thread's XD and YD hold what their halves give, %fpm accrues what both
signal, and nothing else changes. Where an enabled exception is among them its cause is delivered after both have written, the restart point behind the
word, %faddr naming the halves that signalled it. -/
def Obligations.PairWords : Prop :=
  ∀ (p : PWord) (s : State) (c : Ctx) (tids : List Nat), starts s (pairSpec p) = some (c, tids) →
    let x := halfOut s c tids (halfX p)
    let y := halfOut s c tids (halfY p)
    let exc := tids.foldl (fun e τ => e ||| halfExc (x τ) ||| halfExc (y τ)) (0 : Exc)
    let signals (h : Nat → Option (Word × Exc)) (k τ : Nat) : Bool := (halfExc (h τ)).getLsbD (k - 0x40)
    ∃ t g, Shows s t c g c.w (goOn s c tids) s ∧ (∀ v, findWarp t c.w.name = some v → v.fpm = fpmAccrue c.w.fpm exc) ∧
      { g with v := [] } = { c.w.cur with v := [] } ∧
      (∀ τ r, r < 128 → g.getV τ r =
        match (if τ ∈ tids then (if r % 2 = 0 then (if r = p.xd.toNat then x τ else none) else (if r = p.yd.toNat then y τ else none)) else none) with
        | some o => o.1
        | none => c.w.cur.getV τ r) ∧
      exec (.pairWord p) s = .next (match excCause (excEnabled c.w.fpm exc) with
        | none => t
        | some k => raiseAfter t c
            { cause := k, tids := tids.filter (fun τ => signals x k τ || signals y k τ)
              faddr := (if tids.any (signals x k) then 1 else 0) + (if tids.any (signals y k) then 2 else 0) })

/-- The conversions give the results of R132 to R134, the dot products those of R142 and R143, and quantisation, dequantisation and scales
those of R144 to R148; all trap under R116 and R145. -/
def Obligations.ConversionsAndNarrow : Prop :=
  ∀ (f : FWord) (x : LExt) (s : State),
    Computes (cvtUse x) f (some x) s (exec (.cvtif f x) s) (fun i => cvtifOut x.rnd x.ty8 x.ty16 i.fpm i.a) ∧
    Computes (cvtUse x) f (some x) s (exec (.cvtfi f x) s) (fun i => cvtfiOut x.rnd x.ty8 x.ty16 i.fpm i.a) ∧
    Computes (cvtUse x) f (some x) s (exec (.cvtff f x) s) (fun i =>
      let k := fmtOfTy x.ty8
      let r := cvtffV k x.rnd (ftzOf i.fpm k) (floatTy i.fpm x.ty16 i.a)
      { vals := placeTy x.ty8 r.1, exc := r.2 }) ∧
    Computes useABD f none s (exec (.dp4i8 f) s) (fun i =>
      let y := (w32 i.d).toInt + ((List.range 4).map fun k =>
        ((w32 i.a).extractLsb' (8 * k) 8).toInt * ((w32 i.b).extractLsb' (8 * k) 8).toInt).sum
      { vals := [if f.v then satI32 y else BitVec.ofInt 32 y], novf := !f.v && (BitVec.ofInt 32 y).toInt != y }) ∧
    Computes useABD f none s (exec (.dp8i4 f) s) (fun i =>
      let y := (w32 i.d).toInt + ((List.range 8).map fun k =>
        ((w32 i.a).extractLsb' (4 * k) 4).toInt * ((w32 i.b).extractLsb' (4 * k) 4).toInt).sum
      { vals := [if f.v then satI32 y else BitVec.ofInt 32 y], novf := !f.v && (BitVec.ofInt 32 y).toInt != y }) ∧
    Computes useABD f none s (exec (.dp4f8 f) s) (dotNarrow (if f.v then 0x0F else 0x0E) 4) ∧
    Computes useABD f none s (exec (.dp8f4 f) s) (dotNarrow 0x10 8) ∧
    Computes useABD f none s (exec (.dp2bf f) s) (fun i =>
      let es (y : Word) := (List.range 2).map (pkElem fmtB16 i.fpm y)
      out32 false (dotF (fpmFtz32 i.fpm) (f32 i.fpm (w32 i.d)) (es (w32 i.a)) (es (w32 i.b)))) ∧
    Computes (useQnt 1 4) f (some x) s (exec (.qnt8 f x) s) (quantOut x.ty8 x.rnd f.v) ∧
    Computes (useQnt 1 8) f (some x) s (exec (.qnt4 f x) s) (quantOut x.ty8 x.rnd f.v) ∧
    Computes (useQnt 4 1) f (some x) s (exec (.dq8 f x) s) (dequantOut x.ty16 x.rnd 4) ∧
    Computes (useQnt 8 1) f (some x) s (exec (.dq4 f x) s) (dequantOut x.ty16 x.rnd 8) ∧
    Computes useA f (some x) s (exec (.scle f x) s) (fun i => scleOut x.ty8 f.v i.fpm (w32 i.a))

/-- The warp collectives (R304 to R309) give each participant a function of what all participants read: votes and masks of POLL, the
permutation of WPERM, the equal values of MATCH, the lowest thread of ELECT, and the reductions and scans of WRED and WSCAN. -/
def Obligations.WarpCollectives : Prop :=
  ∀ (f : FWord) (x : LExt) (s : State),
    (f.v = false → Collects { lock := true, bad := decide (f.aLo ≥ 12) || decide (f.dLo ≥ 12), preds := [f.aLo, f.dLo] } f none s (exec (.poll f) s)
      (fun ins _ =>
        let val (i : AluIn) : Bool := i.p.getLsbD f.aLo != f.a.getLsbD 4
        { preds := [(f.dLo, match f.dHi with | 0 => ins.all val | 1 => ins.any val | _ => ins.all val || ins.all (!val ·))] })) ∧
    (f.v = true → Collects { d := 4, s := false, lock := true, zero := false, bad := decide (f.aLo ≥ 12), preds := [f.aLo] } f none s (exec (.poll f) s)
      (fun ins _ => { vals := maskWords (maskOf ((ins.filter fun i => i.p.getLsbD f.aLo != f.a.getLsbD 4).map (·.t))) })) ∧
    Collects (collUse 1 1) f none s (exec (.wpermF f) s) (fun ins i =>
      let k := (w32 i.b).toNat % 128
      { vals := [((ins.find? fun j => j.t = if f.v then i.t - i.t % 128 + ((i.t % 128) ^^^ k) else i.t - i.t % 128 + k).map fun j => w32 j.a).getD (w32 i.a)] }) ∧
    Collects (collUse 1 1) f (some x) s (exec (.wpermL f x) s) (fun ins i =>
      { vals := [((ins.find? fun j => j.t = wpermSrc (x.xbits 0 2) (2 ^ x.xbits 2 3) i.t (w32 i.b).toNat).map fun j => w32 j.a).getD (w32 i.a)] }) ∧
    Collects (collUse 4) f none s (exec (.matchWarp f) s) (fun ins i =>
      { vals := maskWords (maskOf ((ins.filter fun j => w32 j.a = w32 i.a).map (·.t))) }) ∧
    Collects { lock := true, bad := decide (f.dLo ≥ 12), preds := [f.dLo] } f none s (exec (.elect f) s) (fun ins i =>
      { preds := [(f.dLo, (ins.head?.map (·.t)) == some i.t)] }) ∧
    Collects (collUse 1) f none s (exec (.wred f) s) (fun ins i => wredOut f.bLo i.fpm ins) ∧
    Collects (collUse 1) f none s (exec (.wscan f) s) (fun ins i =>
      wredOut f.bLo i.fpm (ins.filter fun j => if f.v then decide (j.t < i.t) else decide (j.t ≤ i.t))) ∧
    Encodes (.matchWarp f) 0 0x129 (f.v = false ∧ f.i = false)

/-- SRD gives the special register that it names: those of the map that are a piece of state read as that piece, and word .1 of a counter as word .0
latched it. It raises 0x01 for a number outside the map and 0x0E for one that its privilege may not read (R405, R407).
MSTAT gives the state of a tile in its fields (R176). -/
def Obligations.SpecialReads : Prop :=
  (∀ (s : State) (c : Ctx) (t : Nat),
    let win := c.w.cur.win
    let p := findPart s (partOf c.l.lk)
    let q := findQuad s c.w.core c.w.quad
    let die := findDie s (dieOf c.w.core)
    (∀ e ∈ [(0x000, s.feat), (0x001, win.cause), (0x002, win.faddr.extractLsb' 0 32), (0x003, win.faddr.extractLsb' 32 32), (0x008, c.w.fpm),
        (0x00A, BitVec.ofNat 32 (retdOf c t)), (0x00B, c.w.ejmax), (0x00C, c.w.ejto), (0x00D, c.w.qto), (0x00E, c.w.trapvec), (0x00F, c.w.emuvec),
        (0x012, c.w.emuacc), (0x018, BitVec.ofNat 32 c.g.ckBytes), (0x019, c.g.ckWord1), (0x01A, c.w.race.peer), (0x01B, c.w.race.info),
        (0x100, win.ewop), (0x101, win.ewd), (0x102, win.ewa), (0x103, win.ewb), (0x104, win.ewc), (0x105, win.ewimm), (0x10A, win.ewpc),
        (0x10B, win.ewlen), (0x200, die.cyc.extractLsb' 0 32), (0x202, die.ncyAcc.extractLsb' 16 32), (0x204, die.refcnt.extractLsb' 0 32),
        (0xF00, BitVec.ofNat 32 p.fqbase), (0xF01, BitVec.ofNat 32 (p.fqbase / 2 ^ 32)), (0xF02, BitVec.ofNat 32 p.fqsize), (0xF03, p.fqhead),
        (0xF04, p.fqtail), (0xF09, BitVec.ofNat 32 p.id)], srValue s c e.1 t = e.2) ∧
    (∀ k, k < 4 → srValue s c (0x004 + k) t = win.fmask.extractLsb' (32 * k) 32 ∧ srValue s c (0x106 + k) t = win.ewmask.extractLsb' (32 * k) 32 ∧
      srValue s c (0x014 + k) t = agetD c.b.wptr k 0 ∧ srValue s c (0x01D + k) t = agetD c.w.epk k 0) ∧
    (∀ k, k < 8 → srValue s c (0x110 + k) t = win.ewg.getD k 0) ∧ (∀ k, k < 17 → srValue s c (0x210 + k) t = agetD q.hist k 0) ∧
    (∀ k, k < 16 → srValue s c (0x230 + k) t = agetD q.stall k 0) ∧
    (∀ n ∈ [0x200, 0x202, 0x204], srValue s { c with w := latchCounter s c.w n } (n + 1) t = (counterOf die n).extractLsb' 32 32)) ∧
  (∀ (w : Warp) (accum n : Nat),
    let y := mstatWord w accum n
    let pend := min w.mq.length 8
    (accum ≤ n ∨ w.tiles.length ≤ n → y = BitVec.ofNat 32 (pend * 2 ^ 16)) ∧
    (∀ t, n < accum → w.tiles[n]? = some t → t.reruns < 256 → t.accf < 16 →
      y.extractLsb' 24 8 = BitVec.ofNat 8 t.reruns ∧ y.extractLsb' 16 8 = BitVec.ofNat 8 pend ∧ y.extractLsb' 12 4 = BitVec.ofNat 4 t.accf ∧
      y.extractLsb' 4 8 = 0 ∧ y.getLsbD 3 = t.emu ∧ (y.getLsbD 2 = true ↔ ∃ e ∈ w.mq, entryWrites e n = true) ∧ y.getLsbD 1 = true ∧ y.getLsbD 0 = false)) ∧
  ∀ (f : FWord) (s : State),
    let n := 256 * f.aLo + f.b.toNat
    let u : Use := { d := 1, den := true }
    let base (c : Ctx) : Spec := { specOf s c u f none with cause := none, dests := [] }
    let refuses (k : Nat) (cond : Ctx → Prop) : Prop := Raises (starts s base) s (exec (.srd f) s) (fun c _ => cond c)
      (fun c tids => { cause := k, tids := if (base c).uni && !(base c).q.bad then tids.take 1 else tids })
    GivesOf (fun s c => { specOf s c u f none with
        cause := if !srListed n then some 0x01 else if !srReadable (isSup s c.l.lk) n then some 0x0E else (specOf s c u f none).cause })
      u f none s (exec (.srd f) s) (fun c _ i => { vals := [srValue s { c with w := latchCounter s c.w n } n i.t] }) ∧
    refuses 0x01 (fun _ => srListed n = false) ∧ refuses 0x0E (fun c => srListed n = true ∧ 0xF00 ≤ n ∧ isSup s c.l.lk = false) ∧
    (let m : Use := { d := 1, q := false, den := true, bad := decide (f.a.toNat ≥ 8) }
     GivesOf (fun s c => specOf s c m f none) m f none s (exec (.mstat f) s)
      (fun c _ _ => { vals := [mstatWord c.w c.l.pkt.accum (atRep s c f).a.toNat] }))

/-! ## The matrix engine and its epilogue -/

/-- A matrix instruction that issues and meets no cause puts its entry last into the queue of its warp, raises its flag and goes on (R155,
R156): MZERO, MWR, MRD, MMA, MMAT and MDRAIN, with the operands as they stand at issue (R170 to R175, R198); EPARG writes an argument at
once (R194). -/
def Obligations.MatrixIssue : Prop :=
  ∀ (f : FWord) (x : LExt) (s : State),
    let next : Ctx → List Nat → State := fun _ _ => { s with nextId := s.nextId + 1 }
    let d := f.d.toNat
    Leaves (startsAll true s fun c _ => matSpec f (decide (d ≥ 8)) [] [] c) s (exec (.mzero f) s)
      (fun c _ => tileCause c.w c.l.pkt.accum [d] = none)
      (fun c tids => withEntry s c tids f {} { emptyEntry with op := 1, tile := d }) next ∧
    Leaves (startsAll true s fun c _ => matSpec f (decide (d ≥ 8) || !isVPair f.a.toNat) [f.a.toNat, f.a.toNat + 1] [] c) s (exec (.mwr f) s)
      (fun c _ => tileCause c.w c.l.pkt.accum [d] = none)
      (fun c tids =>
        let pairs := (laneVals s c f.a.toNat tids).zip (laneVals s c (f.a.toNat + 1) tids)
        withEntry s c tids f { a := 2 } { emptyEntry with op := 2, tile := d, a := .regs (pairs.map (fun p => [p.1, p.2])).flatten }) next ∧
    Leaves (startsAll true s fun c _ => matSpec f (decide (f.a.toNat ≥ 8) || !isVPair d) [] [d, d + 1] c) s (exec (.mrd f) s)
      (fun c _ => tileCause c.w c.l.pkt.accum [f.a.toNat] = none)
      (fun c tids => withEntry s c tids f {} { emptyEntry with op := 3, tile := f.a.toNat, dreg := d }) next ∧
    Leaves (startsAll true s (mmaSpec s f x)) s (exec (.mma f x) s)
      (fun c tids =>
        let w := fmtWord s c x.c.toNat tids
        mmaClear s c tids f x false [d] 1 1 1 = true ∧
        badExps (scaleExps s c (fwASC w == 1) (x.xbits 0 8) tids) = [] ∧ badExps (scaleExps s c (fwBSC w == 1) (x.xbits 8 8) tids) = [])
      (fun c tids =>
        let w := fmtWord s c x.c.toNat tids
        withEntry s c tids f { a := 1, b := 1 }
          { emptyEntry with op := 4, tile := d, a := readOper s c f.a.toNat tids, b := readOper s c f.b.toNat tids, fmtw := w, z := f.v
                            sa := scaleExps s c (fwASC w == 1) (x.xbits 0 8) tids, sb := scaleExps s c (fwBSC w == 1) (x.xbits 8 8) tids }) next ∧
    Leaves (startsAll true s fun c _ => mmatSpec f x c) s (exec (.mmat f x) s)
      (fun c tids =>
        let m := x.xbits 0 3 + 1
        let n := x.xbits 3 3 + 1
        mmaClear s c tids f x true (codesFrom d (m * n)) m n (x.xbits 6 6 + 1) = true ∧ m * n ≤ 8 ∧ isDesc f.a.toNat = true ∧
          isDesc f.b.toNat = true)
      (fun c tids => withEntry s c tids f {}
        { emptyEntry with op := 5, tile := d, a := readOper s c f.a.toNat tids, b := readOper s c f.b.toNat tids
                          fmtw := fmtWord s c x.c.toNat tids, z := f.v, m := x.xbits 0 3 + 1, n := x.xbits 3 3 + 1, ks := x.xbits 6 6 + 1
                          sa := List.replicate 16 0, sb := List.replicate 16 0 }) next ∧
    Leaves (startsAll true s fun c _ => mdrainSpec f x c) s (exec (.mdrain f x) s)
      (fun c tids => drainClear s c tids f x = true)
      (fun c tids => withEntry s c tids f {}
        { emptyEntry with op := 6, tile := d, a := drainDesc s c f tids, fmtw := fmtWord s c x.c.toNat tids, z := f.v
                          dreg := if isV f.b.toNat then f.b.toNat else 0, prog := epProgram c.w (x.xbits 0 6), k := epArgs c.w
                          eregs := List.replicate 8 (List.replicate 16 0) }) next ∧
    Leaves (startsAll false s fun c _ => matSpec f (decide (d ≥ 4) || !(f.i || isUniCode f.b.toNat)) (if f.i then [] else [f.b.toNat]) [] c) s
      (exec (.eparg f) s) (fun _ _ => True) (fun c _ => { c.w with epk := aput 0 c.w.epk (d % 4) (uniformB s c f) }) (fun _ _ => s)

/-! ## Memory -/

/-- A load whose accesses nothing hinders sends one request to each home, naming its destination registers, and raises its flag once for each (R220,
R223). -/
def Obligations.LoadsIssue : Prop :=
  ∀ (f : FWord) (x : LExt) (s : State),
    Sends (ldUse f none 1) (loadForm f none 1 f.v) f none s (exec (.ld8F f) s) ∧
    Sends (ldUse f (some x) 1) (loadForm f (some x) 1 f.v) f (some x) s (exec (.ld8L f x) s) ∧
    Sends (ldUse f none 2) (loadForm f none 2 f.v) f none s (exec (.ld16F f) s) ∧
    Sends (ldUse f (some x) 2) (loadForm f (some x) 2 f.v) f (some x) s (exec (.ld16L f x) s) ∧
    Sends (ldUse f none 4) (loadForm f none 4 false) f none s (exec (.ld32F f) s) ∧
    Sends (ldUse f (some x) 4) (loadForm f (some x) 4 false) f (some x) s (exec (.ld32L f x) s) ∧
    Sends (ldUse f none 8) (loadForm f none 8 false) f none s (exec (.ld64F f) s) ∧
    Sends (ldUse f (some x) 8) (loadForm f (some x) 8 false) f (some x) s (exec (.ld64L f x) s) ∧
    Sends (ldUse f none 16) (loadForm f none 16 false) f none s (exec (.ld128F f) s) ∧
    Sends (ldUse f (some x) 16) (loadForm f (some x) 16 false) f (some x) s (exec (.ld128L f x) s)

/-- A store whose accesses nothing hinders sends one request to each home with the bytes of D, and raises its flag once for each; no byte of memory but
the leaves' accessed and dirty bits changes at its issue (R220, R223). -/
def Obligations.StoresIssue : Prop :=
  ∀ (f : FWord) (x : LExt) (s : State),
    Sends (stUse f none 1) (storeForm f none 1) f none s (exec (.st8F f) s) ∧
    Sends (stUse f (some x) 1) (storeForm f (some x) 1) f (some x) s (exec (.st8L f x) s) ∧
    Sends (stUse f none 2) (storeForm f none 2) f none s (exec (.st16F f) s) ∧
    Sends (stUse f (some x) 2) (storeForm f (some x) 2) f (some x) s (exec (.st16L f x) s) ∧
    Sends (stUse f none 4) (storeForm f none 4) f none s (exec (.st32F f) s) ∧
    Sends (stUse f (some x) 4) (storeForm f (some x) 4) f (some x) s (exec (.st32L f x) s) ∧
    Sends (stUse f none 8) (storeForm f none 8) f none s (exec (.st64F f) s) ∧
    Sends (stUse f (some x) 8) (storeForm f (some x) 8) f (some x) s (exec (.st64L f x) s) ∧
    Sends (stUse f none 16) (storeForm f none 16) f none s (exec (.st128F f) s) ∧
    Sends (stUse f (some x) 16) (storeForm f (some x) 16) f (some x) s (exec (.st128L f x) s)

/-- An atomic or RED whose accesses nothing hinders sends one request to each home with its operands, and raises its flag once for each (R240 to R245). -/
def Obligations.AtomicsIssue : Prop :=
  ∀ (f : FWord) (x : LExt) (s : State),
    Sends (atUse f none 1 false) (atomForm f none 0 7 false) f none s (exec (.ataddF f) s) ∧
    Sends (atUse f (some x) (valRegs x.ty0) false) (atomForm f (some x) 0 x.ty0 false) f (some x) s (exec (.ataddL f x) s) ∧
    Sends (atUse f none 1 false) (atomForm f none 1 (if f.v then 7 else 2) false) f none s (exec (.atminF f) s) ∧
    Sends (atUse f (some x) (valRegs x.ty0) false) (atomForm f (some x) 1 x.ty0 false) f (some x) s (exec (.atminL f x) s) ∧
    Sends (atUse f none 1 false) (atomForm f none 2 (if f.v then 7 else 2) false) f none s (exec (.atmaxF f) s) ∧
    Sends (atUse f (some x) (valRegs x.ty0) false) (atomForm f (some x) 2 x.ty0 false) f (some x) s (exec (.atmaxL f x) s) ∧
    Sends (atUse f none 1 false) (atomForm f none 3 7 false) f none s (exec (.atandF f) s) ∧
    Sends (atUse f (some x) (valRegs x.ty0) false) (atomForm f (some x) 3 x.ty0 false) f (some x) s (exec (.atandL f x) s) ∧
    Sends (atUse f none 1 false) (atomForm f none 4 7 false) f none s (exec (.atorF f) s) ∧
    Sends (atUse f (some x) (valRegs x.ty0) false) (atomForm f (some x) 4 x.ty0 false) f (some x) s (exec (.atorL f x) s) ∧
    Sends (atUse f none 1 false) (atomForm f none 5 7 false) f none s (exec (.atxorF f) s) ∧
    Sends (atUse f (some x) (valRegs x.ty0) false) (atomForm f (some x) 5 x.ty0 false) f (some x) s (exec (.atxorL f x) s) ∧
    Sends (atUse f none 1 false) (atomForm f none 6 7 false) f none s (exec (.atxchF f) s) ∧
    Sends (atUse f (some x) (valRegs x.ty0) false) (atomForm f (some x) 6 x.ty0 false) f (some x) s (exec (.atxchL f x) s) ∧
    Sends (atUse f none 1 false) (atomForm f none 11 0x0C false) f none s (exec (.atfaddF f) s) ∧
    Sends (atUse f (some x) (valRegs x.ty0) false) (atomForm f (some x) 11 x.ty0 false) f (some x) s (exec (.atfaddL f x) s) ∧
    Sends (atUse f (some x) (valRegs x.ty0) true) (atomForm f (some x) 7 x.ty0 true) f (some x) s (exec (.atcas f x) s) ∧
    Sends (atUse f (some x) 1 false) (atomForm f (some x) 8 7 false) f (some x) s (exec (.atincw f x) s) ∧
    Sends (atUse f (some x) 1 false) (atomForm f (some x) 9 7 false) f (some x) s (exec (.atdecw f x) s) ∧
    Sends (atUse f (some x) 1 true) (atomForm f (some x) 10 7 true) f (some x) s (exec (.atbadd f x) s) ∧
    Sends (redUse f x) (redForm x) f (some x) s (exec (.red f x) s)

/-- LOAD_REPLY (R220, R223, R247): a load that may perform and goes by no L1 line gives its threads the bytes that stand at their addresses,
lowers its flag and is gone; memory, scratchpads and everything else stay. -/
def Obligations.LoadsAnswer : Prop :=
  ∀ (id : Nat) (s : State) (r : Req) (sg : Bool), findReq s id = some r → r.kind = .load sg → atHome s r = true →
    r.acquires = false → r.accs.all (fun a => !a.l1) = true →
    ∃ t, exec (.loadReply id) s = .next t ∧ Answered s t r (writeReply r (spread r (loadResult s r sg))) ∧ t.blocks = s.blocks ∧
      elsewhere t = elsewhere { s with reqs := t.reqs }

/-- STORE_PERFORM (R211, R220, R223): a store to memory that is not private writes its bytes at their addresses, and no other byte of memory;
its flag goes down and it is gone, and no register changes. -/
def Obligations.StoresPerform : Prop :=
  ∀ (id : Nat) (s : State) (r : Req), findReq s id = some r → r.kind = .store → atHome s r = true →
    r.accs.all (fun a => a.space == .phys && !a.priv) = true → (∀ a ∈ r.accs, a.data.length = a.size) →
    ∃ t, exec (.storePerform id) s = .next t ∧ Answered s t r (fun w => w) ∧ t.blocks = s.blocks ∧ unwritten t = unwritten s ∧
      t.mem = storeMem s.mem r.accs ∧
      (∀ b, (∀ a ∈ r.accs, b < a.addr ∨ a.addr + a.size ≤ b) → readByte t.mem b = readByte s.mem b)

/-- ATOMIC_PERFORM (R241 to R244, R247): each access of an atomic to memory, thread by thread, replaces the value at its address by the function
of R242 of that value and its operands, and gives its thread the old value; no other byte of memory changes. -/
def Obligations.AtomicsPerform : Prop :=
  ∀ (id : Nat) (s : State) (r : Req) (op ty sp : Nat), findReq s id = some r → r.kind = .atom op ty sp → atHome s r = true →
    r.acquires = false → r.accs.all (fun a => a.space == .phys && !a.l1) = true →
    ∃ t, exec (.atomicPerform id) s = .next t ∧ Answered s t r (writeReply r (spread r (atomRun op ty s.mem r.accs).2)) ∧ t.blocks = s.blocks ∧
      unwritten t = unwritten s ∧ t.mem = (atomRun op ty s.mem r.accs).1 ∧
      (∀ b, (∀ a ∈ r.accs, b < a.addr ∨ a.addr + 4 * valRegs ty ≤ b) → readByte t.mem b = readByte s.mem b)

/-- PRF and CCTL (R226, R227): a prefetch with V = 1 brings each line it names into the L1; with V = 0 it does nothing. A line operation writes back
the lines that it names, and drops or cleans them. An invalidation of translations drops them at once, and is outstanding on its flag while an
earlier access that went by one has not performed. No register changes, and no byte of memory but those of dirty lines that are written
back. -/
def Obligations.CacheControl : Prop :=
  LinesGoHome ∧ LineEnters ∧
  ∀ (f : FWord) (s : State),
    let u : Use := { a := 1, q := false, den := true, bad := !offOk f none }
    let quiet : Ctx → List Nat → Prop := fun c tids => acqHeld s c.w tids = false
    let marked (a : Nat) : Ctx → List Nat → Warp := fun c tids => applyMarks c.w { a := a } (atRep s c f) none s.iss.rep c.rk tids
    let seg (c : Ctx) : Nat := (atRep s c f).bHi
    let m (g : Nat) (us : SegUse) : MemOp := { seg := g, unit := 1, size := 1, align := 1, use := us, kind := .inval }
    let off (c : Ctx) (tids : List Nat) (t : Nat) : Int := memOff s c (atRep s c f) none 1 tids t
    let passes (us : SegUse) : Ctx → List Nat → Prop := fun c tids =>
      ∀ t ∈ tids, segCause c (c.l.segAt (seg c)) (m (seg c) us) (off c tids t) = none
    let names (c : Ctx) (tids : List Nat) (ln : L1Line) : Bool :=
      tids.any (fun t => match quietAcc s c (m (seg c) .cache) t (off c tids t) with
        | some a => ln.core == l1Core c.l c.w.core a.addr && ln.line == a.addr / 128
        | none => false)
    let pages (c : Ctx) (tids : List Nat) : List Acc :=
      (tids.map (fun t => segPieces c (c.l.segAt (seg c)) (m (seg c) .unmap) t (off c tids t) [] [] false)).flatten
    let asks (accs : List Acc) (c : Ctx) (tids : List Nat) : Req :=
      { mkReq s c (m (seg c) .unmap) s.nextId f.sig.toNat tids (accs.map (fun a => pageAcc s (partOf c.l.lk) c.w.core a.tid a.va)) with order := 0 }
    let unmaps (start : Option (Ctx × List Nat)) (o : Host.Outcome State Fault Refusal) (cond : Ctx → List Nat → Prop) (a : Nat)
        (accs : Ctx → List Nat → List Acc) (gone : Ctx → List Nat → State) : Prop :=
      Leaves start s o (fun c tids => quiet c tids ∧ cond c tids ∧ usesPage s (asks (accs c tids) c tids) = false) (marked a) gone ∧
      Leaves start s o (fun c tids => quiet c tids ∧ cond c tids ∧ usesPage s (asks (accs c tids) c tids) = true)
        (fun c tids => flagUp c f.sig.toNat (marked a c tids))
        (fun c tids => { gone c tids with reqs := s.reqs ++ [asks (accs c tids) c tids], nextId := s.nextId + 1 })
    (f.v = false → Leaves (startsF u f none s) s (exec (.prf f) s) quiet (marked 1) (fun _ _ => s)) ∧
    (f.v = true → Leaves (startsF u f none s) s (exec (.prf f) s) quiet (marked 1) (fun c tids => prefetched s c f tids)) ∧
    Leaves (startsF u f none s) s (exec (.cctlWbl1 f) s) (fun c tids => quiet c tids ∧ passes .cache c tids) (marked 1)
      (fun c tids => flushLines s (names c tids) false) ∧
    Leaves (startsF u f none s) s (exec (.cctlInvl1 f) s) (fun c tids => quiet c tids ∧ passes .cache c tids) (marked 1)
      (fun c tids => flushLines s (names c tids) true) ∧
    Leaves (startsF u f none s) s (exec (.cctlInvl2 f) s) (fun c tids => quiet c tids ∧ passes .cache c tids) (marked 1) (fun _ _ => s) ∧
    Leaves (startsF { den := true } f none s) s (exec (.cctlWball1 f) s) quiet (marked 0)
      (fun c _ => flushLines s (fun ln => ln.core == c.w.core) false) ∧
    Leaves (startsF { den := true } f none s) s (exec (.cctlInvall1 f) s) quiet (marked 0)
      (fun c _ => flushLines s (fun ln => ln.core == c.w.core) true) ∧
    unmaps (startsF { u with sup := true } f none s) (exec (.cctlTlbinv f) s) (passes .unmap) 1 pages
      (fun c tids => (pages c tids).foldl (fun acc a => dropTlb acc (partOf c.l.lk) (some a.va)) s) ∧
    unmaps (startsF { sup := true, den := true } f none s) (exec (.cctlTlbinvall f) s) (fun _ _ => True) 0 (fun _ _ => [])
      (fun c _ => dropTlb s (partOf c.l.lk) none)

/-- FENCE (R239): it goes on past itself. Where nothing that it orders is still to perform it is complete, and its acquire part at gang scope
or wider empties the L1 of lines that are not private (R236); else it is outstanding on its flag until nothing is left, and holds the later
memory instructions of its threads. A release in a twin waits for the comparison (R464). No register and no byte of memory
changes. -/
def Obligations.Fence : Prop :=
  ∀ (f : FWord) (s : State),
    let u : Use := { den := true }
    let order (c : Ctx) : Nat := (atRep s c f).d.toNat
    let scope (c : Ctx) : Nat := (atRep s c f).a.toNat
    let rel (c : Ctx) : Bool := decide (order c ≥ 2)
    let acq (c : Ctx) : Bool := decide (order c ≠ 2)
    let goes (c : Ctx) (tids : List Nat) : Prop := acqHeld s c.w tids = false ∧ (rel c && mustCompare c) = false
    let left (c : Ctx) (tids : List Nat) : Bool := fenceWaits s c.w.name s.nextId tids (rel c) (acq c) (atRep s c f).b
    let m (c : Ctx) : MemOp := { seg := 0, unit := 1, size := 1, align := 1, use := .load, kind := .fence (rel c) (acq c) (atRep s c f).b.toNat c.pc }
    Leaves (startsF u f none s) s (exec (.fence f) s) (fun c tids => goes c tids ∧ left c tids = false) (fun c _ => c.w)
      (fun c _ => if order c ≠ 2 ∧ scope c ≥ 2 then dropForAcquire s c.l c.w.core else s) ∧
    Leaves (startsF u f none s) s (exec (.fence f) s) (fun c tids => goes c tids ∧ left c tids = true)
      (fun c _ => flagUp c (atRep s c f).sig.toNat c.w)
      (fun c tids => { s with
        nextId := s.nextId + 1
        reqs := s.reqs ++ [{ mkReq s c (m c) s.nextId (atRep s c f).sig.toNat tids [] with order := 0, scope := scope c }] }) ∧
    (∀ c tids, startsF u f none s = some (c, tids) → acqHeld s c.w tids = false → (rel c && mustCompare c) = true →
      exec (.fence f) s = .next (compareWait s c)) ∧
    (∀ r w rl ac mask pc, r.kind = .fence rl ac mask pc → findWarp s r.w = some w →
      (∀ τ ∈ r.tids, r ∈ s.reqs → acqHeld s w [τ] = true) ∧
      (fenceWaits s r.w r.id r.tids rl ac (BitVec.ofNat 8 mask) = true → settleReq s r = s) ∧
      (fenceWaits s r.w r.id r.tids rl ac (BitVec.ofNat 8 mask) = false → Answered s (settleReq s r) r (fun v => v)))

/-! ## Control flow -/

/-- A transfer whose targets can be reached (R298 to R301, R369, R378) brings each issuing thread to its own: BRA, BRX, JMPF, CALL and RET.
CALL keeps the return address in the private word below the stack, RET goes to the word on top of it. -/
def Obligations.ControlTransfers : Prop :=
  ∀ (f : FWord) (x : LExt) (s : State),
    let go (ts : Ctx → List Nat → List (Nat × Int)) : Ctx → List Nat → Thread → Thread := fun c tids => goTo s c tids (ts c tids)
    let near (c : Ctx) (tids : List Nat) := allTo tids ((c.pc : Int) + 8 * f.off24.toInt)
    let far (c : Ctx) (tids : List Nat) := allTo tids ((c.pc : Int) + x.imm32.toInt)
    let regs (c : Ctx) (tids : List Nat) := tids.map (fun t => (t, ((readCode s c c.w tids t (atRep s c f).a.toNat).toNat : Int)))
    let depth (d : Nat → Nat) (tids : List Nat) (t : Thread) : Thread := if tids.contains t.tid then { t with retd := d t.retd } else t
    let calls (ts : Ctx → List Nat → List (Nat × Int)) (o : Host.Outcome State Fault Refusal) (x : Option LExt) : Prop :=
      ∀ c tids accs, startsF plainUse f x s = some (c, tids) → stackOut s c true tids = some accs → reaches s c (ts c tids) →
        ∃ t, o = .next t ∧ Shows s t c c.w.cur c.w (fun y => depth (· + 1) tids (goTo s c tids (ts c tids) y)) (stackStore s c (accs.map (·.2)).flatten)
    LeavesBy (startsF plainUse f none s) s (exec (.braF f) s) (fun c tids => reaches s c (near c tids)) (fun c _ => c.w) (fun _ _ => s) (go near) ∧
    LeavesBy (startsF plainUse f (some x) s) s (exec (.braL f x) s)
      (fun c tids => reaches s c (far c tids) ∧ (f.v = false ∨ ejects s c tids = [])) (fun c _ => c.w) (fun _ _ => s) (go far) ∧
    LeavesBy (startsF { a := 1, q := false, den := true, bad := !(isV f.a.toNat || isSZ f.a.toNat) } f none s) s (exec (.brx f) s)
      (fun c tids => reaches s c (regs c tids) ∧ ∀ e ∈ regs c tids, e.2 % 8 = 0)
      (fun c tids => applyMarks c.w { a := 1 } (atRep s c f) none none 0 tids) (fun _ _ => s) (go regs) ∧
    (∀ a : Nat, LeavesBy (startsF {} f (some x) s) s (exec (.jmpf f x) s)
      (fun c tids => c.l.obj.entries[x.imm32.toNat % 65536]? = some (some a) ∧ reaches s c (allTo tids a)) (fun c _ => c.w) (fun _ _ => s)
      (go fun _ tids => allTo tids a)) ∧
    calls near (exec (.callF f) s) none ∧ calls far (exec (.callL f x) s) (some x) ∧
    (∀ c tids accs, startsF plainUse f none s = some (c, tids) → stackOut s c false tids = some accs →
      let r := stackLoad s c accs
      reaches s c r.2 → (∀ e ∈ r.2, e.2 % 8 = 0) →
      ∃ t, exec (.ret f) s = .next t ∧ Shows s t c c.w.cur c.w (fun y => depth (· - 1) tids (goTo s c tids r.2 y)) r.1)

/-- A transfer to a target beyond the code segment raises 0x10 there, one into a brick that the core's store lacks 0x0C, into one that failed
its check 0x0D; one into a brick that is on its way waits (R298, R369). -/
def Obligations.TransfersRefused : Prop :=
  ∀ (f : FWord) (s : State) (c : Ctx) (tids : List Nat), startsF plainUse f none s = some (c, tids) →
    let a : Int := (c.pc : Int) + 8 * f.off24.toInt
    let at_ := (findBrick s c.w.core c.l.lk (a.toNat / 4096)).map (·.st)
    let cause (k : Nat) : Prop := exec (.braF f) s = .next (raise s c { cause := k, tids := tids, faddr := wrapTo 64 a })
    (a < 0 ∨ a ≥ codeLimit c.l → cause 0x10) ∧
    (0 ≤ a → a < codeLimit c.l → (at_ = none → cause 0x0C) ∧ (∀ k n, at_ = some (.failed k n) → cause 0x0D) ∧
      (∀ n, at_ = some (.fetching n) → exec (.braF f) s = .next (stall s c 10)))

/-- BRA.E ejects its minority (R291, R292): the other threads go on, and each ejected thread stands where the branch leads it, in a den slot of
the branch's party with its join point, the warp's uniform registers as they stand, no flag raised and no cycle spent. -/
def Obligations.Ejection : Prop :=
  ∀ (f : FWord) (x : LExt) (s : State) (c : Ctx) (tids : List Nat), startsF plainUse f (some x) s = some (c, tids) → f.v = true →
    ejects s c tids ≠ [] → reaches s c (allTo tids ((c.pc : Int) + x.imm32.toInt)) →
    ∃ t w v, exec (.braL f x) s = .next t ∧ findWarp s c.w.name = some w ∧ findWarp t c.w.name = some v ∧ v.frames = w.frames ∧
      v.threads.length = w.threads.length ∧ t.nextId = s.nextId + 1 ∧
      ∀ (i : Nat) (y z : Thread), w.threads[i]? = some y → v.threads[i]? = some z →
        let y1 := goTo s c tids (allTo tids ((c.pc : Int) + x.imm32.toInt)) y
        if (ejects s c tids).contains y.tid then
          ∃ k, k < 2 ∧ z = { y1 with
            st := .ejected
            den := some { party := s.nextId, joinPt := ((c.pc : Int) + 8 * x.x24.toInt).toNat, s := w.cur.s, flags := [], running := false
                          recalled := false, cycles := 0, core := k } }
        else z = y1

/-! ## Issue control -/

/-- JOIN (R302) goes on once its first or second condition holds and holds its threads until then; EJCTL (R310) sets %ejmax or %ejto in their
bounds; RECALL (R311) goes on where no thread is ejected, and calls the ejected ones back otherwise; WAITF (R312) goes on once its flags and,
with V = 1, its earlier accesses are done. YIELD and SLEEP (R313, R314) stand beyond themselves for their cycles. -/
def Obligations.IssueControl : Prop :=
  ∀ (f : FWord) (s : State),
    let free (c : Ctx) (tids : List Nat) : Prop :=
      let others := c.w.threads.filter (fun t => !tids.contains t.tid && t.st != .exited)
      (ejectedTids c.w = [] ∧ ∀ t ∈ others, t.isReady = true → c.pc ≤ t.pc) ∨
        ∀ t ∈ others, t.tid ∉ c.grp ∧ t.isReady = false ∧ t.den = none
    let stay : Ctx → List Nat → Warp := fun c _ => c.w
    Leaves (startsF {} f none s) s (exec (.join f) s) free stay (fun _ _ => s) ∧
    (∀ c tids, startsF {} f none s = some (c, tids) → ¬ free c tids → exec (.join f) s = .next (hold s c tids (schedF f) .join)) ∧
    Leaves (startsF (uniUse f) f none s) s (exec (.ejctl f) s) (fun _ _ => True)
      (fun c _ =>
        let y := uniformB s c (atRep s c f)
        if f.v then { c.w with ejto := if y.toNat < 4096 then 4096 else y } else { c.w with ejmax := if y.toNat > 16 then 16 else y }) (fun _ _ => s) ∧
    Leaves (startsF {} f none s) s (exec (.recall f) s) (fun c _ => ejectedTids c.w = []) stay (fun _ _ => s) ∧
    (∀ c tids, startsF {} f none s = some (c, tids) → ejectedTids c.w ≠ [] →
      exec (.recall f) s = .next (modWarp (hold s c tids (schedF f) .recall) c.w.name (fun w => askRecall w (ejectedTids w)))) ∧
    Leaves (startsF {} f none s) s (exec (.waitf f) s)
      (fun c tids => flagsClear c.w none (waitfMask f) = true ∧ (f.v = true → accessBefore s c.w.name (waitfUpTo s c tids) = false)) stay
      (fun _ _ => s) ∧
    LeavesBy (startsF {} f none s) s (exec (.yield f) s) (fun _ _ => True) stay (fun _ _ => s) (fun c tids t => waiting tids .yield 8 (goOn s c tids t)) ∧
    Leaves (startsF (uniUse f) f none s) s (exec (.sleep f) s) (fun c _ => uniformB s c (atRep s c f) = 0) stay (fun _ _ => s) ∧
    LeavesBy (startsF (uniUse f) f none s) s (exec (.sleep f) s) (fun c _ => uniformB s c (atRep s c f) ≠ 0) stay (fun _ _ => s)
      (fun c tids t => waiting tids .sleep (min (uniformB s c (atRep s c f)).toNat (2 ^ 20)) (goOn s c tids t))

/-- EXIT (R303, R332): its threads have ended and no register of theirs is live in any frame; where the warp has no thread left its roles on
burrows close; then barriers that waited for them are tested again (R317). -/
def Obligations.Exit : Prop :=
  ∀ (f : FWord) (s : State) (c : Ctx) (tids : List Nat), startsF plainUse f none s = some (c, tids) → c.l.twin = false →
    ∃ t w v, exec (.exit f) s = .next (settleBars t c.w.name) ∧ findWarp s c.w.name = some w ∧ findWarp t c.w.name = some v ∧
      v.kept = w.kept ∧ places v = (places w).map (fun y => gone tids (goOn s c tids y)) ∧
      (∀ (i : Nat) (fr : Frame), w.frames[i]? = some fr → ∃ g, v.frames[i]? = some g ∧ g.s = fr.s ∧ g.flags = fr.flags ∧
        ∀ τ, g.getP τ = (if τ ∈ tids then 0 else fr.getP τ) ∧ ∀ r, r < 128 → g.getV τ r = if τ ∈ tids then 0 else fr.getV τ r) ∧
      (∀ n w', n ≠ c.w.name → findWarp s n = some w' → findWarp t n = some w') ∧ elsewhere t = elsewhere s ∧
      t.blocks = (if ∀ y ∈ v.threads, y.st = .exited then
        (modBlock s c.l.lk c.b.blk c.b.shadow (fun b => closeRoles b c.w.name.w)).blocks else s.blocks)

/-! ## Barriers -/

/-- BAR, BARA, GBAR and GBARA arrive for their threads, which go on or stay for the phase; BARW and GBARW wait for the last arrival's phase
(R316 to R324). -/
def Obligations.BarrierInstructions : Prop :=
  ∀ (f : FWord) (s : State),
    let lv := barLevel f
    let ix := f.dLo
    let count (c : Ctx) : Int := (uniformB s c (atRep s c f)).toInt
    let bar := startsF (barUse f true) f none s
    let member (c : Ctx) : Prop := (memberGroup c f.d.toNat).isSome = true
    ArrivesNear bar s (exec (.bar f) s) lv ix count true ∧ ArrivesNear bar s (exec (.bara f) s) lv ix count false ∧
    ArrivesFar bar s (exec (.bar f) s) lv ix count true (fun _ => True) ∧ ArrivesFar bar s (exec (.bara f) s) lv ix count false (fun _ => True) ∧
    Awaits (startsF (barUse f false) f none s) s (exec (.barw f) s) lv ix (fun _ => True) ∧
    ArrivesFar (startsF {} f none s) s (exec (.gbar f) s) 4 f.d.toNat (fun _ => 0) true member ∧
    ArrivesFar (startsF {} f none s) s (exec (.gbara f) s) 4 f.d.toNat (fun _ => 0) false member ∧
    Awaits (startsF {} f none s) s (exec (.gbarw f) s) 4 f.d.toNat member

/-- Arrivals are noted in the barrier's open phase, and complete it where it is full (R317, R318). A completed phase is followed by an empty one of
the next number; every thread of the instance that waited for it goes on past its instruction, and what happens before the phase's arrivals
happens before what they do then (R232); no register, flag or byte of memory changes. -/
def Obligations.BarrierPhases : Prop :=
  ∀ (s : State) (n : WName) (level idx : Nat), level ≤ 4 → hasInstance s n level = true →
    (∀ (count : Nat) (arr : List (Nat × Clock)), arr ≠ [] →
      let b := findBar s n level idx
      let b1 : Bar := { b with
        count := if b.arrived.isEmpty then count else b.count
        arrived := b.arrived ++ arr.map (fun e => (n, e.1, e.2)) }
      arriveBar s n level idx count arr =
        if phaseFull (putBar s n b1) n b1 then completePhase (putBar s n b1) n b1 else putBar s n b1) ∧
    (∀ b : Bar, b.level = level → b.idx = idx → b.owner = barOwner n level →
      let t := completePhase s n b
      findBar t n level idx = { b with phase := b.phase + 1, count := 0, arrived := [] } ∧
      (∀ m w, findWarp s m = some w → ∃ v, findWarp t m = some v ∧ v.frames = w.frames ∧ v.kept = w.kept ∧
        v.threads.map (fun y => { y with arr := [] }) =
          (if inInstance s n b m then releaseBar w level idx (b.phase + 1) else w).threads.map (fun y => { y with arr := [] })) ∧
      (∀ e ∈ b.arrived, ∀ v, findWarp t e.1 = some v → ∀ y ∈ v.threads, y.tid = e.2.1 → ∀ a ∈ y.arr,
        a.level = level → a.idx = idx → a.phase = b.phase → a.clk = some b.clock) ∧
      t.mem = s.mem)

/-! ## Burrows -/

/-- QBIND, QCLOSE, QPOPT, QSTAT and QFREE, where they meet no cause and nothing keeps them (R328, R333 to R336): the burrow afterwards, what is
given to the threads, and that nothing else changes. -/
def Obligations.BurrowInstructions : Prop :=
  ∀ (f : FWord) (x : LExt) (s : State),
    let put (g : Ctx → List Nat → Block → Block) : Ctx → List Nat → State := fun c tids => modBlock s c.l.lk c.b.blk c.b.shadow (g c tids)
    let stay : Ctx → List Nat → Warp := fun c _ => c.w
    let base (c : Ctx) (tids : List Nat) : Nat := (readCode s c c.w tids (tids.headD 0) (atRep s c f).a.toNat).toNat + x.imm32.toNat
    let a := qNum f.a
    let u : Use := { d := 1, s := false, q := false, lock := true, bad := !isQ f.a.toNat || decide (f.bLo ≥ 12), preds := [f.bLo] }
    Leaves (startsF { a := 1, q := false, bad := !isQ f.d.toNat || !isSZ f.a.toNat } f (some x) s) s (exec (.qbind f x) s)
      (fun c tids => qbindCause c.b c.l.pkt.smem (qNum f.d) (base c tids) x.szc = none) stay
      (put fun c tids b => b.setBurrow (qNum f.d)
        { bound := true, base := base c tids, sz := x.szc, head := 0, tail := 0, prod := x.xbits 4 4 + 1, cons := x.xbits 8 4 + 1, pmark := [], cmark := []
          closedw := [] }) ∧
    Leaves (startsF (qNameUse f) f none s) s (exec (.qclose f) s) (fun c _ => (c.b.burrow a).bound = true) stay
      (put fun c _ b => closeProducer b c.w.name.w a) ∧
    Leaves (startsF u f none s) s (exec (.qpopt f) s)
      (fun c tids => let q := c.b.burrow a
        q.bound = true ∧ (tids.length ≤ q.occ ∨ q.closed = true) ∧ popsPoison c.b [(1, a)] (tids.take q.occ).length = false)
      (fun c tids =>
        let vals := (popField c.b c.w.name.w a (tids.take (c.b.burrow a).occ)).2
        writeOuts c.w c.den tids u (atRep s c f) (tids.map (fun t => match vals.find? (fun v => v.1 == t) with
          | some v => (t, { vals := [v.2], preds := [(f.bLo, true)] })
          | none => (t, { vals := [0], preds := [(f.bLo, false)] }))))
      (put fun c tids _ => (popField c.b c.w.name.w a (tids.take (c.b.burrow a).occ)).1) ∧
    GivesOf (fun s c => specOf s c { qNameUse f with d := 1, lock := true } f none) { qNameUse f with d := 1, lock := true } f none s (exec (.qstat f) s)
      (fun c _ _ => { vals := [qstatWord (c.b.burrow a)] }) ∧
    Leaves (startsF (qNameUse f) f none s) s (exec (.qfree f) s)
      (fun c _ => ∀ w ∈ blockWarps s c.l.lk c.b.blk c.b.shadow, ∀ t ∈ w.threads, ∀ b, t.st ≠ .burrow b a) stay
      (put fun _ _ b => { b with burrows := adel b.burrows a })

/-- A burrow is a queue (R327, R329): elements pushed onto an empty ring come out in order, to threads in ascending order, and leave it empty; the
scratchpad outside the ring stays. -/
def Obligations.BurrowOrder : Prop :=
  ∀ (b : Block) (n wi wj : Nat) (xs : List Word) (ts : List Nat), (b.burrow n).bound = true → (b.burrow n).occ = 0 → (b.burrow n).sz ≤ 16 →
    xs.length ≤ (b.burrow n).cap → ts.length = xs.length →
    let p := pushAll b wi n xs
    (p.burrow n).occ = xs.length ∧ (popField p wj n ts).2 = ts.zip xs ∧ ((popField p wj n ts).1.burrow n).occ = 0 ∧
    (∀ k, (k < (b.burrow n).base ∨ (b.burrow n).base + 4 * (b.burrow n).cap ≤ k) → readByte p.scratch k = readByte b.scratch k) ∧
    (∀ m, m ≠ n → p.burrow m = b.burrow m)

/-! ## Engines of the core and the package -/

/-- CPY and BCPY append an entry to their queue and raise their flag (R260, R270), and wait while it is full; CPYW goes on once the pointer has come
so far (R264), CPTR gives it (R265), CPRST sets it to zero once the queue is empty (R266), and QFENCE goes on, with an acquire, once every entry
that was in its queues when its threads came to it has performed (R269); until then they wait where they stand. -/
def Obligations.CopyInstructions : Prop :=
  WordsGiven ∧
  ∀ (f : FWord) (x : LExt) (s : State),
    let use (lim : Nat) : Use := { a := 8, q := false, zero := false, solo := true, bad := !descBase f.a.toNat || decide (f.d.toNat ≥ lim) }
    let quiet (c : Ctx) (tids : List Nat) : Prop := acqHeld s c.w tids = false
    let ents (c : Ctx) (ch : Nat) : List CopyEnt := blockEnts s c.l.lk c.b.blk c.b.shadow ch
    let ofBlock (c : Ctx) (g : Block → Block) : State := modBlock s c.l.lk c.b.blk c.b.shadow g
    let waits (start : Option (Ctx × List Nat)) (o : Host.Outcome State Fault Refusal) (cond : Ctx → List Nat → Prop) : Prop :=
      ∀ c tids, start = some (c, tids) → quiet c tids → cond c tids → o = .next (stall s c 14)
    let appends (chan : Bool) (lim : Nat) (o : Host.Outcome State Fault Refusal) : Prop :=
      let ch := if chan then f.d.toNat else 16 + f.d.toNat
      (∀ c tids e, startsF (use lim) f (some x) s = some (c, tids) → copyEntry chan f x s c tids = some e →
        ∃ t, o = .next t ∧ Shows s t c (copyWarp f x s c tids).cur (copyWarp f x s c tids) (goOn s c tids)
          { ofBlock c (fun b => b.noteIssue ch (copyStart s c ch) e.clk) with nextId := s.nextId + 1, copies := s.copies ++ [e] }) ∧
      waits (startsF (use lim) f (some x) s) o (fun c _ => copyFull s c.w.core ch = true)
    let wUse : Use := { b := 1, q := false, solo := true, bad := decide (f.d.toNat ≥ 4) || (!f.i && !isSZ f.b.toNat) }
    let upTo (c : Ctx) (tids : List Nat) : Nat :=
      if f.i then f.b.toNat * 64 else (readCode s c c.w tids (tids.headD 0) (atRep s c f).b.toNat).toNat
    let cptrUse : Use := { d := 1, q := false, bad := decide (f.a.toNat ≥ 4) }
    let rUse : Use := { bad := decide (f.d.toNat ≥ 4), solo := true }
    let fUse : Use := { bad := decide (f.d.toNat ≥ 32), solo := true }
    let left (c : Ctx) (tids : List Nat) : Prop :=
      (∃ ch ∈ fenceQueues f, ∃ e ∈ ents c ch, e.id < qfenceUpTo s c tids) ∨
        (f.d.getLsbD 4 = true ∧ blockTier s c.l.lk c.b.blk c.b.shadow (qfenceUpTo s c tids) = true)
    appends true 4 (exec (.cpy f x) s) ∧ appends false 16 (exec (.bcpy f x) s) ∧
    Leaves (startsF wUse f none s) s (exec (.cpyw f) s) (fun c tids => quiet c tids ∧ upTo c tids ≤ c.b.ptr f.d.toNat) (fun c _ => c.w) (fun _ _ => s) ∧
    waits (startsF wUse f none s) (exec (.cpyw f) s) (fun c tids => c.b.ptr f.d.toNat < upTo c tids) ∧
    Leaves (startsF cptrUse f none s) s (exec (.cptr f) s) quiet
      (fun c tids => giveWord c cptrUse (atRep s c f) tids c.w (BitVec.ofNat 32 (c.b.ptr f.a.toNat))) (fun _ _ => s) ∧
    Leaves (startsF rUse f none s) s (exec (.cprst f) s) (fun c tids => quiet c tids ∧ ents c f.d.toNat = []) (fun c _ => c.w)
      (fun c _ => ofBlock c (fun b => { b with wptr := adel b.wptr f.d.toNat, wpast := aput 0 b.wpast f.d.toNat (b.bytes f.d.toNat) })) ∧
    waits (startsF rUse f none s) (exec (.cprst f) s) (fun c _ => ents c f.d.toNat ≠ []) ∧
    Leaves (startsF fUse f none s) s (exec (.qfence f) s) (fun c tids => quiet c tids ∧ ¬ left c tids) (fun c _ => c.w)
      (fun c _ => dropForAcquire s c.l c.w.core) ∧
    (∀ c tids, startsF fUse f none s = some (c, tids) → quiet c tids → left c tids →
      exec (.qfence f) s = .next (stallAs s c (.engines (qfenceUpTo s c tids))))

/-- TMOVE requests a move of each distinct page its threads name and gives them the results (R274), TSTAT sends its question (R275), TCNCL cancels
(R276). -/
def Obligations.TierInstructions : Prop :=
  ∀ (f : FWord) (x : LExt) (s : State) (c : Ctx) (tids : List Nat) (pages : List (Nat × Nat)), startsF (tierUse f x) f (some x) s = some (c, tids) →
    c.l.twin = false → (∀ r ∈ s.reqs, r.id < s.nextId) →
    let ts := pages.map (·.1)
    let marked := applyMarks c.w (tierUse f x) (atRep s c f) (some x) none 0 ts
    (tierPages true f x s c tids = some pages →
      let asked := tierAskAll { s with nextId := s.nextId + 1 } c s.nextId x (pages.map (·.2))
      let res := byPage asked.2 pages
      let n := min (asked.2.filter (fun r => r.2.toNat / 2 ^ 28 ≤ 1)).length (asked.1.tier.filter (fun r => r.reqId = s.nextId)).length
      let m : MemOp := { seg := x.seg, unit := 1, size := 1, align := 1, use := .cache, kind := .tmove n }
      let w := giveEach c (atRep s c f) ts (if n > 0 then flagUp c f.sig.toNat marked else marked) res
      ∃ t, exec (.tmove f x) s = .next t ∧ Shows s t c w.cur c.w (goOn s c tids)
        (if n > 0 then
          modBlock { asked.1 with reqs := s.reqs ++ [{ mkReq s c m s.nextId f.sig.toNat ts [] with order := 0 }] } c.l.lk c.b.blk c.b.shadow
            (fun b => b.noteIssue 32 s.nextId (issueClock c.w.race c.w.name ts).1)
        else asked.1)) ∧
    (tierPages false f x s c tids = some pages →
      let m : MemOp := { seg := x.seg, unit := 1, size := 1, align := 1, use := .cache, kind := .tstat, dcode := (atRep s c f).d.toNat }
      let accs := pages.map (fun e => accPiece e.1 .phys e.2 0 1 [] [] false false false false)
      (∃ t, exec (.tstat f x) s = .next t ∧ Shows s t c (flagUp c f.sig.toNat marked).cur c.w (goOn s c tids)
        { s with nextId := s.nextId + 1, reqs := s.reqs ++ [{ mkReq s c m s.nextId f.sig.toNat ts accs with order := 0 }] }) ∧
      ((∀ e ∈ pages, ∀ r ∈ tierQueued s (partOf c.l.lk) e.2, isSup s c.l.lk = false ∧ r.lk ≠ c.l.lk) →
        ∃ t, exec (.tcncl f x) s = .next t ∧ Shows s t c (giveEach c (atRep s c f) ts marked (pages.map (fun e =>
          (e.1, if (tierMoving s (partOf c.l.lk) e.2).isSome then tierWord 10 0 else tierWord 9 0)))).cur c.w (goOn s c tids) s) ∧
      (let done := tierCancelAll s c (pages.map (·.2))
        ∀ w, findWarp done.1 c.w.name = some w → exec (.tcncl f x) s = .next (finish done.1 c tids (schedF f)
          (giveEach c (atRep s c f) ts (applyMarks { w with hazards := c.w.hazards, holds := c.w.holds } (tierUse f x) (atRep s c f) (some x) none 0 ts)
            (byPage done.2 pages)))))

/-- A request for a page (R272 to R274) is refused with the first status of the table that applies, or joins the page's queue with a frame taken from
the pool, where it starts at once if nothing is ahead of it. -/
def Obligations.TierRequests : Prop :=
  ∀ (s : State) (c : Ctx) (id page tgt place : Nat) (any : Bool) (l : LeafAt),
    let p := partOf c.l.lk
    let ask := tierAsk s c id page tgt place any
    let n := (tierQueued s p page).length
    let at_ := if tgt = 5 then 0 else if any then bestPlace s p tgt else place
    pageLeaf s p page = some l → l.is2M = true → (l.pte.getLsbD 4 = true → c.l.protected_ = true) → pteTier l.pte ∈ [1, 2, 3, 4, 5] →
    (pteTier l.pte = tgt → ask = (s, tierWord 2 0)) ∧
    (pteTier l.pte ≠ tgt →
      (n ≥ 16 ∨ s.tier.length ≥ 4096 → ask = (s, tierWord 6 0)) ∧
      (n < 16 → s.tier.length < 4096 →
        (tierUsed s p tgt ≥ tierQuota s p tgt → ask = (s, tierWord 3 0)) ∧
        (tierUsed s p tgt < tierQuota s p tgt →
          (poolFrame s p tgt at_ = none → ask = (s, tierWord 4 0)) ∧
          (∀ e, poolFrame s p tgt at_ = some e →
            let r : TierReq :=
              { part := p, page := page, target := tgt, place := e.2.1, frame := e.2.2, lk := c.l.lk, reqId := id, moving := false, srcTier := 0, srcFrame := 0 }
            let s1 := poolTake { s with tier := s.tier ++ [r] } p e
            (n > 0 ∨ (tierMoving s p page).isSome = true → ask = (s1, tierWord 1 (min n 15))) ∧
            (n = 0 → tierMoving s p page = none → ask = (tierStart s1 p page, tierWord 0 0))))))

/-- TIER_MOVE_START and TIER_MOVE_LANDING (R271): at the start no byte of the page moves and its leaf says that it moves; at the landing the bytes of the
source stand in the target frame, the leaf names it, and no other byte of memory changes. -/
def Obligations.TierMoves : Prop :=
  ∀ (s : State) (p page : Nat) (r : TierReq) (l : LeafAt), pageLeaf s p page = some l →
    (tierMoving s p page = none → (tierQueued s p page).head? = some r → l.is2M = true → pteTier l.pte ∈ [1, 4] → pteTier l.pte ≠ r.target →
      frameBusy s (pteFrame l.pte) true = false →
      ∃ t, exec (.tierMoveStart p page) s = .next t ∧ t.reqs = s.reqs ∧ t.warps = s.warps ∧
        readNat t.mem l.pa 8 = withTier l.pte (if pteTier l.pte = 1 then 3 else 2) ∧
        (∀ x ∈ t.tier, x.part = p → x.page = page → x.moving = true → x.srcFrame = pteFrame l.pte) ∧
        (∀ ln ∈ t.l1, ¬ (pteFrame l.pte / 128 ≤ ln.line ∧ ln.line < (pteFrame l.pte + pageBytes) / 128)) ∧
        ∀ a, a ∉ atLeaf l → (∀ ln ∈ s.l1, ln.dirty = true → a < ln.line * 128 ∨ ln.line * 128 + ln.bytes.length ≤ a) →
          readByte t.mem a = readByte s.mem a) ∧
    (tierMoving s p page = some r → r.target < 8 → (r.srcTier = 5 ∨ frameBusy s r.srcFrame false = false) → memWf s.mem = true →
      let src := frameAddr r.srcTier r.srcFrame
      let dst := frameAddr r.target r.frame
      src + pageBytes ≤ dst ∨ dst + pageBytes ≤ src →
      ∃ t, exec (.tierMoveLanding p page) s = .next t ∧
        (∀ k, k < pageBytes → dst + k ∉ atLeaf l → readByte t.mem (dst + k) = readByte s.mem (src + k)) ∧
        readNat t.mem l.pa 8 = withFrame l.pte r.frame r.target ∧
        (∀ a, a ∉ atLeaf l → (a < dst ∨ dst + pageBytes ≤ a) → readByte t.mem a = readByte s.mem a) ∧
        ∀ x ∈ t.tier, x ≠ r)

/-! ## Collectives between blocks, the race detector and epilogue programs -/

/-- NRSCL and NRSUM send one contribution with the exponents and values of their threads, under the chunk key of their group and tag, and raise
their flag (R149 to R151). -/
def Obligations.ContributionsIssue : Prop :=
  ∀ (f : FWord) (x : LExt) (s : State),
    let sends (sum : Bool) (o : Host.Outcome State Fault Refusal) : Prop :=
      let u : Use := { d := if sum then 2 else 1, a := 1, c := if sum then 1 else 0, feat := some 1 }
      ∀ c tids ins g, args u f (some x) s = some (c, tids, ins) → memberGroup c (x.xbits 0 8) = some g → g.count ≤ 65536 →
        (∀ i ∈ ins, -32767 ≤ (w32 (if sum then i.c else i.a)).toInt ∧ (w32 (if sum then i.c else i.a)).toInt ≤ 32767) →
        let f' := atRep s c f
        let ts := actors u f' tids
        let pops := qPops u f' (some x)
        let m : MemOp :=
          { seg := 0, unit := 4, size := 4, align := 4, use := .load, kind := .coll sum (x.xbits 0 8) (x.xbits 8 8) x.imm32.toNat, dcode := f'.d.toNat
            dn := u.d }
        let accs := ins.map (fun i =>
          let a := accPiece i.t .phys 0 0 0 [] [w32 i.a, w32 i.c] false false false false
          { a with addr := if isUniform u f' then 0 else i.t })
        let s1 : State := if pops.isEmpty then s else modBlock s c.l.lk c.b.blk c.b.shadow (fun _ => (popAll c.b c.w.name.w ts pops).1)
        ∃ t, o = .next t ∧ Shows s t c (flagUp c f.sig.toNat (applyMarks c.w u f' (some x) none 0 ts)).cur c.w (goOn s c tids)
          { s1 with nextId := s.nextId + 1, reqs := s.reqs ++ [{ mkReq s c m s.nextId f.sig.toNat ts accs with order := 0, seq := none }] }
    sends false (exec (.nrscl f x) s) ∧ sends true (exec (.nrsum f x) s)

/-- COLLECTIVE_CONTRIBUTION (R149 to R153): the engines register each contribution of a request; the threads whose chunk is complete then have
their results, in whichever request they are, and a request whose threads all have theirs is over with its flag lowered; results for a burrow are
pushed together where there is room. -/
def Obligations.ContributionsArrive : Prop :=
  ContributionsCommute ∧
  (∀ (id : Nat) (s : State) (r : Req) (sum : Bool) (grp tag base : Nat) (l : Launch) (g : Group), findReq s id = some r →
    r.kind = .coll sum grp tag base →
    (r.accs ≠ [] → findLaunch s r.w.launch = some l → l.groups[grp]? = some g →
      let s1 := r.accs.foldl (fun acc a => contribute acc l.lk sum grp tag (chunkIdx base a) g l (g.rank r.w.blk) (r.src / 96)
        (if sum then (a.ops.getD 0 0).toInt else 0) (if sum then (a.ops.getD 1 0).toInt else (a.ops.getD 0 0).toInt)) s
      s1 = { s with chunks := s1.chunks } ∧
      exec (.collectiveContribution id) s = .next ((s.reqs.filter (fun q => decide (q.w.launch = l.lk))).foldl collGive s1)) ∧
    (r.accs = [] → ∀ b w, findBlock s r.w.launch r.w.blk r.w.shadow = some b → findWarp s r.w = some w →
      let n := r.dcode - 0xC0
      let res := r.tids.filterMap (fun τ => r.result.find? (fun e => e.1 == τ))
      ∃ t, exec (.collectiveContribution id) s = .next t ∧
        ((b.burrow n).bound = false → Answered s t r (fun v => v) ∧ t.blocks = s.blocks) ∧
        ((b.burrow n).bound = true → (b.burrow n).occ + res.length > (b.burrow n).cap ∨ accessesLeft s r.w r.id r.tids = true → t = s) ∧
        ((b.burrow n).bound = true → (b.burrow n).occ + res.length ≤ (b.burrow n).cap → accessesLeft s r.w r.id r.tids = false →
          Answered s t r (fun v => v) ∧
          t.blocks = (modBlock s r.w.launch r.w.blk r.w.shadow (fun _ => pushAll b r.w.w n (res.map (fun e => e.2.headD 0)))).blocks))) ∧
  ∀ (s : State) (q : Req) (w : Warp) (sum : Bool) (grp tag base : Nat), q.kind = .coll sum grp tag base → findWarp s q.w = some w →
    isQ q.dcode = false →
    let chunk (a : Acc) : Option Chunk := findChunk s q.w.launch sum grp tag (chunkIdx base a)
    let ready (a : Acc) : Bool := (chunk a).any (·.complete)
    let res := (q.accs.filter ready).map (fun a => (a.tid, ((chunk a).map chunkWords).getD []))
    (q.accs.any ready = false → collGive s q = s) ∧
    (q.accs.any ready = true → (∀ a ∈ q.accs, ready a = true) → Answered s (collGive s q) q (writeReply q res)) ∧
    (q.accs.any ready = true → (∀ a ∈ q.accs, ready a = false → ∀ b ∈ q.accs, ready b = true → b.tid ≠ a.tid) → (∃ a ∈ q.accs, ready a = false) →
      findWarp (collGive s q) q.w = some (writeReply q res w) ∧
      (collGive s q).reqs = s.reqs.map (fun y => if y.id = q.id then
        { y with accs := q.accs.filter (fun a => !ready a), result := y.result ++ res } else y))

/-- RACEQ answers for each thread, through D (R257): bit 0, that its access at its offset would be reported; bit 1, that its party is quiet; bit 2,
that the sector is not tracked or its page not resident; no other bit. It performs and records nothing. An offset that fails a test of R207
raises the cause. -/
def Obligations.RaceQuestion : Prop :=
  WordsGiven ∧
  (∀ (s : State) (c : Ctx) (kind : Nat) (a : Acc),
    let w := raceqWord s c kind a
    let quiet := (c.w.race.tabOf (partyOf c.w c.den)).quiet
    let place : Option (Nat × Bool) := match a.space with
      | .scratch _ _ _ => some (a.addr, a.tracked)
      | .phys => match xlate s (partOf c.l.lk) a.va .load c.l.bound (some c.w.core) with
        | .ok pa => some (pa, a.tracked && isHbm pa)
        | .park _ _ => none
    (w.getLsbD 0 = true ↔ quiet = false ∧ ∃ pa, place = some (pa, true) ∧ ∃ r, raceWith s c.w c.den a.tid kind a.space pa = some r) ∧
    (w.getLsbD 1 = true ↔ quiet = true) ∧
    (w.getLsbD 2 = true ↔ ∀ pa, place ≠ some (pa, true)) ∧ ∀ k, 3 ≤ k → w.getLsbD k = false) ∧
  ∀ (f : FWord) (s : State),
    let u : Use := { d := 1, a := 1, q := false, den := true, bad := !offOk f none }
    let m : MemOp := { seg := f.bHi, unit := 32, size := 1, align := 1, use := .load, kind := .load false }
    let ts (tids : List Nat) : List Nat := if isUniform u f then tids.take 1 else tids
    let off (c : Ctx) (tids : List Nat) (t : Nat) : Int := memOff s c (atRep s c f) none 32 (ts tids) t
    let kind : Nat := if f.v then 1 else 0
    Leaves (startsF u f none s) s (exec (.raceq f) s)
      (fun c tids => acqHeld s c.w tids = false ∧ ∀ t ∈ ts tids, segCause c (c.l.segAt f.bHi) m (off c tids t) = none)
      (fun c tids => giveEach c (atRep s c f) (ts tids) (applyMarks c.w u (atRep s c f) none none 0 (ts tids)) ((ts tids).map (fun t =>
        (t, match segPieces c (c.l.segAt f.bHi) m t (off c tids t) [] [] true with
          | a :: _ => raceqWord s c kind a
          | [] => 4))))
      (fun _ _ => s) ∧
    (∀ k bad o, Raises (startsF u f none s) s (exec (.raceq f) s)
      (fun c tids => acqHeld s c.w tids = false ∧
        firstFail ((ts tids).map (fun t => (t, off c tids t, segCause c (c.l.segAt f.bHi) m (off c tids t)))) = some (k, bad, o))
      (fun _ _ => { cause := k, tids := bad, faddr := wrapTo 64 o }))

/-- EPLD sends one read of its program and holds the warp for it; when the words are there and every one is valid they stand in the program store
and the warp goes on (R193 to R196). -/
def Obligations.ProgramLoad : Prop :=
  ∀ (f : FWord) (x : LExt) (s : State),
    let ix := x.xbits 0 6
    let n := x.xbits 6 6 + 1
    let a := f.a.toNat
    let m : MemOp := { seg := x.seg, unit := 4, size := 4 * n, align := 4, use := .load, kind := .epld ix n }
    let off (c : Ctx) (tids : List Nat) : Int := memOff s c f (some x) 4 tids (tids.headD 0)
    let pieces (c : Ctx) (tids : List Nat) : List Acc := segPieces c (c.l.segAt x.seg) m (tids.headD 0) (off c tids) [] [] false
    (∀ c tids accs,
      startsAll false s (fun c _ => matSpec f (!(if x.far then isDesc a else isSZ a)) (if x.far then [a, a + 1] else [a]) [] c) = some (c, tids) →
      ix + n ≤ 64 → acqHeld s c.w tids = false → segCause c (c.l.segAt x.seg) m (off c tids) = none →
      (∀ p ∈ pieces c tids, watchOf s c m p = none) → translate s c m (pieces c tids) = .perform accs → raceHit s c 0 accs = none →
      ∃ t, exec (.epld f x) s = .next t ∧ Shows s t c (flagUp c f.sig.toNat c.w).cur c.w
        (fun y =>
          let z : Thread := if y.st == .yield && !c.grp.contains y.tid && decide (y.held = 0) then { y with st := .ready, cnt := 0 } else y
          if tids.contains z.tid then { z with st := .reply s.nextId } else z)
        (post (touchedBy s c false accs) c.w.core (mkReq s c m s.nextId f.sig.toNat tids accs))) ∧
    (∀ id r w k cnt, findReq s id = some r → r.kind = .epld k cnt → atHome s r = true → r.acquires = false → r.accs.all (fun a => !a.l1) = true →
      r.accs ≠ [] → (∀ b ∈ r.accs, b.tid = (r.accs.head?.map (·.tid)).getD 0) → findWarp s r.w = some w →
      let words := loadWords false 64 ((r.accs.map (homeBytes s)).flatten)
      (∀ i, i < cnt → epValid (words.getD i 0) = true) →
      ∃ t v, exec (.loadReply id) s = .next t ∧ findWarp t r.w = some v ∧ t.mem = s.mem ∧
        (∀ i, agetD v.epStore i 0 = if k ≤ i ∧ i < k + cnt then words.getD (i - k) 0 else agetD w.epStore i 0) ∧
        t.reqs = s.reqs.filter (fun q => decide (q.id ≠ r.id)))

/-! ## Edges -/

/-- EDGEW and EDGER reserve slots of an edge that has them, and send what STORE_PERFORM writes or ATOMIC_PERFORM reads; EDGECL closes a producer's binding
early (R352 to R355). -/
def Obligations.EdgeInstructions : Prop :=
  ∀ (f : FWord) (x : LExt) (s : State),
    let e := x.xbits 0 3
    let szc := x.xbits 3 2
    let n := slotRegs szc
    let wu : Use := { dr := n, q := false, bad := !(isV f.d.toNat || f.d.toNat == opZero) }
    let k := x.xbits 5 4
    let ru : Use :=
      { d := n, s := false, q := false, preds := if k < 12 then [k] else []
        bad := (decide (12 ≤ k) && decide (k ≤ 14)) || !(isV f.d.toNat || f.d.toNat == opZero) }
    (∀ c tids h accs, startsF wu f (some x) s = some (c, tids) → acqHeld s c.w tids = false → c.l.twin = false →
      edgeGate s c.l e szc 1 tids.length = .ok h → tids.length ≤ h.free →
      slotAccs s c.l h true h.wpos (fun t => regBytes (slotBytes szc) (readGroup s c c.w tids t (atRep s c f).d.toNat n)) tids 0 = .perform accs →
      let p := partOf c.l.lk
      let s1 := edgePut (edgePut s p h.va h.pa 2 (h.free - tids.length)) p h.va h.pa 4 ((h.wpos + tids.length) % 2 ^ 32)
      ∃ t, exec (.edgew f x) s = .next t ∧
        Shows s t c (flagUp c f.sig.toNat (applyMarks c.w wu (atRep s c f) (some x) none 0 tids)).cur c.w (goOn s c tids)
          { (h.va :: accs.map (·.va)).foldl (fun acc va => touchLeaf acc p va true) s1 with
            nextId := s.nextId + 1, reqs := s.reqs ++ [{ edgeReq s c (.edgePut e) s.nextId f.sig.toNat opZero 1 tids (hdrAcc h :: accs) 2 with
              rels := (c.w.race.release c.w.name (partyOf c.w none) tids 3).1 }] }) ∧
    (∀ c tids h accs, startsF ru f (some x) s = some (c, tids) → acqHeld s c.w tids = false → c.l.twin = false →
      edgeGate s c.l e szc 2 tids.length = .ok h →
      let m := min tids.length h.avail
      (tids.length ≤ h.avail ∨ (h.closed = true ∧ k ≠ 15)) →
      slotAccs s c.l h false h.rpos (fun _ => []) (tids.take m) 0 = .perform accs →
      let p := partOf c.l.lk
      let s1 := edgePut (edgePut s p h.va h.pa 3 (h.avail - m)) p h.va h.pa 5 ((h.rpos + m) % 2 ^ 32)
      let s2 := dropForAcquire (touchLeaf (accs.foldl (fun acc a => touchLeaf acc p a.va false) s1) p h.va true) c.l c.w.core
      ∃ t, exec (.edger f x) s = .next t ∧ Shows s t c (flagUp c f.sig.toNat c.w).cur c.w (goOn s c tids)
          { s2 with
            nextId := s.nextId + 1
            reqs := s.reqs ++ [edgeReq s c (.edgeTake k) s.nextId f.sig.toNat (atRep s c f).d.toNat n tids (hdrAcc h :: accs) 0] }) ∧
    (let b := f.d.toNat % 8
     let sz (c : Ctx) : Nat := match (c.l.edges[b]?).bind (edgeHdr s c.l) with | some h => h.szc | none => 0
     Leaves (startsF { solo := true } f none s) s (exec (.edgecl f) s) (fun c _ => edgeGate s c.l b (sz c) 1 0 = .misuse 4) (fun c _ => c.w) (fun _ _ => s) ∧
     Leaves (startsF { solo := true } f none s) s (exec (.edgecl f) s) (fun c _ => ∃ h, edgeGate s c.l b (sz c) 1 0 = .ok h) (fun c _ => c.w)
       (fun c _ =>
         let l1 := { c.l with edgeClosed := (b, 1) :: c.l.edgeClosed }
         closeEarly (modLaunch s c.l.lk (fun _ => l1)) l1 b))

/-- STORE_PERFORM of an EDGEW writes its slots and then publishes them, in the order of the reservations; ATOMIC_PERFORM of an EDGER gives each thread
its slot, with the predicate, and frees the slots (R354). -/
def Obligations.EdgeTransfers : Prop :=
  ∀ (id : Nat) (s : State) (r : Req) (hdr : Acc) (slots : List Acc) (l : Launch) (core : Nat), findReq s id = some r → atHome s r = true →
    reqHome s r = some (l, core) → r.accs = hdr :: slots →
    (∀ e, r.kind = .edgePut e → (∀ q ∈ s.reqs, q.w.launch = l.lk → q.kind = .edgePut e → r.id ≤ q.id) → (∀ y ∈ l.edgeClosed, y.1 ≠ e) →
      slots.all (fun a => a.space == .phys && !a.priv) = true →
      ∃ t, exec (.storePerform id) s = .next t ∧ Answered s t r (fun w => w) ∧
        t.mem = writeBytes (storeMem s.mem slots) (hdr.addr + 12)
          (toBytes ((readNat (storeMem s.mem slots) (hdr.addr + 12) 4 + slots.length) % 2 ^ 32) 4)) ∧
    (∀ k, r.kind = .edgeTake k → slots ≠ [] →
      let res := r.tids.map (fun t => match slots.find? (fun a => a.tid == t) with
        | some a => (t, loadWords false r.dn (readBytes s.mem a.addr a.size) ++ [1])
        | none => (t, List.replicate (r.dn + 1) 0))
      ∃ t, exec (.atomicPerform id) s = .next t ∧ Answered s t r (writeReply r (spread r res)) ∧
        t.mem = writeBytes s.mem (hdr.addr + 8) (toBytes ((readNat s.mem (hdr.addr + 8) 4 + slots.length) % 2 ^ 32) 4))

/-! ## Code pages -/

/-- CFETCH gives the status of the brick and starts a fetch into a free slot, CSTAT gives the brick's state, CEVICT drops a brick that no program counter
stands in (R375 to R377). -/
def Obligations.CodeInstructions : Prop :=
  ∀ (f : FWord) (x : LExt) (s : State),
    let fu : Use := { d := 1, a := 1, q := false, lock := true, solo := true, bad := !isSZ f.a.toNat }
    let su : Use := { d := 1, a := 1, q := false, lock := true, bad := !(isV f.a.toNat || isSZ f.a.toNat) }
    let reg (c : Ctx) (tids : List Nat) : Nat := (readCode s c c.w tids (tids.headD 0) (atRep s c f).a.toNat).toNat
    let num (c : Ctx) (tids : List Nat) : Nat := (reg c tids + x.imm32.toNat) / 4096
    let me (c : Ctx) := (c.w.name, c.w.depth, f.sig.toNat)
    let fetch (st : Option BrickSt) (status : Nat) (flag : Bool) (s1 : Ctx → List Nat → State) : Prop :=
      Leaves (startsF fu f (some x) s) s (exec (.cfetch f x) s)
        (fun c tids => reg c tids + x.imm32.toNat < codeLimit c.l ∧ (findBrick s c.w.core c.l.lk (num c tids)).map (·.st) = st ∧
          (st = none → (status = 3 ↔ freeSlot s c.w.core = none)))
        (fun c tids => giveWord c fu (atRep s c f) tids (applyMarks (if flag then flagUp c f.sig.toNat c.w else c.w) fu (atRep s c f) (some x) none 0 tids)
          (codeStatus status)) s1
    fetch none 0 true (fun c tids => startFetch s c.w.core c.l.lk (num c tids) ((freeSlot s c.w.core).getD 0) [me c]) ∧
    fetch none 3 false (fun _ _ => s) ∧ fetch (some .landed) 1 false (fun _ _ => s) ∧ (∀ k w, fetch (some (.failed k w)) 4 false (fun _ _ => s)) ∧
    (∀ tk, fetch (some (.fetching tk)) 2 true
      (fun c tids => modBrick s c.w.core c.l.lk (num c tids) (fun y => { y with waiters := y.waiters ++ [me c] }))) ∧
    GivesOf (fun s c => specOf s c su f none) su f none s (exec (.cstat f) s) (fun c _ i => { vals := [cstatWord s c.w.core c.l (w32 i.a).toNat] }) ∧
    (let evict (cond : Ctx → Option Brick → Prop) (status : Nat) (s1 : Ctx → Option Brick → State) : Prop :=
      Leaves (startsF fu f none s) s (exec (.cevict f) s) (fun c tids => cond c (findBrick s c.w.core c.l.lk (reg c tids / 4096)))
        (fun c tids => giveWord c fu (atRep s c f) tids c.w (codeStatus status)) (fun c tids => s1 c (findBrick s c.w.core c.l.lk (reg c tids / 4096)))
     evict (fun _ b => b = none) 1 (fun _ _ => s) ∧
     evict (fun _ b => ∃ y k, b = some y ∧ y.st = .fetching k) 3 (fun _ _ => s) ∧
     evict (fun c b => ∃ y, b = some y ∧ (∀ k, y.st ≠ .fetching k) ∧ brickHeld s c.w.core c.l.lk y.num = true) 2 (fun _ _ => s) ∧
     evict (fun c b => ∃ y, b = some y ∧ (∀ k, y.st ≠ .fetching k) ∧ brickHeld s c.w.core c.l.lk y.num = false ∧ ∀ w ∈ s.warps, dropLoop y w = w) 0
       (fun _ b => match b with | some y => dropBrick s y | none => s))

/-- BRICK_CHECK_COMPLETE lands a brick whose 512 words pass the checker and fails one whose words do not, with the test and the word; both lower the flags
that wait for it (R371, R375). BRICK_IMPLICIT_FETCH brings a brick that a program counter stands in into a free slot, or into that of the brick longest
unexecuted that no program counter stands in, in the order of waiting (R368); CODE_PARITY_REFETCH has it read again and counts the error (R370). -/
def Obligations.BrickEvents : Prop :=
  ∀ (core lk num : Nat) (s : State),
    (∀ b l bs runs, findBrick s core lk num = some b → findLaunch s lk = some l → b.st = .fetching 0 →
      readVirtBy (some b.core) s (partOf l.lk) .code l.bound 3 (brickVa l b.num) 4096 = .ok bs runs → (∀ r ∈ runs, isPoisoned s r.1 r.2 = false) →
      exec (.brickCheckComplete core lk num) s = .next (endFetch (touchBrick s (partOf l.lk) (brickVa l b.num) b.core) b
        (match checkBrick l (s.feat.toNat / 2 ^ 24) b.num (wordsOfBytes 512 bs) with | none => .landed | some (k, w) => .failed k w) (wordsOfBytes 512 bs))) ∧
    (findBrick s core lk num = none →
      let wanted := brickNeeded s core lk num || (fetchLine s).any (fun e => e.is core lk num)
      let ws := ((s.fetchq.filter (fun e => e.is core lk num)).map (·.waiters)).flatten
      let s1 : State := { s with fetchq := s.fetchq.filter (fun e => !e.is core lk num) }
      (wanted = false → exec (.brickImplicitFetch core lk num) s = .next s) ∧
      (∀ k, wanted = true → fetchBehind s core lk num = false → freeSlot s core = some k →
        exec (.brickImplicitFetch core lk num) s = .next (startFetch s1 core lk num k ws)) ∧
      (∀ b, wanted = true → fetchBehind s core lk num = false → freeSlot s core = none → evictable s core = some b →
        exec (.brickImplicitFetch core lk num) s = .next (startFetch (dropBrick s1 b) core lk num b.slot ws)) ∧
      (wanted = true → fetchBehind s core lk num = true ∨ (freeSlot s core = none ∧ evictable s core = none) →
        ∃ t, exec (.brickImplicitFetch core lk num) s = .next t ∧ t = { s with fetchq := t.fetchq } ∧
          (∃ e ∈ t.fetchq, e.is core lk num = true) ∧ ∀ e ∈ s.fetchq, e ∈ t.fetchq)) ∧
    (∀ b, findBrick s core lk num = some b → b.st = .landed → ∃ t, exec (.codeParityRefetch core lk num) s = .next t ∧
      (findBrick t core lk num).map (·.st) = some (.fetching 0) ∧ t.warps = s.warps ∧ t.mem = s.mem)

/-! ## Launches -/

/-- LAUNCH appends the packet it has read and gives its identifier; LWAIT gives the first word of a launch's record once it is written; GRPQ gives a
block's rank in a group, a group's size or a block's groups, LSTAT the launch's numbers (R357 to R359). -/
def Obligations.LaunchInstructions : Prop :=
  ∀ (f : FWord) (x : LExt) (s : State),
    (∀ c tids accs va pa, startsF (launchUse f x) f (some x) s = some (c, tids) → launchOut f x s c tids = some (accs, va, pa) →
      let p := partOf c.l.lk
      let q := x.xbits 0 4
      let k := (findPart s p).queue q
      let w := giveWord c (launchUse f x) (atRep s c f) tids (applyMarks c.w { a := offRegs (some x) } (atRep s c f) (some x) none 0 tids)
        (BitVec.ofNat 32 (lidFor q k.qtail.toNat))
      ∃ t, exec (.launch f x) s = .next t ∧ Shows s t c w.cur w (goOn s c tids) 
          (packetOut (packetIn s c accs).1 p q va pa (packetIn s c accs).2 (launchClock c tids)) ∧
        readBytes t.mem pa (packetIn s c accs).2.length = (packetIn s c accs).2 ∧
        (hasPart s p = true → (findPart t p).queue q =
          { k with
            qtail := k.qtail + 1
            befores := (k.qtail.toNat, launchClock c tids) :: k.befores.filter (fun e => decide (e.1 ≠ k.qtail.toNat)) })) ∧
    (∀ y, let u : Use := { d := 1, a := 1, q := false, lock := true, solo := true, bad := !isSZ f.a.toNat }
      let n (c : Ctx) (tids : List Nat) : Nat := (readCode s c c.w tids (tids.headD 0) (atRep s c f).a.toNat).toNat
      Leaves (startsF u f none s) s (exec (.lwait f) s)
        (fun c tids => n c tids ≠ c.l.lid ∧ ((findPart s (partOf c.l.lk)).queue (n c tids / 2 ^ 28)).en = true ∧
          lwaitWord s (partOf c.l.lk) (n c tids) = some y)
        (fun c tids => giveWord c u (atRep s c f) tids c.w y) (fun c _ => dropForAcquire s c.l c.w.core)) ∧
    (let u : Use := { d := 1, b := 1, q := false, bad := !f.i && !isUniCode f.b.toNat }
     GivesOf (fun s c => specOf s c u f none) u f none s (exec (.grpq f) s) (fun c _ _ =>
      let n := if f.i then f.b.toNat else (uniformB s c (atRep s c f)).toNat
      { vals := [match f.a.toNat % 4, c.l.groups[n]? with
          | 2, _ => mineWord c.l c.b.blk
          | 1, some g => BitVec.ofNat 32 g.count
          | 1, none => 0
          | 0, some g => if g.has c.b.blk then BitVec.ofNat 32 (g.rank c.b.blk) else 0xFFFFFFFF
          | 0, none => 0xFFFFFFFF
          | k, _ => grpqWord c.l c.b.blk k n] })) ∧
    (let u : Use := { d := 1, q := false }
     GivesOf (fun s c => specOf s c u f none) u f none s (exec (.lstat f) s) (fun c _ _ =>
      { vals := [BitVec.ofNat 32 (([c.l.lid, c.b.blk, c.l.nblk, blocksDone s c.l, c.g.relaunches,
          c.l.pkt.prio + 256 * c.l.pkt.qos + 65536 * c.l.pkt.flags, c.l.pkt.ngrp, c.l.pkt.ngrp])[f.a.toNat % 8]?.getD 0)] }))

/-- The events of launch queues and launches (R341 to R348): enabling a queue starts it at sequence number 0; its tail moves by at most 16 packets; a
packet is accepted, or refused with the first reason of R345; a gang starts with empty registers at the launch's entry; a launch that is over leaves
its 16-byte record, which is held where its page cannot be written (R400), and is gone. -/
def Obligations.LaunchEvents : Prop :=
  ∀ (s : State) (part q : Nat), hasPart s part = true →
    (∀ v : BitVec 32, q < 16 → OnPart s (exec (.queueEnable part q v) s) part (fun p => p.modQueue q (fun k =>
      { k with vec := (v.extractLsb' 2 4).toNat, devl := v.getLsbD 1, en := v.getLsbD 0
               qhead := if v.getLsbD 0 then 0 else k.qhead, qtail := if v.getLsbD 0 then 0 else k.qtail
               token := if v.getLsbD 0 then none else k.token, befores := if v.getLsbD 0 then [] else k.befores }) |> fun y =>
        { y with tokens := if v.getLsbD 0 then p.tokens.filter (fun t => !(t.kind == 6 && t.ref == q)) else p.tokens })) ∧
    (∀ v : BitVec 32, q < 16 →
      let k := (findPart s part).queue q
      (k.en = true → k.devl = false → (v - k.qhead).toNat ≤ 16 →
        OnPart s (exec (.qtailWrite part q v) s) part (fun p => p.modQueue q (fun y => { y with qtail := v }))) ∧
      (k.en = false ∨ k.devl = true ∨ (v - k.qhead).toNat > 16 → exec (.qtailWrite part q v) s = .next s)) ∧
    (∀ v : BitVec 64, ∀ sup,
      OnPart s (exec (.registerWrite part 0x0008 v sup) s) part (fun p => { p with troot := (v.extractLsb' 12 40).toNat * 4096 }) ∧
      OnPart s (exec (.registerWrite part 0x0010 v sup) s) part (fun p => { p with fqvec := v.toNat % 16 }) ∧
      OnPart s (exec (.registerWrite part 0x2400 v sup) s) part (fun p => { p with trace := { p.trace with base := v.toNat } }) ∧
      OnPart s (exec (.registerWrite part 0x2300 v sup) s) part (fun p =>
        { p with step := { p.step with blk := (v.extractLsb' 32 32).toNat, lid := (v.extractLsb' 0 32).toNat } }) ∧
      (q < 16 → OnPart s (exec (.registerWrite part (0x1000 + 32 * q) v sup) s) part (fun p => p.modQueue q (fun k => { k with qbase := v.toNat }))) ∧
      (q < 9 → OnPart s (exec (.registerWrite part (0x2800 + 4 * q) v sup) s) part (fun p => { p with err := aput 0 p.err q (v.extractLsb' 0 32) })) ∧
      exec (.registerWrite part 0x0070 v false) s = .next s) ∧
    (mayAccept s part q = true →
      let k := (findPart s part).queue q
      let lk := lkOf part (lidFor q k.qhead.toNat)
      let took (l : Launch) : Prop := ∃ t, exec (.launchAccept part q) s = .next t ∧ t.launches = s.launches ++ [l] ∧
        (findPart t part).queue q =
          { k with qhead := k.qhead + 1, last := some lk, befores := k.befores.filter (fun e => decide (e.1 ≠ k.qhead.toNat)) } ∧
        t.mem = s.mem ∧ t.warps = s.warps
      ∀ bs runs, readVirt s part .load none 2 (slotVa k k.qhead.toNat) 256 = .ok bs runs →
        (∀ l, checkLaunch s part lk bs = .ok l → took (asAccepted k l)) ∧
        (∀ r d, checkLaunch s part lk bs = .error (some (r, d)) → took (asAccepted k (refusedLaunch part lk bs r d)))) ∧
    (∀ l cluster t, findLaunch s l.lk = some l → startsGang s l cluster = true → startGang s l cluster = some t →
      exec (.gangStart l.lk cluster) s = .next t ∧
        ∀ v ∈ t.warps, (∃ w ∈ s.warps, v.name = w.name ∧ v.frames = w.frames ∧ v.threads = w.threads) ∨ freshWarp l cluster v) ∧
    (∀ l, findLaunch s l.lk = some l → l.complDue = true → l.pkt.compl ≠ 0 → l.pkt.compl % 16 = 0 → (l.started && edgesMoving s l) = false →
      ((∃ k d, l.failed = some (k, d) ∧ k / 256 = 1) ∨ launchBusy s l.lk = false) →
      let first := match l.failed with | none => 0 | some (k, d) => k * 65536 + d
      let bytes := toBytes first 4 ++ toBytes l.relaunch 4 ++ toBytes l.pkt.tag 8
      (∀ pa, xlate s l.part l.pkt.compl .record none = .ok pa →
        ∃ t, exec (.completionRecordWrite l.lk) s = .next t ∧ findLaunch t l.lk = none ∧ aget t.completed l.lk = some (BitVec.ofNat 32 first) ∧
          (l.started = false ∨ (∀ b ∈ l.edges, b.role = 0) → readBytes t.mem pa 16 = bytes)) ∧
      (∀ page k, xlate s l.part l.pkt.compl .record none = .park page (some k) → hasPart s l.part = true →
        ∃ t h, exec (.completionRecordWrite l.lk) s = .next t ∧ findLaunch t l.lk = none ∧ t.mem = s.mem ∧ (findPart t l.part).crerr = true ∧
          (findPart t l.part).heldCompl = (findPart s l.part).heldCompl ++ [h] ∧ h.addr = l.pkt.compl ∧ h.bytes = bytes))

/-! ## Exceptions -/

/-- TRAP raises its cause, a group that encodes no instruction the cause it is entered with; ERET waits until its frame may close and closes it, or
raises 0x61 where none is open; OWRD reads and OWWR writes an operand of the interrupted group; SWR writes a special register; HALT goes on where
records wait (R383, R391 to R395, R403, R406, R407). -/
def Obligations.TrapInstructions : Prop :=
  ∀ (f : FWord) (s : State),
    let always : Ctx → List Nat → Prop := fun _ _ => True
    let k := f.b.toNat % 8
    let j := f.b.toNat / 8 % 16
    let dk := f.d.toNat % 8
    let dj := f.d.toNat / 8 % 16
    Raises (startsF { a := 1 } f none s) s (exec (.trap f) s) always (fun _ tids => { cause := 0xB0 + f.bLo, tids := tids }) ∧
    (∀ n, Raises (starts s (fun _ => entrySpec s)) s (exec (.handlerEntry n) s) always
      (fun _ tids => { cause := n, tids := if (entrySpec s).uni && !(entrySpec s).q.bad then tids.take 1 else tids })) ∧
    Raises (startsF {} f none s) s (exec (.eret f) s) (fun c _ => c.w.depth = 0) (fun _ tids => { cause := 0x61, tids := tids }) ∧
    (∀ c tids w, startsF {} f none s = some (c, tids) → c.w.depth ≠ 0 →
      let s1 := hold s c tids (schedF f) (.eret f.v)
      findWarp s1 c.w.name = some w → exec (.eret f) s = .next (if frameDone s1 w then modWarp s1 c.w.name closeFrame else s1)) ∧
    (∀ op, (∀ n, op ≠ .q n) →
      Leaves (startsF { d := 1 } f none s) s (exec (.owrd f) s)
        (fun c _ => isQ (atRep s c f).d.toNat = false ∧ winOp c.w.cur.win c.w.depth c.l.pkt.regmax k j = .ok op)
        (fun c tids =>
          let ts := if isUniform { d := 1 } f then tids.take 1 else tids
          writeOuts c.w c.den ts { d := 1 } (atRep s c f) (ts.map (fun t => (t, { vals := [winRead c tids k j t op] })))) (fun _ _ => s)) ∧
    (∀ (c : Ctx) (tids : List Nat) (t r : Nat), c.w.cur.conv = none →
      winRead c tids k j t (.v r) = (c.w.frameAt (c.w.depth - 1)).getV t r ∧
      winRead c tids k j t (.s r) = (c.w.frameAt (c.w.depth - 1)).getS r ∧
      winRead c tids k j t .imm = c.w.cur.win.ewimm) ∧
    (let u : Use := { b := 1, q := false, bad := !f.i && !(isV f.b.toNat || isUniCode f.b.toNat) }
     let val (c : Ctx) (tids : List Nat) (t : Nat) : Word := if f.i then f.b.signExtend 32 else readCode s c c.w tids t (atRep s c f).b.toNat
     let marked (c : Ctx) (tids : List Nat) : Warp := applyMarks c.w u (atRep s c f) none none 0 tids
     let start := startsF u f none s
     (∀ op, ((∃ r, op = .v r) ∨ (∃ r, op = .s r) ∨ op = .pw) → ∀ c tids, start = some (c, tids) →
      winOp c.w.cur.win c.w.depth c.l.pkt.regmax dk dj = .ok op → (∀ r, op = .v r → poolFits s c.w (c.w.depth - 1) [r] = true) →
      ∃ t w v, exec (.owwr f) s = .next t ∧ findWarp s c.w.name = some w ∧ findWarp t c.w.name = some v ∧
        v.frames = (winWrite (marked c tids) tids (val c tids) op).frames ∧ v.kept = w.kept ∧ places v = (places w).map (goOn s c tids) ∧
        t.blocks = s.blocks ∧ elsewhere t = elsewhere s) ∧
     (∀ c tids r, start = some (c, tids) → winOp c.w.cur.win c.w.depth c.l.pkt.regmax dk dj = .ok (.v r) →
      poolFits s c.w (c.w.depth - 1) [r] = false → exec (.owwr f) s = .next (stall s c 3)) ∧
     Leaves start s (exec (.owwr f) s) (fun c _ => winOp c.w.cur.win c.w.depth c.l.pkt.regmax dk dj = .ok (.special opZero)) marked (fun _ _ => s) ∧
     Raises start s (exec (.owwr f) s) (fun c _ => winOp c.w.cur.win c.w.depth c.l.pkt.regmax dk dj = .ok .imm)
       (fun _ tids => { cause := 0x62, tids := tids }) ∧
     Leaves (starts s (swrSpec s f)) s (exec (.swr f) s) always
       (fun c tids => srWriteWarp (applyMarks c.w u f none none 0 tids) (swrNum f) (if f.i then f.b.signExtend 32 else readCode s c c.w tids (tids.headD 0) f.b.toNat))
       (fun c tids => srWriteState s c (swrNum f) (if f.i then f.b.signExtend 32 else readCode s c c.w tids (tids.headD 0) f.b.toNat))) ∧
    (let u : Use := { uniUse f with sup := true }
     Leaves (startsF u f none s) s (exec (.halt f) s)
       (fun c _ => (findPart s (partOf c.l.lk)).fqtail ≠ (findPart s (partOf c.l.lk)).fqhead) (fun c _ => c.w) (fun _ _ => s))

/-- Taking an exception (R382 to R385, R389, R399). Where the vector of the cause's path is enabled and fewer than two frames are open, a frame opens
whose window holds the program counter, the group's words, cause and address, the threads delivered stand at the vector, and every other thread is
held beneath the frame. Else its threads park on a record to the supervisor. ERETs close a frame (R387, R394): each thread goes on past the group or at it
again, and what the frame held is released. -/
def Obligations.TakingAnException : Prop :=
  ∀ (s : State) (n : WName) (w : Warp) (ws : List Code) (pc rk : Nat) (r : Raise), findWarp s n = some w → w.frames ≠ [] →
    let path := pathOf r.cause
    let vec := if path = 0 then w.emuvec else w.trapvec
    let p := partOf n.launch
    (path ≠ 2 → vecOn vec = true → w.depth < 2 →
      ∃ t v, deliver s n ws pc rk r none = some t ∧ findWarp t n = some v ∧ v.frames.tail = w.frames ∧
        v.cur.win.ewpc = BitVec.ofNat 32 pc ∧ v.cur.win.cause = BitVec.ofNat 32 (256 * path + r.cause) ∧
        v.cur.win.faddr = BitVec.ofNat 64 r.faddr ∧ v.cur.win.fmask = maskOf r.tids ∧ v.cur.win.ewlen = ewlenOf ws rk ∧ v.cur.win.ewg = rawWords ws ∧
        v.cur.v = [] ∧ v.cur.s = [] ∧ v.cur.p = [] ∧
        v.threads = w.threads.map (fun y =>
          if r.tids.contains y.tid then { y with pc := vec.toNat / 8 * 8, rk := 0, st := .ready, cnt := 0, held := 0, den := none }
          else if y.held = 0 ∧ y.den = none then { y with held := w.depth + 1 } else y)) ∧
    (path = 2 ∨ vecOn vec = false ∨ w.depth ≥ 2 →
      (fqRoom s p = false → deliver s n ws pc rk r none = none) ∧
      (fqRoom s p = true → hasPart s p = true →
        let tok := (findPart s p).nextToken
        ∃ t v, deliver s n ws pc rk r none = some t ∧ findWarp t n = some v ∧ v.frames = w.frames ∧
          (findPart t p).tokens = (findPart s p).tokens ++ [{ token := tok, kind := 0, code := if path ≠ 2 ∧ vecOn vec = true then 0x60 else r.cause, w := n, mask := maskOf r.tids, pc := pc, addr := r.faddr, ref := 0, core := w.core, orig := if path ≠ 2 ∧ vecOn vec = true then r.cause else 0 }] ∧
          ∀ y ∈ v.threads, r.tids.contains y.tid = true → y.st = .parked { page := r.faddr / 4096 * 4096, token := tok })) ∧
    (∀ c : Ctx, c.den = none → c.w.name = n → c.pc = pc → c.rk = rk → s.iss.words = ws →
      raise s c r = match deliver s n ws pc rk r none with | some t => t | none => stall s c 13) ∧
    (∀ fr g rest, w.frames = fr :: g :: rest → fr.conv = none →
      (closeFrame w).frames = g :: rest ∧
      (closeFrame w).threads = w.threads.map (fun y =>
        if y.held = w.depth then { y with held := 0 }
        else if y.held ≠ 0 then y
        else if y.st = .eret true then { y with st := .ready, pc := fr.win.ewpc.toNat, rk := (fr.win.ewlen.extractLsb' 5 4).toNat, cnt := 0 }
        else if y.st = .eret false then { y with st := .ready, pc := fr.win.ewpc.toNat + 8 * (fr.win.ewlen.extractLsb' 0 3).toNat, rk := 0, cnt := 0 }
        else y))

/-! ## The supervisor -/

/-- The supervisor's instructions (R401, R402, R404, R484, R486): WSTOP halts the warps it names; an answer to a record that is not there gives 1, retry lets
threads parked on a record issue again, deliver takes an exception for them, kill removes their gang; FWCALL asks management firmware; KSLOT
loads a key by its handle, zeroises a slot and tells its state; SCRUB enqueues a job. -/
def Obligations.SupervisorInstructions : Prop :=
  ∀ (f : FWord) (x : LExt) (s : State),
    let same : Ctx → List Nat → State := fun _ _ => s
    let reg (c : Ctx) (tids : List Nat) (n : Nat) : List Word := readGroup s c c.w tids (tids.headD 0) (atRep s c f).a.toNat n
    let stop : Use := { d := 1, a := 2, q := false, zero := false, sup := true, lock := true, solo := true, bad := !isS f.a.toNat }
    let answers : Use := { d := 1, a := 1, q := false, sup := true, lock := true, solo := true, bad := !isS f.a.toNat }
    let call : Use := { stop with a := 4, solo := false }
    let tok (c : Ctx) (tids : List Nat) : Nat := (readCode s c c.w tids (tids.headD 0) (atRep s c f).a.toNat).toNat
    (∀ c tids, startsF stop f (some x) s = some (c, tids) →
      let lk := partOf c.l.lk * 2 ^ 32 + ((reg c tids 2).getD 0 0).toNat
      let blk := ((reg c tids 2).getD 1 0).toNat
      let chosen (n : WName) : Prop := n.launch = lk ∧ n.blk = blk ∧ (x.xbits 0 1 = 0 ∨ n.w = x.xbits 1 4)
      ∃ t v, exec (.wstop f x) s = .next t ∧ findWarp t c.w.name = some v ∧
        v.frames = (told stop f s (if (s.blocks.any fun b => b.launch == lk && b.blk == blk) ||
          s.images.any (fun im => im.blocks.any fun b => b.launch == lk && b.blk == blk) then 0 else 1) c tids).frames ∧
        (∀ n w, chosen n → findWarp t n = some w → w.halt.isSome = true ∨ w.stopReq = true) ∧
        ∀ im ∈ t.images, ∀ w ∈ im.warps, chosen w.name → w.stopReq = true) ∧
    (∀ (o : Host.Outcome State Fault Refusal) (act : Nat), (act, o) ∈ [(0, exec (.wresumeRetry f x) s), (1, exec (.wresumeDeliver f x) s), (2, exec (.wresumeKill f x) s)] →
      Leaves (startsF answers f (some x) s) s o (fun c tids => findToken s (partOf c.l.lk) (tok c tids) = none) (told answers f s 1) same ∧
      ∀ c tids tk, startsF answers f (some x) s = some (c, tids) → findToken s (partOf c.l.lk) (tok c tids) = some tk →
        let p := partOf c.l.lk
        let k := x.imm32.toNat % 256
        let s1 := dropToken s p tk.token
        let ends (s2 : State) : Prop := ∀ w, findWarp s2 c.w.name = some w → o = .next (finish s2 c tids (schedF f) (giveWord c answers (atRep s c f) tids { w with hazards := c.w.hazards, holds := c.w.holds } 0))
        (act = 0 → ends (resumeRetry s1 p tk) ∧
          (tk.kind = 0 → ∀ w ∈ (resumeRetry s1 p tk).warps, ∀ y ∈ w.threads, ∀ k, y.st = .parked k → k.token ≠ tk.token)) ∧
        (act = 1 → tk.kind = 0 ∨ tk.kind = 5 → k = 0 ∨ deliverable k = true → ends (resumeDeliver s1 p tk (if k = 0 then tk.code else k))) ∧
        (act = 2 → tk.kind ≠ 3 → ends (resumeKill s1 p tk))) ∧
    Leaves (startsF answers f (some x) s) s (exec (.wresumeDeliver f x) s)
      (fun c tids => ∃ tk, findToken s (partOf c.l.lk) (tok c tids) = some tk ∧ tk.kind ≠ 0 ∧ tk.kind ≠ 5) (told answers f s 2) same ∧
    Leaves (startsF answers f (some x) s) s (exec (.wresumeDeliver f x) s)
      (fun c tids => ∃ tk, findToken s (partOf c.l.lk) (tok c tids) = some tk ∧ (tk.kind = 0 ∨ tk.kind = 5) ∧ x.imm32.toNat % 256 ≠ 0 ∧
        deliverable (x.imm32.toNat % 256) = false) (told answers f s 3) same ∧
    Leaves (startsF call f (some x) s) s (exec (.fwcall f x) s) (fun _ _ => fwKnown (x.imm32.toNat % 65536) = false) (told call f s 1) same ∧
    (fwKnown (x.imm32.toNat % 65536) = true → ∀ c tids, startsF call f (some x) s = some (c, tids) →
      ∃ t, exec (.fwcall f x) s = .next t ∧ Shows s t c (flagUp c f.sig.toNat c.w).cur c.w (fun y => awaiting s.nextId tids (goOn s c tids y))
        (asked s c f (.fwcall (x.imm32.toNat % 65536) (reg c tids 4)) (atRep s c f).d.toNat 1 tids)) ∧
    (let u := kslotUse f
     let start := startsF u f (some x) s
     let slot := x.xbits 0 8
     let mine (c : Ctx) : Prop := (findPart s (partOf c.l.lk)).kmask.getLsbD slot = true
     let h (c : Ctx) (tids : List Nat) : Word := readCode s c c.w (tids.take 1) (tids.headD 0) (atRep s c f).a.toNat
     Leaves start s (exec (.kslotLoad f x) s) (fun c tids => mine c ∧ keyState s slot ≠ .zeroising ∧ findHandle s (h c tids) slot = true) (told u f s 1)
       (fun c tids => { s with
         handles := s.handles.map (fun k => if k.handle = h c tids ∧ k.slot = slot then { k with used := true } else k), keys := aput .empty s.keys slot .loaded }) ∧
     Leaves start s (exec (.kslotLoad f x) s) (fun c tids => mine c ∧ keyState s slot ≠ .zeroising ∧ findHandle s (h c tids) slot = false)
       (told u f s (kslotWord s 3 slot)) same ∧
     Leaves start s (exec (.kslotQuery f x) s) (fun c _ => mine c) (told u f s (BitVec.ofNat 32 (keyCode (keyState s slot)))) same ∧
     Leaves start s (exec (.kslotQuery f x) s) (fun c _ => ¬ mine c) (told u f s (kslotWord s 1 slot)) same ∧
     Leaves start s (exec (.kslotZero f x) s) (fun c _ => mine c ∧ slotBound s (partOf c.l.lk) slot = false) (fun c _ => flagUp c f.sig.toNat c.w)
       (fun c tids => asked { s with l1 := s.l1.filter (fun ln => decide (ln.key ≠ slot)), keys := aput .empty s.keys slot .zeroising } c f (.kslot slot)
         (atRep s c f).d.toNat 1 tids) ∧
     Leaves start s (exec (.kslotZero f x) s) (fun c _ => mine c ∧ slotBound s (partOf c.l.lk) slot = true) (told u f s (kslotWord s 2 slot)) same) ∧
    (let u := scrubUse f
     let start := startsF u f (some x) s
     let arg (c : Ctx) (tids : List Nat) (k : Nat) : Nat := ((readGroup s c c.w (tids.take 1) (tids.headD 0) (atRep s c f).a.toNat 2).getD k 0).toNat
     let cores (c : Ctx) (tids : List Nat) : List Nat := (List.range (arg c tids 1)).map (· + arg c tids 0)
     let taken (kind : Nat) (us : Ctx → List Nat → List Nat) : Ctx → List Nat → State := fun c tids =>
       let t := asked s c f (.scrub s.nextId) opZero 1 tids
       { t with nextId := s.nextId + 2
                scrub := s.scrub ++ [{ id := s.nextId + 1, part := partOf c.l.lk, kind := kind, units := us c tids, done := 0, resumed := false, reqId := s.nextId }] }
     Leaves start s (exec (.scrubCores f x) s)
       (fun c tids => 0 < arg c tids 1 ∧ arg c tids 1 ≤ 960 ∧ (∀ k ∈ cores c tids, k ∈ coresOf (findPart s (partOf c.l.lk))) ∧
         (∀ b ∈ s.blocks, b.core ∉ cores c tids) ∧ openJobs s < 16)
       (fun c tids => flagUp c f.sig.toNat (told u f s 0 c tids)) (taken 0 cores) ∧
     Leaves start s (exec (.scrubCores f x) s) (fun c tids => arg c tids 1 = 0 ∨ arg c tids 1 > 960) (told u f s 0x10000000) same ∧
     ∀ fs, Leaves start s (exec (.scrubPages f x) s)
       (fun c tids => let va := arg c tids 0 + arg c tids 1 * 2 ^ 32
         va % 4096 = 0 ∧ x.imm32.toNat ≠ 0 ∧ x.imm32.toNat < 2 ^ 24 ∧ scrubFrames s (partOf c.l.lk) x.imm32.toNat va = .ok fs ∧ openJobs s < 16)
       (fun c tids => flagUp c f.sig.toNat (told u f s 0 c tids)) (taken 1 (fun _ _ => fs)))

/-- Management firmware's answers to FWCALL, its live update, and what ends a zeroisation and a scrub job (R404, R480, R484 to R487, R493, R496). An answer is
given to the threads that wait for it, which go on. A slot is EMPTY once its key is overwritten; the bytes of scrubbed frames are zero and no
other byte changes; a scrubbed core holds no line and no brick. The moment of the hand-over record is the model's choice (log 26), as are the handles
of KWRAP (log 71). -/
def Obligations.FirmwareEvents : Prop :=
  ∀ (s : State) (id : Nat) (r : Req) (args : List Word) (p : Nat),
    let answered (fn : Nat) (o : Host.Outcome State Fault Refusal) (s1 : State) (y : Word) : Prop :=
      callOf s id fn = some (r, args, p) → o = .next (answerReq s1 r y)
    let arg (k : Nat) : Nat := (args.getD k 0).toNat
    let addr : Nat := arg 0 + arg 1 * 2 ^ 32
    (∀ y w, findWarp s r.w = some w → Answered s (answerReq s r y) r (fun v => writeReply r (spread r (r.tids.map (fun t => (t, [y]))))
      { v with threads := v.threads.map (fun t => if t.st = .reply r.id then { t with st := .ready } else t) })) ∧
    answered 0x0001 (exec (.pinfo id) s) s (BitVec.ofNat 32 (findPart s p).clusters.length) ∧
    (∀ fs, poolArgs s args = some fs →
      ((∀ e ∈ fs, ownsFrame s p e = true ∧ frameHeld s e = false) →
        answered 0x0002 (exec (.fpooladd id) s) ((fs.filter (fun e => !(findPart s p).pool.contains e)).foldl (fun acc e => poolGive acc p e) s) 0) ∧
      ((∃ e ∈ fs, ownsFrame s p e = false ∨ frameHeld s e = true) → answered 0x0002 (exec (.fpooladd id) s) s 3) ∧
      ((∀ e ∈ fs, e ∈ (findPart s p).pool) → answered 0x0003 (exec (.fpooldel id) s) (fs.foldl (fun acc e => poolTake acc p e) s) 0)) ∧
    (poolArgs s args = none → answered 0x0002 (exec (.fpooladd id) s) s 2 ∧ answered 0x0003 (exec (.fpooldel id) s) s 2) ∧
    (arg 2 < 256 → (findPart s p).kmask.getLsbD (arg 2) = false → answered 0x0010 (exec (.kwrap id) s) s 3) ∧
    (∀ pa, arg 2 < 256 → (findPart s p).kmask.getLsbD (arg 2) = true → xlate s p addr .load none = .ok pa →
      let h := Config.freeWord s.free
      answered 0x0010 (exec (.kwrap id) s)
        (if Config.freePolicy s.free then { s with handles := s.handles ++ [{ handle := h, slot := arg 2, used := false }] } else s)
        (if Config.freePolicy s.free then h else 2)) ∧
    (∀ l nonce runs s1, findLaunch s (lkOf p (arg 2)) = some l → l.protected_ = true →
      (∃ g ∈ s.gangs, g.launch = l.lk ∧ g.st ≠ .finished ∧ g.st ≠ .killed) → readVirt s p .load none (pagesFor 64) (addr + arg 3) 64 = .ok nonce runs →
      writeRun s p addr (quoteBytes s l nonce) = .done s1 → answered 0x0011 (exec (.attest id) s) s1 0) ∧
    (findLaunch s (lkOf p (arg 2)) = none → answered 0x0011 (exec (.attest id) s) s 2) ∧
    (∀ q, s.ports.find? (fun y => decide (y.id = arg 0)) = some q → answered 0x0020 (exec (.linkst id) s) s (Config.linkWord q.lanes)) ∧
    (arg 0 < 4 → let d := findDie s (arg 0)
      answered 0x0030 (exec (.pwrq id) s) s (Config.powerWord d.mult d.cap d.throttle)) ∧
    (∀ v, fwRuns s = true → (s.fw.stored ≤ v → exec (.fwUpdateLoad v true) s = .next { s with fw := { s.fw with phase := .loaded v, handover := some (handOver s v) } }) ∧
      (v < s.fw.stored → exec (.fwUpdateLoad v true) s = .next s) ∧ exec (.fwUpdateLoad v false) s = .next s) ∧
    (∀ v, let h := handOver s v
      h.format = 1 ∧ h.oldVersion = s.fw.version ∧ h.newVersion = v ∧ h.records = s.launches ∧ h.fabric = s.ports ∧
      h.parts.map (·.id) = s.parts.map (·.id) ∧ h.parts.map (·.pool) = s.parts.map (·.pool) ∧ h.parts.map (·.clusters) = s.parts.map (·.clusters) ∧
      h.parts.map (·.cutSeq) = s.parts.map (·.cutSeq) ∧ h.power.map (·.cap) = s.dies.map (·.cap) ∧ h.power.map (·.throttle) = s.dies.map (·.throttle) ∧
      (∀ k, k ∈ h.forwards ↔ ∃ q ∈ s.reqs, q.id = k ∧ findWarp s q.w = none) ∧
      ∀ k, k ∈ h.calls ↔ ∃ q ∈ s.reqs, q.id = k ∧ q.done = false ∧ ∃ fn as, q.kind = .fwcall fn as) ∧
    (∀ v, s.fw.phase = .loaded v → exec (.fwUpdateSwitch) s = .next { s with fw := { s.fw with half := 1 - s.fw.half, phase := .switched v } }) ∧
    (∀ v, s.fw.phase = .switched v →
      exec (.fwUpdateCommit) s = .next { s with fw := { s.fw with version := v, stored := max s.fw.stored v, phase := .idle } } ∧
      exec (.fwUpdateRollback) s = .next { s with fw := { s.fw with half := 1 - s.fw.half, phase := .idle } }) ∧
    (∀ slot, keyState s slot = .zeroising → ∃ t, exec (.zeroisationComplete slot) s = .next t ∧ keyState t slot = .empty ∧ t.mem = s.mem ∧
      ∀ q ∈ t.reqs, q.kind = .kslot slot → q.done = true) ∧
    (∀ part j rest, jobsOf s part = j :: rest → (∀ k ∈ s.scrub, k.id = j.id → k = j) →
      let us := j.units.drop j.done
      (j.kind = 1 → ∀ u ∈ us, unitWaits s 1 u = false) → j.kind ≤ 1 →
      ∃ t, exec (.scrubJobComplete part) s = .next t ∧ (∀ k ∈ t.scrub, k.id ≠ j.id) ∧
        (j.kind = 1 → ∀ a, readByte t.mem a = if a / 4096 ∈ us then emptyByte else readByte s.mem a) ∧
        (j.kind = 0 → t.mem = s.mem ∧ t.l1 = s.l1.filter (fun ln => !us.contains ln.core) ∧ t.bricks = s.bricks.filter (fun b => !us.contains b.core)))

/-! ## Waits, dens and the register pool -/

/-- Waits that time or an agent ends (R218, R285, R287, R302, R313, R314, R337, R403), the den's events (R292 to R295), and the swapping of
registers (R84 to R86): which threads go on, and that nothing else changes. A den thread that has rejoined or been recalled is on the lanes. -/
def Obligations.WaitsEnd : Prop :=
  ∀ (s : State) (n : WName) (pc tid : Nat),
    let on (past : Bool) (t : Thread) : Thread := { t with st := .ready, cnt := 0, rk := 0, pc := if past then t.pc + 8 else t.pc }
    OnThreads s (exec (.sleepExpiry n pc) s) n (fun t => if t.st = .sleep ∧ t.pc = pc ∧ t.cnt ≤ 1 then on false t else t) ∧
    OnThreads s (exec (.yieldTimeout n pc) s) n (fun t => if t.st = .yield ∧ t.pc = pc ∧ t.cnt ≤ 1 then on false t else t) ∧
    OnThreads s (exec (.haltTimeout n pc) s) n (fun t => if t.st = .halt ∧ t.held = 0 ∧ t.pc = pc ∧ t.cnt = 1 then on true t else t) ∧
    (∀ l, findLaunch s n.launch = some l → OnThreads s (exec (.parkedGroupRelease n pc) s) n (fun t =>
      match t.st with
      | .parked k => if t.pc = pc ∧ k.token = 0 ∧ pageMoving s l k.page = false then { t with st := if t.den.isSome then .ejected else .ready } else t
      | _ => t)) ∧
    (findLaunch s n.launch = none → exec (.parkedGroupRelease n pc) s = .next s) ∧
    OnWarp s (exec (.joinPassLimit n) s) n (fun v =>
      { v with threads := v.threads.map (fun t => if t.st = .join ∧ t.held = 0 ∧ agetD v.joinPasses t.pc 0 ≥ 1024 then on true t else t) }) ∧
    OnWarp s (exec (.groupPromotion n pc) s) n (fun v =>
      if agetD v.groupWait pc 0 ≥ 32 ∧ pc ∉ v.promoted then { v with promoted := v.promoted ++ [pc] } else v) ∧
    OnWarp s (exec (.warpAging n) s) n (fun v => if v.ableFor ≥ 32 then { v with aged := true, young := false } else v) ∧
    OnWarp s (exec (.reloadComplete n) s) n (fun v => if v.swap = .readmitting then { v with swap := .resident } else v) ∧
    (∀ v y d, findWarp s n = some v → v.thread tid = some y → y.den = some d →
      (d.recalled = true ∨ v.halt ≠ none → exec (.denHandover n tid) s = .next s) ∧
      (d.recalled = false → v.halt = none → OnThreads s (exec (.denHandover n tid) s) n (fun t =>
        if t.tid = tid then { t with den := t.den.map (fun k => { k with running := true }) } else t)) ∧
      (d.cycles ≥ v.ejto.toNat → OnThreads s (exec (.denTimeoutRecall n tid) s) n (fun t =>
        if t.tid = tid then { t with den := t.den.map (fun k => { k with recalled := true }) } else t)) ∧
      (d.cycles < v.ejto.toNat → exec (.denTimeoutRecall n tid) s = .next s) ∧
      (let back (o : Host.Outcome State Fault Refusal) : Prop := ∃ t u, o = .next t ∧ findWarp t n = some u ∧ u.frames = v.frames ∧ u.kept = v.kept ∧
          u.threads = v.threads.map (fun x => if x.tid = tid ∧ x.den.isSome = true then
            { x with den := none, held := if v.depth = 0 then 0 else 1, st := match x.st with | .parked k => .parked k | _ => .ready } else x)
       let home : Prop := d.running = true ∧ y.st = .ejected ∧ y.pc = d.joinPt ∧ ∀ r ∈ s.reqs, r.w = n → r.den ≠ some tid
       (d.recalled = true → back (exec (.recallComplete n tid) s)) ∧ (d.recalled = false → exec (.recallComplete n tid) s = .next s) ∧
       (home → back (exec (.denRejoin n tid) s)) ∧ (¬ home → exec (.denRejoin n tid) s = .next s))) ∧
    (denThread s n tid = none → ∀ i ∈ [Instr.denHandover n tid, .denTimeoutRecall n tid, .recallComplete n tid, .denRejoin n tid], exec i s = .next s) ∧
    (∀ v b, findWarp s n = some v → findBlock s n.launch n.blk n.shadow = some b → lateThreads v pc = [] → exec (.queueWaitTimeout n pc) s = .next s) ∧
    (∀ v b y rest, findWarp s n = some v → findBlock s n.launch n.blk n.shadow = some b → lateThreads v pc = y :: rest →
      fqRoom s (partOf n.launch) = true →
      ∃ t, deliver s n (groupWordsOf s v pc) pc y.rk (lateRaise v b (groupWordsOf s v pc) pc y) none = some t ∧ exec (.queueWaitTimeout n pc) s = .next t) ∧
    (∀ (v : Warp) (b : Block) (ws : List Code) (y : Thread) (push : Bool) (k : Nat), y.st = .burrow push k →
      (lateRaise v b ws pc y).cause = 0x51 ∧ (lateRaise v b ws pc y).faddr = onlyMark (b.burrow k) push) ∧
    (∀ v, findWarp s n = some v →
      (v.swap = .swappingOut → (∀ e ∈ v.mq, e.op ≠ 3 ∧ e.op ≠ 6) → ∃ t, exec (.swapOutComplete n) s = .next t ∧
        findWarp t n = some { v with swap := .swapped } ∧ n ∈ (findQuad t v.core v.quad).swapOrder ∧ t.mem = s.mem) ∧
      (v.swap ≠ .swappingOut ∨ (∃ e ∈ v.mq, e.op = 3 ∨ e.op = 6) → exec (.swapOutComplete n) s = .next s)) ∧
    (∀ core quad v rest, (findQuad s core quad).swapOrder = n :: rest → findWarp s n = some v →
      let room := [0, 1].all (fun odd => decide (bankUsed s core quad odd + heldInBank s v odd ≤ 256))
      (room = true → ∃ t, exec (.registerReadmit core quad) s = .next t ∧ findWarp t n = some { v with swap := .readmitting } ∧
        (findQuad t core quad).swapOrder = rest ∧ t.mem = s.mem) ∧
      (room = false → exec (.registerReadmit core quad) s = .next s)) ∧
    (∀ core quad v, swapVictim s core quad = some v → findWarp s v.name = some v → gangRuns s v.name = true → (findQuad s core quad).poolIdle ≥ 128 →
      (∃ w ∈ s.warps, w.core = core ∧ w.quad = quad ∧ poolStalled w = true) →
      ∃ t u, exec (.registerSwap core quad) s = .next t ∧ findWarp t v.name = some u ∧ u.swap = .swappingOut ∧ u.swaps = v.swaps + 1 ∧
        (∀ d r τ, (u.frameAt d).getV τ r = (v.frameAt d).getV τ r) ∧ ejectedTids u = []) ∧
    (∀ core quad, (swapVictim s core quad = none ∨ (findQuad s core quad).poolIdle < 128 ∨
        ∀ w ∈ s.warps, w.core = core → w.quad = quad → poolStalled w = false) → exec (.registerSwap core quad) s = .next s)

/-! ## Contexts and checkpoints -/

/-- Stopping, saving, restoring and moving a gang (R325, R348, R356, R412 to R424, R431, R434, R435, R482). A stopped gang stands at its restart points; a
saved one is in an image and on no core; a restored one has its frames again. CTXSV writes an image and gives its size, CTXLD places the gang that an
image names. -/
def Obligations.ContextInstructions : Prop :=
  ∀ (s : State) (lk blk : Nat) (l : Launch) (g : Gang), launchGang s lk blk = some (l, g) → g.launch = lk →
    (∀ t, g.st = .running → cutDue s lk = false → saveToArea s l g 0 = some t →
      ∃ u, exec (.preemption lk blk) s = .next u ∧
        (∀ w ∈ u.warps, inGang l g w.name = true → w.hazards = [] ∧ ∀ y ∈ w.threads, y.den = none ∧ stopState y.st = y.st) ∧
        ∀ x ∈ u.gangs, x.launch = lk → x.rank0 = g.rank0 → x.st = .stopping 0) ∧
    (∀ t, g.st = .stopping 1 → cutDue s lk = true → saveToArea s l g 0 = some t →
      ∃ u, exec (.preemption lk blk) s = .next u ∧ u = { s with gangs := u.gangs } ∧
        ∀ x ∈ u.gangs, x.launch = lk → x.rank0 = g.rank0 → x.st ≠ .stopping 1) ∧
    (∀ t, g.st = .stopping 0 → cutDue s lk = false → saveToArea s l g 0 = some t →
      exec (.contextImageWritten lk blk) s = .next t ∧ SavedGang s t l g 0) ∧
    (∀ t, g.st = .running → cutDue s lk = false → cannotStart s l = true → allWait s l g (fun w y => atWideBarrier s w.name y) = true →
      saveToArea s l g 1 = some t → exec (.dispatcherBarrierSave lk blk) s = .next t ∧ SavedGang s t l g 1) ∧
    (∀ t, g.st = .running → cutDue s lk = false → (∃ m ∈ s.launches, joined l m = true ∧ cannotStart s m = true) →
      allWait s l g (fun _ y => atEdge y) = true → saveToArea s l g 2 = some t →
      exec (.dispatcherEdgeSave lk blk) s = .next t ∧ SavedGang s t l g 2) ∧
    (∀ im, gangImage s g = some im → movable s g im = true →
      (∀ cluster t, (findPart s l.part).clusters.contains cluster = true → spaceHeld s l cluster = false → edgeHeld s l im cluster = false →
          imageRefused s l im = none → restoreImage s l im cluster = some t →
        exec (.gangRestore lk blk cluster) s = .next t ∧
        (∀ b ∈ im.blocks, b.shadow = false → im.block0 ≤ b.blk → b.blk < im.block0 + l.pkt.gang →
          ∀ w ∈ im.warps, w.name.blk = b.blk → w.name.shadow = false →
            ∃ v ∈ t.warps, v.name = w.name ∧ v.frames.map Frame.seen = w.frames.map Frame.seen)) ∧
      (∀ cluster k, (findPart s l.part).clusters.contains cluster = true → spaceHeld s l cluster = false → edgeHeld s l im cluster = false →
          imageRefused s l im = some k →
        exec (.gangRestore lk blk cluster) s = .next (restoreRecord s l g im 0xA1)) ∧
      (∀ package, (∃ e ∈ (findPart s l.part).fabric, e.1 = package) →
        ∃ t, exec (.gangMigrate lk blk package) s = .next t ∧ t.images = s.images.filter (fun y => decide (y.id ≠ im.id)) ∧ t.warps = s.warps ∧
          t.mem = s.mem ∧ (∀ x ∈ t.gangs, x.launch = lk → x.rank0 = g.rank0 → x.st = .finished) ∧
          ∀ m, findLaunch s lk = some m → findLaunch t lk = some { m with remote := m.remote ++ [g.rank0] })) ∧
    (gangWarps s l g ≠ [] →
      let bs := s.blocks.filter (fun b => ofGang lk g.rank0 (max 1 l.pkt.gang) { launch := b.launch, blk := b.blk, shadow := b.shadow, w := 0 })
      ∃ t, exec (.ckcostUpdate lk blk) s = .next t ∧ t = { s with gangs := t.gangs } ∧
        ∀ x ∈ t.gangs, x.launch = lk → x.rank0 = g.rank0 → x.ckBytes = imageSize l bs (gangWarps s l g)) ∧
    (∀ (f : FWord) (x : LExt) (c : Ctx) (tids : List Nat),
      (startsF (ctxUse f x true) f (some x) s = some (c, tids) →
        let g1 := c.l.segAt x.seg
        let off := ctxOff s c (atRep s c f) x tids
        let pair := readGroup s c c.w (tids.take 1) (tids.headD 0) (atRep s c f).a.toNat 2
        let u := ctxUse f x true
        let gives (y : Word) : Prop := ∃ t, exec (.ctxsv f x) s = .next t ∧ Shows s t c (told u f s y c tids).cur (told u f s y c tids) (goOn s c tids) s
        (g1.kind = 0 ∨ g1.kind = 6) → g1.wr = true → off % 4096 = 0 →
        (launchGang s (lkOf (partOf c.l.lk) (pair.getD 0 0).toNat) (pair.getD 1 0).toNat = none → gives 0x10000000) ∧
        (launchGang s (lkOf (partOf c.l.lk) (pair.getD 0 0).toNat) (pair.getD 1 0).toNat = some (l, g) → g.st = .running →
          cutDue s (lkOf (partOf c.l.lk) (pair.getD 0 0).toNat) = false → ∀ s1 s2 im accs,
          stopGang (finish (modRuns s l.lk g.rank0 (fun y => { y with st := .running })) c tids (schedF f) (told u f s 0 c tids)) l g = some s1 → saveGang s1 l g 4 = (s2, im) →
          let m : MemOp := { seg := x.seg, unit := 1, size := im.size, align := 4096, use := .store, kind := .store }
          segCause c g1 m off = none → reachImage s c m tids off (imageBytes s2 l im (repliesDue s1 (inGang l g))) = .go accs →
          exec (.ctxsv f x) s = .next (modWarpAny (placeImage (accs.foldl (fun acc a => writeAcc acc c.l c.w.core a) (touchedBy s2 c true accs)) im.id (g1.base + off.toNat)) c.w.name
            (putDest c.w.depth (atRep s c f).d.toNat tids (BitVec.ofNat 32 (im.size / 4096)))))) ∧
      (startsF (ctxUse f x false) f (some x) s = some (c, tids) → ∀ accs bs m im t cluster, imageRead f x s c tids = some (accs, bs) →
        imageReason s (partOf c.l.lk) bs = none → ctxldImage s (partOf c.l.lk) (ctxRead s c accs) = some (m, im) → cutDue s m.lk = false →
        imageRefused (touchedBy s c false accs) m im = none →
        (readCode s c c.w (tids.take 1) (tids.headD 0) (atRep s c f).a.toNat).toNat = cluster → cluster < 240 →
        (findPart s m.part).clusters.filter (· == cluster) = [cluster] →
        restoreImage (finish (touchedBy s c false accs) c tids (schedF f) (told (ctxUse f x false) f s (BitVec.ofNat 32 cluster) c tids)) m im cluster = some t →
        exec (.ctxld f x) s = .next t))

/-- Checkpoints and twins (R426 to R430, R433, R465): CKPT tells the number of the cut that it begins, or why none is taken; a cut keeps memory and
gangs as they stand and its group goes on; a granule copied is CLEAN, a cut with none left to copy commits; a rollback gives a page the bytes
that the cut holds. A warp and its twin that match at a compare point perform the stores that wait. -/
def Obligations.Checkpoints : Prop :=
  ∀ (f : FWord) (x : LExt) (s : State),
    Leaves (startsF ckptUse f none s) s (exec (.ckptQ f) s) (fun _ _ => True)
      (fun c tids => told ckptUse f s (BitVec.ofNat 32 (4 * 2 ^ 28 + lastCommitted s c.l.lk)) c tids) (fun _ _ => s) ∧
    (∀ c tids, startsF ckptUse f none s = some (c, tids) →
      let lks := cutGroup s c.l.lk
      let seq := nextCutSeq s c.l.part
      let shadow := c.l.twin && c.w.name.shadow
      let gives (y : Word) (t : State) : Prop := exec (.ckpt f) s = .next t ∧ t.mem = s.mem ∧
        ∃ w v, findWarp s c.w.name = some w ∧ findWarp t c.w.name = some v ∧ v.frames = (told ckptUse f s y c tids).frames ∧
          places v = (places w).map (goOn s c tids)
      (mustCompare c = true → exec (.ckpt f) s = .next (compareWait s c)) ∧
      (mustCompare c = false → shadow = false →
        (∀ y, ckptRefusal s lks = some y → ∃ t, gives y t ∧ t.cuts = s.cuts ∧ t.gangs = s.gangs) ∧
        (ckptRefusal s lks = none → ∃ t, gives (BitVec.ofNat 32 seq) t ∧
          (∃ k, t.cuts = s.cuts ++ [k] ∧ k.seq = seq ∧ k.lks = lks ∧ k.due = true ∧ k.committed = false) ∧
          ∀ x ∈ t.gangs, lks.contains x.launch = true → x.st ≠ .running)) ∧
      (mustCompare c = false → shadow = true →
        (aget c.w.twinRes c.w.once = none → exec (.ckpt f) s = .next (stall s c 2)) ∧
        (∀ y, aget c.w.twinRes c.w.once = some [(0, [y])] → ∃ t, gives y t ∧ t.cuts = s.cuts ∧ t.gangs = s.gangs))) ∧
    (∀ lks, (ckptRefusal s lks = none ↔ (∀ k ∈ cutsOf s lks, k.due = false ∧ k.committed = true) ∧
        ∀ l ∈ s.launches, l.lk ∈ lks → l.flag 3 = true) ∧
      (∀ k ∈ cutsOf s lks, k.due = true ∨ k.committed = false →
        ∃ y ∈ cutsOf s lks, (y.due = true ∨ y.committed = false) ∧ ckptRefusal s lks = some (BitVec.ofNat 32 (2 ^ 28 + y.seq))) ∧
      ((∀ k ∈ cutsOf s lks, k.due = false ∧ k.committed = true) → (∃ l ∈ s.launches, l.lk ∈ lks ∧ l.flag 3 = false) →
        ckptRefusal s lks = some 0x20000000)) ∧
    (∀ lk l, s.cuts.find? (fun k => k.due && k.lks.contains lk) = none → findLaunch s lk = some l → l.isRunning = true →
      ckptRefusal s (cutGroup s lk) = none → exec (.checkpointCut lk) s = .next (beginCut s l.part (cutGroup s lk) none)) ∧
    (∀ lk k s1, s.cuts.find? (fun k => k.due && k.lks.contains lk) = some k → stopGroup s k.lks = (s1, true) →
      (∀ r ∈ s1.reqs, k.lks.contains r.w.launch = true → cutKeeps s1 r = true) → k ∈ s1.cuts →
      ∃ t, exec (.checkpointCut lk) s = .next t ∧ t.warps.map (fun w => (w.name, w.frames, w.threads)) = s1.warps.map (fun w => (w.name, w.frames, w.threads)) ∧
        (∀ x ∈ t.gangs, k.lks.contains x.launch = true → x.st ≠ .stopping 1 ∧ x.st ≠ .stopping 3) ∧
        ∃ k1 ∈ t.cuts, k1.seq = k.seq ∧ k1.due = false ∧ k1.launches = s1.launches.filter (fun l => k.lks.contains l.lk) ∧
          ∀ n ∈ k1.saved, { part := k.part, num := n, cow := true } ∈ t.granules) ∧
    (∀ lk k s1 all, s.cuts.find? (fun k => k.due && k.lks.contains lk) = some k → stopGroup s k.lks = (s1, all) →
      all = false ∨ (∃ r ∈ s1.reqs, k.lks.contains r.w.launch = true ∧ cutKeeps s1 r = false) → exec (.checkpointCut lk) s = .next s1) ∧
    (∀ lk l, s.cuts.find? (fun k => k.due && k.lks.contains lk) = none → findLaunch s lk = some l →
      l.isRunning = false ∨ (ckptRefusal s (cutGroup s lk)).isSome = true → exec (.checkpointCut lk) s = .next s) ∧
    (∀ part gran, ∃ t, exec (.cowCopy part gran) s = .next t ∧ t = { s with granules := t.granules } ∧
      ∀ y, y ∈ t.granules ↔ y ∈ s.granules ∧ ¬ (y.part = part ∧ y.num = gran ∧ y.cow = true)) ∧
    (∀ lk, ∃ t, exec (.cutCommit lk) s = .next t ∧ t = { s with cuts := t.cuts } ∧ t.cuts.length = s.cuts.length ∧
      ∀ (i : Nat) (k : Cut), s.cuts[i]? = some k → t.cuts[i]? = some (if k.due = false ∧ lk ∈ k.lks ∧
        (∀ y ∈ s.granules, y.part = k.part → y.cow = true → y.num ∉ k.saved) then { k with committed := true } else k)) ∧
    (let u : Use := { d := 1, a := 2, q := false, sup := true, lock := true, bad := !isS f.a.toNat }
     let at_ (c : Ctx) (tids : List Nat) (k : Nat) : Nat := ((readGroup s c c.w (tids.take 1) (tids.headD 0) (atRep s c f).a.toNat 2).getD k 0).toNat
     let found (c : Ctx) (tids : List Nat) : Option Cut :=
      (cutsOf s [lkOf (partOf c.l.lk) (at_ c tids 0)]).find? (fun k => decide (k.seq = at_ c tids 1))
     let gone (c : Ctx) (tids : List Nat) : Prop := match found c tids with
      | none => findLaunch s (lkOf (partOf c.l.lk) (at_ c tids 0)) = none
      | some k => ∃ n ∈ k.lks, findLaunch s n = none
     Leaves (startsF u f (some x) s) s (exec (.ctxldRoll f x) s) gone (told u f s 0x3A2003FF) (fun _ _ => s) ∧
     Leaves (startsF u f (some x) s) s (exec (.ctxldRoll f x) s)
      (fun c tids => ¬ gone c tids ∧ ∀ k, found c tids = some k → k.due = true ∨ k.committed = false) (told u f s 0x100000FF) (fun _ _ => s) ∧
     (∀ c tids k, startsF u f (some x) s = some (c, tids) → ¬ gone c tids → found c tids = some k → k.due = false → k.committed = true →
      anyMoving s k.part (writtenSince s k) = true → exec (.ctxldRoll f x) s = .next (stall s c 14)) ∧
     ∀ c tids k, startsF u f (some x) s = some (c, tids) →
      let pair := readGroup s c c.w (tids.take 1) (tids.headD 0) (atRep s c f).a.toNat 2
      (cutsOf s [lkOf (partOf c.l.lk) (pair.getD 0 0).toNat]).find? (fun k => decide (k.seq = (pair.getD 1 0).toNat)) = some k →
      (∀ n ∈ k.lks, (findLaunch s n).isSome = true) → k.due = false → k.committed = true → anyMoving s k.part (writtenSince s k) = false →
      ∃ t, exec (.ctxldRoll f x) s = .next t ∧ t = rollback (finish s c tids (schedF f) (told u f s 0xFF c tids)) k ∧
        ∀ w ∈ t.warps, k.lks.contains w.name.launch = false) ∧
    (∀ (k : Cut) (va src dst : Nat), memWf k.mem = true → memWf s.mem = true →
      (walkFrom k.mem va k.troot 5).bind (fun l => leafBytes l va) = some src →
      (walkFrom s.mem va (findPart s k.part).troot 5).bind (fun l => leafBytes l va) = some dst →
      ∀ a, readByte (restorePage s k va).mem a = if dst ≤ a ∧ a < dst + 4096 then readByte k.mem (a - dst + src) else readByte s.mem a) ∧
    (∀ n a b l, findWarp s { n with shadow := false } = some a → findWarp s { n with shadow := true } = some b → findLaunch s n.launch = some l →
      a.compare = 1 → b.compare = 1 → gangRuns s a.name = true →
      (a.sig = b.sig → comparePoint a = comparePoint b → checkedHeld s a = false →
        ∃ t v u, exec (.twinCompare n) s = .next t ∧ findWarp t a.name = some v ∧ findWarp t b.name = some u ∧ v.checked = [] ∧ u.checked = [] ∧
          v.sig = 0 ∧ u.sig = 0 ∧ v.compare = 2 ∧ u.compare = 2 ∧ v.frames = a.frames ∧ u.frames = b.frames) ∧
      (a.sig = b.sig → comparePoint a = comparePoint b → checkedHeld s a = true → exec (.twinCompare n) s = .next s) ∧
      (a.sig ≠ b.sig ∨ comparePoint a ≠ comparePoint b → exec (.twinCompare n) s =
        .next (killFor (countErr s l.part 8) a.name 0x82 0 (haltPc a) (maskOf ((comparePoint a).map (·.1)))))) ∧
    (∀ n, findWarp s { n with shadow := true } = none → exec (.twinCompare n) s = .next s)

/-! ## Debug -/

/-- Breakpoints, traces and single step (R439 to R448): BRK goes past itself and leaves its hit pending, with its gang to stop; a code breakpoint leaves
its hit pending before anything of the group is performed; a gang that has hit is saved; TRACE writes its records where it is enabled; a warp in
single step halts after one group, or after 1,024 cycles without one. -/
def Obligations.DebugInstructions : Prop :=
  ∀ (f : FWord) (s : State),
    (∀ c tids, startsF {} f none s = some (c, tids) → (∀ y ∈ c.w.threads, y.tid ∈ tids → y.den = none) →
      ∃ t w v, exec (.brk f) s = .next t ∧ findWarp s c.w.name = some w ∧ findWarp t c.w.name = some v ∧
        v.pend = { cause := 0x70, tids := tids, faddr := c.pc, unit := f.b.toNat, pc := c.pc } :: w.pend ∧ v.frames = w.frames ∧
        places v = (places w).map (goOn s c tids) ∧ t.mem = s.mem ∧
        ∀ x ∈ t.gangs, x.launch = c.g.launch → x.rank0 = c.g.rank0 → x.shadow = c.g.shadow → x.st ≠ .running) ∧
    Leaves (startsF { a := 1 } f none s) s (exec (.trace f) s)
      (fun c _ => (findPart s (partOf c.l.lk)).trace.en = false ∨ bitOf (findPart s (partOf c.l.lk)).trace.types 0 = false) (fun c _ => c.w) (fun _ _ => s) ∧
    (let val (c : Ctx) (tids : List Nat) (t : Nat) : Nat := ((readGroup s c c.w tids t (atRep s c f).a.toNat 1).headD 0).toNat
     let ts (tids : List Nat) : List Nat := if f.v then tids else tids.take 1
     Leaves (startsF { a := 1 } f none s) s (exec (.trace f) s)
      (fun c _ => (findPart s (partOf c.l.lk)).trace.en = true ∧ bitOf (findPart s (partOf c.l.lk)).trace.types 0 = true ∧
        isQ (atRep s c f).a.toNat = false)
      (fun c tids => applyMarks c.w { a := 1 } (atRep s c f) none none 0 tids)
      (fun c tids => (ts tids).foldl (fun acc t =>
        traceRec acc (partOf c.l.lk) 0 f.d.toNat c.w.depth c.w.core c.l.lk c.b.blk c.pc (val c tids t) (c.w.name.w * 128 + t)) s)) ∧
    (∀ n pc v b c, findWarp s n = some v → brkAt s n pc = some b →
      let s1 : State := { s with iss := { w := some n, pc := pc, words := groupWordsOf s v pc } }
      ctxOf s1 = some c → brkTids s1 c ≠ [] → gangRuns s n = true → v.halt = none →
      ∃ t u, exec (.codeBreakpointHit n pc) s = .next t ∧ findWarp t n = some u ∧ u.frames = v.frames ∧ t.mem = s.mem ∧
        u.pend = { cause := 0x70, tids := brkTids s1 c, faddr := pc, unit := 256 + b, pc := pc } :: v.pend) ∧
    (∀ lk blk l g t, launchGang s lk blk = some (l, g) → g.st = .stopping 2 → g ∈ s.gangs → cutDue s lk = false →
      (findPart s l.part).backlog.length + (hitsOf (gangWarps s l g)).length ≤ 4096 → saveToArea s l g 3 = some t →
      ∃ u, exec (.swapOutModeRecord lk blk) s = .next u ∧ SavedGang s u l g 3) ∧
    (∀ n v, findWarp s n = some v → v.halt = none → fqRoom s (partOf n.launch) = true →
      let halts (o : Host.Outcome State Fault Refusal) : Prop := ∃ t u, o = .next t ∧ findWarp t n = some u ∧
        u.halt = some { token := (findPart s (partOf n.launch)).nextToken, code := 0x73 } ∧ u.frames = v.frames ∧ ejectedTids u = []
      (v.stepArm.isSome = true → v.stepped = true → halts (exec (.singleStepHalt n) s)) ∧
      (v.stepped = false → exec (.singleStepHalt n) s = .next s) ∧
      (∀ k, v.stepArm = some k → v.stepped = false → k ≥ 1024 → halts (exec (.singleStepTimeout n) s)) ∧
      (∀ k, v.stepArm = some k → k < 1024 → exec (.singleStepTimeout n) s = .next s)) ∧
    (∀ part (v : BitVec 32), hasPart s part = true → OnPart s (exec (.traceEnable part v) s) part (fun p =>
      { p with trace := { p.trace with
          types := (v.extractLsb' 8 6).toNat, tsz := max 7 (v.extractLsb' 4 4).toNat, en := v.getLsbD 0, terr := p.trace.terr && !v.getLsbD 0
          ttail := if v.getLsbD 0 then 0 else p.trace.ttail, thead := if v.getLsbD 0 then 0 else p.trace.thead
          tdrop := if v.getLsbD 0 then 0 else p.trace.tdrop } }))

/-! ## Agents -/

/-- The engines' steps (R155, R156, R167, R172, R199, R249, R262, R270, R324, R418, R468): a matrix entry does its work on its tile and leaves its queue with its
flag lowered; a beat brings the source's words to their destination, and stops on a record where one cannot be reached (R263); a request that reaches another die
twice is performed once, by a way that is clear (R11, R15). -/
def Obligations.EngineSteps : Prop :=
  ∀ (s : State),
    (∀ core quad ups w e b, engineHead s core quad = some (w, e) → findWarp s w.name = some w → findBlock s w.name.launch w.name.blk w.name.shadow = some b →
      e.tile < w.tiles.length →
      let ends (o : Host.Outcome State Fault Refusal) (v : Warp) : Prop := ∃ t, o = .next t ∧ findWarp t w.name = some (entryDone v e) ∧ t.mem = s.mem
      let tile (v : Warp) (y : List Word) : Warp := { v with tiles := v.tiles.set e.tile { (w.tiles.getD e.tile zeroTile) with elems := y, accf := 15, written := true } }
      (e.op = 1 → ends (exec (.matrixStep core quad ups) s) (tile w (List.replicate 256 0))) ∧
      (∀ y, e.op = 2 → e.a = .regs y → ends (exec (.matrixStep core quad ups) s) (tile w y)) ∧
      (e.op = 3 → ends (exec (.matrixStep core quad ups) s) (setRegs w e.depth (mrdVals e.dreg (w.tiles.getD e.tile zeroTile).elems))) ∧
      (e.op = 4 → e.m = 1 → e.n = 1 → e.ks = 1 → e.step < 4 → scratchQuiet s w e.id = true →
        slabPoison b e.a (mfmtBits (fwAF e.fmtw)) (fwAT e.fmtw) 0 0 e.step = false →
        slabPoison b e.b (mfmtBits (fwBF e.fmtw)) (fwBT e.fmtw) 0 0 e.step = false →
        let old := w.tiles.getD e.tile zeroTile
        let y := stepTile e.fmtw e.sa e.sb (if e.z && e.step = 0 then List.replicate 256 0 else old.elems)
          (slabElems b e.a (mfmtBits (fwAF e.fmtw)) (fwAT e.fmtw) 0 0 e.step) (slabElems b e.b (mfmtBits (fwBF e.fmtw)) (fwBT e.fmtw) 0 0 e.step)
        let v1 : Warp := { w with tiles := w.tiles.set e.tile { elems := y, accf := fwACC e.fmtw, reruns := old.reruns, emu := false, written := true } }
        ∃ t, exec (.matrixStep core quad 0) s = .next t ∧ t.mem = s.mem ∧
          findWarp t w.name = some (if e.step = 3 then entryDone v1 e else entryAt v1 { e with step := e.step + 1 })) ∧
      (e.op = 6 → scratchQuiet s w e.id = true →
        let row := (List.range 16).map (fun j => (w.tiles.getD e.tile zeroTile).elems.getD (16 * e.step + j) 0)
        let r := e.prog.foldl (epWord e row e.step) { eregs := e.eregs, blk := b }
        r.poison = false →
        ∃ t v, exec (.epilogueRow core quad) s = .next t ∧ findWarp t w.name = some v ∧ t.mem = s.mem ∧
          (e.step < 15 → v = entryAt (setRegs w e.depth r.regs) { e with step := e.step + 1, eregs := r.eregs }) ∧
          (e.step = 15 → v.mq = w.mq.tail ∧ ((v.tiles.getD e.tile zeroTile).elems =
            if e.z then List.replicate 256 0 else (w.tiles.getD e.tile zeroTile).elems)))) ∧
    (∀ id e l b, s.copies.find? (fun y => decide (y.id = id)) = some e → copyHead s e = true →
      findLaunch s e.w.launch = some l → findBlock s e.w.launch e.w.blk e.w.shadow = some b →
      let ends := beatEnds s l (e.w.blk / max 1 l.pkt.gang * max 1 l.pkt.gang) e
      let n := 4 * ends.length
      let beats (o : Host.Outcome State Fault Refusal) : Prop :=
        ∃ t, o = .next t ∧ (e.done + n ≥ e.rb * e.rows → ∀ y ∈ t.copies, y.id ≠ id) ∧
        (e.done + n < e.rb * e.rows → ∃ y, t.copies.find? (fun y => decide (y.id = id)) = some y ∧ y.done = e.done + n) ∧
        (e.ch < 16 → ∃ b1, findBlock t e.w.launch e.w.blk e.w.shadow = some b1 ∧ b1.wptr = aput 0 b.wptr e.ch (BitVec.ofNat 32 (b.ptr e.ch + n))) ∧
        (l.twin = false → (∀ w ∈ ends, ∃ a va tr a2 va2 tr2, w.2 = (.ok .phys a va tr, .ok .phys a2 va2 tr2)) →
          (ends.Pairwise fun w y => ∀ a va tr a2 va2 tr2, w.2.2 = .ok .phys a va tr → y.2.2 = .ok .phys a2 va2 tr2 → a + 4 ≤ a2 ∨ a2 + 4 ≤ a) →
          ∀ w ∈ ends, ∀ a va tr a2 va2 tr2, w.2 = (.ok .phys a va tr, .ok .phys a2 va2 tr2) → readBytes t.mem a2 4 = readBytes s.mem a 4)
      (∀ w ∈ ends, ∃ sp a va tr sp2 a2 va2 tr2, w.2 = (.ok sp a va tr, .ok sp2 a2 va2 tr2)) → beatClear s e (beatFar e ends) = true →
      (e.ch < 16 → gangRuns s e.w = true → beats (exec (.copyBeat id) s)) ∧ (e.ch ≥ 16 → beats (exec (.packageCopyBeat id) s))) ∧
    (∀ id e l k va, s.copies.find? (fun y => decide (y.id = id)) = some e → copyHead s e = true → findLaunch s e.w.launch = some l →
      (beatEnds s l (e.w.blk / max 1 l.pkt.gang * max 1 l.pkt.gang) e).findSome? (fun w => match w.2.1, w.2.2 with
        | .stop k va, _ => some (k, va) | _, .stop k va => some (k, va) | _, _ => none) = some (k, va) →
      (e.ch < 16 → gangRuns s e.w = true → exec (.copyBeat id) s = .next (copyStop s e k va)) ∧
      (e.ch ≥ 16 → exec (.packageCopyBeat id) s = .next (copyStop s e k va))) ∧
    (∀ id r, findReq s id = some r →
      (∀ level idx ph, r.kind = .arrive level idx ph →
        ∀ l, findLaunch s r.w.launch = some l →
          let home := barDie l level idx
          let clear : Prop := ∀ d ∈ routeOf s (r.src / 96) home, r.src / 96 ≠ home → (findDie s d).relock = none
          (clear → exec (.groupBarrierArrival id) s =
            .next (arriveBar { s with reqs := s.reqs.filter (fun q => decide (q.id ≠ id)) } r.w level idx 0 (r.rels.map (fun e => (e.1, e.2.clk))))) ∧
          (¬ clear → exec (.groupBarrierArrival id) s = .next s)) ∧
      (∀ q, r.seq = some q → r.done = false → r.accesses = true → (mayArrive s r = false → ∀ good, exec (.remoteRequestArrival id good) s = .next s) ∧
        (mayArrive s r = true →
        (∃ t, exec (.remoteRequestArrival id false) s = .next t ∧ t = { s with reqs := t.reqs } ∧ ∃ r1, findReq t id = some r1 ∧ r1 = { r with lost := true }) ∧
        (∀ k, retainedFor s r = some k → ∃ t, exec (.remoteRequestArrival id true) s = .next t ∧ t.mem = s.mem ∧ t.blocks = s.blocks ∧ t.warps = s.warps ∧
          ∃ r1, findReq t id = some r1 ∧ r1.done = true ∧ r1.result = k.result) ∧
        (retainedFor s r = none → consumes s r = false → ∀ s1 res, arriveOnce s r = some (s1, res) →
          ∃ t, exec (.remoteRequestArrival id true) s = .next t ∧ t.mem = s1.mem ∧ t.warps = s1.warps ∧
            retainedFor t r = some { src := r.src, slice := reqSlice r, seq := q, result := res }))) ∧
      (∀ q, r.seq = some q →
        (r.done = false → r.lost = false → routeUp s r.route = true → mayPerform s r = false → ∃ t, exec (.replayTimeout id) s = .next t ∧ t.mem = s.mem ∧ ∃ r1, findReq t id = some r1 ∧ r1.replays = 0) ∧
        (r.done = true ∨ r.lost = true ∨ routeUp s r.route = false ∨ mayPerform s r = true → r.replays < 8 → ∃ t, exec (.replayTimeout id) s = .next t ∧ t.mem = s.mem ∧
          ∃ r1, findReq t id = some r1 ∧ r1.replays = r.replays + 1 ∧ r1.done = false ∧ r1.lost = false) ∧
        (∀ w, r.done = true ∨ r.lost = true ∨ routeUp s r.route = false ∨ mayPerform s r = true → r.replays ≥ 8 → findWarp s r.w = some w → w.halt = none → fqRoom s (partOf r.w.launch) = true →
          ∃ t v, exec (.replayTimeout id) s = .next t ∧ findWarp t r.w = some v ∧
            v.halt = some { token := (findPart s (partOf r.w.launch)).nextToken, code := 0x83 } ∧ v.frames = w.frames)) ∧
      (r.done = true → (∃ w, findWarp s r.w = some w) →
        (r.kind = .store → ∃ t, exec (.replyForward id) s = .next t ∧ Answered s t r (fun w => w)) ∧
        ((∃ sg, r.kind = .load sg) ∨ (∃ op ty sp, r.kind = .atom op ty sp) ∨ (∃ k, r.kind = .edgeTake k) ∨ r.kind = .tstat →
          ∃ t, exec (.replyForward id) s = .next t ∧ Answered s t r (writeReply r (spread r r.result)))))

/-- The kill of a gang (R459 to R462) takes its warps and blocks from the cores and starts it again, or ends its launch as failed; records that wait are
written as the ring has room (R399), and what was held on an error is tried again when software asks for it (R400). -/
def Obligations.KillsAndRecords : Prop :=
  ∀ (s : State),
    (∀ lk blk cause wi addr l g, launchGang s lk blk = some (l, g) → g.st ≠ .killed → g.st ≠ .finished →
      (∀ b, ofGang l.lk g.rank0 (max 1 l.pkt.gang) { launch := lk, blk := b, shadow := false, w := 0 } = true → findGang s lk b false = some g) →
      let mine (n : WName) : Bool := ofGang l.lk g.rank0 (max 1 l.pkt.gang) n
      let again : Prop := (l.relaunchable = true ∨ l.twin = true) ∧ g.relaunches < 3
      let pending : Prop := ∃ v ∈ gangWarps s l g, ∃ r ∈ v.pend, r.kills = true
      let met : Prop := killing cause = true ∧ (findWarp s { launch := lk, blk := blk, shadow := false, w := wi }).isSome = true
      (pending ∨ met →
        ∃ t, exec (.gangKill lk blk { cause := cause, w := wi, addr := addr }) s = .next t ∧ (∀ v ∈ t.warps, mine v.name = false) ∧
          (∀ b ∈ t.blocks, mine { launch := b.launch, blk := b.blk, shadow := b.shadow, w := 0 } = false) ∧
          (again → (∀ y ∈ t.gangs, y.launch = l.lk → y.rank0 = g.rank0 → y.st = .killed) ∧
            ∃ m, findLaunch t lk = some m ∧ m.relaunch = l.relaunch ∧ m.failed = l.failed) ∧
          (¬ again → (∀ y ∈ t.gangs, y.launch = l.lk → y.st = .finished) ∧ ∃ m, findLaunch t lk = some m ∧ m.complDue = true ∧
            (¬ pending → m.failed = some (512 + cause, min blk 0xFFFF)))) ∧
      (¬ pending → ¬ met → exec (.gangKill lk blk { cause := cause, w := wi, addr := addr }) s = .next s)) ∧
    (∀ l cluster t r, findLaunch s l.lk = some l → nextGangOf s l = some r → startGang s l cluster = some t →
      ∃ m, findLaunch t l.lk = some m ∧ m.relaunch = if r < l.nextGang * l.pkt.gang then l.relaunch + 1 else l.relaunch) ∧
    (∀ part, hasPart s part = true →
      let q := findPart s part
      OnPart s (exec (.trerrClear part) s) part (fun q => { q with trerr := false }) ∧
      let full : Prop := (q.fqtail - q.fqhead).toNat ≥ 2 ^ q.fqsize
      let tries : Prop := q.fqerr = false ∨ q.fqretry = true
      let va := q.fqbase + 64 * (q.fqtail.toNat % 2 ^ q.fqsize)
      exec (.fqerrRetry part) s = exec (.faultBacklogDrain part) (modPart s part (fun q => { q with fqretry := true })) ∧
      (q.backlog = [] → q.fqretry = false → exec (.faultBacklogDrain part) s = .next s) ∧
      (q.backlog = [] → q.fqretry = true → OnPart s (exec (.faultBacklogDrain part) s) part (fun q => { q with fqerr := false, fqretry := false })) ∧
      (q.backlog ≠ [] → ¬ tries ∨ full → exec (.faultBacklogDrain part) s = .next s) ∧
      (∀ r pa, q.backlog = [r] → tries → ¬ full → xlate s part va .record none = .ok pa →
        ∃ t, exec (.faultBacklogDrain part) s = .next t ∧ readBytes t.mem pa 64 = r.bytes ∧ (findPart t part).backlog = [] ∧
          (findPart t part).fqtail = q.fqtail + 1 ∧ (findPart t part).fqhead = q.fqhead ∧ (findPart t part).fqerr = false ∧ t.warps = s.warps) ∧
      (∀ r rest page k, q.backlog = r :: rest → tries → ¬ full → xlate s part va .record none = .park page (some k) →
        ∃ t, exec (.faultBacklogDrain part) s = .next t ∧ t.mem = s.mem ∧ t.warps = s.warps ∧ (findPart t part).backlog = q.backlog ∧
          (findPart t part).fqerr = true ∧ (findPart t part).fqretry = false ∧ (findPart t part).weaddr = va) ∧
      (q.heldCompl = [] → OnPart s (exec (.crerrRetry part) s) part (fun q => { q with heldCompl := [], crerr := false, crretry := false })) ∧
      (∀ r s1, let s0 := modPart s part (fun q => { q with crretry := true })
        q.heldCompl = [r] → (r.launch.started && edgesMoving s0 r.launch) = false → writeRun s0 part r.addr r.bytes = .done s1 →
        exec (.crerrRetry part) s = .next (modPart (if r.launch.started then edgeFinish s1 r.launch else s1) part
          (fun q => { q with heldCompl := [], crerr := false, crretry := false }))))

/-! ## The platform -/

/-- Clocks, power and time (R15, R17, R28, R450 to R454, R497, R498): a step of a die's clock relocks for 200 ticks and waits for one under way or for
throttling; a window over its cap or at 105 °C lowers the clock or throttles; a die that trips loses its gangs; the loss of the reference resets the
package and keeps its memory; a cycle and a tick advance what counts them. A die's share of the limit, the setting from which a step-down counts, and
what a request does to a step that waits are the model's choice (log 75). -/
def Obligations.ClocksAndPower : Prop :=
  ∀ (s : State),
    let onDie (k : Nat) (o : Host.Outcome State Fault Refusal) (g : Die → Die) : Prop :=
      o = .next { s with dies := s.dies.map (fun d => if d.id = k then g d else d) }
    let relocks (d : Die) (m : Nat) : Die := { d with relock := some 200, mult := m, heldStep := none }
    let steps (d : Die) (m : Nat) : Die :=
      if d.relock.isSome then { d with heldStep := some m } else if d.mult = m then { d with heldStep := none } else relocks d m
    let share : Nat := (s.cfgRec.plimit - (if s.cfgRec.order = 0 then 480 else 560)) / 4
    (∀ k m cap, fwRuns s = true → 8 ≤ m → m ≤ 19 → onDie k (exec (.clockStepRequest k { mult := m, cap := cap }) s) (fun d =>
      let d1 : Die := { d with cap := cap.getD d.cap }
      if 0 < d.throttle ∧ d.mult < m then { d1 with heldStep := some m } else steps d1 m)) ∧
    (∀ k m cap, fwRuns s = false ∨ m < 8 ∨ 19 < m → exec (.clockStepRequest k { mult := m, cap := cap }) s = .next s) ∧
    (∀ k, onDie k (exec (.pllRelockComplete k) s) (fun d =>
      match d.relock, d.heldStep with
      | none, _ => d
      | some _, none => { d with relock := none }
      | some _, some m => if m = d.mult ∨ (0 < d.throttle ∧ d.mult < m) then { d with relock := none } else relocks d m)) ∧
    (∀ k watts degC, onDie k (exec (.powerWindow k watts degC) s) (fun d =>
      if (if d.cap = 0 then share else min d.cap share) < watts ∨ 105 ≤ degC then
        (if 8 < d.target then steps d (d.target - 1) else { d with throttle := min 3 (d.throttle + 1) })
      else if 1 < d.throttle then { d with throttle := d.throttle - 1 }
      else match d.relock, d.heldStep with
        | none, some m => steps { d with throttle := 0, heldStep := none } m
        | _, _ => { d with throttle := 0 })) ∧
    (∀ k, onDie k (exec (.supplyDroop k) s) (fun d => { d with stretch := 64 })) ∧
    (∀ k, ∃ t, exec (.thermalTrip k) s = .next t ∧ t.dies = s.dies.map (fun d => if d.id = k then { d with tripped := true } else d) ∧
      ∀ w ∈ s.warps, dieOf w.core = k → w.name.blk < 2 ^ 31 →
        (∃ l g, launchGang s w.name.launch w.name.blk = some (l, g) ∧ g.st ≠ .killed ∧ g.st ≠ .finished) → findWarp t w.name = none) ∧
    (∃ t, exec (.referenceClockLoss true) s = .next t ∧ t.refLost = true ∧ t.booted = false ∧ t.feat = 0 ∧ t.mem = s.mem ∧ t.poison = s.poison ∧
      t.scrub = s.scrub ∧ t.warps = [] ∧ t.blocks = [] ∧ t.gangs = [] ∧ t.launches = [] ∧ t.reqs = [] ∧ t.copies = [] ∧ t.l1 = [] ∧ t.tlb = []) ∧
    exec (.referenceClockLoss false) s = .next { s with refLost := false } ∧
    (∀ k, s.refLost = true ∨ (findDie s k).relock ≠ none ∨ (findDie s k).tripped = true → exec (.coreCycle k) s = .next s) ∧
    (∀ k, s.refLost = false → (findDie s k).relock = none → (findDie s k).tripped = false →
      ∃ t, exec (.coreCycle k) s = .next t ∧ t = { s with dies := t.dies, quads := t.quads, warps := t.warps } ∧
        t.dies = s.dies.map (fun d => if d.id = k then
          { d with cyc := d.cyc + 1, ncyAcc := d.ncyAcc + BitVec.ofNat 80 (ncyInc d.mult), stretch := d.stretch - 1 } else d) ∧
        (∀ w ∈ s.warps, dieOf w.core ≠ k → w ∈ t.warps) ∧
        (∀ n w, findWarp s n = some w → ∃ v, findWarp t n = some v ∧ v.frames = w.frames ∧ v.kept = { w with stepArm := v.stepArm }.kept ∧
          (dieOf w.core = k → v.stepArm = w.stepArm.map (· + 1)) ∧
          ∀ (i : Nat) (y : Thread), w.threads[i]? = some y → ∃ z : Thread, v.threads[i]? = some z ∧ z.tid = y.tid ∧ z.pc = y.pc ∧ z.st = y.st ∧
            (dieOf w.core = k → y.st = .sleep ∨ y.st = .halt → z.cnt = if 1 < y.cnt then y.cnt - 1 else y.cnt) ∧
            (dieOf w.core = k → y.st = .yield → z.cnt = if eligiblePcs s w = [] ∧ 1 < y.cnt then y.cnt - 1 else y.cnt)) ∧
        (∀ (i : Nat) (q : Quad), s.quads[i]? = some q → dieOf q.core = k → ∃ q1 : Quad, t.quads[i]? = some q1 ∧ q1.core = q.core ∧ q1.quad = q.quad ∧ q1.issued = false ∧
          ∃ n, n ≤ 16 ∧ ∀ m, agetD q1.hist m 0 = if m = n then agetD q.hist m 0 + 1 else agetD q.hist m 0)) ∧
    (∀ m, 0 < m → 2 * (ncyInc m * m) ≤ 2 * 1114112 + m ∧ 2 * 1114112 < 2 * (ncyInc m * m) + m) ∧
    (s.refLost = true → exec (.referenceTick) s = .next s) ∧
    (s.refLost = false → exec (.referenceTick) s = .next { s with dies := s.dies.map (fun d =>
      match d.relock with
      | none => { d with refcnt := d.refcnt + 1 }
      | some n => { d with refcnt := d.refcnt + 1, ncyAcc := d.ncyAcc + BitVec.ofNat 80 (17 * 65536), relock := some (n - 1) }) })

/-- Boot, resets, links and the host's accesses (R3, R24, R408, R427, R456, R457, R469, R470, R472, R475, R478, R483, R487 to R491): a package whose
record passes its checks comes up with %feat as the record says; what each reset takes and keeps; a host write to a frame of its window. -/
def Obligations.BootResetsAndHost : Prop :=
  ∀ (s : State),
    let port (k : Nat) (o : Host.Outcome State Fault Refusal) (g : Port → Port) : Prop :=
      o = .next { s with ports := s.ports.map (fun y => if y.id = k then g y else y) }
    (s.booted = true ∨ s.refLost = true ∨ cfgOk s = false → exec (.packageBoot) s = .next s) ∧
    (s.booted = false → s.refLost = false → cfgOk s = true →
      ∃ t, exec (.packageBoot) s = .next t ∧ t.booted = true ∧ t.mem = s.mem ∧ t.warps = s.warps ∧ keyState t 0 = .loaded ∧
        (∀ q ∈ t.parts, q.ready = true) ∧ (∀ j ∈ t.scrub, j.resumed = true) ∧ t.recverMax = max s.recverMax s.cfgRec.recver ∧
        (∀ k, k < 14 → t.feat.getLsbD k = s.cfgRec.featen.testBit k) ∧ t.feat.getLsbD 14 = (s.cfgRec.featen.testBit 14 && s.cfgRec.flashFitted) ∧
        t.feat.extractLsb' 15 9 = 0 ∧ t.feat.extractLsb' 24 8 = BitVec.ofNat 8 s.cfgRec.step) ∧
    (∃ t, exec (.powerLoss) s = .next t ∧ t.booted = false ∧ t.warps = [] ∧ t.blocks = [] ∧ t.launches = [] ∧ t.reqs = [] ∧ t.scrub = [] ∧
      (∀ k, keyState t k = .empty) ∧ ∀ a, readByte t.mem a = if flashBase ≤ a then readByte s.mem a else emptyByte) ∧
    (∀ part, s.booted = false → exec (.functionLevelReset part) s = .next s) ∧
    (∀ part, s.booted = true →
      ∃ t, exec (.functionLevelReset part) s = .next t ∧ (∀ w ∈ t.warps, partOf w.name.launch ≠ part) ∧ (∀ l ∈ t.launches, partOf l.lk ≠ part) ∧
        (∀ g ∈ t.gangs, partOf g.launch ≠ part) ∧ (∀ im ∈ t.images, partOf im.launch ≠ part) ∧ (∀ r ∈ t.reqs, partOf r.w.launch ≠ part) ∧
        (∀ e ∈ t.copies, partOf e.w.launch ≠ part) ∧ (∀ k ∈ t.cuts, k.part ≠ part) ∧
        (∀ k, k < 256 → (findPart s part).kmask.getLsbD k = true → keyState t k = .zeroising) ∧
        ((findPart s part).clusters ≠ [] → ∃ j ∈ t.scrub, j.part = part ∧ j.kind = 0 ∧ j.done = 0 ∧
          j.units = ((findPart s part).clusters.map (fun k => [4 * k, 4 * k + 1, 4 * k + 2, 4 * k + 3])).flatten) ∧
        (hasPart s part = true → let q := findPart t part
          q.queues = [] ∧ q.fqhead = 0 ∧ q.fqtail = 0 ∧ q.backlog = [] ∧ q.tokens = [] ∧ q.trace = {} ∧ q.err = [] ∧ q.watch = [] ∧ q.brk = [])) ∧
    (∀ k, port k (exec (.laneFailure k) s) (fun y => { y with lanes := min y.lanes 4 })) ∧
    (∀ k n, fwRuns s = true → n = 8 ∨ n = 4 ∨ n = 0 →
      port k (exec (.linkRetrain k n) s) (fun y => { y with lanes := n, epoch := y.epoch + 1, laneErrs := 0 })) ∧
    (∀ k n, fwRuns s = false ∨ (n ≠ 8 ∧ n ≠ 4 ∧ n ≠ 0) → exec (.linkRetrain k n) s = .next s) ∧
    (∀ k, port k (exec (.flitAuthFailure k) s) (fun y => { y with laneErrs := y.laneErrs + 1, replays := y.replays + 1 })) ∧
    (∀ k, port k (exec (.linkKeyRenewal k) s) (fun y => { y with epoch := y.epoch + 1 })) ∧
    (∀ k, exec (.ucieModuleFailure k) s = .next { s with joins := s.joins.map (fun j => if j.1 = k then (j.1, j.2 - 1) else j) }) ∧
    (∀ pa, exec (.patrolScrub pa) s = .next s) ∧
    (∀ part k, 2 < k → exec (.correctedError part k) s = .next s) ∧
    (∀ part k, k ≤ 2 → hasPart s part = true → OnPart s (exec (.correctedError part k) s) part (fun q =>
      { q with err := aput 0 q.err k (if agetD q.err k 0 = 0xFFFFFFFF then 0xFFFFFFFF else agetD q.err k 0 + 1) })) ∧
    (∀ part va n, exec (.hostHdmAccess part va n none) s = .next s) ∧
    (∀ part va n (bs : List Byte) pa, hdmPa (findPart s part).ranges va = some pa →
      let maps := mapsTo s.mem pa 5 (findPart s part).troot 0
      (heldFrame s pa = true ∨ (∃ e ∈ maps, e.2 = true) ∨ (∃ e ∈ maps, isCow s part e.1 = true) →
        exec (.hostHdmAccess part va n (some bs)) s = .next s) ∧
      (heldFrame s pa = false → (∀ e ∈ maps, e.2 = false ∧ isCow s part e.1 = false) → bs.length = n → pa % 4096 + n ≤ 4096 →
        ∃ t, exec (.hostHdmAccess part va n (some bs)) s = .next t ∧ readBytes t.mem pa n = bs ∧
          (∀ a, a < pa ∨ pa + n ≤ a → readByte t.mem a = readByte s.mem a) ∧ t.warps = s.warps ∧ t.reqs = s.reqs))

/-! ## Encoding and the whole step -/

/-- Decoding and encoding agree: the words of every well-formed instruction are read back, behind any prefixes that it takes and before any other
words. -/
def Obligations.RoundTrip : Prop := ∀ (i : Instr), WellFormed i → hasWords i = true → ReadsBack i

/-- The encoded examples of the encoding chapter, and one word each of other families, decode to what they stand for; the all-ones word, the
opcodes that the map leaves out, a prefix in the wrong place and undefined halves are refused by their causes. -/
def Obligations.WordsDecode : Prop :=
  let f0 : FWord := { stall := 1, wait := 0, sig := 15, gn := false, gp := 15, lr := 0, v := false, i := false, d := 2, a := 4, b := 6 }
  decodeGroup [0x0044007E70040209] =
    .ok none none (.iaddF { stall := 1, wait := 1, sig := 15, gn := true, gp := 3, lr := 4, v := false, i := false, d := 4, a := 2, b := 9 }) 1 ∧
  decodeGroup [0x0000003DE0C8C8C8] =
    .ok none none (.nop { stall := 0, wait := 0, sig := 15, gn := false, gp := 15, lr := 0, v := false, i := false, d := 0xC8, a := 0xC8, b := 0xC8 }) 1 ∧
  decodeGroup [0x4800780820C18187] =
    .ok none none (.pairWord { stall := 1, wait := 0, gp := 15, gn := false, xop := 1, xd := 2, xs := 6, yop := 6, yd := 3, ys := 7 }) 1 ∧
  decodeGroup [0x84D4000000000000, 0x0804003DE0081028] =
    .ok none (some { count1 := 3, dstep := 1, astep := 1, bstep := 0, low := 0 })
      (.faddF { stall := 1, wait := 0, sig := 15, gn := false, gp := 15, lr := 0, v := false, i := false, d := 8, a := 16, b := 40 }) 2 ∧
  decodeTableWord 64 0x8136000000000000 = some (.ord { order := 2, scope := 3, colour := 3, low := 0 }) ∧
  decodeGroup [0] = .ok none none (.nop { stall := 0, wait := 0, sig := 0, gn := false, gp := 0, lr := 0, v := false, i := false, d := 0, a := 0, b := 0 }) 1 ∧
  decodeGroup [0xC024003DE1020406, 0x0000000012345678] = .ok none none (.movL { f0 with i := true } { c := 0, x24 := 0, imm32 := 0x12345678 }) 2 ∧
  decodeGroup [0x1844003DE0020406] = .ok none none (.ld32F f0) 1 ∧
  (∀ w, decodeGroup [0xFFFFFFFFFFFFFFFF, w] = .bad 0x01 2) ∧
  decodeGroup [0x8136000000000000, 0x0044003DE0020406] = .bad 0x06 2 ∧
  decodeGroup [0x4800780820C0C187] = .bad 0x04 1 ∧
  decodeGroup [0x9000000000000000, 0x0044003DE0020406] = .bad 0x05 2 ∧
  decodeGroup [0x8136000000000000, 0x84D4000000000000, 0x8136000000000000, 0x0044003DE0020406] = .bad 0x06 3 ∧
  decodeGroup [0x01E4003DE0020406] = .bad 0x01 1

/-- A step runs the instruction that the bytes at the program counter encode: where it is the lanes' turn and the first group that may issue stands
in a landed brick, the step is `exec` of the instruction that the group decodes to, with the group in the latch and its prefixes beside it, and then what
follows every step; a group that encodes no instruction raises its cause. ORD and REP only set the latch (R31, R51, R281, R285, R383). -/
def Obligations.StepRunsDecoded : Prop :=
  ∀ (s : State) (c : Cand) (cs : List Cand) (w : Warp) (b : Brick),
    (∀ o, exec (.ord o) s = .next { s with iss := { s.iss with ord := some o } }) ∧
    (∀ r, exec (.rep r) s = .next { s with iss := { s.iss with rep := some r } }) ∧
    (s.booted = true → killFirst s = none → s.agenda = [] → s.turn % 4 = 0 → s.warps.findSome? (giveDue s) = none → laneOrder s = c :: cs →
      findWarp s c.n = some w → mayPass s w = true → gateOf s w.core c = .go b → breakAt s w c = none →
      let latch (o : Option OrdWord) (r : Option RepWord) : State :=
        { s with iss := { w := some c.n, pc := c.pc, rk := c.rk, den := c.den, words := groupAtPc s b c.pc, ord := o, rep := r } }
      let runs (o : Host.Outcome State Fault Refusal) : Prop :=
        (∀ t, o = .next t → (t.iss.stalled = false ∨ t.warps.any killDue = true) →
          step s = sealStep (.next { afterIssue s t c with turn := 1 })) ∧
        (∀ t, o = .next t → t.iss.stalled = true → t.warps.any killDue = false → issueTurn false s = issueFirst cs { t with iss := {} }) ∧
        (∀ k, o = .fault k → step s = .fault k) ∧ (∀ k, o = .refused k → step s = .refused k)
      let left := (b.words.drop (c.pc % 4096 / 8)).length
      (∀ o r i n, decodeGroup (codeAt s b c.pc) = .ok o r i n →
        (n ≤ left → runs (exec i (latch o r))) ∧ (left < n → runs (exec (.handlerEntry 0x06) (latch none none)))) ∧
      (∀ k n, decodeGroup (codeAt s b c.pc) = .bad k n →
        runs (exec (.handlerEntry (if n ≤ left ∨ k = 0x05 then k else 0x06)) (latch none none))) ∧
      (4 ≤ left → codeAt s b c.pc = (b.words.drop (c.pc % 4096 / 8)).take 4)) ∧
    (s.booted = true → killFirst s = none → ∀ i rest, s.agenda = i :: rest → step s = sealStep (exec i { s with agenda := rest, iss := {} })) ∧
    (∀ t, sealStep (.next t) = .next { settle t with free := (settle t).free + 1 })

/-- Every step keeps memory in its canonical form: addresses strictly rising, no entry equal to what an unlisted address reads as. -/
def Obligations.MemoryCanonical : Prop := ∀ (s t : State), memWf s.mem = true → step s = .next t → memWf t.mem = true

/-- The package after reset (R3, R399, R407, R438, R446, R470, R477, R484): nothing is resident, no memory is listed, key slot 0 alone is loaded, and each of the 16
partitions has its registers at their reset values; its first step boots it, since the configuration record at reset (log 20) passes its checks. -/
def Obligations.ResetState : Prop :=
  let s := State.reset
  memWf s.mem = true ∧ s.mem = [] ∧ s.booted = false ∧ s.feat = 0 ∧ s.warps = [] ∧ s.blocks = [] ∧ s.launches = [] ∧ s.reqs = [] ∧
    (∀ k, keyState s k = if k = 0 then .loaded else .empty) ∧ s.parts.map (·.id) = List.range 16 ∧ s.dies.map (·.id) = List.range 4 ∧
    (∀ q ∈ s.parts, q.troot = 0 ∧ q.fqvec = 0 ∧ q.fqbase = 0 ∧ q.fqsize = 4 ∧ q.fqhead = 0 ∧ q.fqtail = 0 ∧ q.backlog = [] ∧ q.tokens = [] ∧
      q.queues = [] ∧ q.watch = [] ∧ q.brk = [] ∧ q.step = {} ∧ q.trace = {} ∧ q.err = []) ∧
    ∃ t, step s = .next t ∧ t.booted = true ∧ t.mem = []

end
end

