-- ==== Sys2Proof/Laws/State.lean ====
section
/-! SUPPORT. Lookups after updates: what each update of State, of a warp and of a frame leaves in every field that it does not name. -/

namespace Sys2Proof.Machine

/-! ## Updates of State -/

section
variable (s : State) (n : WName) (f : Warp → Warp)
@[simp] theorem modWarp_feat : (modWarp s n f).feat = s.feat := rfl
@[simp] theorem modWarp_booted : (modWarp s n f).booted = s.booted := rfl
@[simp] theorem modWarp_refLost : (modWarp s n f).refLost = s.refLost := rfl
@[simp] theorem modWarp_cfgRec : (modWarp s n f).cfgRec = s.cfgRec := rfl
@[simp] theorem modWarp_recverMax : (modWarp s n f).recverMax = s.recverMax := rfl
@[simp] theorem modWarp_dies : (modWarp s n f).dies = s.dies := rfl
@[simp] theorem modWarp_quads : (modWarp s n f).quads = s.quads := rfl
@[simp] theorem modWarp_mem : (modWarp s n f).mem = s.mem := rfl
@[simp] theorem modWarp_poison : (modWarp s n f).poison = s.poison := rfl
@[simp] theorem modWarp_l1 : (modWarp s n f).l1 = s.l1 := rfl
@[simp] theorem modWarp_tlb : (modWarp s n f).tlb = s.tlb := rfl
@[simp] theorem modWarp_bricks : (modWarp s n f).bricks = s.bricks := rfl
@[simp] theorem modWarp_parts : (modWarp s n f).parts = s.parts := rfl
@[simp] theorem modWarp_launches : (modWarp s n f).launches = s.launches := rfl
@[simp] theorem modWarp_completed : (modWarp s n f).completed = s.completed := rfl
@[simp] theorem modWarp_ends : (modWarp s n f).ends = s.ends := rfl
@[simp] theorem modWarp_gangs : (modWarp s n f).gangs = s.gangs := rfl
@[simp] theorem modWarp_blocks : (modWarp s n f).blocks = s.blocks := rfl
@[simp] theorem modWarp_warps : (modWarp s n f).warps = s.warps.map (fun w => if w.name = n then f w else w) := rfl
@[simp] theorem modWarp_reqs : (modWarp s n f).reqs = s.reqs := rfl
@[simp] theorem modWarp_retained : (modWarp s n f).retained = s.retained := rfl
@[simp] theorem modWarp_seqs : (modWarp s n f).seqs = s.seqs := rfl
@[simp] theorem modWarp_copies : (modWarp s n f).copies = s.copies := rfl
@[simp] theorem modWarp_tier : (modWarp s n f).tier = s.tier := rfl
@[simp] theorem modWarp_chunks : (modWarp s n f).chunks = s.chunks := rfl
@[simp] theorem modWarp_sectors : (modWarp s n f).sectors = s.sectors := rfl
@[simp] theorem modWarp_releases : (modWarp s n f).releases = s.releases := rfl
@[simp] theorem modWarp_images : (modWarp s n f).images = s.images := rfl
@[simp] theorem modWarp_cuts : (modWarp s n f).cuts = s.cuts := rfl
@[simp] theorem modWarp_granules : (modWarp s n f).granules = s.granules := rfl
@[simp] theorem modWarp_keys : (modWarp s n f).keys = s.keys := rfl
@[simp] theorem modWarp_handles : (modWarp s n f).handles = s.handles := rfl
@[simp] theorem modWarp_scrub : (modWarp s n f).scrub = s.scrub := rfl
@[simp] theorem modWarp_fw : (modWarp s n f).fw = s.fw := rfl
@[simp] theorem modWarp_ports : (modWarp s n f).ports = s.ports := rfl
@[simp] theorem modWarp_joins : (modWarp s n f).joins = s.joins := rfl
@[simp] theorem modWarp_fetchq : (modWarp s n f).fetchq = s.fetchq := rfl
@[simp] theorem modWarp_denTurn : (modWarp s n f).denTurn = s.denTurn := rfl
@[simp] theorem modWarp_iss : (modWarp s n f).iss = s.iss := rfl
@[simp] theorem modWarp_agenda : (modWarp s n f).agenda = s.agenda := rfl
@[simp] theorem modWarp_turn : (modWarp s n f).turn = s.turn := rfl
@[simp] theorem modWarp_tick : (modWarp s n f).tick = s.tick := rfl
@[simp] theorem modWarp_free : (modWarp s n f).free = s.free := rfl
@[simp] theorem modWarp_nextId : (modWarp s n f).nextId = s.nextId := rfl
end

section
variable (s : State) (lk blk : Nat) (sh : Bool) (f : Block → Block)
@[simp] theorem modBlock_feat : (modBlock s lk blk sh f).feat = s.feat := rfl
@[simp] theorem modBlock_booted : (modBlock s lk blk sh f).booted = s.booted := rfl
@[simp] theorem modBlock_refLost : (modBlock s lk blk sh f).refLost = s.refLost := rfl
@[simp] theorem modBlock_cfgRec : (modBlock s lk blk sh f).cfgRec = s.cfgRec := rfl
@[simp] theorem modBlock_recverMax : (modBlock s lk blk sh f).recverMax = s.recverMax := rfl
@[simp] theorem modBlock_dies : (modBlock s lk blk sh f).dies = s.dies := rfl
@[simp] theorem modBlock_quads : (modBlock s lk blk sh f).quads = s.quads := rfl
@[simp] theorem modBlock_mem : (modBlock s lk blk sh f).mem = s.mem := rfl
@[simp] theorem modBlock_poison : (modBlock s lk blk sh f).poison = s.poison := rfl
@[simp] theorem modBlock_l1 : (modBlock s lk blk sh f).l1 = s.l1 := rfl
@[simp] theorem modBlock_tlb : (modBlock s lk blk sh f).tlb = s.tlb := rfl
@[simp] theorem modBlock_bricks : (modBlock s lk blk sh f).bricks = s.bricks := rfl
@[simp] theorem modBlock_parts : (modBlock s lk blk sh f).parts = s.parts := rfl
@[simp] theorem modBlock_launches : (modBlock s lk blk sh f).launches = s.launches := rfl
@[simp] theorem modBlock_completed : (modBlock s lk blk sh f).completed = s.completed := rfl
@[simp] theorem modBlock_ends : (modBlock s lk blk sh f).ends = s.ends := rfl
@[simp] theorem modBlock_gangs : (modBlock s lk blk sh f).gangs = s.gangs := rfl
@[simp] theorem modBlock_warps : (modBlock s lk blk sh f).warps = s.warps := rfl
@[simp] theorem modBlock_reqs : (modBlock s lk blk sh f).reqs = s.reqs := rfl
@[simp] theorem modBlock_retained : (modBlock s lk blk sh f).retained = s.retained := rfl
@[simp] theorem modBlock_seqs : (modBlock s lk blk sh f).seqs = s.seqs := rfl
@[simp] theorem modBlock_copies : (modBlock s lk blk sh f).copies = s.copies := rfl
@[simp] theorem modBlock_tier : (modBlock s lk blk sh f).tier = s.tier := rfl
@[simp] theorem modBlock_chunks : (modBlock s lk blk sh f).chunks = s.chunks := rfl
@[simp] theorem modBlock_sectors : (modBlock s lk blk sh f).sectors = s.sectors := rfl
@[simp] theorem modBlock_releases : (modBlock s lk blk sh f).releases = s.releases := rfl
@[simp] theorem modBlock_images : (modBlock s lk blk sh f).images = s.images := rfl
@[simp] theorem modBlock_cuts : (modBlock s lk blk sh f).cuts = s.cuts := rfl
@[simp] theorem modBlock_granules : (modBlock s lk blk sh f).granules = s.granules := rfl
@[simp] theorem modBlock_keys : (modBlock s lk blk sh f).keys = s.keys := rfl
@[simp] theorem modBlock_handles : (modBlock s lk blk sh f).handles = s.handles := rfl
@[simp] theorem modBlock_scrub : (modBlock s lk blk sh f).scrub = s.scrub := rfl
@[simp] theorem modBlock_fw : (modBlock s lk blk sh f).fw = s.fw := rfl
@[simp] theorem modBlock_ports : (modBlock s lk blk sh f).ports = s.ports := rfl
@[simp] theorem modBlock_joins : (modBlock s lk blk sh f).joins = s.joins := rfl
@[simp] theorem modBlock_fetchq : (modBlock s lk blk sh f).fetchq = s.fetchq := rfl
@[simp] theorem modBlock_denTurn : (modBlock s lk blk sh f).denTurn = s.denTurn := rfl
@[simp] theorem modBlock_iss : (modBlock s lk blk sh f).iss = s.iss := rfl
@[simp] theorem modBlock_agenda : (modBlock s lk blk sh f).agenda = s.agenda := rfl
@[simp] theorem modBlock_turn : (modBlock s lk blk sh f).turn = s.turn := rfl
@[simp] theorem modBlock_tick : (modBlock s lk blk sh f).tick = s.tick := rfl
@[simp] theorem modBlock_free : (modBlock s lk blk sh f).free = s.free := rfl
@[simp] theorem modBlock_nextId : (modBlock s lk blk sh f).nextId = s.nextId := rfl
end

section
variable (s : State) (p : Nat) (f : Part → Part)
@[simp] theorem modPart_feat : (modPart s p f).feat = s.feat := rfl
@[simp] theorem modPart_booted : (modPart s p f).booted = s.booted := rfl
@[simp] theorem modPart_refLost : (modPart s p f).refLost = s.refLost := rfl
@[simp] theorem modPart_cfgRec : (modPart s p f).cfgRec = s.cfgRec := rfl
@[simp] theorem modPart_recverMax : (modPart s p f).recverMax = s.recverMax := rfl
@[simp] theorem modPart_dies : (modPart s p f).dies = s.dies := rfl
@[simp] theorem modPart_quads : (modPart s p f).quads = s.quads := rfl
@[simp] theorem modPart_mem : (modPart s p f).mem = s.mem := rfl
@[simp] theorem modPart_poison : (modPart s p f).poison = s.poison := rfl
@[simp] theorem modPart_l1 : (modPart s p f).l1 = s.l1 := rfl
@[simp] theorem modPart_tlb : (modPart s p f).tlb = s.tlb := rfl
@[simp] theorem modPart_bricks : (modPart s p f).bricks = s.bricks := rfl
@[simp] theorem modPart_launches : (modPart s p f).launches = s.launches := rfl
@[simp] theorem modPart_completed : (modPart s p f).completed = s.completed := rfl
@[simp] theorem modPart_ends : (modPart s p f).ends = s.ends := rfl
@[simp] theorem modPart_gangs : (modPart s p f).gangs = s.gangs := rfl
@[simp] theorem modPart_blocks : (modPart s p f).blocks = s.blocks := rfl
@[simp] theorem modPart_warps : (modPart s p f).warps = s.warps := rfl
@[simp] theorem modPart_reqs : (modPart s p f).reqs = s.reqs := rfl
@[simp] theorem modPart_retained : (modPart s p f).retained = s.retained := rfl
@[simp] theorem modPart_seqs : (modPart s p f).seqs = s.seqs := rfl
@[simp] theorem modPart_copies : (modPart s p f).copies = s.copies := rfl
@[simp] theorem modPart_tier : (modPart s p f).tier = s.tier := rfl
@[simp] theorem modPart_chunks : (modPart s p f).chunks = s.chunks := rfl
@[simp] theorem modPart_sectors : (modPart s p f).sectors = s.sectors := rfl
@[simp] theorem modPart_releases : (modPart s p f).releases = s.releases := rfl
@[simp] theorem modPart_images : (modPart s p f).images = s.images := rfl
@[simp] theorem modPart_cuts : (modPart s p f).cuts = s.cuts := rfl
@[simp] theorem modPart_granules : (modPart s p f).granules = s.granules := rfl
@[simp] theorem modPart_keys : (modPart s p f).keys = s.keys := rfl
@[simp] theorem modPart_handles : (modPart s p f).handles = s.handles := rfl
@[simp] theorem modPart_scrub : (modPart s p f).scrub = s.scrub := rfl
@[simp] theorem modPart_fw : (modPart s p f).fw = s.fw := rfl
@[simp] theorem modPart_ports : (modPart s p f).ports = s.ports := rfl
@[simp] theorem modPart_joins : (modPart s p f).joins = s.joins := rfl
@[simp] theorem modPart_fetchq : (modPart s p f).fetchq = s.fetchq := rfl
@[simp] theorem modPart_denTurn : (modPart s p f).denTurn = s.denTurn := rfl
@[simp] theorem modPart_iss : (modPart s p f).iss = s.iss := rfl
@[simp] theorem modPart_agenda : (modPart s p f).agenda = s.agenda := rfl
@[simp] theorem modPart_turn : (modPart s p f).turn = s.turn := rfl
@[simp] theorem modPart_tick : (modPart s p f).tick = s.tick := rfl
@[simp] theorem modPart_free : (modPart s p f).free = s.free := rfl
@[simp] theorem modPart_nextId : (modPart s p f).nextId = s.nextId := rfl
end

section
variable (s : State) (core q : Nat) (f : Quad → Quad)
@[simp] theorem modQuad_feat : (modQuad s core q f).feat = s.feat := by unfold modQuad; split <;> rfl
@[simp] theorem modQuad_booted : (modQuad s core q f).booted = s.booted := by unfold modQuad; split <;> rfl
@[simp] theorem modQuad_refLost : (modQuad s core q f).refLost = s.refLost := by unfold modQuad; split <;> rfl
@[simp] theorem modQuad_cfgRec : (modQuad s core q f).cfgRec = s.cfgRec := by unfold modQuad; split <;> rfl
@[simp] theorem modQuad_recverMax : (modQuad s core q f).recverMax = s.recverMax := by unfold modQuad; split <;> rfl
@[simp] theorem modQuad_dies : (modQuad s core q f).dies = s.dies := by unfold modQuad; split <;> rfl
@[simp] theorem modQuad_mem : (modQuad s core q f).mem = s.mem := by unfold modQuad; split <;> rfl
@[simp] theorem modQuad_poison : (modQuad s core q f).poison = s.poison := by unfold modQuad; split <;> rfl
@[simp] theorem modQuad_l1 : (modQuad s core q f).l1 = s.l1 := by unfold modQuad; split <;> rfl
@[simp] theorem modQuad_tlb : (modQuad s core q f).tlb = s.tlb := by unfold modQuad; split <;> rfl
@[simp] theorem modQuad_bricks : (modQuad s core q f).bricks = s.bricks := by unfold modQuad; split <;> rfl
@[simp] theorem modQuad_parts : (modQuad s core q f).parts = s.parts := by unfold modQuad; split <;> rfl
@[simp] theorem modQuad_launches : (modQuad s core q f).launches = s.launches := by unfold modQuad; split <;> rfl
@[simp] theorem modQuad_completed : (modQuad s core q f).completed = s.completed := by unfold modQuad; split <;> rfl
@[simp] theorem modQuad_ends : (modQuad s core q f).ends = s.ends := by unfold modQuad; split <;> rfl
@[simp] theorem modQuad_gangs : (modQuad s core q f).gangs = s.gangs := by unfold modQuad; split <;> rfl
@[simp] theorem modQuad_blocks : (modQuad s core q f).blocks = s.blocks := by unfold modQuad; split <;> rfl
@[simp] theorem modQuad_warps : (modQuad s core q f).warps = s.warps := by unfold modQuad; split <;> rfl
@[simp] theorem modQuad_reqs : (modQuad s core q f).reqs = s.reqs := by unfold modQuad; split <;> rfl
@[simp] theorem modQuad_retained : (modQuad s core q f).retained = s.retained := by unfold modQuad; split <;> rfl
@[simp] theorem modQuad_seqs : (modQuad s core q f).seqs = s.seqs := by unfold modQuad; split <;> rfl
@[simp] theorem modQuad_copies : (modQuad s core q f).copies = s.copies := by unfold modQuad; split <;> rfl
@[simp] theorem modQuad_tier : (modQuad s core q f).tier = s.tier := by unfold modQuad; split <;> rfl
@[simp] theorem modQuad_chunks : (modQuad s core q f).chunks = s.chunks := by unfold modQuad; split <;> rfl
@[simp] theorem modQuad_sectors : (modQuad s core q f).sectors = s.sectors := by unfold modQuad; split <;> rfl
@[simp] theorem modQuad_releases : (modQuad s core q f).releases = s.releases := by unfold modQuad; split <;> rfl
@[simp] theorem modQuad_images : (modQuad s core q f).images = s.images := by unfold modQuad; split <;> rfl
@[simp] theorem modQuad_cuts : (modQuad s core q f).cuts = s.cuts := by unfold modQuad; split <;> rfl
@[simp] theorem modQuad_granules : (modQuad s core q f).granules = s.granules := by unfold modQuad; split <;> rfl
@[simp] theorem modQuad_keys : (modQuad s core q f).keys = s.keys := by unfold modQuad; split <;> rfl
@[simp] theorem modQuad_handles : (modQuad s core q f).handles = s.handles := by unfold modQuad; split <;> rfl
@[simp] theorem modQuad_scrub : (modQuad s core q f).scrub = s.scrub := by unfold modQuad; split <;> rfl
@[simp] theorem modQuad_fw : (modQuad s core q f).fw = s.fw := by unfold modQuad; split <;> rfl
@[simp] theorem modQuad_ports : (modQuad s core q f).ports = s.ports := by unfold modQuad; split <;> rfl
@[simp] theorem modQuad_joins : (modQuad s core q f).joins = s.joins := by unfold modQuad; split <;> rfl
@[simp] theorem modQuad_fetchq : (modQuad s core q f).fetchq = s.fetchq := by unfold modQuad; split <;> rfl
@[simp] theorem modQuad_denTurn : (modQuad s core q f).denTurn = s.denTurn := by unfold modQuad; split <;> rfl
@[simp] theorem modQuad_iss : (modQuad s core q f).iss = s.iss := by unfold modQuad; split <;> rfl
@[simp] theorem modQuad_agenda : (modQuad s core q f).agenda = s.agenda := by unfold modQuad; split <;> rfl
@[simp] theorem modQuad_turn : (modQuad s core q f).turn = s.turn := by unfold modQuad; split <;> rfl
@[simp] theorem modQuad_tick : (modQuad s core q f).tick = s.tick := by unfold modQuad; split <;> rfl
@[simp] theorem modQuad_free : (modQuad s core q f).free = s.free := by unfold modQuad; split <;> rfl
@[simp] theorem modQuad_nextId : (modQuad s core q f).nextId = s.nextId := by unfold modQuad; split <;> rfl
end

section
variable (s : State) (d : Nat) (f : Die → Die)
@[simp] theorem modDie_feat : (modDie s d f).feat = s.feat := rfl
@[simp] theorem modDie_booted : (modDie s d f).booted = s.booted := rfl
@[simp] theorem modDie_refLost : (modDie s d f).refLost = s.refLost := rfl
@[simp] theorem modDie_cfgRec : (modDie s d f).cfgRec = s.cfgRec := rfl
@[simp] theorem modDie_recverMax : (modDie s d f).recverMax = s.recverMax := rfl
@[simp] theorem modDie_quads : (modDie s d f).quads = s.quads := rfl
@[simp] theorem modDie_mem : (modDie s d f).mem = s.mem := rfl
@[simp] theorem modDie_poison : (modDie s d f).poison = s.poison := rfl
@[simp] theorem modDie_l1 : (modDie s d f).l1 = s.l1 := rfl
@[simp] theorem modDie_tlb : (modDie s d f).tlb = s.tlb := rfl
@[simp] theorem modDie_bricks : (modDie s d f).bricks = s.bricks := rfl
@[simp] theorem modDie_parts : (modDie s d f).parts = s.parts := rfl
@[simp] theorem modDie_launches : (modDie s d f).launches = s.launches := rfl
@[simp] theorem modDie_completed : (modDie s d f).completed = s.completed := rfl
@[simp] theorem modDie_ends : (modDie s d f).ends = s.ends := rfl
@[simp] theorem modDie_gangs : (modDie s d f).gangs = s.gangs := rfl
@[simp] theorem modDie_blocks : (modDie s d f).blocks = s.blocks := rfl
@[simp] theorem modDie_warps : (modDie s d f).warps = s.warps := rfl
@[simp] theorem modDie_reqs : (modDie s d f).reqs = s.reqs := rfl
@[simp] theorem modDie_retained : (modDie s d f).retained = s.retained := rfl
@[simp] theorem modDie_seqs : (modDie s d f).seqs = s.seqs := rfl
@[simp] theorem modDie_copies : (modDie s d f).copies = s.copies := rfl
@[simp] theorem modDie_tier : (modDie s d f).tier = s.tier := rfl
@[simp] theorem modDie_chunks : (modDie s d f).chunks = s.chunks := rfl
@[simp] theorem modDie_sectors : (modDie s d f).sectors = s.sectors := rfl
@[simp] theorem modDie_releases : (modDie s d f).releases = s.releases := rfl
@[simp] theorem modDie_images : (modDie s d f).images = s.images := rfl
@[simp] theorem modDie_cuts : (modDie s d f).cuts = s.cuts := rfl
@[simp] theorem modDie_granules : (modDie s d f).granules = s.granules := rfl
@[simp] theorem modDie_keys : (modDie s d f).keys = s.keys := rfl
@[simp] theorem modDie_handles : (modDie s d f).handles = s.handles := rfl
@[simp] theorem modDie_scrub : (modDie s d f).scrub = s.scrub := rfl
@[simp] theorem modDie_fw : (modDie s d f).fw = s.fw := rfl
@[simp] theorem modDie_ports : (modDie s d f).ports = s.ports := rfl
@[simp] theorem modDie_joins : (modDie s d f).joins = s.joins := rfl
@[simp] theorem modDie_fetchq : (modDie s d f).fetchq = s.fetchq := rfl
@[simp] theorem modDie_denTurn : (modDie s d f).denTurn = s.denTurn := rfl
@[simp] theorem modDie_iss : (modDie s d f).iss = s.iss := rfl
@[simp] theorem modDie_agenda : (modDie s d f).agenda = s.agenda := rfl
@[simp] theorem modDie_turn : (modDie s d f).turn = s.turn := rfl
@[simp] theorem modDie_tick : (modDie s d f).tick = s.tick := rfl
@[simp] theorem modDie_free : (modDie s d f).free = s.free := rfl
@[simp] theorem modDie_nextId : (modDie s d f).nextId = s.nextId := rfl
end

section
variable (s : State) (lk : Nat) (f : Launch → Launch)
@[simp] theorem modLaunch_feat : (modLaunch s lk f).feat = s.feat := rfl
@[simp] theorem modLaunch_booted : (modLaunch s lk f).booted = s.booted := rfl
@[simp] theorem modLaunch_refLost : (modLaunch s lk f).refLost = s.refLost := rfl
@[simp] theorem modLaunch_cfgRec : (modLaunch s lk f).cfgRec = s.cfgRec := rfl
@[simp] theorem modLaunch_recverMax : (modLaunch s lk f).recverMax = s.recverMax := rfl
@[simp] theorem modLaunch_dies : (modLaunch s lk f).dies = s.dies := rfl
@[simp] theorem modLaunch_quads : (modLaunch s lk f).quads = s.quads := rfl
@[simp] theorem modLaunch_mem : (modLaunch s lk f).mem = s.mem := rfl
@[simp] theorem modLaunch_poison : (modLaunch s lk f).poison = s.poison := rfl
@[simp] theorem modLaunch_l1 : (modLaunch s lk f).l1 = s.l1 := rfl
@[simp] theorem modLaunch_tlb : (modLaunch s lk f).tlb = s.tlb := rfl
@[simp] theorem modLaunch_bricks : (modLaunch s lk f).bricks = s.bricks := rfl
@[simp] theorem modLaunch_parts : (modLaunch s lk f).parts = s.parts := rfl
@[simp] theorem modLaunch_completed : (modLaunch s lk f).completed = s.completed := rfl
@[simp] theorem modLaunch_ends : (modLaunch s lk f).ends = s.ends := rfl
@[simp] theorem modLaunch_gangs : (modLaunch s lk f).gangs = s.gangs := rfl
@[simp] theorem modLaunch_blocks : (modLaunch s lk f).blocks = s.blocks := rfl
@[simp] theorem modLaunch_warps : (modLaunch s lk f).warps = s.warps := rfl
@[simp] theorem modLaunch_reqs : (modLaunch s lk f).reqs = s.reqs := rfl
@[simp] theorem modLaunch_retained : (modLaunch s lk f).retained = s.retained := rfl
@[simp] theorem modLaunch_seqs : (modLaunch s lk f).seqs = s.seqs := rfl
@[simp] theorem modLaunch_copies : (modLaunch s lk f).copies = s.copies := rfl
@[simp] theorem modLaunch_tier : (modLaunch s lk f).tier = s.tier := rfl
@[simp] theorem modLaunch_chunks : (modLaunch s lk f).chunks = s.chunks := rfl
@[simp] theorem modLaunch_sectors : (modLaunch s lk f).sectors = s.sectors := rfl
@[simp] theorem modLaunch_releases : (modLaunch s lk f).releases = s.releases := rfl
@[simp] theorem modLaunch_images : (modLaunch s lk f).images = s.images := rfl
@[simp] theorem modLaunch_cuts : (modLaunch s lk f).cuts = s.cuts := rfl
@[simp] theorem modLaunch_granules : (modLaunch s lk f).granules = s.granules := rfl
@[simp] theorem modLaunch_keys : (modLaunch s lk f).keys = s.keys := rfl
@[simp] theorem modLaunch_handles : (modLaunch s lk f).handles = s.handles := rfl
@[simp] theorem modLaunch_scrub : (modLaunch s lk f).scrub = s.scrub := rfl
@[simp] theorem modLaunch_fw : (modLaunch s lk f).fw = s.fw := rfl
@[simp] theorem modLaunch_ports : (modLaunch s lk f).ports = s.ports := rfl
@[simp] theorem modLaunch_joins : (modLaunch s lk f).joins = s.joins := rfl
@[simp] theorem modLaunch_fetchq : (modLaunch s lk f).fetchq = s.fetchq := rfl
@[simp] theorem modLaunch_denTurn : (modLaunch s lk f).denTurn = s.denTurn := rfl
@[simp] theorem modLaunch_iss : (modLaunch s lk f).iss = s.iss := rfl
@[simp] theorem modLaunch_agenda : (modLaunch s lk f).agenda = s.agenda := rfl
@[simp] theorem modLaunch_turn : (modLaunch s lk f).turn = s.turn := rfl
@[simp] theorem modLaunch_tick : (modLaunch s lk f).tick = s.tick := rfl
@[simp] theorem modLaunch_free : (modLaunch s lk f).free = s.free := rfl
@[simp] theorem modLaunch_nextId : (modLaunch s lk f).nextId = s.nextId := rfl
end

section
variable (s : State) (lk r : Nat) (sh : Bool) (f : Gang → Gang)
@[simp] theorem modGang_feat : (modGang s lk r sh f).feat = s.feat := rfl
@[simp] theorem modGang_booted : (modGang s lk r sh f).booted = s.booted := rfl
@[simp] theorem modGang_refLost : (modGang s lk r sh f).refLost = s.refLost := rfl
@[simp] theorem modGang_cfgRec : (modGang s lk r sh f).cfgRec = s.cfgRec := rfl
@[simp] theorem modGang_recverMax : (modGang s lk r sh f).recverMax = s.recverMax := rfl
@[simp] theorem modGang_dies : (modGang s lk r sh f).dies = s.dies := rfl
@[simp] theorem modGang_quads : (modGang s lk r sh f).quads = s.quads := rfl
@[simp] theorem modGang_mem : (modGang s lk r sh f).mem = s.mem := rfl
@[simp] theorem modGang_poison : (modGang s lk r sh f).poison = s.poison := rfl
@[simp] theorem modGang_l1 : (modGang s lk r sh f).l1 = s.l1 := rfl
@[simp] theorem modGang_tlb : (modGang s lk r sh f).tlb = s.tlb := rfl
@[simp] theorem modGang_bricks : (modGang s lk r sh f).bricks = s.bricks := rfl
@[simp] theorem modGang_parts : (modGang s lk r sh f).parts = s.parts := rfl
@[simp] theorem modGang_launches : (modGang s lk r sh f).launches = s.launches := rfl
@[simp] theorem modGang_completed : (modGang s lk r sh f).completed = s.completed := rfl
@[simp] theorem modGang_ends : (modGang s lk r sh f).ends = s.ends := rfl
@[simp] theorem modGang_blocks : (modGang s lk r sh f).blocks = s.blocks := rfl
@[simp] theorem modGang_warps : (modGang s lk r sh f).warps = s.warps := rfl
@[simp] theorem modGang_reqs : (modGang s lk r sh f).reqs = s.reqs := rfl
@[simp] theorem modGang_retained : (modGang s lk r sh f).retained = s.retained := rfl
@[simp] theorem modGang_seqs : (modGang s lk r sh f).seqs = s.seqs := rfl
@[simp] theorem modGang_copies : (modGang s lk r sh f).copies = s.copies := rfl
@[simp] theorem modGang_tier : (modGang s lk r sh f).tier = s.tier := rfl
@[simp] theorem modGang_chunks : (modGang s lk r sh f).chunks = s.chunks := rfl
@[simp] theorem modGang_sectors : (modGang s lk r sh f).sectors = s.sectors := rfl
@[simp] theorem modGang_releases : (modGang s lk r sh f).releases = s.releases := rfl
@[simp] theorem modGang_images : (modGang s lk r sh f).images = s.images := rfl
@[simp] theorem modGang_cuts : (modGang s lk r sh f).cuts = s.cuts := rfl
@[simp] theorem modGang_granules : (modGang s lk r sh f).granules = s.granules := rfl
@[simp] theorem modGang_keys : (modGang s lk r sh f).keys = s.keys := rfl
@[simp] theorem modGang_handles : (modGang s lk r sh f).handles = s.handles := rfl
@[simp] theorem modGang_scrub : (modGang s lk r sh f).scrub = s.scrub := rfl
@[simp] theorem modGang_fw : (modGang s lk r sh f).fw = s.fw := rfl
@[simp] theorem modGang_ports : (modGang s lk r sh f).ports = s.ports := rfl
@[simp] theorem modGang_joins : (modGang s lk r sh f).joins = s.joins := rfl
@[simp] theorem modGang_fetchq : (modGang s lk r sh f).fetchq = s.fetchq := rfl
@[simp] theorem modGang_denTurn : (modGang s lk r sh f).denTurn = s.denTurn := rfl
@[simp] theorem modGang_iss : (modGang s lk r sh f).iss = s.iss := rfl
@[simp] theorem modGang_agenda : (modGang s lk r sh f).agenda = s.agenda := rfl
@[simp] theorem modGang_turn : (modGang s lk r sh f).turn = s.turn := rfl
@[simp] theorem modGang_tick : (modGang s lk r sh f).tick = s.tick := rfl
@[simp] theorem modGang_free : (modGang s lk r sh f).free = s.free := rfl
@[simp] theorem modGang_nextId : (modGang s lk r sh f).nextId = s.nextId := rfl
end

section
variable (s : State) (id : Nat) (f : Req → Req)
@[simp] theorem modReq_feat : (modReq s id f).feat = s.feat := rfl
@[simp] theorem modReq_booted : (modReq s id f).booted = s.booted := rfl
@[simp] theorem modReq_refLost : (modReq s id f).refLost = s.refLost := rfl
@[simp] theorem modReq_cfgRec : (modReq s id f).cfgRec = s.cfgRec := rfl
@[simp] theorem modReq_recverMax : (modReq s id f).recverMax = s.recverMax := rfl
@[simp] theorem modReq_dies : (modReq s id f).dies = s.dies := rfl
@[simp] theorem modReq_quads : (modReq s id f).quads = s.quads := rfl
@[simp] theorem modReq_mem : (modReq s id f).mem = s.mem := rfl
@[simp] theorem modReq_poison : (modReq s id f).poison = s.poison := rfl
@[simp] theorem modReq_l1 : (modReq s id f).l1 = s.l1 := rfl
@[simp] theorem modReq_tlb : (modReq s id f).tlb = s.tlb := rfl
@[simp] theorem modReq_bricks : (modReq s id f).bricks = s.bricks := rfl
@[simp] theorem modReq_parts : (modReq s id f).parts = s.parts := rfl
@[simp] theorem modReq_launches : (modReq s id f).launches = s.launches := rfl
@[simp] theorem modReq_completed : (modReq s id f).completed = s.completed := rfl
@[simp] theorem modReq_ends : (modReq s id f).ends = s.ends := rfl
@[simp] theorem modReq_gangs : (modReq s id f).gangs = s.gangs := rfl
@[simp] theorem modReq_blocks : (modReq s id f).blocks = s.blocks := rfl
@[simp] theorem modReq_warps : (modReq s id f).warps = s.warps := rfl
@[simp] theorem modReq_retained : (modReq s id f).retained = s.retained := rfl
@[simp] theorem modReq_seqs : (modReq s id f).seqs = s.seqs := rfl
@[simp] theorem modReq_copies : (modReq s id f).copies = s.copies := rfl
@[simp] theorem modReq_tier : (modReq s id f).tier = s.tier := rfl
@[simp] theorem modReq_chunks : (modReq s id f).chunks = s.chunks := rfl
@[simp] theorem modReq_sectors : (modReq s id f).sectors = s.sectors := rfl
@[simp] theorem modReq_releases : (modReq s id f).releases = s.releases := rfl
@[simp] theorem modReq_images : (modReq s id f).images = s.images := rfl
@[simp] theorem modReq_cuts : (modReq s id f).cuts = s.cuts := rfl
@[simp] theorem modReq_granules : (modReq s id f).granules = s.granules := rfl
@[simp] theorem modReq_keys : (modReq s id f).keys = s.keys := rfl
@[simp] theorem modReq_handles : (modReq s id f).handles = s.handles := rfl
@[simp] theorem modReq_scrub : (modReq s id f).scrub = s.scrub := rfl
@[simp] theorem modReq_fw : (modReq s id f).fw = s.fw := rfl
@[simp] theorem modReq_ports : (modReq s id f).ports = s.ports := rfl
@[simp] theorem modReq_joins : (modReq s id f).joins = s.joins := rfl
@[simp] theorem modReq_fetchq : (modReq s id f).fetchq = s.fetchq := rfl
@[simp] theorem modReq_denTurn : (modReq s id f).denTurn = s.denTurn := rfl
@[simp] theorem modReq_iss : (modReq s id f).iss = s.iss := rfl
@[simp] theorem modReq_agenda : (modReq s id f).agenda = s.agenda := rfl
@[simp] theorem modReq_turn : (modReq s id f).turn = s.turn := rfl
@[simp] theorem modReq_tick : (modReq s id f).tick = s.tick := rfl
@[simp] theorem modReq_free : (modReq s id f).free = s.free := rfl
@[simp] theorem modReq_nextId : (modReq s id f).nextId = s.nextId := rfl
end

section
variable (s : State) (id : Nat)
@[simp] theorem dropReq_feat : (dropReq s id).feat = s.feat := rfl
@[simp] theorem dropReq_booted : (dropReq s id).booted = s.booted := rfl
@[simp] theorem dropReq_refLost : (dropReq s id).refLost = s.refLost := rfl
@[simp] theorem dropReq_cfgRec : (dropReq s id).cfgRec = s.cfgRec := rfl
@[simp] theorem dropReq_recverMax : (dropReq s id).recverMax = s.recverMax := rfl
@[simp] theorem dropReq_dies : (dropReq s id).dies = s.dies := rfl
@[simp] theorem dropReq_quads : (dropReq s id).quads = s.quads := rfl
@[simp] theorem dropReq_mem : (dropReq s id).mem = s.mem := rfl
@[simp] theorem dropReq_poison : (dropReq s id).poison = s.poison := rfl
@[simp] theorem dropReq_l1 : (dropReq s id).l1 = s.l1 := rfl
@[simp] theorem dropReq_tlb : (dropReq s id).tlb = s.tlb := rfl
@[simp] theorem dropReq_bricks : (dropReq s id).bricks = s.bricks := rfl
@[simp] theorem dropReq_parts : (dropReq s id).parts = s.parts := rfl
@[simp] theorem dropReq_launches : (dropReq s id).launches = s.launches := rfl
@[simp] theorem dropReq_completed : (dropReq s id).completed = s.completed := rfl
@[simp] theorem dropReq_ends : (dropReq s id).ends = s.ends := rfl
@[simp] theorem dropReq_gangs : (dropReq s id).gangs = s.gangs := rfl
@[simp] theorem dropReq_blocks : (dropReq s id).blocks = s.blocks := rfl
@[simp] theorem dropReq_warps : (dropReq s id).warps = s.warps := rfl
@[simp] theorem dropReq_retained : (dropReq s id).retained = s.retained := rfl
@[simp] theorem dropReq_seqs : (dropReq s id).seqs = s.seqs := rfl
@[simp] theorem dropReq_copies : (dropReq s id).copies = s.copies := rfl
@[simp] theorem dropReq_tier : (dropReq s id).tier = s.tier := rfl
@[simp] theorem dropReq_chunks : (dropReq s id).chunks = s.chunks := rfl
@[simp] theorem dropReq_sectors : (dropReq s id).sectors = s.sectors := rfl
@[simp] theorem dropReq_releases : (dropReq s id).releases = s.releases := rfl
@[simp] theorem dropReq_images : (dropReq s id).images = s.images := rfl
@[simp] theorem dropReq_cuts : (dropReq s id).cuts = s.cuts := rfl
@[simp] theorem dropReq_granules : (dropReq s id).granules = s.granules := rfl
@[simp] theorem dropReq_keys : (dropReq s id).keys = s.keys := rfl
@[simp] theorem dropReq_handles : (dropReq s id).handles = s.handles := rfl
@[simp] theorem dropReq_scrub : (dropReq s id).scrub = s.scrub := rfl
@[simp] theorem dropReq_fw : (dropReq s id).fw = s.fw := rfl
@[simp] theorem dropReq_ports : (dropReq s id).ports = s.ports := rfl
@[simp] theorem dropReq_joins : (dropReq s id).joins = s.joins := rfl
@[simp] theorem dropReq_fetchq : (dropReq s id).fetchq = s.fetchq := rfl
@[simp] theorem dropReq_denTurn : (dropReq s id).denTurn = s.denTurn := rfl
@[simp] theorem dropReq_iss : (dropReq s id).iss = s.iss := rfl
@[simp] theorem dropReq_agenda : (dropReq s id).agenda = s.agenda := rfl
@[simp] theorem dropReq_turn : (dropReq s id).turn = s.turn := rfl
@[simp] theorem dropReq_tick : (dropReq s id).tick = s.tick := rfl
@[simp] theorem dropReq_free : (dropReq s id).free = s.free := rfl
@[simp] theorem dropReq_nextId : (dropReq s id).nextId = s.nextId := rfl
end

section
variable (s : State) (core lk num : Nat) (f : Brick → Brick)
@[simp] theorem modBrick_feat : (modBrick s core lk num f).feat = s.feat := rfl
@[simp] theorem modBrick_booted : (modBrick s core lk num f).booted = s.booted := rfl
@[simp] theorem modBrick_refLost : (modBrick s core lk num f).refLost = s.refLost := rfl
@[simp] theorem modBrick_cfgRec : (modBrick s core lk num f).cfgRec = s.cfgRec := rfl
@[simp] theorem modBrick_recverMax : (modBrick s core lk num f).recverMax = s.recverMax := rfl
@[simp] theorem modBrick_dies : (modBrick s core lk num f).dies = s.dies := rfl
@[simp] theorem modBrick_quads : (modBrick s core lk num f).quads = s.quads := rfl
@[simp] theorem modBrick_mem : (modBrick s core lk num f).mem = s.mem := rfl
@[simp] theorem modBrick_poison : (modBrick s core lk num f).poison = s.poison := rfl
@[simp] theorem modBrick_l1 : (modBrick s core lk num f).l1 = s.l1 := rfl
@[simp] theorem modBrick_tlb : (modBrick s core lk num f).tlb = s.tlb := rfl
@[simp] theorem modBrick_parts : (modBrick s core lk num f).parts = s.parts := rfl
@[simp] theorem modBrick_launches : (modBrick s core lk num f).launches = s.launches := rfl
@[simp] theorem modBrick_completed : (modBrick s core lk num f).completed = s.completed := rfl
@[simp] theorem modBrick_ends : (modBrick s core lk num f).ends = s.ends := rfl
@[simp] theorem modBrick_gangs : (modBrick s core lk num f).gangs = s.gangs := rfl
@[simp] theorem modBrick_blocks : (modBrick s core lk num f).blocks = s.blocks := rfl
@[simp] theorem modBrick_warps : (modBrick s core lk num f).warps = s.warps := rfl
@[simp] theorem modBrick_reqs : (modBrick s core lk num f).reqs = s.reqs := rfl
@[simp] theorem modBrick_retained : (modBrick s core lk num f).retained = s.retained := rfl
@[simp] theorem modBrick_seqs : (modBrick s core lk num f).seqs = s.seqs := rfl
@[simp] theorem modBrick_copies : (modBrick s core lk num f).copies = s.copies := rfl
@[simp] theorem modBrick_tier : (modBrick s core lk num f).tier = s.tier := rfl
@[simp] theorem modBrick_chunks : (modBrick s core lk num f).chunks = s.chunks := rfl
@[simp] theorem modBrick_sectors : (modBrick s core lk num f).sectors = s.sectors := rfl
@[simp] theorem modBrick_releases : (modBrick s core lk num f).releases = s.releases := rfl
@[simp] theorem modBrick_images : (modBrick s core lk num f).images = s.images := rfl
@[simp] theorem modBrick_cuts : (modBrick s core lk num f).cuts = s.cuts := rfl
@[simp] theorem modBrick_granules : (modBrick s core lk num f).granules = s.granules := rfl
@[simp] theorem modBrick_keys : (modBrick s core lk num f).keys = s.keys := rfl
@[simp] theorem modBrick_handles : (modBrick s core lk num f).handles = s.handles := rfl
@[simp] theorem modBrick_scrub : (modBrick s core lk num f).scrub = s.scrub := rfl
@[simp] theorem modBrick_fw : (modBrick s core lk num f).fw = s.fw := rfl
@[simp] theorem modBrick_ports : (modBrick s core lk num f).ports = s.ports := rfl
@[simp] theorem modBrick_joins : (modBrick s core lk num f).joins = s.joins := rfl
@[simp] theorem modBrick_fetchq : (modBrick s core lk num f).fetchq = s.fetchq := rfl
@[simp] theorem modBrick_denTurn : (modBrick s core lk num f).denTurn = s.denTurn := rfl
@[simp] theorem modBrick_iss : (modBrick s core lk num f).iss = s.iss := rfl
@[simp] theorem modBrick_agenda : (modBrick s core lk num f).agenda = s.agenda := rfl
@[simp] theorem modBrick_turn : (modBrick s core lk num f).turn = s.turn := rfl
@[simp] theorem modBrick_tick : (modBrick s core lk num f).tick = s.tick := rfl
@[simp] theorem modBrick_free : (modBrick s core lk num f).free = s.free := rfl
@[simp] theorem modBrick_nextId : (modBrick s core lk num f).nextId = s.nextId := rfl
end

section
variable (s : State) (k : Nat) (f : Port → Port)
@[simp] theorem modPort_feat : (modPort s k f).feat = s.feat := rfl
@[simp] theorem modPort_booted : (modPort s k f).booted = s.booted := rfl
@[simp] theorem modPort_refLost : (modPort s k f).refLost = s.refLost := rfl
@[simp] theorem modPort_cfgRec : (modPort s k f).cfgRec = s.cfgRec := rfl
@[simp] theorem modPort_recverMax : (modPort s k f).recverMax = s.recverMax := rfl
@[simp] theorem modPort_dies : (modPort s k f).dies = s.dies := rfl
@[simp] theorem modPort_quads : (modPort s k f).quads = s.quads := rfl
@[simp] theorem modPort_mem : (modPort s k f).mem = s.mem := rfl
@[simp] theorem modPort_poison : (modPort s k f).poison = s.poison := rfl
@[simp] theorem modPort_l1 : (modPort s k f).l1 = s.l1 := rfl
@[simp] theorem modPort_tlb : (modPort s k f).tlb = s.tlb := rfl
@[simp] theorem modPort_bricks : (modPort s k f).bricks = s.bricks := rfl
@[simp] theorem modPort_parts : (modPort s k f).parts = s.parts := rfl
@[simp] theorem modPort_launches : (modPort s k f).launches = s.launches := rfl
@[simp] theorem modPort_completed : (modPort s k f).completed = s.completed := rfl
@[simp] theorem modPort_ends : (modPort s k f).ends = s.ends := rfl
@[simp] theorem modPort_gangs : (modPort s k f).gangs = s.gangs := rfl
@[simp] theorem modPort_blocks : (modPort s k f).blocks = s.blocks := rfl
@[simp] theorem modPort_warps : (modPort s k f).warps = s.warps := rfl
@[simp] theorem modPort_reqs : (modPort s k f).reqs = s.reqs := rfl
@[simp] theorem modPort_retained : (modPort s k f).retained = s.retained := rfl
@[simp] theorem modPort_seqs : (modPort s k f).seqs = s.seqs := rfl
@[simp] theorem modPort_copies : (modPort s k f).copies = s.copies := rfl
@[simp] theorem modPort_tier : (modPort s k f).tier = s.tier := rfl
@[simp] theorem modPort_chunks : (modPort s k f).chunks = s.chunks := rfl
@[simp] theorem modPort_sectors : (modPort s k f).sectors = s.sectors := rfl
@[simp] theorem modPort_releases : (modPort s k f).releases = s.releases := rfl
@[simp] theorem modPort_images : (modPort s k f).images = s.images := rfl
@[simp] theorem modPort_cuts : (modPort s k f).cuts = s.cuts := rfl
@[simp] theorem modPort_granules : (modPort s k f).granules = s.granules := rfl
@[simp] theorem modPort_keys : (modPort s k f).keys = s.keys := rfl
@[simp] theorem modPort_handles : (modPort s k f).handles = s.handles := rfl
@[simp] theorem modPort_scrub : (modPort s k f).scrub = s.scrub := rfl
@[simp] theorem modPort_fw : (modPort s k f).fw = s.fw := rfl
@[simp] theorem modPort_joins : (modPort s k f).joins = s.joins := rfl
@[simp] theorem modPort_fetchq : (modPort s k f).fetchq = s.fetchq := rfl
@[simp] theorem modPort_denTurn : (modPort s k f).denTurn = s.denTurn := rfl
@[simp] theorem modPort_iss : (modPort s k f).iss = s.iss := rfl
@[simp] theorem modPort_agenda : (modPort s k f).agenda = s.agenda := rfl
@[simp] theorem modPort_turn : (modPort s k f).turn = s.turn := rfl
@[simp] theorem modPort_tick : (modPort s k f).tick = s.tick := rfl
@[simp] theorem modPort_free : (modPort s k f).free = s.free := rfl
@[simp] theorem modPort_nextId : (modPort s k f).nextId = s.nextId := rfl
end

/-! ## Lookups by name -/

/-- A warp found by a name has that name. -/
theorem findWarp_name {s : State} {n : WName} {w : Warp} (h : findWarp s n = some w) : w.name = n := by
  have := List.find?_some h; simpa using this

theorem find_map_same {n : WName} {f : Warp → Warp} {w : Warp} (hn : (f w).name = n) : ∀ {vs : List Warp},
    vs.find? (fun v => decide (v.name = n)) = some w →
    (vs.map (fun v => if v.name = n then f v else v)).find? (fun v => decide (v.name = n)) = some (f w)
  | [], h => by simp at h
  | v :: vs, h => by
    by_cases hv : v.name = n
    · simp only [List.find?_cons, hv, decide_true, Option.some.injEq] at h
      subst h
      simp [hv, hn]
    · simp only [List.find?_cons, hv, decide_false] at h
      simp only [List.map_cons, hv, if_false, List.find?_cons, decide_false]
      exact find_map_same hn h

theorem find_map_other {n m : WName} {f : Warp → Warp} (hm : m ≠ n) (hf : ∀ w, w.name = n → (f w).name = n) : ∀ (vs : List Warp),
    (vs.map (fun v => if v.name = n then f v else v)).find? (fun v => decide (v.name = m)) = vs.find? (fun v => decide (v.name = m))
  | [] => rfl
  | v :: vs => by
    have ih := find_map_other hm hf vs
    by_cases hv : v.name = n
    · simp [hv, hf v hv, Ne.symm hm, ih]
    · by_cases hv2 : v.name = m
      · simp [hv2, hm]
      · simp [hv, hv2, ih]

/-- The warp found after a change of the warp of that name, where the change keeps the name. -/
theorem findWarp_modWarp {s : State} {n : WName} {w : Warp} {f : Warp → Warp} (h : findWarp s n = some w) (hn : (f w).name = n) :
    findWarp (modWarp s n f) n = some (f w) := find_map_same hn h

/-- A change of one warp leaves the warps of other names alone. -/
theorem findWarp_modWarp_other {s : State} {n m : WName} {f : Warp → Warp} (hm : m ≠ n) (hf : ∀ w, w.name = n → (f w).name = n) :
    findWarp (modWarp s n f) m = findWarp s m := find_map_other hm hf s.warps

@[simp] theorem findWarp_modQuad (s : State) (core q : Nat) (f : Quad → Quad) (n : WName) : findWarp (modQuad s core q f) n = findWarp s n := by
  simp [findWarp]
@[simp] theorem findWarp_modPart (s : State) (p : Nat) (f : Part → Part) (n : WName) : findWarp (modPart s p f) n = findWarp s n := rfl
@[simp] theorem findWarp_modBlock (s : State) (lk blk : Nat) (sh : Bool) (f : Block → Block) (n : WName) :
    findWarp (modBlock s lk blk sh f) n = findWarp s n := rfl

/-! ## Frames -/

section
variable (fr : Frame) (t r : Nat) (x : Word)
@[simp] theorem setV_s : (fr.setV t r x).s = fr.s := rfl
@[simp] theorem setV_p : (fr.setV t r x).p = fr.p := rfl
@[simp] theorem setV_flags : (fr.setV t r x).flags = fr.flags := rfl
@[simp] theorem setV_win : (fr.setV t r x).win = fr.win := rfl
@[simp] theorem setS_v : (fr.setS r x).v = fr.v := rfl
@[simp] theorem setS_p : (fr.setS r x).p = fr.p := rfl
@[simp] theorem setS_flags : (fr.setS r x).flags = fr.flags := rfl
@[simp] theorem setS_win : (fr.setS r x).win = fr.win := rfl
@[simp] theorem setP_v (y : BitVec 12) : (fr.setP t y).v = fr.v := rfl
@[simp] theorem setP_s (y : BitVec 12) : (fr.setP t y).s = fr.s := rfl
@[simp] theorem setP_flags (y : BitVec 12) : (fr.setP t y).flags = fr.flags := rfl
@[simp] theorem setPred_v (k : Nat) (b : Bool) : (fr.setPred t k b).v = fr.v := rfl
@[simp] theorem setPred_s (k : Nat) (b : Bool) : (fr.setPred t k b).s = fr.s := rfl
@[simp] theorem setPred_flags (k : Nat) (b : Bool) : (fr.setPred t k b).flags = fr.flags := rfl
@[simp] theorem killV_s : (fr.killV t r).s = fr.s := rfl
@[simp] theorem killV_p : (fr.killV t r).p = fr.p := rfl
@[simp] theorem getS_setV (k : Nat) : (fr.setV t r x).getS k = fr.getS k := rfl
@[simp] theorem getP_setV (u : Nat) : (fr.setV t r x).getP u = fr.getP u := rfl
@[simp] theorem getV_setS (u k : Nat) : (fr.setS r x).getV u k = fr.getV u k := rfl
@[simp] theorem getP_setS (u : Nat) : (fr.setS r x).getP u = fr.getP u := rfl
@[simp] theorem getV_setPred (k : Nat) (b : Bool) (u j : Nat) : (fr.setPred t k b).getV u j = fr.getV u j := rfl
@[simp] theorem getS_setPred (k : Nat) (b : Bool) (j : Nat) : (fr.setPred t k b).getS j = fr.getS j := rfl
end

end Sys2Proof.Machine
end

