-- ==== Sys2Proof/Laws/Store.lean ====
section
/-! SUPPORT. Sorted maps and memory: a read after a write, and that every memory operation keeps the canonical form. -/

namespace Sys2Proof.Machine

variable {α : Type}

@[simp] theorem aget_aset_same (xs : List (Nat × α)) (k : Nat) (v : α) : aget (aset xs k v) k = some v := by
  induction xs with
  | nil => simp [aset, aget]
  | cons e xs ih =>
    obtain ⟨j, u⟩ := e
    by_cases h1 : k < j
    · simp [aset, aget, h1]
    · by_cases h2 : k = j
      · simp [aset, aget, h2]
      · have h3 : j ≠ k := fun h => h2 h.symm
        simp [aset, aget, h1, h2, h3, ih]

theorem aget_aset_other (xs : List (Nat × α)) {k m : Nat} (v : α) (h : m ≠ k) : aget (aset xs k v) m = aget xs m := by
  induction xs with
  | nil => simp [aset, aget, Ne.symm h]
  | cons e xs ih =>
    obtain ⟨j, u⟩ := e
    by_cases h1 : k < j
    · simp [aset, aget, h1, Ne.symm h]
    · by_cases h2 : k = j
      · subst h2; simp [aset, aget, Ne.symm h]
      · simp [aset, aget, h1, h2, ih]

@[simp] theorem aget_adel_same (xs : List (Nat × α)) (k : Nat) : aget (adel xs k) k = none := by
  induction xs with
  | nil => rfl
  | cons e xs ih =>
    obtain ⟨j, u⟩ := e
    by_cases h : k = j
    · subst h; simpa [adel] using ih
    · simp [adel, aget, h, Ne.symm h, ih]

theorem aget_adel_other (xs : List (Nat × α)) {k m : Nat} (h : m ≠ k) : aget (adel xs k) m = aget xs m := by
  induction xs with
  | nil => rfl
  | cons e xs ih =>
    obtain ⟨j, u⟩ := e
    by_cases h2 : k = j
    · subst h2; simp [adel, aget, Ne.symm h, ih]
    · simp [adel, aget, h2, ih]

variable [DecidableEq α]

@[simp] theorem agetD_aput_same (d : α) (xs : List (Nat × α)) (k : Nat) (v : α) : agetD (aput d xs k v) k d = v := by
  unfold aput agetD
  split
  · simp_all
  · simp

theorem agetD_aput_other (d : α) (xs : List (Nat × α)) {k m : Nat} (v : α) (h : m ≠ k) :
    agetD (aput d xs k v) m d = agetD xs m d := by
  unfold aput agetD
  split
  · rw [aget_adel_other xs h]
  · rw [aget_aset_other xs v h]

omit [DecidableEq α] in
theorem aabove_mono {j k : Nat} (h : j ≤ k) : ∀ {xs : List (Nat × α)}, aabove k xs = true → aabove j xs = true
  | [], _ => rfl
  | (m, u) :: xs, hx => by
    simp only [aabove, Bool.and_eq_true, decide_eq_true_eq] at hx ⊢
    exact ⟨by omega, aabove_mono h hx.2⟩

omit [DecidableEq α] in
theorem aabove_aset {j k : Nat} (v : α) (h : j < k) : ∀ {xs : List (Nat × α)}, aabove j xs = true → aabove j (aset xs k v) = true
  | [], _ => by simp [aset, aabove, h]
  | (m, u) :: xs, hx => by
    simp only [aabove, Bool.and_eq_true, decide_eq_true_eq] at hx
    unfold aset
    split
    · simp [aabove, h, hx.1, hx.2]
    · split
      · simp [aabove, h, hx.2]
      · simp [aabove, hx.1, aabove_aset v h hx.2]

omit [DecidableEq α] in
theorem aabove_adel {j k : Nat} : ∀ {xs : List (Nat × α)}, aabove j xs = true → aabove j (adel xs k) = true
  | [], _ => rfl
  | (m, u) :: xs, hx => by
    simp only [aabove, Bool.and_eq_true, decide_eq_true_eq] at hx
    unfold adel
    split
    · exact aabove_adel hx.2
    · simp [aabove, hx.1, aabove_adel hx.2]

omit [DecidableEq α] in
theorem asorted_aset (k : Nat) (v : α) : ∀ {xs : List (Nat × α)}, asorted xs = true → asorted (aset xs k v) = true
  | [], _ => by simp [aset, asorted, aabove]
  | (m, u) :: xs, hx => by
    simp only [asorted, Bool.and_eq_true] at hx
    unfold aset
    split
    · rename_i h
      simp [asorted, aabove, h, hx.1, hx.2, aabove_mono (Nat.le_of_lt h) hx.1]
    · split
      · rename_i h; simp [asorted, h, hx.1, hx.2]
      · rename_i h1 h2
        simp [asorted, aabove_aset v (by omega : m < k) hx.1, asorted_aset k v hx.2]

omit [DecidableEq α] in
theorem asorted_adel (k : Nat) : ∀ {xs : List (Nat × α)}, asorted xs = true → asorted (adel xs k) = true
  | [], _ => rfl
  | (m, u) :: xs, hx => by
    simp only [asorted, Bool.and_eq_true] at hx
    unfold adel
    split
    · exact asorted_adel k hx.2
    · simp [asorted, aabove_adel hx.1, asorted_adel k hx.2]

omit [DecidableEq α] in
theorem mem_aset {k : Nat} {v : α} {e : Nat × α} : ∀ {xs : List (Nat × α)}, e ∈ aset xs k v → e ∈ xs ∨ e = (k, v)
  | [], h => by simp [aset] at h; exact .inr h
  | (m, u) :: xs, h => by
    unfold aset at h
    split at h
    · rcases List.mem_cons.1 h with h | h
      · exact .inr h
      · exact .inl h
    · split at h
      · rcases List.mem_cons.1 h with h | h
        · exact .inr h
        · exact .inl (List.mem_cons_of_mem _ h)
      · rcases List.mem_cons.1 h with h | h
        · exact .inl (h ▸ List.mem_cons_self)
        · rcases mem_aset h with h | h
          · exact .inl (List.mem_cons_of_mem _ h)
          · exact .inr h

omit [DecidableEq α] in
theorem mem_adel {k : Nat} {e : Nat × α} : ∀ {xs : List (Nat × α)}, e ∈ adel xs k → e ∈ xs
  | (m, u) :: xs, h => by
    unfold adel at h
    split at h
    · exact List.mem_cons_of_mem _ (mem_adel h)
    · rcases List.mem_cons.1 h with h | h
      · exact h ▸ List.mem_cons_self
      · exact List.mem_cons_of_mem _ (mem_adel h)

/-- A write of a map in canonical form keeps the form. -/
theorem acanon_aput (d : α) {xs : List (Nat × α)} (k : Nat) (v : α) (h : acanon d xs = true) : acanon d (aput d xs k v) = true := by
  simp only [acanon, Bool.and_eq_true, List.all_eq_true, decide_eq_true_eq] at h ⊢
  unfold aput
  split
  · exact ⟨asorted_adel k h.1, fun e he => h.2 e (mem_adel he)⟩
  · rename_i hv
    refine ⟨asorted_aset k v h.1, fun e he => ?_⟩
    rcases mem_aset he with he | he
    · exact h.2 e he
    · rw [he]; exact hv

/-! ## Memory -/

/-- A byte written is the byte read. -/
@[simp] theorem readByte_writeByte_same (m : List Host.Cell) (a : Nat) (b : Byte) : readByte (writeByte m a b) a = b := by
  simp [readByte, writeByte]

/-- A byte written leaves every other address alone. -/
theorem readByte_writeByte_other (m : List Host.Cell) {a c : Nat} (b : Byte) (h : c ≠ a) :
    readByte (writeByte m a b) c = readByte m c := agetD_aput_other _ _ _ h

/-- Bytes outside a run that is written are unchanged. -/
theorem readByte_writeBytes_other : ∀ (bs : List Byte) (m : List Host.Cell) {a c : Nat}, (c < a ∨ a + bs.length ≤ c) →
    readByte (writeBytes m a bs) c = readByte m c
  | [], _, _, _, _ => rfl
  | b :: bs, m, a, c, h => by
    simp only [List.length_cons] at h
    rw [writeBytes, readByte_writeBytes_other bs _ (by omega), readByte_writeByte_other _ _ (by omega)]

/-- Byte `i` of a run that is written. -/
theorem readByte_writeBytes_in : ∀ (bs : List Byte) (m : List Host.Cell) (a i : Nat) (h : i < bs.length),
    readByte (writeBytes m a bs) (a + i) = bs[i]
  | b :: bs, m, a, 0, _ => by
    rw [writeBytes, readByte_writeBytes_other bs _ (by omega)]; simp
  | b :: bs, m, a, i + 1, h => by
    have := readByte_writeBytes_in bs (writeByte m a b) (a + 1) i (by simpa using h)
    rw [writeBytes, show a + (i + 1) = a + 1 + i by omega, this]; rfl

/-- A run of bytes written reads back. -/
theorem readBytes_writeBytes (bs : List Byte) (m : List Host.Cell) (a : Nat) : readBytes (writeBytes m a bs) a bs.length = bs := by
  have key : ∀ (n k : Nat) (m' : List Host.Cell) (c : Nat) (xs : List Byte), xs.length = n →
      (∀ i (h : i < xs.length), readByte m' (c + i) = xs[i]) → readBytes m' c n = xs := by
    intro n
    induction n with
    | zero => intro _ m' c xs hl _; simp [readBytes, List.length_eq_zero_iff.1 hl]
    | succ n ih =>
      intro k m' c xs hl hx
      cases xs with
      | nil => simp at hl
      | cons x xs =>
        have h0 := hx 0 (by simp)
        rw [readBytes, ih k m' (c + 1) xs (by simpa using hl) (fun i h => by
          have := hx (i + 1) (by simpa using h)
          rw [show c + 1 + i = c + (i + 1) by omega, this]; rfl)]
        simpa using h0
  exact key bs.length 0 _ a bs rfl (fun i h => readByte_writeBytes_in bs m a i h)

/-- A byte written keeps the canonical form. -/
theorem memWf_writeByte {m : List Host.Cell} (a : Nat) (b : Byte) (h : memWf m = true) : memWf (writeByte m a b) = true :=
  acanon_aput _ a b h

/-- A run of bytes written keeps the canonical form. -/
theorem memWf_writeBytes : ∀ (bs : List Byte) {m : List Host.Cell} (a : Nat), memWf m = true → memWf (writeBytes m a bs) = true
  | [], _, _, h => h
  | b :: bs, _, a, h => memWf_writeBytes bs (a + 1) (memWf_writeByte a b h)

end Sys2Proof.Machine
end

