-- ==== Sys2Proof/Laws/Issue.lean ====
section
/-! SUPPORT. What an issue does: a group that starts performs its body; the state after it; what a register write leaves. -/

namespace Sys2Proof.Machine

/-! ## The gate -/

/-- Everything that a start says. -/
theorem starts_iff {s : State} {spec : Ctx → Spec} {c : Ctx} {tids : List Nat} : starts s spec = some (c, tids) ↔
    ∃ c0, ctxOf s = some c0 ∧ c = startPass c0 ∧ tids = issuing s c (spec c).q ∧ c.grp.isEmpty = false ∧ c.rk < repCount s.iss.rep ∧
      gateOpen s c (c.sched (spec c).q) = true ∧ tids.isEmpty = false ∧
      (c.den.isSome && !(spec c).den) = false ∧ ((spec c).named.any (fun r => (recorded s c.w c.w.depth).contains r)) = false ∧
      (spec c).cause = none ∧ poolOk s c.w (spec c).dests = true := by
  unfold starts
  cases hc : ctxOf s with
  | none => simp
  | some c0 =>
    simp only [Option.some.injEq]
    constructor
    · intro h
      by_cases h1 : ((startPass c0).grp.isEmpty || decide ((startPass c0).rk ≥ repCount s.iss.rep)) = true
      · rw [if_pos h1] at h; exact absurd h (by simp)
      rw [if_neg h1] at h
      by_cases h2 : (!gateOpen s (startPass c0) ((startPass c0).sched (spec (startPass c0)).q)) = true
      · rw [if_pos h2] at h; exact absurd h (by simp)
      rw [if_neg h2] at h
      by_cases h3 : (issuing s (startPass c0) (spec (startPass c0)).q).isEmpty = true
      · rw [if_pos h3] at h; exact absurd h (by simp)
      rw [if_neg h3] at h
      by_cases h4 : ((startPass c0).den.isSome && !(spec (startPass c0)).den) = true
      · rw [if_pos h4] at h; exact absurd h (by simp)
      rw [if_neg h4] at h
      by_cases h5 : ((spec (startPass c0)).named.any (fun r => (recorded s (startPass c0).w (startPass c0).w.depth).contains r)) = true
      · rw [if_pos h5] at h; exact absurd h (by simp)
      rw [if_neg h5] at h
      cases h6 : (spec (startPass c0)).cause with
      | some k => rw [h6] at h; exact absurd h (by simp)
      | none =>
        rw [h6] at h
        by_cases h7 : poolOk s (startPass c0).w (spec (startPass c0)).dests = true
        · simp only [h7, if_true, Option.some.injEq, Prod.mk.injEq] at h
          obtain ⟨rfl, rfl⟩ := h
          simp only [Bool.or_eq_true, decide_eq_true_eq, not_or, Bool.not_eq_true] at h1
          exact ⟨c0, rfl, rfl, rfl, h1.1, by omega, by simpa using h2, by simpa using h3, by simpa using h4, by simpa using h5, h6, h7⟩
        · simp only [h7] at h; exact absurd h (by simp)
    · rintro ⟨c1, rfl, rfl, rfl, h1, h1', h2, h3, h4, h5, h6, h7⟩
      have h1'' : ¬ (startPass c0).rk ≥ repCount s.iss.rep := by omega
      rw [if_neg (by simp [h1, h1'']), if_neg (by simp only [h2]; decide), if_neg (by simp only [h3]; decide),
        if_neg (by simp only [h4]; decide), if_neg (by simp only [h5]; decide), h6]
      simp only [h7, if_true]

/-- A group that starts performs its body. -/
theorem issueWith_of_starts {s : State} {spec : Ctx → Spec} {body : Ctx → List Nat → State} {c : Ctx} {tids : List Nat}
    (h : starts s spec = some (c, tids)) : issueWith s spec body = .next (body c tids) := by
  obtain ⟨c0, hc, rfl, rfl, h1, _, h2, h3, h4, h5, h6, h7⟩ := starts_iff.1 h
  unfold issueWith
  rw [hc]
  dsimp only
  rw [if_neg (by simp only [h1]; decide), if_neg (by simp only [h2]; decide), if_neg (by simp only [h3]; decide),
    if_neg (by simp only [h4]; decide), if_neg (by simp only [h5]; decide), h6]
  simp only [h7, if_true]

/-- The same for an F word or L pair. -/
theorem issue_of_starts {u : Use} {f : FWord} {x : Option LExt} {s : State} {body : Ctx → FWord → List Nat → State} {c : Ctx}
    {tids : List Nat} (h : startsF u f x s = some (c, tids)) : issue u f x s body = .next (body c (atRep s c f) tids) :=
  issueWith_of_starts h

/-! ## The context -/

/-- What the context of the latch is. -/
theorem ctxOf_spec {s : State} {c : Ctx} (h : ctxOf s = some c) :
    ∃ w n, s.iss.w = some n ∧ findWarp s n = some w ∧ c.den = s.iss.den ∧ c.pc = s.iss.pc ∧ c.rk = s.iss.rk ∧
      c.w = (match s.iss.den with | some _ => { w with frames := w.frames.drop w.depth } | none => w) ∧ c.w.name = n := by
  unfold ctxOf at h
  split at h
  · exact absurd h (by simp)
  · rename_i n hn
    split at h
    · rename_i w l b g hw _ _ _
      simp only [Option.some.injEq] at h
      subst h
      refine ⟨w, n, hn, hw, rfl, rfl, rfl, rfl, ?_⟩
      have := findWarp_name hw
      cases s.iss.den <;> simpa using this
    · exact absurd h (by simp)

/-- The start of a pass changes what STALL has made ready, and nothing else of the warp. -/
theorem startPass_w (c : Ctx) : ∃ hz hd, (startPass c).w = { c.w with hazards := hz, holds := hd } := by
  show ∃ hz hd, (if c.rk > 0 then c.w.ripe else c.w.age (c.w.lastStall - c.w.since)) = _
  split <;> exact ⟨_, _, rfl⟩
@[simp] theorem startPass_name (c : Ctx) : (startPass c).w.name = c.w.name := by obtain ⟨_, _, h⟩ := startPass_w c; rw [h]
@[simp] theorem startPass_frames (c : Ctx) : (startPass c).w.frames = c.w.frames := by obtain ⟨_, _, h⟩ := startPass_w c; rw [h]
@[simp] theorem startPass_threads (c : Ctx) : (startPass c).w.threads = c.w.threads := by obtain ⟨_, _, h⟩ := startPass_w c; rw [h]
@[simp] theorem startPass_fpm (c : Ctx) : (startPass c).w.fpm = c.w.fpm := by obtain ⟨_, _, h⟩ := startPass_w c; rw [h]
@[simp] theorem startPass_kept (c : Ctx) : (startPass c).w.kept = c.w.kept := by obtain ⟨_, _, h⟩ := startPass_w c; rw [h]; rfl

/-! ## Frames of a warp as writes leave them -/

/-- A frame after a register write by operand code. -/
def frameCode (fr : Frame) (t code : Nat) (x : Word) : Frame :=
  if isV code then fr.setV t code x else if isS code then fr.setS (code - 0x80) x else fr
/-- A frame after writes from an operand code up. -/
def frameGroup (fr : Frame) (t code : Nat) : List Word → Frame
  | [] => fr
  | x :: xs => frameGroup (frameCode fr t code x) t (if code = opZero then code else code + 1) xs

theorem writeCode_frames (w : Warp) (den : Option Nat) (ts : List Nat) (t code : Nat) (x : Word) :
    (writeCode w den ts t code x).cur = frameCode w.cur t code x ∧ (writeCode w den ts t code x).frames.tail = w.frames.tail := by
  unfold writeCode frameCode writeV writeS
  split
  · split <;> exact ⟨rfl, rfl⟩
  · split <;> exact ⟨rfl, rfl⟩

theorem writeGroup_frames (w : Warp) (den : Option Nat) (ts : List Nat) (t : Nat) : ∀ (xs : List Word) (code : Nat),
    (writeGroup w den ts t code xs).cur = frameGroup w.cur t code xs ∧ (writeGroup w den ts t code xs).frames.tail = w.frames.tail := by
  intro xs
  induction xs generalizing w with
  | nil => intro _; exact ⟨rfl, rfl⟩
  | cons x xs ih =>
    intro code
    have h := ih (writeCode w den ts t code x) (if code = opZero then code else code + 1)
    have h2 := writeCode_frames w den ts t code x
    exact ⟨by rw [writeGroup, h.1, h2.1]; rfl, by rw [writeGroup, h.2, h2.2]⟩

theorem writePred_frames (w : Warp) (den : Option Nat) (ts : List Nat) (t k : Nat) (b : Bool) :
    (writePred w den ts t k b).cur = w.cur.setPred t k b ∧ (writePred w den ts t k b).frames.tail = w.frames.tail := by
  unfold writePred; split <;> exact ⟨rfl, rfl⟩

/-- A frame after predicate writes of a thread. -/
def framePreds (fr : Frame) (t : Nat) (ps : List (Nat × Bool)) : Frame := ps.foldl (fun g p => g.setPred t p.1 p.2) fr

theorem writePreds_frames (den : Option Nat) (ts : List Nat) (t : Nat) : ∀ (ps : List (Nat × Bool)) (w : Warp),
    (ps.foldl (fun w3 p => writePred w3 den ts t p.1 p.2) w).cur = framePreds w.cur t ps ∧
    (ps.foldl (fun w3 p => writePred w3 den ts t p.1 p.2) w).frames.tail = w.frames.tail
  | [], _ => ⟨rfl, rfl⟩
  | p :: ps, w => by
    have h := writePreds_frames den ts t ps (writePred w den ts t p.1 p.2)
    have h2 := writePred_frames w den ts t p.1 p.2
    exact ⟨by rw [List.foldl_cons, h.1, h2.1]; rfl, by rw [List.foldl_cons, h.2, h2.2]⟩

/-- A frame after the results of one thread. -/
def frameOut (u : Use) (f : FWord) (fr : Frame) (o : Nat × AluOut) : Frame :=
  framePreds (if u.d > 0 && !isQ f.d.toNat then frameGroup fr o.1 f.d.toNat (o.2.vals.take u.d) else fr) o.1 o.2.preds

theorem writeOuts_frames (den : Option Nat) (ts : List Nat) (u : Use) (f : FWord) : ∀ (outs : List (Nat × AluOut)) (w : Warp),
    (writeOuts w den ts u f outs).cur = outs.foldl (frameOut u f) w.cur ∧ (writeOuts w den ts u f outs).frames.tail = w.frames.tail
  | [], _ => ⟨rfl, rfl⟩
  | o :: outs, w => by
    have h := writeOuts_frames den ts u f outs
      (o.2.preds.foldl (fun w3 p => writePred w3 den ts o.1 p.1 p.2)
        (if u.d > 0 && !isQ f.d.toNat then writeGroup w den ts o.1 f.d.toNat (o.2.vals.take u.d) else w))
    have h2 := writePreds_frames den ts o.1 o.2.preds
      (if u.d > 0 && !isQ f.d.toNat then writeGroup w den ts o.1 f.d.toNat (o.2.vals.take u.d) else w)
    have h3 : (if u.d > 0 && !isQ f.d.toNat then writeGroup w den ts o.1 f.d.toNat (o.2.vals.take u.d) else w).cur =
        (if u.d > 0 && !isQ f.d.toNat then frameGroup w.cur o.1 f.d.toNat (o.2.vals.take u.d) else w.cur) ∧
        (if u.d > 0 && !isQ f.d.toNat then writeGroup w den ts o.1 f.d.toNat (o.2.vals.take u.d) else w).frames.tail = w.frames.tail := by
      split
      · exact writeGroup_frames w den ts o.1 _ _
      · exact ⟨rfl, rfl⟩
    refine ⟨?_, ?_⟩
    · unfold writeOuts at h ⊢; rw [List.foldl_cons, h.1, h2.1, h3.1]; rfl
    · unfold writeOuts at h ⊢; rw [List.foldl_cons, h.2, h2.2, h3.2]

/-! ## Reading a frame after writes -/

theorem getV_setV_same (fr : Frame) (t r : Nat) (x : Word) : (fr.setV t r x).getV t r = x := by simp [Frame.getV, Frame.setV, agetD]
theorem getV_setV_other (fr : Frame) {t r t' r' : Nat} (x : Word) (h : t' * 128 + r' ≠ t * 128 + r) :
    (fr.setV t r x).getV t' r' = fr.getV t' r' := by simp [Frame.getV, Frame.setV, agetD, aget_aset_other _ _ h]
theorem getS_setS_same (fr : Frame) (r : Nat) (x : Word) : (fr.setS r x).getS r = x := by simp [Frame.getS, Frame.setS]
theorem getS_setS_other (fr : Frame) {r r' : Nat} (x : Word) (h : r' ≠ r) : (fr.setS r x).getS r' = fr.getS r' :=
  agetD_aput_other _ _ _ h
theorem getP_setP_same (fr : Frame) (t : Nat) (y : BitVec 12) : (fr.setP t y).getP t = y := by simp [Frame.getP, Frame.setP]
theorem getP_setP_other (fr : Frame) {t t' : Nat} (y : BitVec 12) (h : t' ≠ t) : (fr.setP t y).getP t' = fr.getP t' :=
  agetD_aput_other _ _ _ h

/-- A register of a group that is written: `xs[k]` stands in register `code + k`, whole in the bank of v registers. -/
theorem frameGroup_getV (fr : Frame) (t : Nat) : ∀ (xs : List Word) (code k : Nat) (y : Word), code + xs.length ≤ 0x80 → xs[k]? = some y →
    (frameGroup fr t code xs).getV t (code + k) = y := by
  intro xs
  have low : ∀ (xs : List Word) (fr : Frame) (code r : Nat), r < code → code + xs.length ≤ 0x80 →
      (frameGroup fr t code xs).getV t r = fr.getV t r := by
    intro xs
    induction xs with
    | nil => intros; rfl
    | cons x xs ih =>
      intro fr code r hr hl
      simp only [List.length_cons] at hl
      have hv : isV code = true := by simp [isV]; omega
      have hz : code ≠ opZero := by simp [opZero]; omega
      simp only [frameGroup, frameCode, hv, if_true, hz, if_false]
      rw [ih _ (code + 1) r (by omega) (by omega), getV_setV_other _ _ (by omega)]
  induction xs generalizing fr with
  | nil => intro _ _ _ _ h; simp at h
  | cons x xs ih =>
    intro code k y hl h
    simp only [List.length_cons] at hl
    have hv : isV code = true := by simp [isV]; omega
    have hz : code ≠ opZero := by simp [opZero]; omega
    simp only [frameGroup, frameCode, hv, if_true, hz, if_false]
    cases k with
    | zero =>
      simp only [List.getElem?_cons_zero, Option.some.injEq] at h
      rw [show code + 0 = code by omega, low xs _ (code + 1) code (by omega) (by omega), getV_setV_same, h]
    | succ k =>
      have := ih (fr.setV t code x) (code + 1) k y (by omega) (by simpa using h)
      rw [show code + (k + 1) = code + 1 + k by omega]; exact this

/-- The same in the bank of s registers. -/
theorem frameGroup_getS (fr : Frame) (t : Nat) : ∀ (xs : List Word) (code k : Nat) (y : Word), 0x80 ≤ code → code + xs.length ≤ 0xC0 →
    xs[k]? = some y → (frameGroup fr t code xs).getS (code - 0x80 + k) = y := by
  intro xs
  have low : ∀ (xs : List Word) (fr : Frame) (code r : Nat), r < code - 0x80 → 0x80 ≤ code → code + xs.length ≤ 0xC0 →
      (frameGroup fr t code xs).getS r = fr.getS r := by
    intro xs
    induction xs with
    | nil => intros; rfl
    | cons x xs ih =>
      intro fr code r hr h8 hl
      simp only [List.length_cons] at hl
      have hv : isV code = false := by simp [isV]; omega
      have hs : isS code = true := by simp [isS]; omega
      have hz : code ≠ opZero := by simp [opZero]; omega
      simp only [frameGroup, frameCode, hv, hs, if_true, hz, if_false, Bool.false_eq_true]
      rw [ih _ (code + 1) r (by omega) (by omega) (by omega), getS_setS_other _ _ (by omega)]
  induction xs generalizing fr with
  | nil => intro _ _ _ _ _ h; simp at h
  | cons x xs ih =>
    intro code k y h8 hl h
    simp only [List.length_cons] at hl
    have hv : isV code = false := by simp [isV]; omega
    have hs : isS code = true := by simp [isS]; omega
    have hz : code ≠ opZero := by simp [opZero]; omega
    simp only [frameGroup, frameCode, hv, hs, if_true, hz, if_false, Bool.false_eq_true]
    cases k with
    | zero =>
      simp only [List.getElem?_cons_zero, Option.some.injEq] at h
      rw [show code - 0x80 + 0 = code - 0x80 by omega, low xs _ (code + 1) _ (by omega) (by omega) (by omega), getS_setS_same, h]
    | succ k =>
      have := ih (fr.setS (code - 0x80) x) (code + 1) k y (by omega) (by omega) (by simpa using h)
      rw [show code - 0x80 + (k + 1) = code + 1 - 0x80 + k by omega]; exact this

/-- Writes of another thread leave a v register alone. -/
theorem frameGroup_getV_thread (t t' r : Nat) (ht : t' ≠ t) (hr : r < 128) : ∀ (xs : List Word) (fr : Frame) (code : Nat),
    (frameGroup fr t code xs).getV t' r = fr.getV t' r
  | [], _, _ => rfl
  | x :: xs, fr, code => by
    rw [frameGroup, frameGroup_getV_thread t t' r ht hr xs]
    unfold frameCode
    split
    · rename_i h
      have : code < 128 := by simpa [isV] using h
      exact getV_setV_other _ _ (by omega)
    · split <;> rfl

theorem frameGroup_getP (t u : Nat) : ∀ (xs : List Word) (fr : Frame) (code : Nat), (frameGroup fr t code xs).getP u = fr.getP u
  | [], _, _ => rfl
  | x :: xs, fr, code => by
    rw [frameGroup, frameGroup_getP t u xs]
    unfold frameCode
    split
    · rfl
    · split <;> rfl

theorem framePreds_getV (t : Nat) (u r : Nat) : ∀ (ps : List (Nat × Bool)) (fr : Frame), (framePreds fr t ps).getV u r = fr.getV u r
  | [], _ => rfl
  | p :: ps, fr => framePreds_getV t u r ps (fr.setPred t p.1 p.2)
theorem framePreds_getS (t : Nat) (r : Nat) : ∀ (ps : List (Nat × Bool)) (fr : Frame), (framePreds fr t ps).getS r = fr.getS r
  | [], _ => rfl
  | p :: ps, fr => framePreds_getS t r ps (fr.setPred t p.1 p.2)
theorem framePreds_getP_thread (t u : Nat) (h : u ≠ t) : ∀ (ps : List (Nat × Bool)) (fr : Frame), (framePreds fr t ps).getP u = fr.getP u
  | [], _ => rfl
  | p :: ps, fr => by
    have := framePreds_getP_thread t u h ps (fr.setPred t p.1 p.2)
    exact this.trans (getP_setP_other _ _ h)

theorem setBit12_same (x : BitVec 12) (k : Nat) (b : Bool) (h : k < 12) : (setBit12 x k b).getLsbD k = b := by
  have hk : k = 0 ∨ k = 1 ∨ k = 2 ∨ k = 3 ∨ k = 4 ∨ k = 5 ∨ k = 6 ∨ k = 7 ∨ k = 8 ∨ k = 9 ∨ k = 10 ∨ k = 11 := by omega
  rcases hk with h | h | h | h | h | h | h | h | h | h | h | h <;> subst h <;> cases b <;> simp [setBit12]
theorem setBit12_other (x : BitVec 12) (k j : Nat) (b : Bool) (h : j ≠ k) : (setBit12 x k b).getLsbD j = x.getLsbD j := by
  by_cases hj : j < 12
  · have h1 : (BitVec.ofNat 12 (2 ^ k)).getLsbD j = false := by
      simp only [BitVec.getLsbD_ofNat, Nat.testBit_two_pow, Bool.and_eq_false_imp, decide_eq_true_eq, decide_eq_false_iff_not]
      exact fun _ => Ne.symm h
    cases b
    · simp only [setBit12, BitVec.getLsbD_and, BitVec.getLsbD_not, h1, Bool.false_eq_true, if_false, hj, decide_true, Bool.not_false, Bool.and_true]
    · simp only [setBit12, if_true, BitVec.getLsbD_or, h1, Bool.or_false]
  · simp [BitVec.getLsbD_of_ge _ _ (by omega : 12 ≤ j)]

/-- The predicates of a thread that are written, each once. -/
theorem framePreds_getP (t : Nat) : ∀ (ps : List (Nat × Bool)) (fr : Frame), (ps.map (·.1)).Nodup →
    (∀ p ∈ ps, p.1 < 12 → ((framePreds fr t ps).getP t).getLsbD p.1 = p.2) ∧
    (∀ k, k ∉ ps.map (·.1) → ((framePreds fr t ps).getP t).getLsbD k = (fr.getP t).getLsbD k)
  | [], _, _ => ⟨by simp, fun _ _ => rfl⟩
  | p :: ps, fr, hn => by
    simp only [List.map_cons, List.nodup_cons] at hn
    have ih := framePreds_getP t ps (fr.setPred t p.1 p.2) hn.2
    have e : framePreds fr t (p :: ps) = framePreds (fr.setPred t p.1 p.2) t ps := rfl
    rw [e]
    refine ⟨fun q hq h0 => ?_, fun k hk => ?_⟩
    · rcases List.mem_cons.1 hq with rfl | hq
      · rw [ih.2 _ hn.1, Frame.setPred, getP_setP_same, setBit12_same _ _ _ h0]
      · exact ih.1 q hq h0
    · simp only [List.map_cons, List.mem_cons, not_or] at hk
      rw [ih.2 k hk.2, Frame.setPred, getP_setP_same, setBit12_other _ _ _ _ hk.1]

end Sys2Proof.Machine
end

