-- ==== Sys2Proof/Laws/Alu.lean ====
section
/-! SUPPORT. Every instruction that computes registers and predicates from registers: what its completion leaves. -/

namespace Sys2Proof.Machine

/-! ## Warps as the pieces of an issue leave them -/

/-- A warp after writes to its shown frame: the frames below it are the same. -/
def FrameStep (w w' : Warp) : Prop := w'.name = w.name ∧ (w'.frames = w.frames ∨ ∃ g, w'.frames = g :: w.frames.tail)

theorem FrameStep.refl (w : Warp) : FrameStep w w := ⟨rfl, .inl rfl⟩
theorem FrameStep.trans {a b c : Warp} (h : FrameStep a b) (h2 : FrameStep b c) : FrameStep a c := by
  obtain ⟨n1, h⟩ := h
  obtain ⟨n2, h2⟩ := h2
  refine ⟨n2.trans n1, ?_⟩
  rcases h with h | ⟨g, h⟩ <;> rcases h2 with h2 | ⟨k, h2⟩
  · exact .inl (h2.trans h)
  · exact .inr ⟨k, by rw [h2, h]⟩
  · exact .inr ⟨g, by rw [h2, h]⟩
  · exact .inr ⟨k, by rw [h2, h]; rfl⟩

theorem frameStep_foldl {α : Type} {g : Warp → α → Warp} (h : ∀ w a, FrameStep w (g w a)) : ∀ (xs : List α) (w : Warp),
    FrameStep w (xs.foldl g w)
  | [], w => .refl w
  | a :: xs, w => (h w a).trans (frameStep_foldl h xs (g w a))

theorem frameStep_writeCode (w : Warp) (den : Option Nat) (ts : List Nat) (t code : Nat) (x : Word) :
    FrameStep w (writeCode w den ts t code x) := by
  unfold writeCode writeV writeS
  split
  · split <;> exact ⟨rfl, .inr ⟨_, rfl⟩⟩
  · split
    · exact ⟨rfl, .inr ⟨_, rfl⟩⟩
    · exact .refl w
theorem frameStep_writeGroup (den : Option Nat) (ts : List Nat) (t : Nat) : ∀ (xs : List Word) (w : Warp) (code : Nat),
    FrameStep w (writeGroup w den ts t code xs)
  | [], w, _ => .refl w
  | _ :: xs, w, code => (frameStep_writeCode w den ts t code _).trans (frameStep_writeGroup den ts t xs _ _)
theorem frameStep_writePred (w : Warp) (den : Option Nat) (ts : List Nat) (t k : Nat) (b : Bool) : FrameStep w (writePred w den ts t k b) := by
  unfold writePred; split <;> exact ⟨rfl, .inr ⟨_, rfl⟩⟩
theorem frameStep_writeOuts (den : Option Nat) (ts : List Nat) (u : Use) (f : FWord) (outs : List (Nat × AluOut)) (w : Warp) :
    FrameStep w (writeOuts w den ts u f outs) :=
  frameStep_foldl (fun w o => by
    refine FrameStep.trans ?_ (frameStep_foldl (fun w3 (p : Nat × Bool) => frameStep_writePred w3 den ts o.1 p.1 p.2) _ _)
    split
    · exact frameStep_writeGroup den ts o.1 _ w _
    · exact .refl w) outs w
theorem frameStep_killGroup (w : Warp) (t code n : Nat) : FrameStep w (killGroup w t code n) := by
  unfold killGroup; split
  · exact ⟨rfl, .inr ⟨_, rfl⟩⟩
  · exact .refl w
theorem frameStep_applyMarks (w : Warp) (u : Use) (f : FWord) (x : Option LExt) (r : Option RepWord) (rk : Nat) (ts : List Nat) :
    FrameStep w (applyMarks w u f x r rk ts) :=
  frameStep_foldl (fun w1 (fl : Fld) => frameStep_foldl (fun w2 (t : Nat) => frameStep_killGroup w2 t fl.code fl.n) ts w1) _ w

/-- What writes to the shown frame leave of every other field of the warp. -/
structure SameRest (w w' : Warp) : Prop where
  kept : w'.kept = w.kept
  fpm : w'.fpm = w.fpm
  race : w'.race = w.race

theorem SameRest.name {w w' : Warp} (h : SameRest w w') : w'.name = w.name := (congrArg Warp.name h.kept : w'.kept.name = w.kept.name)
theorem SameRest.refl (w : Warp) : SameRest w w := by constructor <;> rfl
theorem SameRest.trans {a b c : Warp} (h : SameRest a b) (k : SameRest b c) : SameRest a c :=
  ⟨k.kept.trans h.kept, k.fpm.trans h.fpm, k.race.trans h.race⟩

theorem sameRest_foldl {α : Type} {g : Warp → α → Warp} (h : ∀ w a, SameRest w (g w a)) : ∀ (xs : List α) (w : Warp),
    SameRest w (xs.foldl g w)
  | [], w => .refl w
  | a :: xs, w => (h w a).trans (sameRest_foldl h xs (g w a))
theorem sameRest_writeCode (w : Warp) (den : Option Nat) (ts : List Nat) (t code : Nat) (x : Word) :
    SameRest w (writeCode w den ts t code x) := by
  unfold writeCode writeV writeS
  split
  · split <;> constructor <;> rfl
  · split
    · constructor <;> rfl
    · exact .refl w
theorem sameRest_writeGroup (den : Option Nat) (ts : List Nat) (t : Nat) : ∀ (xs : List Word) (w : Warp) (code : Nat),
    SameRest w (writeGroup w den ts t code xs)
  | [], w, _ => .refl w
  | _ :: xs, w, code => (sameRest_writeCode w den ts t code _).trans (sameRest_writeGroup den ts t xs _ _)
theorem sameRest_writePred (w : Warp) (den : Option Nat) (ts : List Nat) (t k : Nat) (b : Bool) : SameRest w (writePred w den ts t k b) := by
  unfold writePred; split <;> constructor <;> rfl
theorem sameRest_writeOuts (den : Option Nat) (ts : List Nat) (u : Use) (f : FWord) (outs : List (Nat × AluOut)) (w : Warp) :
    SameRest w (writeOuts w den ts u f outs) :=
  sameRest_foldl (fun w o => by
    refine SameRest.trans ?_ (sameRest_foldl (fun w3 (p : Nat × Bool) => sameRest_writePred w3 den ts o.1 p.1 p.2) _ _)
    split
    · exact sameRest_writeGroup den ts o.1 _ w _
    · exact .refl w) outs w
theorem sameRest_killGroup (w : Warp) (t code n : Nat) : SameRest w (killGroup w t code n) := by
  unfold killGroup; split
  · constructor <;> rfl
  · exact .refl w
theorem sameRest_applyMarks (w : Warp) (u : Use) (f : FWord) (x : Option LExt) (r : Option RepWord) (rk : Nat) (ts : List Nat) :
    SameRest w (applyMarks w u f x r rk ts) :=
  sameRest_foldl (fun w1 (fl : Fld) => sameRest_foldl (fun w2 (t : Nat) => sameRest_killGroup w2 t fl.code fl.n) ts w1) _ w
theorem sameRest_interlock (w v : Warp) : SameRest v (interlock w v) := by constructor <;> rfl

/-! ## The end of an issue -/

theorem sameRest_stepThreads (s : State) (c : Ctx) (tids : List Nat) (w : Warp) :
    SameRest w (stepThreads s c tids w) ∧ (stepThreads s c tids w).frames = w.frames := by
  unfold stepThreads
  dsimp only
  split <;> exact ⟨by constructor <;> rfl, rfl⟩
theorem sameRest_passDone (w : Warp) (pc : Nat) (grp : List Nat) (d : Nat) (b : Bool) :
    SameRest w (passDone w pc grp d b) ∧ (passDone w pc grp d b).frames = w.frames := ⟨by constructor <;> rfl, rfl⟩
theorem noteHold_spec (w : Warp) (den : Option Nat) (flag pc : Nat) (tids inside : List Nat) (left id n : Nat) :
    SameRest w (noteHold w den flag pc tids inside left id n) ∧ (noteHold w den flag pc tids inside left id n).frames = w.frames ∧
      (noteHold w den flag pc tids inside left id n).threads = w.threads := by
  unfold noteHold
  split
  · exact ⟨.refl w, rfl, rfl⟩
  · split
    · exact ⟨by constructor <;> rfl, rfl, rfl⟩
    · split
      · exact ⟨.refl w, rfl, rfl⟩
      · exact ⟨by constructor <;> rfl, rfl, rfl⟩
/-- The warp after an issue: the one that the body leaves, its threads gone on; for a den thread its frame under those that are open. -/
theorem findWarp_finishAs {s : State} {c : Ctx} {tids : List Nat} {q : Sched} {inside : List Nat} {left : Nat} {w old : Warp}
    (h : findWarp s c.w.name = some old) (hn : w.name = c.w.name) :
    ∃ v, findWarp (finishAs s c tids q inside left w) c.w.name = some v ∧ SameRest w v ∧
      v.frames = (if c.den.isSome then old.frames.take old.depth ++ w.frames else w.frames) ∧
      v.threads = (if c.den.isSome then stepThreads s c tids w else passDone (stepThreads s c tids w) c.pc c.grp 0 true).threads := by
  have hs := sameRest_stepThreads s c tids w
  unfold finishAs
  cases hd : c.den with
  | some t =>
    simp only [Option.isSome_some, if_true]
    refine ⟨_, findWarp_modWarp h (hs.1.name.trans hn), ?_, ?_, rfl⟩
    · exact ⟨hs.1.kept, hs.1.fpm, hs.1.race⟩
    · exact congrArg (old.frames.take old.depth ++ ·) hs.2
  | none =>
    simp only [Option.isSome_none, Bool.false_eq_true, if_false, findWarp_modQuad]
    have hh := noteHold_spec (stepThreads s c tids w) none q.sig c.pc tids inside left 0 0
    have hp := sameRest_passDone (noteHold (stepThreads s c tids w) none q.sig c.pc tids inside left 0 0) c.pc c.grp
      (passDist q s.iss.words tids (!lastRep s c)) (lastRep s c)
    refine ⟨_, findWarp_modWarp h (hp.1.name.trans (hh.1.name.trans (hs.1.name.trans hn))), (hs.1.trans hh.1).trans hp.1,
      hp.2.trans (hh.2.1.trans hs.2), ?_⟩
    unfold passDone
    dsimp only
    rw [hh.2.2]
theorem findWarp_finish {s : State} {c : Ctx} {tids : List Nat} {q : Sched} {w old : Warp} (h : findWarp s c.w.name = some old)
    (hn : w.name = c.w.name) :
    ∃ v, findWarp (finish s c tids q w) c.w.name = some v ∧ SameRest w v ∧
      v.frames = (if c.den.isSome then old.frames.take old.depth ++ w.frames else w.frames) ∧
      v.threads = (if c.den.isSome then stepThreads s c tids w else passDone (stepThreads s c tids w) c.pc c.grp 0 true).threads :=
  findWarp_finishAs h hn

/-- The frame shown after an issue is the one that its body leaves. -/
theorem frameIn_finish {s : State} {c0 : Ctx} {w old v : Warp} (h0 : ctxOf s = some c0)
    (hold : ∃ w0, findWarp s c0.w.name = some w0 ∧ old.frames = w0.frames)
    (hstep : FrameStep c0.w w)
    (hv : v.frames = (if c0.den.isSome then old.frames.take old.depth ++ w.frames else w.frames)) : frameIn (startPass c0) v = w.cur := by
  obtain ⟨wx, n, hn, hw, hden, _, _, hcw, hname⟩ := ctxOf_spec h0
  obtain ⟨w0, hw0, hof⟩ := hold
  rw [hname] at hw0
  have : w0 = wx := Option.some.inj (hw0.symm.trans hw)
  subst this
  unfold frameIn Warp.cur
  show (if c0.den.isSome then _ else _) = _
  cases hd : c0.den with
  | none => simp only [hd, Option.isSome_none, Bool.false_eq_true, if_false] at hv ⊢; rw [hv]
  | some t =>
    simp only [hd, Option.isSome_some, if_true] at hv ⊢
    rw [hd] at hden
    rw [← hden] at hcw
    simp only at hcw
    have hdep : old.depth = w0.depth := by simp [Warp.depth, hof]
    rw [hv, hof, hdep]
    have hc : c0.w.frames = w0.frames.drop w0.depth := by rw [hcw]
    have hlen : c0.w.frames.length ≤ 1 := by rw [hc, List.length_drop]; unfold Warp.depth; omega
    rcases hstep.2 with he | ⟨g, he⟩
    · rw [he]
      cases hcf : c0.w.frames with
      | nil =>
        have : w0.frames = [] := by
          have hl := congrArg List.length (hc.symm.trans hcf)
          simp only [List.length_drop, Warp.depth, List.length_nil] at hl
          exact List.length_eq_zero_iff.1 (by omega)
        simp [this]
      | cons a as =>
        have has : as = [] := by rw [hcf] at hlen; simpa using hlen
        subst has; simp
    · have has : c0.w.frames.tail = [] := by
        cases hcf : c0.w.frames with
        | nil => rfl
        | cons a as => rw [hcf] at hlen; simpa using hlen
      rw [he, has]; simp

/-! ## Transfers through burrows -/

/-- Only the detector state of warps differs. -/
def SameWarps (s t : State) : Prop := ∀ n w, findWarp s n = some w → ∃ r, findWarp t n = some { w with race := r }

theorem SameWarps.refl (s : State) : SameWarps s s := fun _ w h => ⟨w.race, h⟩
theorem SameWarps.trans {a b c : State} (h : SameWarps a b) (k : SameWarps b c) : SameWarps a c := fun n w hw => by
  obtain ⟨r, h1⟩ := h n w hw
  obtain ⟨r2, h2⟩ := k n _ h1
  exact ⟨r2, h2⟩
theorem sameWarps_of_eq {s t : State} (h : t.warps = s.warps) : SameWarps s t := fun n w hw => ⟨w.race, by
  unfold findWarp at *; rw [h]; exact hw⟩
theorem sameWarps_modRace (s : State) (m : WName) (f : RaceSt → RaceSt) : SameWarps s (modRace s m f) := fun n w hw => by
  have hn := findWarp_name hw
  by_cases h : n = m
  · subst h
    exact ⟨_, findWarp_modWarp hw hn⟩
  · refine ⟨w.race, ?_⟩
    have := findWarp_modWarp_other (s := s) (f := fun w => { w with race := f w.race }) h (fun _ hw => hw)
    exact this.trans hw
theorem sameWarps_foldl {α : Type} {g : State → α → State} (h : ∀ s a, SameWarps s (g s a)) : ∀ (xs : List α) (s : State),
    SameWarps s (xs.foldl g s)
  | [], s => .refl s
  | a :: xs, s => (h s a).trans (sameWarps_foldl h xs (g s a))
theorem sameWarps_modRaceAny (s : State) (m : WName) (f : RaceSt → RaceSt) : SameWarps s (modRaceAny s m f) := by
  unfold modRaceAny modWarpAny; split
  · exact sameWarps_modRace s m f
  · exact sameWarps_of_eq rfl
theorem sameWarps_raceAcquire (s : State) (p : Party) (n : WName) (t : Nat) (sp : Space) (a z k : Nat) :
    SameWarps s (raceAcquire s p n t sp a z k) := by
  unfold raceAcquire; dsimp only; split
  · exact .refl s
  · exact sameWarps_modRaceAny s n _
theorem sameWarps_popEdges (s : State) (p : Party) (n : WName) (ts : List Nat) (sp : Space) (k : Nat) (ks : List Nat) :
    SameWarps s (popEdges s p n ts sp k ks) := by
  unfold popEdges; split
  · exact .refl s
  · exact sameWarps_foldl (fun s (a : Nat × Nat) => sameWarps_raceAcquire s p n _ sp a.1 1 k) _ s
theorem warps_deposits (sp : Space) (m : Nat) (rels : List (Nat × RelSrc)) : ∀ (xs : List (Nat × Nat)) (s : State),
    (xs.foldl (fun acc k => match rels[k.2 % m]? with
      | some e => raceDeposit (raceOverwrite acc sp k.1 1) sp k.1 1 e.2
      | none => acc) s).warps = s.warps
  | [], _ => rfl
  | x :: xs, s => by
    rw [List.foldl_cons, warps_deposits sp m rels xs]
    split <;> rfl
theorem sameWarps_pushEdges (s : State) (p : Party) (n : WName) (ts : List Nat) (sp : Space) (k : Nat) (ks : List Nat) :
    SameWarps s (pushEdges s p n ts sp k ks) := by
  unfold pushEdges; split
  · exact .refl s
  · split
    · exact .refl s
    · exact (sameWarps_of_eq (warps_deposits _ _ _ _ _)).trans (sameWarps_modRace _ n _)

/-- A transfer changes no warp but for its detector state. -/
theorem qTransfer_spec (s : State) (c : Ctx) (w : Warp) (ts : List Nat) (pops : List (Nat × Nat)) (push : Option Nat) (b : Block) :
    SameWarps s (qTransfer s c w ts pops push b).1 ∧ ∃ r, (qTransfer s c w ts pops push b).2 = { w with race := r } := by
  unfold qTransfer
  split
  · exact ⟨.refl s, w.race, rfl⟩
  · dsimp only
    refine ⟨?_, ?_⟩
    · have h1 : SameWarps s (modBlock s c.l.lk c.b.blk c.b.shadow (fun _ => b)) := sameWarps_of_eq rfl
      have h2 := h1.trans (sameWarps_popEdges _ (partyOf w c.den) c.w.name ts (.scratch c.l.lk c.b.blk c.b.shadow) 1 (popKeys c.b pops ts.length))
      cases push with
      | none => exact h2
      | some n => exact h2.trans (sameWarps_pushEdges _ _ _ _ _ _ _)
    · split
      · exact ⟨_, rfl⟩
      · exact ⟨w.race, rfl⟩

/-! ## Results of threads -/

theorem frameOut_getP (u : Use) (f : FWord) (fr : Frame) (o : Nat × AluOut) (t : Nat) (h : t ≠ o.1) : (frameOut u f fr o).getP t = fr.getP t := by
  unfold frameOut
  rw [framePreds_getP_thread _ _ h]
  split
  · exact frameGroup_getP _ _ _ _ _
  · rfl
theorem frameOut_getV (u : Use) (f : FWord) (fr : Frame) (o : Nat × AluOut) (t r : Nat) (h : t ≠ o.1) (hr : r < 128) :
    (frameOut u f fr o).getV t r = fr.getV t r := by
  unfold frameOut
  rw [framePreds_getV]
  split
  · exact frameGroup_getV_thread _ _ _ h hr _ _ _
  · rfl

/-- After the results of all threads, each thread's own stand: results are a function of the thread. -/
theorem foldl_frameOut (u : Use) (f : FWord) (g : Nat → AluOut) (P : Frame → Nat → Prop)
    (hP : ∀ fr t, P (frameOut u f fr (t, g t)) t) (hK : ∀ fr t t', t' ≠ t → P fr t' → P (frameOut u f fr (t, g t)) t') :
    ∀ (ts : List Nat) (fr : Frame) (done : List Nat), (∀ t ∈ done, P fr t) →
      ∀ t, (t ∈ done ∨ t ∈ ts) → P ((ts.map (fun t => (t, g t))).foldl (frameOut u f) fr) t
  | [], fr, done, h, t, ht => h t (by simpa using ht)
  | a :: ts, fr, done, h, t, ht => by
    refine foldl_frameOut u f g P hP hK ts _ (a :: done) (fun x hx => ?_) t ?_
    · by_cases hxa : x = a
      · subst hxa; exact hP fr x
      · rcases List.mem_cons.1 hx with h1 | h1
        · exact absurd h1 hxa
        · exact hK fr a x hxa (h x h1)
    · rcases ht with h1 | h1
      · exact .inl (List.mem_cons_of_mem _ h1)
      · rcases List.mem_cons.1 h1 with h1 | h1
        · exact .inl (by rw [h1]; exact List.mem_cons_self)
        · exact .inr h1

/-! ## The completion of an instruction -/

/-- Where D of an instruction without a cause may stand, at the repetition being issued: the group of registers that it writes is whole. -/
theorem dest_ok {s : State} {c : Ctx} {u : Use} {f : FWord} {x : Option LExt} (hc : (specOf s c u f x).cause = none)
    (hrk : c.rk < repCount s.iss.rep) (hd : u.d > 0) :
    (isV (atRep s c f).d.toNat = true → (atRep s c f).d.toNat + u.d ≤ 0x80) ∧
    (isS (atRep s c f).d.toNat = true → (atRep s c f).d.toNat + u.d ≤ 0xC0) := by
  unfold specOf causeOf at hc
  simp only at hc
  have hob : operandsBad u f x s.iss.rep = false := by
    cases h' : operandsBad u f x s.iss.rep with
    | false => rfl
    | true =>
      simp only [h', Bool.or_true, if_true] at hc
      repeat' split at hc
      all_goals simp at hc
  have hf : fldOk u s.iss.rep c.rk { which := 0, code := f.d.toNat, n := max u.d u.dr, read := decide (u.dr > 0), write := decide (u.d > 0) } = true := by
    unfold operandsBad at hob
    simp only [Bool.or_eq_false_iff, List.any_eq_false, List.mem_range] at hob
    have h1 := hob.1.1.2 c.rk hrk
    simp only [List.any_eq_true, not_exists, not_and] at h1
    have hmem : ({ which := 0, code := f.d.toNat, n := max u.d u.dr, read := decide (u.dr > 0), write := decide (u.d > 0) } : Fld) ∈ fieldsOf u f x := by
      unfold fieldsOf
      rw [if_pos (show u.d + u.dr > 0 by omega)]
      simp
    have := h1 _ hmem
    simpa using this
  unfold fldOk at hf
  simp only [Bool.and_eq_true, hd, decide_true, if_true, decide_eq_true_eq] at hf
  obtain ⟨⟨⟨_, hle⟩, _⟩, hg⟩ := hf
  have hcode : (atRep s c f).d.toNat = f.d.toNat + c.rk * repStep s.iss.rep 0 := by
    unfold atRep stepF repStep at *
    cases hr : s.iss.rep with
    | none => simp
    | some p =>
      simp only [hr, if_true] at hle ⊢
      rw [BitVec.toNat_add, BitVec.toNat_ofNat]
      have : c.rk * p.dstep.toNat < 256 := by omega
      rw [Nat.mod_eq_of_lt this, Nat.mod_eq_of_lt (by omega)]
  rw [hcode]
  generalize f.d.toNat + c.rk * repStep s.iss.rep 0 = code at *
  simp only [Bool.or_eq_true, beq_iff_eq, Bool.and_eq_true] at hg
  constructor
  · intro hv
    have h80 : code < 0x80 := by simpa [isV] using hv
    rcases hg with (h1 | ⟨_, h2⟩) | h3
    · omega
    · simp [opZero] at h2; omega
    · simp only [groupOk, hv, if_true, Bool.and_eq_true, decide_eq_true_eq] at h3; omega
  · intro hs
    have h80 : 0x80 ≤ code ∧ code < 0xC0 := by simpa [isS] using hs
    have hv : isV code = false := by simp [isV]; omega
    rcases hg with (h1 | ⟨_, h2⟩) | h3
    · omega
    · simp [opZero] at h2; omega
    · simp only [groupOk, hv, Bool.false_eq_true, if_false, Bool.and_eq_true, decide_eq_true_eq] at h3; omega

/-- A code of an operand field at a repetition, where the field may name it there. -/
theorem step_code {u : Use} {r : Option RepWord} {k n wh : Nat} {rd wr : Bool} {code : BitVec 8}
    (h : fldOk u r k { which := wh, code := code.toNat, n := n, read := rd, write := wr } = true) :
    (code + BitVec.ofNat 8 (k * repStep r wh)).toNat = code.toNat + k * repStep r wh := by
  unfold fldOk at h
  simp only [Bool.and_eq_true] at h
  have hle : code.toNat + k * repStep r wh ≤ 0xD1 := by
    have := h.1.1.2
    split at this <;> simp only [decide_eq_true_eq] at this <;> omega
  rw [BitVec.toNat_add, BitVec.toNat_ofNat, Nat.mod_eq_of_lt (by omega : k * repStep r wh < 2 ^ 8), Nat.mod_eq_of_lt (by omega)]
/-- v registers that a field names are whole in the bank. -/
theorem group_in_bank {u : Use} {r : Option RepWord} {k : Nat} {fl : Fld} (h : fldOk u r k fl = true)
    (hv : isV (fl.code + k * repStep r fl.which) = true) : fl.code + k * repStep r fl.which + fl.n ≤ 0x80 := by
  unfold fldOk at h
  simp only [Bool.and_eq_true, Bool.or_eq_true, beq_iff_eq] at h
  generalize fl.code + k * repStep r fl.which = code at *
  have h80 : code < 0x80 := by simpa [isV] using hv
  rcases h.2 with (h1 | ⟨_, h2⟩) | h3
  · omega
  · simp [opZero] at h2; omega
  · simp only [groupOk, hv, if_true, Bool.and_eq_true, decide_eq_true_eq] at h3; omega
/-- The v registers that the fields of an instruction without a cause name at the repetition being issued are whole in the bank. -/
theorem fields_in_bank {s : State} {c : Ctx} {u : Use} {f : FWord} {x : Option LExt} (hc : (specOf s c u f x).cause = none)
    (hrk : c.rk < repCount s.iss.rep) : ∀ fl ∈ fieldsOf u (atRep s c f) x, isV fl.code = true → fl.code + fl.n ≤ 0x80 := by
  have hok : ∀ fl ∈ fieldsOf u f x, fldOk u s.iss.rep c.rk fl = true := by
    unfold specOf causeOf at hc
    simp only at hc
    have hob : operandsBad u f x s.iss.rep = false := by
      cases h' : operandsBad u f x s.iss.rep with
      | false => rfl
      | true =>
        simp only [h', Bool.or_true, if_true] at hc
        repeat' split at hc
        all_goals simp at hc
    unfold operandsBad at hob
    simp only [Bool.or_eq_false_iff, List.any_eq_false, List.mem_range] at hob
    intro fl hfl
    have h1 := hob.1.1.2 c.rk hrk
    simp only [List.any_eq_true, not_exists, not_and] at h1
    simpa using h1 fl hfl
  clear hc
  intro fl hfl hv
  unfold atRep stepF at hfl
  cases hr : s.iss.rep with
  | none =>
    rw [hr] at hfl hok
    have := group_in_bank (hok fl hfl)
    simp only [repStep, Nat.mul_zero, Nat.add_zero] at this
    exact this hv
  | some p =>
    rw [hr] at hfl hok
    unfold fieldsOf at hfl hok
    simp only [List.mem_append] at hfl
    have fin : ∀ (wh n : Nat) (code : BitVec 8) (rd wr : Bool) (k : Nat), repStep (some p) wh = k →
        fl = { which := wh, code := (code + BitVec.ofNat 8 (c.rk * k)).toNat, n := n, read := rd, write := wr } →
        fldOk u (some p) c.rk { which := wh, code := code.toNat, n := n, read := rd, write := wr } = true → fl.code + fl.n ≤ 0x80 := by
      intro wh n code rd wr k hk he ho
      subst hk
      have h2 := group_in_bank ho
      have h3 := step_code ho
      subst he
      simp only at hv ⊢
      rw [h3] at hv ⊢
      exact h2 hv
    rcases hfl with ((h | h) | h) | h
    · split at h <;> rename_i hd
      · simp only [List.mem_singleton] at h
        exact fin 0 _ f.d _ _ p.dstep.toNat rfl h (hok _ (by rw [if_pos hd]; simp))
      · simp at h
    · split at h <;> rename_i hd
      · simp only [List.mem_singleton] at h
        exact fin 1 _ f.a _ _ p.astep.toNat rfl h (hok _ (by rw [if_pos hd]; simp))
      · simp at h
    · split at h <;> rename_i hd
      · simp only [List.mem_singleton] at h
        have hi : f.i = false := by
          simp only [Bool.and_eq_true, Bool.not_eq_true'] at hd; exact hd.2
        simp only [hi, Bool.false_eq_true, if_false] at h
        exact fin 2 _ f.b _ _ p.bstep.toNat rfl h (hok _ (by rw [if_pos hd]; simp))
      · simp at h
    · cases x with
      | none => simp at h
      | some e =>
        simp only at h
        split at h <;> rename_i hd
        · simp only [List.mem_singleton] at h
          exact fin 3 _ e.c _ _ 0 rfl (by simpa using h) (hok _ (by simp [hd]))
        · simp at h

/-- What `argsOf` says. -/
theorem args_spec {spec : State → Ctx → Spec} {u : Use} {f : FWord} {x : Option LExt} {s : State} {c : Ctx} {tids : List Nat} {ins : List AluIn}
    (h : argsOf spec u f x s = some (c, tids, ins)) :
    starts s (spec s) = some (c, tids) ∧
    qCause c.b c.w.name.w (qPops u (atRep s c f) x) (qPush u (atRep s c f)) (actors u (atRep s c f) tids).length = none ∧
    qStall c.b (qPops u (atRep s c f) x) (qPush u (atRep s c f)) (actors u (atRep s c f) tids).length = none ∧
    ((qPush u (atRep s c f)).isSome && accessesLeft s c.w.name s.nextId (actors u (atRep s c f) tids)) = false ∧
    popsPoison c.b (qPops u (atRep s c f) x) (actors u (atRep s c f) tids).length = false ∧
    ins = (actors u (atRep s c f) tids).map (fun t => aluIn s c u (atRep s c f) x (actors u (atRep s c f) tids)
      (popAll c.b c.w.name.w (actors u (atRep s c f) tids) (qPops u (atRep s c f) x)).2 t) := by
  unfold argsOf at h
  cases hs : starts s (spec s) with
  | none => rw [hs] at h; simp at h
  | some e =>
    obtain ⟨c1, tids1⟩ := e
    rw [hs] at h
    simp only at h
    split at h
    · simp at h
    · rename_i hq
      simp only [Option.some.injEq, Prod.mk.injEq] at h
      obtain ⟨rfl, rfl, rfl⟩ := h
      simp only [Bool.or_eq_true, not_or, Bool.not_eq_true, Option.isSome_eq_false_iff, Option.isNone_iff_eq_none] at hq
      exact ⟨rfl, hq.1.1.1, hq.1.1.2, hq.1.2, hq.2, rfl⟩

/-- The results of the acting threads, written in their order into one frame: each thread's own stand there. -/
theorem foldl_frameOut_vals {u : Use} {F : FWord} {tids : List Nat} (g : Nat → AluOut) (fr : Frame)
    (hV : isV F.d.toNat = true → F.d.toNat + u.d ≤ 0x80) (hS : isS F.d.toNat = true → F.d.toNat + u.d ≤ 0xC0)
    {t k : Nat} {y : Word} (ht : t ∈ actors u F tids) (hy : ((g t).vals.take u.d)[k]? = some y) :
    (isV F.d.toNat = true → (((actors u F tids).map (fun t => (t, g t))).foldl (frameOut u F) fr).getV t (F.d.toNat + k) = y) ∧
    (isS F.d.toNat = true → (((actors u F tids).map (fun t => (t, g t))).foldl (frameOut u F) fr).getS (F.d.toNat - 0x80 + k) = y) := by
  have hk : k < u.d := by
    have h1 := (List.getElem?_eq_some_iff.1 hy).1
    have h2 : ((g t).vals.take u.d).length ≤ u.d := by simp only [List.length_take]; omega
    omega
  constructor
  · intro h
    have hle := hV h
    have hnq : (u.d > 0 && !isQ F.d.toNat) = true := by
      have : F.d.toNat < 0x80 := by simpa [isV] using h
      simp [isQ]; omega
    refine foldl_frameOut u F g (fun fr t => ∀ y, ((g t).vals.take u.d)[k]? = some y → fr.getV t (F.d.toNat + k) = y)
      ?_ ?_ _ fr [] (by simp) t (.inr ht) y hy
    · intro fr t y hy
      unfold frameOut
      rw [framePreds_getV, if_pos hnq]
      refine frameGroup_getV _ _ _ _ _ _ ?_ hy
      simp only [List.length_take]; omega
    · intro fr t t' hne hP y hy
      rw [frameOut_getV _ _ _ _ _ _ hne (by omega)]; exact hP y hy
  · intro h
    have hle := hS h
    have h80 : 0x80 ≤ F.d.toNat := by
      have : 0x80 ≤ F.d.toNat ∧ F.d.toNat < 0xC0 := by simpa [isS] using h
      exact this.1
    have hnq : (u.d > 0 && !isQ F.d.toNat) = true := by
      have : 0x80 ≤ F.d.toNat ∧ F.d.toNat < 0xC0 := by simpa [isS] using h
      simp [isQ]; omega
    have huni : isUniform u F = true := by
      have : 0 < u.d := by omega
      simp [isUniform, this, h]
    have hone : actors u F tids = [t] := by
      unfold actors at ht ⊢
      rw [if_pos huni] at ht ⊢
      cases tids with
      | nil => simp at ht
      | cons a as => simp at ht; simp [ht]
    rw [hone]
    simp only [List.map_cons, List.map_nil, List.foldl_cons, List.foldl_nil]
    unfold frameOut
    rw [framePreds_getS, if_pos hnq]
    refine frameGroup_getS _ _ _ _ _ _ h80 ?_ hy
    simp only [List.length_take]; omega

theorem foldl_frameOut_preds (u : Use) (F : FWord) (ts : List Nat) (g : Nat → AluOut) (fr : Frame) {t : Nat} (ht : t ∈ ts)
    (hnd : ((g t).preds.map (·.1)).Nodup) (p : Nat × Bool) (hp : p ∈ (g t).preds) (h12 : p.1 < 12) :
    (((ts.map (fun t => (t, g t))).foldl (frameOut u F) fr).getP t).getLsbD p.1 = p.2 := by
  refine foldl_frameOut u F g (fun fr t => ((g t).preds.map (·.1)).Nodup → ∀ p ∈ (g t).preds, p.1 < 12 →
    (fr.getP t).getLsbD p.1 = p.2) ?_ ?_ _ fr [] (by simp) t (.inr ht) hnd p hp h12
  · intro fr t hnd p hp h12
    unfold frameOut
    exact (framePreds_getP t _ _ hnd).1 p hp h12
  · intro fr t t' hne hP hnd p hp h12
    rw [frameOut_getP _ _ _ _ _ hne]; exact hP hnd p hp h12

theorem aluWarp_spec (u : Use) (F : FWord) (x : Option LExt) (s : State) (c : Ctx) (ts : List Nat) (outs : List (Nat × AluOut)) :
    FrameStep c.w (aluWarp u F x s c ts outs) ∧ (aluWarp u F x s c ts outs).fpm = fpmAccrue c.w.fpm (allExc outs) ∧
    ∃ fr, (aluWarp u F x s c ts outs).cur = outs.foldl (frameOut u F) fr := by
  unfold aluWarp
  generalize hw1 : applyMarks { c.w with fpm := fpmAccrue c.w.fpm (allExc outs) } u F x s.iss.rep c.rk ts = w1
  have h1 := frameStep_writeOuts c.den ts u F outs w1
  have h2 : FrameStep { c.w with fpm := fpmAccrue c.w.fpm (allExc outs) } w1 := by rw [← hw1]; exact frameStep_applyMarks _ _ _ _ _ _ _
  have h3 := h2.trans h1
  have h4 : (writeOuts w1 c.den ts u F outs).fpm = fpmAccrue c.w.fpm (allExc outs) := by
    rw [(sameRest_writeOuts _ _ _ _ _ _).fpm, ← hw1, (sameRest_applyMarks _ _ _ _ _ _ _).fpm]
  have h5 := (writeOuts_frames c.den ts u F outs w1).1
  split
  · exact ⟨h3, h4, w1.cur, h5⟩
  · exact ⟨h3, h4, w1.cur, h5⟩

theorem zip_map_self {α : Type} (g : Nat → AluIn) (fn : AluIn → α) (hg : ∀ t, (g t).t = t) : ∀ ts : List Nat,
    ts.zip ((ts.map g).map fn) = (ts.map g).map (fun i => (i.t, fn i))
  | [] => rfl
  | a :: ts => by simp only [List.map_cons, List.zip_cons_cons, hg, zip_map_self g fn hg ts]

/-- The state that an instruction which computes registers leaves, where nothing stops it. -/
theorem aluAll_next {u : Use} {F : FWord} {x : Option LExt} {s : State} {fn : List AluIn → AluIn → AluOut} {c : Ctx} {tids : List Nat} {ins : List AluIn}
    (hqc : qCause c.b c.w.name.w (qPops u F x) (qPush u F) (actors u F tids).length = none)
    (hqs : qStall c.b (qPops u F x) (qPush u F) (actors u F tids).length = none)
    (hal : ((qPush u F).isSome && accessesLeft s c.w.name s.nextId (actors u F tids)) = false)
    (hpp : popsPoison c.b (qPops u F x) (actors u F tids).length = false) (outs : List (Nat × AluOut))
    (hins : ins = (actors u F tids).map (fun t => aluIn s c u F x (actors u F tids)
      (popAll c.b c.w.name.w (actors u F tids) (qPops u F x)).2 t)) (houts : outs = ins.map (fun i => (i.t, fn ins i)))
    (htrap : trapOf c.w.fpm outs = none) :
    ∃ b2, aluAll u x (fun ins => ins.map (fn ins)) s c F tids =
      finish (qTransfer s c (aluWarp u F x s c (actors u F tids) outs) (actors u F tids) (qPops u F x) (qPush u F) b2).1
        c tids (schedF F) (qTransfer s c (aluWarp u F x s c (actors u F tids) outs) (actors u F tids) (qPops u F x) (qPush u F) b2).2 := by
  unfold aluAll
  rw [show (if isUniform u F = true then tids.take 1 else tids) = actors u F tids from rfl]
  dsimp only
  rw [hqc]
  dsimp only
  rw [hqs]
  dsimp only
  rw [if_neg (by rw [hal]; decide), hpp]
  rw [if_neg (by decide)]
  rw [zip_map_self _ _ (fun _ => rfl), ← hins, ← houts, htrap]
  dsimp only
  exact ⟨_, rfl⟩


/-! ## What the results leave alone -/

/-- What writes of the registers `codes` and the predicates `wrote` by the threads `ids` leave of a frame. -/
structure Keep (ids codes : List Nat) (wrote : Nat → List Nat) (g h : Frame) : Prop where
  regs : ∀ τ r, r < 128 → (τ ∉ ids ∨ r ∉ codes) → h.getV τ r = g.getV τ r
  sregs : ∀ r, r < 64 → 0x80 + r ∉ codes → h.getS r = g.getS r
  preds : ∀ τ k, k < 12 → (τ ∈ ids → k ∉ wrote τ) → (h.getP τ).getLsbD k = (g.getP τ).getLsbD k
  frame : h.kept = g.kept

section
variable {ids codes : List Nat} {wrote : Nat → List Nat}
theorem Keep.refl (g : Frame) : Keep ids codes wrote g g := ⟨fun _ _ _ _ => rfl, fun _ _ _ => rfl, fun _ _ _ _ => rfl, rfl⟩
theorem Keep.trans {a b c : Frame} (h : Keep ids codes wrote a b) (k : Keep ids codes wrote b c) : Keep ids codes wrote a c :=
  ⟨fun τ r x y => (k.regs τ r x y).trans (h.regs τ r x y), fun r x y => (k.sregs r x y).trans (h.sregs r x y),
    fun τ j x y => (k.preds τ j x y).trans (h.preds τ j x y), k.frame.trans h.frame⟩
theorem keep_foldl {α : Type} {st : Frame → α → Frame} {xs : List α} (h : ∀ g, ∀ a ∈ xs, Keep ids codes wrote g (st g a)) (g : Frame) :
    Keep ids codes wrote g (xs.foldl st g) := by
  induction xs generalizing g with
  | nil => exact .refl g
  | cons a xs ih =>
    exact (h g a (List.mem_cons_self ..)).trans (ih (fun g b hb => h g b (List.mem_cons_of_mem _ hb)) (st g a))
theorem keep_setV (g : Frame) {t r : Nat} (x : Word) (ht : t ∈ ids) (hr : r ∈ codes) (hlt : r < 128) : Keep ids codes wrote g (g.setV t r x) := by
  refine ⟨fun τ k _ h => getV_setV_other _ _ fun e => ?_, fun _ _ _ => rfl, fun _ _ _ _ => rfl, rfl⟩
  have h1 : τ = t := by omega
  have h2 : k = r := by omega
  subst h1 h2
  rcases h with h | h
  · exact h ht
  · exact h hr
theorem keep_setS (g : Frame) {r : Nat} (x : Word) (hr : 0x80 + r ∈ codes) : Keep ids codes wrote g (g.setS r x) :=
  ⟨fun _ _ _ _ => rfl, fun _ _ h => getS_setS_other _ _ fun e => h (e ▸ hr), fun _ _ _ _ => rfl, rfl⟩
theorem keep_frameCode (g : Frame) {t code : Nat} (x : Word) (ht : t ∈ ids) (hr : code ∈ codes) : Keep ids codes wrote g (frameCode g t code x) := by
  unfold frameCode
  split
  · rename_i h
    exact keep_setV g x ht hr (by simpa [isV] using h)
  · split
    · rename_i h
      simp only [isS, Bool.and_eq_true, decide_eq_true_eq] at h
      exact keep_setS g x (by rw [show 0x80 + (code - 0x80) = code by omega]; exact hr)
    · exact .refl g
theorem keep_frameGroup {t : Nat} (ht : t ∈ ids) : ∀ (xs : List Word) (g : Frame) (code : Nat),
    (∀ k, k < xs.length → code + k ∈ codes) → Keep ids codes wrote g (frameGroup g t code xs)
  | [], g, _, _ => .refl g
  | x :: xs, g, code, h => by
    refine (keep_frameCode g x ht (by simpa using h 0 (by simp))).trans (keep_frameGroup ht xs _ _ fun k hk => ?_)
    split
    · exact h k (by simp only [List.length_cons]; omega)
    · have := h (k + 1) (by simp only [List.length_cons]; omega)
      rwa [show code + 1 + k = code + (k + 1) by omega]
theorem keep_framePreds {t : Nat} (ht : t ∈ ids) (ps : List (Nat × Bool)) (hw : ∀ p ∈ ps, p.1 ∈ wrote t) (g : Frame) :
    Keep ids codes wrote g (framePreds g t ps) := by
  refine keep_foldl (st := fun g (p : Nat × Bool) => g.setPred t p.1 p.2) (fun g p hp => ⟨fun _ _ _ _ => rfl, fun _ _ _ => rfl, fun τ k _ h => ?_, rfl⟩) g
  by_cases e : τ = t
  · subst e
    rw [Frame.setPred, getP_setP_same, setBit12_other _ _ _ _ (fun e => h ht (by rw [e]; exact hw p hp))]
  · rw [Frame.setPred, getP_setP_other _ _ e]
theorem keep_killV (g : Frame) {t r : Nat} (ht : t ∈ ids) (hr : r ∈ codes) (hlt : r < 128) : Keep ids codes wrote g (g.killV t r) := by
  refine ⟨fun τ k hk h => ?_, fun _ _ _ => rfl, fun _ _ _ _ => rfl, rfl⟩
  have : τ * 128 + k ≠ t * 128 + r := fun e => by
    have h1 : τ = t := by omega
    have h2 : k = r := by omega
    subst h1 h2
    rcases h with h | h
    · exact h ht
    · exact h hr
  simp only [Frame.getV, Frame.killV, agetD, aget_adel_other _ this]
theorem keep_applyMarks {w : Warp} {u : Use} {f : FWord} {x : Option LExt} {r : Option RepWord} {rk : Nat}
    (hf : ∀ fl ∈ fieldsOf u f x, isV fl.code = true → fl.code + fl.n ≤ 0x80)
    (hc : ∀ fl ∈ (fieldsOf u f x).filter (markApplies f r rk), ∀ k < fl.n, fl.code + k ∈ codes) :
    Keep ids codes wrote w.cur (applyMarks w u f x r rk ids).cur := by
  unfold applyMarks
  have inner : ∀ fl ∈ (fieldsOf u f x).filter (markApplies f r rk), ∀ (ts : List Nat), (∀ t ∈ ts, t ∈ ids) → ∀ w2 : Warp,
      Keep ids codes wrote w2.cur (ts.foldl (fun w2 t => killGroup w2 t fl.code fl.n) w2).cur := by
    intro fl hfl ts
    induction ts with
    | nil => exact fun _ w2 => .refl _
    | cons t ts ih =>
      intro ht w2
      refine Keep.trans ?_ (ih (fun a ha => ht a (List.mem_cons_of_mem _ ha)) (killGroup w2 t fl.code fl.n))
      unfold killGroup
      split
      · rename_i hv
        refine keep_foldl (fun g k hk => ?_) _
        have hk2 : k < fl.n := by simpa using hk
        have := hf fl (List.mem_filter.1 hfl).1 hv
        exact keep_killV g (ht t (List.mem_cons_self ..)) (hc fl hfl k hk2) (by omega)
      · exact .refl _
  clear hc
  revert inner
  generalize (fieldsOf u f x).filter (markApplies f r rk) = fls
  intro inner
  induction fls generalizing w with
  | nil => exact .refl _
  | cons fl fls ih =>
    exact (inner fl (List.mem_cons_self ..) ids (fun _ h => h) w).trans
      (ih (fun a ha => inner a (List.mem_cons_of_mem _ ha)))
end

/-! ## The rest of the package -/

theorem elsewhere_foldl {α : Type} {g : State → α → State} (h : ∀ s a, elsewhere (g s a) = elsewhere s) : ∀ (xs : List α) (s : State),
    elsewhere (xs.foldl g s) = elsewhere s
  | [], _ => rfl
  | a :: xs, s => (elsewhere_foldl h xs (g s a)).trans (h s a)
theorem isSome_sameWarps {s t : State} {n : WName} (h : SameWarps s t) (hn : (findWarp s n).isSome = true) : (findWarp t n).isSome = true := by
  obtain ⟨w, hw⟩ := Option.isSome_iff_exists.1 hn
  obtain ⟨r, hr⟩ := h n w hw
  rw [hr]; rfl
theorem elsewhere_modRaceAny {s : State} {n : WName} (f : RaceSt → RaceSt) (hn : (findWarp s n).isSome = true) :
    elsewhere (modRaceAny s n f) = elsewhere s := by
  unfold modRaceAny modWarpAny
  rw [if_pos (List.any_eq_true.2 (List.find?_isSome.1 hn))]
  rfl
theorem elsewhere_raceAcquire {s : State} {n : WName} (p : Party) (t : Nat) (sp : Space) (a z k : Nat) (hn : (findWarp s n).isSome = true) :
    elsewhere (raceAcquire s p n t sp a z k) = elsewhere s := by
  unfold raceAcquire; dsimp only; split
  · rfl
  · exact elsewhere_modRaceAny _ hn
theorem elsewhere_acquires {n : WName} (p : Party) (g : Nat → Nat) (sp : Space) (k : Nat) : ∀ (xs : List (Nat × Nat)) (s : State),
    (findWarp s n).isSome = true → elsewhere (xs.foldl (fun acc x => raceAcquire acc p n (g x.2) sp x.1 1 k) s) = elsewhere s
  | [], _, _ => rfl
  | x :: xs, s, hn => by
    rw [List.foldl_cons, elsewhere_acquires p g sp k xs _ (isSome_sameWarps (sameWarps_raceAcquire _ _ _ _ _ _ _ _) hn)]
    exact elsewhere_raceAcquire p _ sp _ _ _ hn
theorem elsewhere_popEdges {s : State} {n : WName} (p : Party) (ts : List Nat) (sp : Space) (k : Nat) (ks : List Nat)
    (hn : (findWarp s n).isSome = true) : elsewhere (popEdges s p n ts sp k ks) = elsewhere s := by
  unfold popEdges; split
  · rfl
  · exact elsewhere_acquires p (fun i => ts.getD (i % ts.length) 0) sp k _ _ hn
theorem elsewhere_deposits (sp : Space) (m : Nat) (rels : List (Nat × RelSrc)) : ∀ (xs : List (Nat × Nat)) (s : State),
    elsewhere (xs.foldl (fun acc k => match rels[k.2 % m]? with
      | some e => raceDeposit (raceOverwrite acc sp k.1 1) sp k.1 1 e.2
      | none => acc) s) = elsewhere s
  | [], _ => rfl
  | x :: xs, s => by
    rw [List.foldl_cons, elsewhere_deposits sp m rels xs]
    split <;> rfl
theorem elsewhere_pushEdges (s : State) (p : Party) (n : WName) (ts : List Nat) (sp : Space) (k : Nat) (ks : List Nat) :
    elsewhere (pushEdges s p n ts sp k ks) = elsewhere s := by
  unfold pushEdges; split
  · rfl
  · split
    · rfl
    · exact elsewhere_deposits _ _ _ _ _
theorem elsewhere_qTransfer {s : State} {c : Ctx} (w : Warp) (ts : List Nat) (pops : List (Nat × Nat)) (push : Option Nat) (b : Block)
    (hn : (findWarp s c.w.name).isSome = true) : elsewhere (qTransfer s c w ts pops push b).1 = elsewhere s := by
  unfold qTransfer
  split
  · rfl
  · dsimp only
    have h : elsewhere (popEdges (modBlock s c.l.lk c.b.blk c.b.shadow (fun _ => b)) (partyOf w c.den) c.w.name ts
        (.scratch c.l.lk c.b.blk c.b.shadow) 1 (popKeys c.b pops ts.length)) = elsewhere s :=
      elsewhere_popEdges _ _ _ _ _ hn
    cases push with
    | none => exact h
    | some n => exact (elsewhere_pushEdges _ _ _ _ _ _ _).trans h
theorem elsewhere_modQuad (s : State) (core q : Nat) (f : Quad → Quad) : elsewhere (modQuad s core q f) = elsewhere s := by
  unfold modQuad; split <;> rfl
theorem elsewhere_finishAs (s : State) (c : Ctx) (tids : List Nat) (q : Sched) (inside : List Nat) (left : Nat) (w : Warp) :
    elsewhere (finishAs s c tids q inside left w) = elsewhere s := by
  unfold finishAs
  dsimp only
  split
  · rfl
  · exact elsewhere_modQuad _ _ _ _
theorem elsewhere_finish (s : State) (c : Ctx) (tids : List Nat) (q : Sched) (w : Warp) : elsewhere (finish s c tids q w) = elsewhere s :=
  elsewhere_finishAs s c tids q _ _ w
theorem finishAs_blocks (s : State) (c : Ctx) (tids : List Nat) (q : Sched) (inside : List Nat) (left : Nat) (w : Warp) :
    let t := finishAs s c tids q inside left w
    t.blocks = s.blocks ∧ t.sectors = s.sectors ∧ t.releases = s.releases := by
  unfold finishAs modQuad
  dsimp only
  split
  · exact ⟨rfl, rfl, rfl⟩
  · split <;> exact ⟨rfl, rfl, rfl⟩
theorem finish_blocks (s : State) (c : Ctx) (tids : List Nat) (q : Sched) (w : Warp) :
    (finish s c tids q w).blocks = s.blocks ∧ (finish s c tids q w).sectors = s.sectors ∧ (finish s c tids q w).releases = s.releases :=
  finishAs_blocks s c tids q _ _ w
theorem findWarp_finishAs_other {s : State} {c : Ctx} {tids : List Nat} {q : Sched} {inside : List Nat} {left : Nat} {w : Warp} {n : WName}
    (h : n ≠ c.w.name) (hn : w.name = c.w.name) : findWarp (finishAs s c tids q inside left w) n = findWarp s n := by
  have h2 := (sameRest_stepThreads s c tids w).1.name.trans hn
  have h1 : ∀ b d, (passDone (noteHold (stepThreads s c tids w) none q.sig c.pc tids inside left 0 0) c.pc c.grp b d).name = c.w.name := fun b d =>
    (sameRest_passDone _ _ _ _ _).1.name.trans ((noteHold_spec _ _ _ _ _ _ _ _ _).1.name.trans h2)
  unfold finishAs
  dsimp only
  split
  · exact findWarp_modWarp_other h (fun _ _ => h2)
  · rw [findWarp_modQuad]
    exact findWarp_modWarp_other h (fun _ _ => h1 _ _)
theorem findWarp_finish_other {s : State} {c : Ctx} {tids : List Nat} {q : Sched} {w : Warp} {n : WName} (h : n ≠ c.w.name)
    (hn : w.name = c.w.name) : findWarp (finish s c tids q w) n = findWarp s n := findWarp_finishAs_other h hn

/-! ## Completion -/

/-- A context whose warp holds other counter latches. -/
def withLatch (c : Ctx) (l : List (Nat × Word)) : Ctx := { c with w := { c.w with latch1 := l } }

theorem aluWarp_keep {u : Use} {F : FWord} {x : Option LExt} {s : State} {c : Ctx} {ids : List Nat} {outs : List (Nat × AluOut)}
    {wrote : Nat → List Nat} (hids : ∀ o ∈ outs, o.1 ∈ ids) (hf : ∀ fl ∈ fieldsOf u F x, isV fl.code = true → fl.code + fl.n ≤ 0x80)
    (hw : ∀ o ∈ outs, ∀ p ∈ o.2.preds, p.1 ∈ wrote o.1) :
    Keep ids (touched u F x s.iss.rep c.rk) wrote c.w.cur (aluWarp u F x s c ids outs).cur ∧
    (aluWarp u F x s c ids outs).kept = c.w.kept := by
  have hm : Keep ids (touched u F x s.iss.rep c.rk) wrote c.w.cur
      (applyMarks { c.w with fpm := fpmAccrue c.w.fpm (allExc outs) } u F x s.iss.rep c.rk ids).cur :=
    keep_applyMarks (w := { c.w with fpm := fpmAccrue c.w.fpm (allExc outs) }) hf fun fl hfl k hk => by
      unfold touched
      refine List.mem_append_right _ (List.mem_flatten.2 ⟨_, List.mem_map_of_mem hfl, ?_⟩)
      exact List.mem_map.2 ⟨k, List.mem_range.2 hk, by omega⟩
  unfold aluWarp
  dsimp only
  have hk1 := (sameRest_applyMarks { c.w with fpm := fpmAccrue c.w.fpm (allExc outs) } u F x s.iss.rep c.rk ids).kept
  generalize applyMarks { c.w with fpm := fpmAccrue c.w.fpm (allExc outs) } u F x s.iss.rep c.rk ids = w1 at *
  have h5 := (writeOuts_frames c.den ids u F outs w1).1
  have hk2 := (sameRest_writeOuts c.den ids u F outs w1).kept
  have key : Keep ids (touched u F x s.iss.rep c.rk) wrote c.w.cur (writeOuts w1 c.den ids u F outs).cur := by
    rw [h5]
    refine hm.trans (keep_foldl (fun g o ho => ?_) _)
    unfold frameOut
    have hg : Keep ids (touched u F x s.iss.rep c.rk) wrote g
        (if u.d > 0 && !isQ F.d.toNat then frameGroup g o.1 F.d.toNat (o.2.vals.take u.d) else g) := by
      split
      · rename_i h
        simp only [Bool.and_eq_true, decide_eq_true_eq] at h
        refine keep_frameGroup (hids o ho) _ _ _ fun k hk => ?_
        unfold touched
        rw [if_pos h.1]
        refine List.mem_append_left _ (List.mem_map.2 ⟨k, List.mem_range.2 ?_, by omega⟩)
        rw [List.length_take] at hk; omega
      · exact .refl g
    exact hg.trans (keep_framePreds (hids o ho) _ (hw o ho) _)
  split
  · exact ⟨key, hk2.trans hk1⟩
  · exact ⟨key, hk2.trans hk1⟩

/-- The frames that a group does not run in, after its issue. -/
theorem otherFrames_finish {c : Ctx} {wx v w2 : Warp}
    (hcw : c.w.frames = (if c.den.isSome then wx.frames.drop wx.depth else wx.frames)) (hst : FrameStep c.w w2)
    (hv : v.frames = (if c.den.isSome then wx.frames.take wx.depth ++ w2.frames else w2.frames)) : otherFrames c v = otherFrames c wx := by
  unfold otherFrames
  cases hd : c.den with
  | none =>
    simp only [hd, Option.isSome_none, Bool.false_eq_true, if_false] at hv hcw ⊢
    rw [hv]
    rcases hst.2 with h | ⟨g, h⟩
    · rw [h, hcw]
    · rw [h, hcw]; rfl
  | some t =>
    simp only [hd, Option.isSome_some, if_true] at hv ⊢ hcw
    have hlen : c.w.frames.length = wx.frames.length - wx.depth := by rw [hcw, List.length_drop]
    cases hwf : wx.frames with
    | nil =>
      have h0 : w2.frames.length ≤ 1 := by
        rw [hwf] at hlen
        simp only [List.length_nil, Nat.zero_sub, List.length_eq_zero_iff] at hlen
        rcases hst.2 with h | ⟨g, h⟩ <;> simp [h, hlen]
      have : v.depth = 0 := by unfold Warp.depth; rw [hv, hwf]; simp; omega
      rw [this]; simp
    | cons a as =>
      have hdep : wx.depth = as.length := by simp [Warp.depth, hwf]
      have h1 : w2.frames.length = 1 := by
        have : c.w.frames.length = 1 := by rw [hlen, hdep, hwf]; simp
        rcases hst.2 with h | ⟨g, h⟩
        · rw [h, this]
        · rw [h]; simp [this]
      have hvl : v.depth = as.length := by unfold Warp.depth; rw [hv, List.length_append, h1, List.length_take, hdep, hwf]; simp
      rw [hvl, hv, hdep, hwf]
      rw [List.take_append_of_le_length (by simp)]
      simp [List.take_take]

theorem qPops_nil {u : Use} {f : FWord} {x : Option LExt} (h : (fieldsOf u f x).all (fun fl => !isQ fl.code) = true) :
    (qPops u f x).isEmpty = true ∧ (qPush u f).isNone = true := by
  have hfs : (fieldsOf u f x).filter (fun fl => fl.read && isQ fl.code) = [] := by
    rw [List.filter_eq_nil_iff]
    intro fl hfl
    have := List.all_eq_true.1 h fl hfl
    simp only [Bool.not_eq_true'] at this
    simp [this]
  refine ⟨by simp [qPops, hfs], ?_⟩
  unfold qPush
  split
  · rename_i hd
    simp only [Bool.and_eq_true, decide_eq_true_eq] at hd
    have := List.all_eq_true.1 h { which := 0, code := f.d.toNat, n := max u.d u.dr, read := decide (u.dr > 0), write := decide (u.d > 0) } (by
      unfold fieldsOf; rw [if_pos (show u.d + u.dr > 0 by omega)]; simp)
    simp only [Bool.not_eq_true'] at this
    rw [this] at hd; simp at hd
  · rfl

/-- Every instruction that computes registers and predicates from registers, where it issues, its q operands are there and no enabled
exception is signalled, completes: each acting thread's destination holds its result, %fpm accrues the exceptions, the rest stays. -/
theorem aluAll_givesOf {spec : State → Ctx → Spec} {u : Use} {f : FWord} {x : Option LExt} {s : State} {o : Host.Outcome State Fault Refusal}
    {fn : Ctx → List AluIn → AluIn → AluOut} (l : Ctx → List (Nat × Word))
    (hspec : ∀ c, (spec s c).cause = none → (specOf s c u f x).cause = none)
    (ho : ∀ c tids, starts s (spec s) = some (c, tids) →
      o = .next (aluAll u x (fun ins => ins.map (fn c ins)) s (withLatch c (l c)) (atRep s c f) tids)) : GivesOf spec u f x s o fn := by
  intro c tids ins hargs htrap
  obtain ⟨hst, hqc, hqs, hal, hpp, hins⟩ := args_spec hargs
  obtain ⟨c0, hc0, hcc, -, -, hrk, -, -, -, -, hcause, -⟩ := starts_iff.1 hst
  obtain ⟨wx, n, hn, hwx, hden, _, _, hcw, hname⟩ := ctxOf_spec hc0
  have hcn : c.w.name = n := by rw [hcc, startPass_name]; exact hname
  have halu := ho c tids hst
  have hd := fun h => dest_ok (f := f) (hspec c hcause) hrk h
  have hbank := fields_in_bank (f := f) (hspec c hcause) hrk
  generalize hF : atRep s c f = F at *
  have key := aluAll_next (fn := fn c) (c := withLatch c (l c)) hqc hqs hal hpp _ hins rfl htrap
  obtain ⟨b2, hb2⟩ := key
  obtain ⟨hfs, hfpm, fr, hcur⟩ := aluWarp_spec u F x s (withLatch c (l c)) (actors u F tids) (ins.map (fun i => (i.t, fn c ins i)))
  have hidt : ins.map (·.t) = actors u F tids := by
    rw [hins, List.map_map]
    exact (List.map_congr_left fun _ _ => rfl).trans (List.map_id _)
  have hkeep := aluWarp_keep (u := u) (F := F) (x := x) (s := s) (c := withLatch c (l c)) (ids := actors u F tids)
    (outs := ins.map (fun i => (i.t, fn c ins i)))
    (wrote := fun τ => ((ins.filter (fun i => i.t == τ)).map (fun i => (fn c ins i).preds.map (·.1))).flatten)
    (fun o ho => by
      obtain ⟨i, hi, rfl⟩ := List.mem_map.1 ho
      rw [← hidt]; exact List.mem_map_of_mem hi) hbank
    (fun o ho p hp => by
      obtain ⟨i, hi, rfl⟩ := List.mem_map.1 ho
      exact List.mem_flatten.2 ⟨_, List.mem_map.2 ⟨i, List.mem_filter.2 ⟨hi, by simp⟩, rfl⟩, List.mem_map_of_mem hp⟩)
  generalize aluWarp u F x s (withLatch c (l c)) (actors u F tids) (ins.map (fun i => (i.t, fn c ins i))) = w2 at *
  obtain ⟨hsame, r, hr⟩ := qTransfer_spec s (withLatch c (l c)) w2 (actors u F tids) (qPops u F x) (qPush u F) b2
  have helse := elsewhere_qTransfer (s := s) (c := withLatch c (l c)) w2 (actors u F tids) (qPops u F x) (qPush u F) b2
    (by show (findWarp s c.w.name).isSome = true; rw [hcn, hwx]; rfl)
  have hqn : ((qPops u F x).isEmpty && (qPush u F).isNone) = true →
      qTransfer s (withLatch c (l c)) w2 (actors u F tids) (qPops u F x) (qPush u F) b2 = (s, w2) := fun h => by
    unfold qTransfer; rw [if_pos h]
  generalize qTransfer s (withLatch c (l c)) w2 (actors u F tids) (qPops u F x) (qPush u F) b2 = q at *
  obtain ⟨r2, hold⟩ := hsame n wx hwx
  have hqn2 : q.2.name = c.w.name := by rw [hr]; exact hfs.1
  obtain ⟨v, hv, hvrest, hvf, -⟩ := findWarp_finish (tids := tids) (q := schedF F) (w := q.2) (c := withLatch c (l c)) (s := q.1)
    (old := { wx with race := r2 }) (by show findWarp q.1 c.w.name = _; rw [hcn]; exact hold) hqn2
  have hfs0 : FrameStep c0.w w2 := by
    have h1 : w2.name = c.w.name := hfs.1
    have h2 : w2.frames = c.w.frames ∨ ∃ g, w2.frames = g :: c.w.frames.tail := hfs.2
    rw [hcc, startPass_name] at h1
    rw [hcc, startPass_frames] at h2
    exact ⟨h1, h2⟩
  have hcv : frameIn c v = w2.cur := by
    subst hcc
    refine frameIn_finish (old := { wx with race := r2 }) (w := w2) hc0 ⟨wx, by rw [hname]; exact hwx, rfl⟩ hfs0 ?_
    rw [hvf, hr]; rfl
  have hwfpm : c.w.fpm = wx.fpm := by
    rw [hcc, startPass_fpm, hcw]; cases s.iss.den <;> rfl
  have hwkept : c.w.kept = wx.kept := by
    rw [hcc, startPass_kept, hcw]; cases s.iss.den <;> rfl
  refine ⟨_, wx, v, halu.trans (congrArg _ hb2), by rw [hcn]; exact hwx, hv, ?_, ?_, ?_⟩
  · rw [hvrest.fpm, hr, ← hwfpm]; exact hfpm
  · let g : Nat → AluOut := fun t => fn c ins (aluIn s c u F x (actors u F tids) (popAll c.b c.w.name.w (actors u F tids) (qPops u F x)).2 t)
    have hmap : ins.map (fun i => (i.t, fn c ins i)) = (actors u F tids).map (fun t => (t, g t)) := by
      show ins.map (fun i => (i.t, fn c ins i)) = (actors u F tids).map (fun t => (t, fn c ins _))
      generalize fn c ins = fn1
      rw [hins, List.map_map]; rfl
    intro i hi
    obtain ⟨ht, hgi⟩ : i.t ∈ actors u F tids ∧ fn c ins i = g i.t := by
      have hi2 := hi
      rw [hins] at hi2
      obtain ⟨t, ht, rfl⟩ := List.mem_map.1 hi2
      exact ⟨ht, rfl⟩
    rw [hgi]
    constructor
    · intro k y hy
      rw [hcv, hcur, hmap]
      have hud : u.d > 0 := by
        rcases Nat.eq_zero_or_pos u.d with h0 | h0
        · simp [h0] at hy
        · exact h0
      exact foldl_frameOut_vals g fr (hd hud).1 (hd hud).2 ht hy
    · intro hnd p hp h12
      rw [hcv, hcur, hmap]
      exact foldl_frameOut_preds u F _ g fr ht hnd p hp h12
  · rw [hidt]
    refine ⟨?_, ?_, ?_, ?_, ?_, ?_, ?_, ?_, ?_⟩
    · rw [hF, hcv]; exact hkeep.1.regs
    · rw [hF, hcv]; exact hkeep.1.sregs
    · rw [hcv]; exact hkeep.1.preds
    · rw [hcv]; exact hkeep.1.frame
    · refine otherFrames_finish (w2 := w2) ?_ hfs ?_
      · show c.w.frames = (if c.den.isSome then wx.frames.drop wx.depth else wx.frames)
        rw [hcc, startPass_frames, hcw]
        show _ = (if c0.den.isSome then _ else _)
        rw [hden]; cases s.iss.den <;> rfl
      · rw [hvf, hr]; rfl
    · rw [hvrest.kept, hr]
      exact hkeep.2.trans hwkept
    · intro m w' hm hw'
      rw [findWarp_finish_other (c := withLatch c (l c)) hm hqn2]
      exact hsame m w' hw'
    · exact (elsewhere_finish _ _ _ _ _).trans helse
    · intro hq
      rw [hF] at hq
      have hq2 := qPops_nil hq
      obtain rfl := hqn (by simp [hq2])
      exact finish_blocks _ _ _ _ _

/-- An instruction whose results are a function of what its threads read. -/
theorem aluAll_gives (u : Use) (f : FWord) (x : Option LExt) (s : State) (fn : Ctx → List AluIn → AluIn → AluOut) :
    GivesOf (fun s c => specOf s c u f x) u f x s (issue u f x s (fun c f' tids => aluAll u x (fun ins => ins.map (fn c ins)) s c f' tids)) fn :=
  aluAll_givesOf (fun c => c.w.latch1) (fun _ h => h) fun _ _ h => issue_of_starts (u := u) (f := f) (x := x) h
/-- The same where each thread's results are a function of its own operands. -/
theorem alu_gives (u : Use) (f : FWord) (x : Option LExt) (s : State) (fn : AluIn → AluOut) : Gives u f x s (alu u f x s fn) fn :=
  aluAll_gives u f x s (fun _ _ => fn)
/-- The trap of an instruction whose results are a function of what its threads read. -/
theorem aluAll_traps (u : Use) (f : FWord) (x : Option LExt) (s : State) (fn : List AluIn → AluIn → AluOut) :
    Traps u f x s (issue u f x s (aluAll u x (fun ins => ins.map (fn ins)) s)) (fun _ => fn) := by
  intro c tids ins k bad hargs htrap
  obtain ⟨hst, hqc, hqs, hal, hpp, hins⟩ := args_spec hargs
  have halu : issue u f x s (aluAll u x (fun ins => ins.map (fn ins)) s) =
      .next (aluAll u x (fun ins => ins.map (fn ins)) s c (atRep s c f) tids) := issue_of_starts (u := u) (f := f) (x := x) hst
  rw [halu]
  generalize atRep s c f = F at *
  unfold aluAll
  rw [show (if isUniform u F = true then tids.take 1 else tids) = actors u F tids from rfl]
  dsimp only
  rw [hqc]
  dsimp only
  rw [hqs]
  dsimp only
  rw [if_neg (by rw [hal]; decide), hpp]
  rw [if_neg (by decide)]
  rw [zip_map_self _ _ (fun _ => rfl), ← hins, htrap]
/-- Completion and trap of an instruction that gives each thread a function of its own operands. -/
theorem alu_computes (u : Use) (f : FWord) (x : Option LExt) (s : State) (fn : AluIn → AluOut) : Computes u f x s (alu u f x s fn) fn :=
  ⟨alu_gives u f x s fn, aluAll_traps u f x s (fun _ => fn)⟩
/-- Completion and trap of an instruction that gives each thread a function of what all of them read. -/
theorem aluAll_collects (u : Use) (f : FWord) (x : Option LExt) (s : State) (fn : List AluIn → AluIn → AluOut) :
    Collects u f x s (issue u f x s (aluAll u x (fun ins => ins.map (fn ins)) s)) fn :=
  ⟨aluAll_gives u f x s (fun _ => fn), aluAll_traps u f x s fn⟩

end Sys2Proof.Machine
end

