-- ==== Sys2Proof/Laws/Encode.lean ====
section
/-! SUPPORT. The fields of an encoded word are the fields it was made of, and what a group of encoded words decodes to. -/

namespace Sys2Proof

/-- The mask of X24 that an entry with no field of X24 leaves. -/
theorem xMask_zero (x : LExt) : xMask x 0 = true ↔ x.x24 = 0 := by
  have h : x.x24.toNat &&& 0xFFFFFF = x.x24.toNat := by
    rw [show (0xFFFFFF : Nat) = 2 ^ 24 - 1 from rfl, Nat.and_two_pow_sub_one_eq_mod, Nat.mod_eq_of_lt x.x24.isLt]
  simp only [xMask, Nat.sub_zero, h, decide_eq_true_eq]
  exact ⟨fun e => BitVec.eq_of_toNat_eq e, fun e => by rw [e]; rfl⟩
/-- The mask that leaves the lowest `n` bits of X24 to fields. -/
theorem xMask_low (x : LExt) (n : Nat) (hn : n ≤ 24) : xMask x (2 ^ n - 1) = true ↔ ∀ k, n ≤ k → x.x24.getLsbD k = false := by
  have hm : ∀ k, Nat.testBit (0xFFFFFF - (2 ^ n - 1)) k = (decide (n ≤ k) && decide (k < 24)) := by
    intro k
    by_cases hk : k < 24
    · have : ∀ n ≤ 24, ∀ k < 24, Nat.testBit (0xFFFFFF - (2 ^ n - 1)) k = decide (n ≤ k) := by decide
      rw [this n hn k hk, decide_eq_true hk, Bool.and_true]
    · rw [decide_eq_false hk, Bool.and_false]
      exact Nat.testBit_lt_two_pow (Nat.lt_of_le_of_lt (Nat.sub_le _ _) (Nat.lt_of_lt_of_le (by decide : 0xFFFFFF < 2 ^ 24) (Nat.pow_le_pow_right (by decide) (Nat.le_of_not_lt hk))))
  simp only [xMask, decide_eq_true_eq]
  constructor
  · intro h k hk
    have := congrArg (Nat.testBit · k) h
    simp only [Nat.testBit_and, hm, decide_eq_true hk, Bool.true_and, Nat.zero_testBit] at this
    by_cases hk2 : k < 24
    · rw [decide_eq_true hk2, Bool.and_true] at this
      exact this
    · exact BitVec.getLsbD_of_ge _ _ (Nat.le_of_not_lt hk2)
  · intro h
    apply Nat.eq_of_testBit_eq
    intro k
    simp only [Nat.testBit_and, hm, Nat.zero_testBit]
    by_cases hk : n ≤ k
    · have := h k hk
      rw [BitVec.getLsbD] at this
      rw [this, Bool.false_and]
    · rw [decide_eq_false hk, Bool.false_and, Bool.and_false]

theorem bit_append_hi {v w k : Nat} {x : BitVec v} {y : BitVec w} (h : w ≤ k) : (x ++ y).getLsbD k = x.getLsbD (k - w) := by
  rw [BitVec.getLsbD_append, if_neg (by omega)]
theorem bit_append_lo {v w k : Nat} {x : BitVec v} {y : BitVec w} (h : k < w) : (x ++ y).getLsbD k = y.getLsbD k := by
  rw [BitVec.getLsbD_append, if_pos h]
theorem bit_ofBool (b : Bool) : (BitVec.ofBool b).getLsbD 0 = b := by cases b <;> rfl

theorem fmtOf_packF (fmt : BitVec 2) (opc : BitVec 9) (f : FWord) : fmtOf (packF fmt opc f) = fmt := by
  simp only [fmtOf, packF]
  repeat first
    | with_reducible exact BitVec.extractLsb'_eq_self
    | refine Eq.trans (BitVec.extractLsb'_append_eq_of_le (by decide)) ?_
theorem opcOf_packF (fmt : BitVec 2) (opc : BitVec 9) (f : FWord) : opcOf (packF fmt opc f) = opc := by
  simp only [opcOf, packF]
  repeat first
    | with_reducible exact BitVec.extractLsb'_eq_self
    | refine Eq.trans (BitVec.extractLsb'_append_eq_of_le (by decide)) ?_
    | refine Eq.trans (BitVec.extractLsb'_append_eq_of_add_le (by decide)) ?_
theorem fieldsF_packF (fmt : BitVec 2) (opc : BitVec 9) (f : FWord) : fieldsF (packF fmt opc f) = f := by
  cases f with | mk stall wait sig gn gp lr v i d a b =>
  simp only [fieldsF, packF, FWord.mk.injEq]
  refine ⟨?_, ?_, ?_, ?_, ?_, ?_, ?_, ?_, ?_, ?_, ?_⟩
  all_goals repeat first
    | with_reducible exact BitVec.extractLsb'_eq_self
    | refine Eq.trans (BitVec.extractLsb'_append_eq_of_le (by decide)) ?_
    | refine Eq.trans (BitVec.extractLsb'_append_eq_of_add_le (by decide)) ?_
  all_goals repeat first
    | with_reducible exact bit_ofBool _
    | refine Eq.trans (bit_append_hi (by decide)) ?_
    | refine Eq.trans (bit_append_lo (by decide)) ?_
theorem fieldsL_packL (x : LExt) : fieldsL (packL x) = x := by
  cases x
  simp only [fieldsL, packL, LExt.mk.injEq]
  refine ⟨?_, ?_, ?_⟩
  all_goals repeat first
    | with_reducible exact BitVec.extractLsb'_eq_self
    | refine Eq.trans (BitVec.extractLsb'_append_eq_of_le (by decide)) ?_
    | refine Eq.trans (BitVec.extractLsb'_append_eq_of_add_le (by decide)) ?_
theorem fmtOf_packP (p : PWord) : fmtOf (packP p) = 1 := by
  simp only [fmtOf, packP]
  repeat first
    | with_reducible exact BitVec.extractLsb'_eq_self
    | refine Eq.trans (BitVec.extractLsb'_append_eq_of_le (by decide)) ?_
theorem fieldsP_packP (p : PWord) : fieldsP (packP p) = p := by
  cases p
  simp only [fieldsP, packP, PWord.mk.injEq]
  refine ⟨?_, ?_, ?_, ?_, ?_, ?_, ?_, ?_, ?_, ?_⟩
  all_goals repeat first
    | with_reducible exact BitVec.extractLsb'_eq_self
    | refine Eq.trans (BitVec.extractLsb'_append_eq_of_le (by decide)) ?_
    | refine Eq.trans (BitVec.extractLsb'_append_eq_of_add_le (by decide)) ?_
  all_goals repeat first
    | with_reducible exact bit_ofBool _
    | refine Eq.trans (bit_append_hi (by decide)) ?_
    | refine Eq.trans (bit_append_lo (by decide)) ?_
theorem fmtOf_packOrd (o : OrdWord) : fmtOf (packOrd o) = 2 := by
  simp only [fmtOf, packOrd]
  repeat first
    | with_reducible exact BitVec.extractLsb'_eq_self
    | refine Eq.trans (BitVec.extractLsb'_append_eq_of_le (by decide)) ?_
theorem prefixType_packOrd (o : OrdWord) : prefixType (packOrd o) = 0 := by
  simp only [prefixType, packOrd]
  repeat first
    | with_reducible exact BitVec.extractLsb'_eq_self
    | refine Eq.trans (BitVec.extractLsb'_append_eq_of_le (by decide)) ?_
    | refine Eq.trans (BitVec.extractLsb'_append_eq_of_add_le (by decide)) ?_
theorem fieldsOrd_packOrd (o : OrdWord) : fieldsOrd (packOrd o) = o := by
  cases o
  simp only [fieldsOrd, packOrd, OrdWord.mk.injEq]
  refine ⟨?_, ?_, ?_, ?_⟩
  all_goals repeat first
    | with_reducible exact BitVec.extractLsb'_eq_self
    | refine Eq.trans (BitVec.extractLsb'_append_eq_of_le (by decide)) ?_
    | refine Eq.trans (BitVec.extractLsb'_append_eq_of_add_le (by decide)) ?_
theorem fmtOf_packRep (r : RepWord) : fmtOf (packRep r) = 2 := by
  simp only [fmtOf, packRep]
  repeat first
    | with_reducible exact BitVec.extractLsb'_eq_self
    | refine Eq.trans (BitVec.extractLsb'_append_eq_of_le (by decide)) ?_
theorem prefixType_packRep (r : RepWord) : prefixType (packRep r) = 1 := by
  simp only [prefixType, packRep]
  repeat first
    | with_reducible exact BitVec.extractLsb'_eq_self
    | refine Eq.trans (BitVec.extractLsb'_append_eq_of_le (by decide)) ?_
    | refine Eq.trans (BitVec.extractLsb'_append_eq_of_add_le (by decide)) ?_
theorem fieldsRep_packRep (r : RepWord) : fieldsRep (packRep r) = r := by
  cases r
  simp only [fieldsRep, packRep, RepWord.mk.injEq]
  refine ⟨?_, ?_, ?_, ?_, ?_⟩
  all_goals repeat first
    | with_reducible exact BitVec.extractLsb'_eq_self
    | refine Eq.trans (BitVec.extractLsb'_append_eq_of_le (by decide)) ?_
    | refine Eq.trans (BitVec.extractLsb'_append_eq_of_add_le (by decide)) ?_

/-! ## What encoded words decode to -/

theorem leading_prefixWords (b : Bool) (o : Option OrdWord) (r : Option RepWord) (w : Code) (rest : List Code) (hw : fmtOf w ≠ 2) :
    leadingPrefixes (prefixWords b o r ++ w :: rest) = prefixWords b o r := by
  have hw2 : ¬ fmtOf w = 2#2 := hw
  cases b <;> cases o <;> cases r <;> rcases rest with _ | ⟨x, _ | ⟨y, rest⟩⟩ <;>
    simp [prefixWords, leadingPrefixes, fmtOf_packOrd, fmtOf_packRep, hw2]
theorem length_prefixWords (b : Bool) (o : Option OrdWord) (r : Option RepWord) : (prefixWords b o r).length ≤ 2 := by
  cases b <;> cases o <;> cases r <;> simp [prefixWords]
theorem ordOf_prefixWords (b : Bool) (o : Option OrdWord) (r : Option RepWord) : ordOf (prefixWords b o r) = o := by
  cases b <;> cases o <;> cases r <;> simp [prefixWords, ordOf, prefixType_packOrd, prefixType_packRep, fieldsOrd_packOrd]
theorem repOf_prefixWords (b : Bool) (o : Option OrdWord) (r : Option RepWord) : repOf (prefixWords b o r) = r := by
  cases b <;> cases o <;> cases r <;> simp [prefixWords, repOf, prefixType_packOrd, prefixType_packRep, fieldsRep_packRep]
theorem prefixTwice_prefixWords (b : Bool) (o : Option OrdWord) (r : Option RepWord) : prefixTwice (prefixWords b o r) = false := by
  cases b <;> cases o <;> cases r <;> simp [prefixWords, prefixTwice, prefixType_packOrd, prefixType_packRep]
theorem undefined_prefixWords (b : Bool) {o : Option OrdWord} {r : Option RepWord} (ho : o.all (fun x => encOk (.ord x)) = true)
    (hr : r.all (fun x => encOk (.rep x)) = true) : (prefixWords b o r).any prefixUndefined = false := by
  cases b <;> cases o <;> cases r <;>
    simp_all [prefixWords, prefixUndefined, prefixType_packOrd, prefixType_packRep, fieldsOrd_packOrd, fieldsRep_packRep]
/-- A group of an instruction word and what belongs to it. -/
theorem decodeGroup_prefixWords (b : Bool) (o : Option OrdWord) (r : Option RepWord) (w : Code) (rest : List Code) (hw : fmtOf w ≠ 2) :
    decodeGroup (prefixWords b o r ++ w :: rest) = decodeBody (prefixWords b o r) (w :: rest) := by
  have h := length_prefixWords b o r
  simp only [decodeGroup, leading_prefixWords b o r w rest hw]
  rw [if_neg (by omega), List.drop_left]
theorem reads_F {opc : BitVec 9} {f : FWord} {i : Instr} (hi : opcodeF opc.toNat f = some i) (he : encOk i = true)
    (henc : encode i = encF opc f) : ReadsBack i := by
  have hf : fmtOf (packF 0 opc f) = 0 := fmtOf_packF 0 opc f
  unfold ReadsBack
  rw [henc]
  simp only [encF, List.headD_cons, hf]
  rw [if_neg (by decide)]
  intro b o r rest h
  simp only [takesPrefixes, Bool.and_eq_true, hf, opcOf_packF, fieldsF_packF] at h
  obtain ⟨⟨ho, hr⟩, hp⟩ := h
  rw [if_neg (by decide)] at hp
  rw [List.append_assoc, List.singleton_append, decodeGroup_prefixWords b o r _ rest (by rw [hf]; decide)]
  unfold decodeBody
  simp only [hf, undefined_prefixWords b ho hr, opcOf_packF, fieldsF_packF, ordOf_prefixWords, repOf_prefixWords, prefixTwice_prefixWords]
  simp [hi, he, Bool.not_eq_true' .. ▸ hp]
theorem reads_L {opc : BitVec 9} {f : FWord} {x : LExt} {i : Instr} (hi : opcodeL opc.toNat f x = some i) (he : encOk i = true)
    (henc : encode i = encL opc f x) : ReadsBack i := by
  have hf : fmtOf (packF 3 opc f) = 3 := fmtOf_packF 3 opc f
  unfold ReadsBack
  rw [henc]
  simp only [encL, List.headD_cons, hf]
  rw [if_neg (by decide)]
  intro b o r rest h
  simp only [takesPrefixes, Bool.and_eq_true, hf, opcOf_packF, fieldsF_packF] at h
  obtain ⟨⟨ho, hr⟩, hp⟩ := h
  rw [if_neg (by decide)] at hp
  rw [List.append_assoc, List.cons_append, decodeGroup_prefixWords b o r _ _ (by rw [hf]; decide)]
  unfold decodeBody
  simp only [hf, undefined_prefixWords b ho hr, opcOf_packF, fieldsF_packF, ordOf_prefixWords, repOf_prefixWords, prefixTwice_prefixWords]
  simp [hi, he, Bool.not_eq_true' .. ▸ hp, fieldsL_packL]
theorem reads_P {p : PWord} (he : encOk (.pairWord p) = true) : ReadsBack (.pairWord p) := by
  have hf : fmtOf (packP p) = 1 := fmtOf_packP p
  unfold ReadsBack
  rw [show encode (.pairWord p) = [packP p] from rfl]
  simp only [List.headD_cons, hf]
  rw [if_neg (by decide)]
  intro b o r rest h
  simp only [takesPrefixes, Bool.and_eq_true, hf, if_true] at h
  obtain ⟨⟨ho, hr⟩, h1, h2⟩ := h
  rw [Option.isNone_iff_eq_none] at h1 h2
  subst h1 h2
  rw [List.append_assoc, List.singleton_append, decodeGroup_prefixWords b none none _ rest (by rw [hf]; decide)]
  unfold decodeBody
  cases b <;> simp [hf, prefixWords, fieldsP_packP, he]
theorem head_tableWords (w : Code) : (tableWords 64 w.toNat).headD 0 = w := by
  show BitVec.ofNat 64 (w.toNat / 2 ^ (64 * 0)) = w
  simp
theorem reads_ord {o : OrdWord} (he : encOk (.ord o) = true) : ReadsBack (.ord o) := by
  unfold ReadsBack
  rw [show encode (.ord o) = [packOrd o] from rfl]
  simp only [List.headD_cons, fmtOf_packOrd, if_true, decodeTableWord, head_tableWords, prefixUndefined, prefixType_packOrd,
    fieldsOrd_packOrd]
  simp [he]
theorem reads_rep {r : RepWord} (he : encOk (.rep r) = true) : ReadsBack (.rep r) := by
  unfold ReadsBack
  rw [show encode (.rep r) = [packRep r] from rfl]
  simp only [List.headD_cons, fmtOf_packRep, if_true, decodeTableWord, head_tableWords, prefixUndefined, prefixType_packRep,
    fieldsRep_packRep]
  simp [he]

end Sys2Proof
end

