-- ==== Sys2Proof/Laws/Shows.lean ====
section
/-! SUPPORT. The end of an issue as Shows says it: what `finish` leaves. -/

namespace Sys2Proof.Machine

theorem goOn_den (s : State) (c : Ctx) (tids : List Nat) (t : Thread) : (goOn s c tids t).den = t.den := by
  unfold goOn; dsimp only; split
  · rfl
  · split
    · rfl
    · split <;> rfl
theorem stance_goOn (s : State) (c : Ctx) (tids : List Nat) (t : Thread) : (goOn s c tids t).stance = goOn s c tids t.stance := by
  have hd : (t.stance).den.isSome = t.den.isSome := by show (t.den.map _).isSome = _; cases t.den <;> rfl
  have h1 : t.stance.tid = t.tid := rfl
  have h2 : t.stance.st = t.st := rfl
  have h3 : t.stance.held = t.held := rfl
  unfold goOn
  rw [hd, h1, h2, h3]
  dsimp only
  split
  · rfl
  · split
    · rfl
    · split <;> rfl
/-- The threads that `finish` leaves. -/
theorem threads_finish (s : State) (c : Ctx) (tids : List Nat) (w : Warp) (d : Nat) (b : Bool) :
    (if c.den.isSome then stepThreads s c tids w else passDone (stepThreads s c tids w) c.pc c.grp d b).threads =
      w.threads.map (goOn s c tids) := by
  have key : ∀ t : Thread, tids.contains t.tid = true → (c.grp.filter (fun t => !tids.contains t)).contains t.tid = false := by
    intro p hp
    rw [Bool.eq_false_iff]
    intro h
    have := List.contains_iff_mem.1 h
    rw [List.mem_filter] at this
    rw [hp] at this
    exact absurd this.2 (by decide)
  have key2 : ∀ t : Thread, tids.contains t.tid = false →
      (c.grp.filter (fun t => !tids.contains t)).contains t.tid = c.grp.contains t.tid := by
    intro p hp
    rw [Bool.eq_iff_iff, List.contains_iff_mem, List.contains_iff_mem, List.mem_filter, hp]
    simp
  have hstep : (stepThreads s c tids w).threads = w.threads.map (fun t =>
      let run : TState := if t.den.isSome then .ejected else .ready
      if tids.contains t.tid && decide (c.rk + 1 < repCount s.iss.rep) then { t with rk := c.rk + 1, cnt := 0, again := false, st := run }
      else if tids.contains t.tid || c.grp.contains t.tid then { t with pc := c.pc + 8 * groupLen s, rk := 0, cnt := 0, again := false, st := run }
      else t) := by
    unfold stepThreads gotoPc Warp.modThreads
    dsimp only
    by_cases h : c.rk + 1 < repCount s.iss.rep
    · rw [if_pos h]
      simp only [List.map_map]
      refine List.map_congr_left fun t _ => ?_
      simp only [Function.comp, h, decide_true, Bool.and_true]
      cases ht : tids.contains t.tid
      · have h2 := key2 t ht
        cases hg : c.grp.contains t.tid <;> rw [hg] at h2 <;>
          simp only [h2, ht, if_true, if_false, Bool.false_eq_true, Bool.or_true, Bool.or_self]
      · simp only [key t ht, ht, if_true, if_false, Bool.false_eq_true]
    · rw [if_neg h]
      simp only [List.map_map]
      refine List.map_congr_left fun t _ => ?_
      simp only [Function.comp, h, decide_false, Bool.and_false, Bool.false_eq_true, if_false]
      cases ht : tids.contains t.tid
      · have h2 := key2 t ht
        cases hg : c.grp.contains t.tid <;> rw [hg] at h2 <;>
          simp only [h2, ht, if_true, if_false, Bool.false_eq_true, Bool.or_true, Bool.or_self]
      · simp only [key t ht, ht, if_true, if_false, Bool.false_eq_true, Bool.true_or]
  cases hd : c.den with
  | some k =>
    simp only [Option.isSome_some, if_true]
    rw [hstep]
    refine List.map_congr_left fun t _ => ?_
    unfold goOn
    simp only [hd, Option.isNone_some, Bool.false_and, Bool.false_eq_true, if_false]
  | none =>
    simp only [Option.isSome_none, Bool.false_eq_true, if_false]
    unfold passDone
    dsimp only
    rw [hstep, List.map_map]
    refine List.map_congr_left fun t _ => ?_
    unfold goOn
    simp only [Function.comp, hd, Option.isNone_none, Bool.true_and]
    rcases Bool.eq_false_or_eq_true (tids.contains t.tid) with ht | ht <;> rcases Bool.eq_false_or_eq_true (c.grp.contains t.tid) with hg | hg <;>
      rcases Bool.eq_false_or_eq_true t.den.isSome with hdn | hdn <;>
      by_cases hr : c.rk + 1 < repCount s.iss.rep <;> simp [ht, hg, hdn, hr, -List.contains_eq_mem]
theorem places_finish {s : State} {c : Ctx} {tids : List Nat} {w v : Warp} {d : Nat} {b : Bool}
    (h : v.threads = (if c.den.isSome then stepThreads s c tids w else passDone (stepThreads s c tids w) c.pc c.grp d b).threads) :
    places v = (places w).map (goOn s c tids) := by
  unfold places
  rw [h, threads_finish, List.map_map, List.map_map]
  exact List.map_congr_left fun t _ => stance_goOn s c tids t

/-- The context of an issue: its warp is the one that the state holds, but for the frames that a den thread does not see and what STALL has
made ready. -/
theorem ctx_of_latch {s : State} {c0 : Ctx} (hc0 : ctxOf s = some c0) :
    ∃ w, findWarp s c0.w.name = some w ∧ (startPass c0).w.kept = w.kept ∧ c0.w.fpm = w.fpm ∧ places c0.w = places w ∧ c0.w.threads = w.threads ∧
      c0.w.frames = (if c0.den.isSome then w.frames.drop w.depth else w.frames) := by
  obtain ⟨wx, n, hn, hwx, hden, _, _, hcw, hname⟩ := ctxOf_spec hc0
  refine ⟨wx, by rw [hname]; exact hwx, ?_, ?_, ?_, ?_, ?_⟩
  · rw [startPass_kept, hcw]; cases s.iss.den <;> rfl
  · rw [hcw]; cases s.iss.den <;> rfl
  · rw [hcw]; cases s.iss.den <;> rfl
  · rw [hcw]; cases s.iss.den <;> rfl
  · rw [hcw, hden]; cases s.iss.den <;> rfl

/-- What `finish` shows, where the state that the body made keeps the warps and the body has changed the threads as `pre` says. -/
theorem finishAs_shows_pre {s s1 : State} {c0 c : Ctx} {tids : List Nat} {q : Sched} {inside : List Nat} {left : Nat} {w k : Warp} {g : Frame}
    {pre : Thread → Thread} (hc0 : ctxOf s = some c0) (hcc : c = startPass c0) (hs : SameWarps s s1) (hi : s1.iss = s.iss) (hf : FrameStep c.w w)
    (hp : places w = (places c.w).map pre) (hk : w.kept = k.kept) (hg : w.cur = g) :
    Shows s (finishAs s1 c tids q inside left w) c g k (fun t => goOn s c tids (pre t)) s1 := by
  obtain ⟨wx, hwx, hkept, -, hpl, -, hfr⟩ := ctx_of_latch hc0
  subst hcc
  obtain ⟨r, hold⟩ := hs _ _ hwx
  have hf0 : FrameStep c0.w w := by
    have h1 := hf.1
    have h2 := hf.2
    rw [startPass_name] at h1
    rw [startPass_frames] at h2
    exact ⟨h1, h2⟩
  have hnm : (startPass c0).w.name = c0.w.name := startPass_name c0
  obtain ⟨v, hv, hvrest, hvf, hvp⟩ := findWarp_finishAs (tids := tids) (q := q) (inside := inside) (left := left) (w := w) (c := startPass c0)
    (s := s1) (old := { wx with race := r }) (by rw [hnm]; exact hold) hf.1
  refine ⟨⟨wx, v, by rw [hnm]; exact hwx, hv, ?_, ?_, hvrest.kept.trans hk, ?_⟩, fun n w' hn hw' => ?_, (finishAs_blocks _ _ _ _ _ _ _).1,
    elsewhere_finishAs _ _ _ _ _ _ _⟩
  · rw [← hg]
    exact frameIn_finish (old := { wx with race := r }) hc0 ⟨wx, hwx, rfl⟩ hf0 hvf
  · exact otherFrames_finish (w2 := w) (by rw [startPass_frames]; exact hfr) hf hvf
  · refine (places_finish hvp).trans ?_
    rw [hp]
    have : places (startPass c0).w = places wx := by unfold places at hpl ⊢; rw [startPass_threads]; exact hpl
    rw [this, List.map_map]
    refine List.map_congr_left fun t _ => ?_
    simp only [Function.comp]
    unfold goOn groupLen
    rw [hi]
  · rw [findWarp_finishAs_other hn hf.1]
    exact hs n w' hw'
theorem finish_shows_pre {s s1 : State} {c0 c : Ctx} {tids : List Nat} {q : Sched} {w k : Warp} {g : Frame} {pre : Thread → Thread}
    (hc0 : ctxOf s = some c0) (hcc : c = startPass c0) (hs : SameWarps s s1) (hi : s1.iss = s.iss) (hf : FrameStep c.w w)
    (hp : places w = (places c.w).map pre) (hk : w.kept = k.kept) (hg : w.cur = g) :
    Shows s (finish s1 c tids q w) c g k (fun t => goOn s c tids (pre t)) s1 := finishAs_shows_pre hc0 hcc hs hi hf hp hk hg
/-- The same where the body leaves the threads. -/
theorem finishAs_shows_of {s s1 : State} {c0 c : Ctx} {tids : List Nat} {q : Sched} {inside : List Nat} {left : Nat} {w k : Warp} {g : Frame}
    (hc0 : ctxOf s = some c0) (hcc : c = startPass c0) (hs : SameWarps s s1) (hi : s1.iss = s.iss) (hf : FrameStep c.w w)
    (hp : places w = places c.w) (hk : w.kept = k.kept) (hg : w.cur = g) :
    Shows s (finishAs s1 c tids q inside left w) c g k (goOn s c tids) s1 :=
  finishAs_shows_pre (pre := id) hc0 hcc hs hi hf (by rw [hp, List.map_id]) hk hg
theorem finish_shows_of {s s1 : State} {c0 c : Ctx} {tids : List Nat} {q : Sched} {w k : Warp} {g : Frame}
    (hc0 : ctxOf s = some c0) (hcc : c = startPass c0) (hs : SameWarps s s1) (hi : s1.iss = s.iss) (hf : FrameStep c.w w)
    (hp : places w = places c.w) (hk : w.kept = k.kept) (hg : w.cur = g) :
    Shows s (finish s1 c tids q w) c g k (goOn s c tids) s1 :=
  finish_shows_pre (pre := id) hc0 hcc hs hi hf (by rw [hp, List.map_id]) hk hg
/-- The threads of the warp changed after that, each as `post` says. -/
theorem Shows.thread {s t s1 : State} {c : Ctx} {g : Frame} {k : Warp} {go post : Thread → Thread} {f : Warp → Warp}
    (h : Shows s t c g k go s1) (hp : ∀ x, (post x).stance = post x.stance)
    (hf : ∀ v : Warp, (f v).name = v.name ∧ (f v).frames = v.frames ∧ (f v).kept = v.kept ∧ (f v).threads = v.threads.map post) :
    Shows s (modWarp t c.w.name f) c g k (fun x => post (go x)) s1 := by
  obtain ⟨w, v, h1, h2, h3, h4, h5, h6⟩ := h.warp
  have hv := findWarp_name h2
  obtain ⟨f1, f2, f3, f4⟩ := hf v
  have hcur : (f v).cur = v.cur := by unfold Warp.cur; rw [f2]
  have hdep : (f v).depth = v.depth := by unfold Warp.depth; rw [f2]
  refine ⟨⟨w, f v, h1, findWarp_modWarp h2 (f1.trans hv), ?_, ?_, f3.trans h5, ?_⟩, fun n w' hn hw' => ?_, h.blocks, h.rest⟩
  · rw [← h3]; unfold frameIn; rw [hcur, f2]
  · rw [← h4]; unfold otherFrames; rw [hdep, f2]
  · unfold places at h6 ⊢
    rw [f4, List.map_map]
    have := congrArg (List.map post) h6
    rw [List.map_map, List.map_map, List.map_map] at this
    rw [List.map_map]
    refine Eq.trans ?_ this
    exact List.map_congr_left fun x _ => hp x
  · obtain ⟨r, hr⟩ := h.warps n w' hn hw'
    exact ⟨r, (findWarp_modWarp_other hn (fun w hw => by rw [(hf w).1, hw])).trans hr⟩
/-- An issue whose body shows what it should. -/
theorem issue_leavesBy {u : Use} {f : FWord} {x : Option LExt} {s : State} {cond : Ctx → List Nat → Prop}
    {w : Ctx → List Nat → Warp} {s1 : Ctx → List Nat → State} {go : Ctx → List Nat → Thread → Thread} {body : Ctx → FWord → List Nat → State}
    (h : ∀ c0 tids, ctxOf s = some c0 → startsF u f x s = some (startPass c0, tids) → cond (startPass c0) tids →
      Shows s (body (startPass c0) (atRep s (startPass c0) f) tids) (startPass c0) (w (startPass c0) tids).cur (w (startPass c0) tids)
        (go (startPass c0) tids) (s1 (startPass c0) tids)) :
    LeavesBy (startsF u f x s) s (issue u f x s body) cond w s1 go := fun c tids hst hc => by
  obtain ⟨c0, h1, h2, -⟩ := starts_iff.1 hst
  subst h2
  exact ⟨_, issue_of_starts hst, h c0 tids h1 hst hc⟩
/-- The same for a group that starts. -/
theorem finish_shows {s s1 : State} {spec : Ctx → Spec} {c : Ctx} {tids0 tids : List Nat} {q : Sched} {w k : Warp} {g : Frame}
    (hst : starts s spec = some (c, tids0)) (hs : SameWarps s s1) (hi : s1.iss = s.iss) (hf : FrameStep c.w w)
    (hp : places w = places c.w) (hk : w.kept = k.kept) (hg : w.cur = g) :
    Shows s (finish s1 c tids q w) c g k (goOn s c tids) s1 := by
  obtain ⟨c0, hc0, hcc, -⟩ := starts_iff.1 hst
  exact finish_shows_of hc0 hcc hs hi hf hp hk hg

/-! ## Issues that end with `finish` -/

/-- Everything of the package that an issue shows, but for warps. -/
structure SamePackage (a b : State) : Prop where
  rest : elsewhere a = elsewhere b
  blocks : a.blocks = b.blocks

/-- What the body of an issue must do for `Leaves`. -/
structure Finishes (s : State) (c : Ctx) (tids : List Nat) (t : State) (w : Warp) (s1 : State) : Prop where
  eq : ∃ s' q inside left w', t = finishAs s' c tids q inside left w' ∧ SameWarps s s' ∧ s'.iss = s.iss ∧ SamePackage s' s1 ∧ w'.kept = w.kept ∧ w'.cur = w.cur ∧
    w'.frames.tail = w.frames.tail ∧ FrameStep c.w w' ∧ places w' = places c.w

theorem Finishes.of_eq {s s1 : State} {c : Ctx} {tids : List Nat} {w : Warp} {q : Sched} (hs : SameWarps s s1) (hi : s1.iss = s.iss)
    (hf : FrameStep c.w w) (hp : places w = places c.w) : Finishes s c tids (finish s1 c tids q w) w s1 :=
  ⟨s1, q, _, _, w, rfl, hs, hi, ⟨rfl, rfl⟩, rfl, rfl, rfl, hf, hp⟩
theorem Finishes.wait {s s1 : State} {c : Ctx} {tids wait : List Nat} {w : Warp} {q : Sched} (hs : SameWarps s s1) (hi : s1.iss = s.iss)
    (hf : FrameStep c.w w) (hp : places w = places c.w) : Finishes s c tids (finishWait s1 c tids q wait w) w s1 :=
  ⟨s1, q, _, _, w, rfl, hs, hi, ⟨rfl, rfl⟩, rfl, rfl, rfl, hf, hp⟩

theorem leaves_of {start : Option (Ctx × List Nat)} {s : State} {o : Host.Outcome State Fault Refusal} {cond : Ctx → List Nat → Prop}
    {w : Ctx → List Nat → Warp} {s1 : Ctx → List Nat → State} {body : Ctx → List Nat → State}
    (hctx : ∀ c tids, start = some (c, tids) → ∃ c0, ctxOf s = some c0 ∧ c = startPass c0)
    (ho : ∀ c tids, start = some (c, tids) → o = .next (body c tids))
    (h : ∀ c tids, start = some (c, tids) → cond c tids → Finishes s c tids (body c tids) (w c tids) (s1 c tids)) :
    Leaves start s o cond w s1 := by
  intro c tids hst hc
  obtain ⟨s', q, inside, left, w', heq, hs, hi, hpk, hk, hcur, -, hf, hp⟩ := (h c tids hst hc).eq
  obtain ⟨c0, hc0, hcc⟩ := hctx c tids hst
  refine ⟨_, (ho c tids hst).trans (congrArg _ heq), ?_⟩
  have := finishAs_shows_of (tids := tids) (q := q) (inside := inside) (left := left) (g := (w c tids).cur) hc0 hcc hs hi hf hp hk hcur
  exact ⟨this.warp, this.warps, this.blocks.trans hpk.blocks, this.rest.trans hpk.rest⟩

/-- An F word or L pair whose body ends with `finish`. -/
theorem issue_leaves {u : Use} {f : FWord} {x : Option LExt} {s : State} {cond : Ctx → List Nat → Prop}
    {w : Ctx → List Nat → Warp} {s1 : Ctx → List Nat → State} {body : Ctx → FWord → List Nat → State}
    (h : ∀ c tids, startsF u f x s = some (c, tids) → cond c tids → Finishes s c tids (body c (atRep s c f) tids) (w c tids) (s1 c tids)) :
    Leaves (startsF u f x s) s (issue u f x s body) cond w s1 :=
  leaves_of (body := fun c tids => body c (atRep s c f) tids)
    (fun c tids hst => by
      obtain ⟨c0, h1, h2, -⟩ := starts_iff.1 hst
      exact ⟨c0, h1, h2⟩)
    (fun c tids hst => issue_of_starts hst) h

/-- Everything that the start of a collective instruction says. -/
theorem startsAll_spec {busy : Bool} {s : State} {spec : Ctx → List Nat → Spec} {c : Ctx} {tids : List Nat}
    (h : startsAll busy s spec = some (c, tids)) : ∃ c0, ctxOf s = some c0 ∧ c = startPass c0 ∧ c.den = none ∧
      ∀ body, issueColl busy s spec body = .next (body c tids) := by
  unfold startsAll at h
  cases hc : ctxOf s with
  | none => rw [hc] at h; exact absurd h (by simp)
  | some c0 =>
    rw [hc] at h
    dsimp only at h
    split at h
    · exact absurd h (by simp)
    rename_i h1
    split at h
    · exact absurd h (by simp)
    rename_i h2
    split at h
    · exact absurd h (by simp)
    rename_i h3
    split at h
    · exact absurd h (by simp)
    rename_i h4
    split at h
    · rename_i h5
      simp only [Option.some.injEq, Prod.mk.injEq] at h
      obtain ⟨rfl, rfl⟩ := h
      simp only [Bool.or_eq_true, not_or, Bool.not_eq_true] at h1 h3
      refine ⟨c0, rfl, rfl, ?_, fun body => ?_⟩
      · have := h1.2
        cases hd : (startPass c0).den with
        | none => rfl
        | some t => rw [hd] at this; exact absurd this (by simp)
      · unfold issueColl
        rw [hc]
        dsimp only
        rw [if_neg (by rw [h1.1.1.1]; decide), if_neg (by rw [h1.1.1.2]; decide), if_neg (by rw [h1.1.2, Bool.false_and]; decide), if_neg (by rw [h1.2]; decide), if_neg h2]
        rw [h3.1.1, h3.1.2, h3.2, h4, h5]
        rfl
    · exact absurd h (by simp)

/-- A collective instruction whose body ends with `finish`. -/
theorem issueColl_leaves {busy : Bool} {s : State} {spec : Ctx → List Nat → Spec} {cond : Ctx → List Nat → Prop}
    {w : Ctx → List Nat → Warp} {s1 : Ctx → List Nat → State} {body : Ctx → List Nat → State}
    (h : ∀ c tids, c.den = none → cond c tids → Finishes s c tids (body c tids) (w c tids) (s1 c tids)) :
    Leaves (startsAll busy s spec) s (issueColl busy s spec body) cond w s1 :=
  leaves_of (body := body)
    (fun c tids hst => by
      obtain ⟨c0, h1, h2, -⟩ := startsAll_spec hst
      exact ⟨c0, h1, h2⟩)
    (fun c tids hst => by
      obtain ⟨c0, h1, h2, -, h4⟩ := startsAll_spec hst
      exact h4 body)
    (fun c tids hst hc => by
      obtain ⟨c0, h1, h2, h3, -⟩ := startsAll_spec hst
      exact h c tids h3 hc)

end Sys2Proof.Machine
end

