-- ==== Sys2Proof/Laws/Memory.lean ====
section
/-! SUPPORT. Memory instructions: the request that leaves, and what its issue leaves alone. -/

namespace Sys2Proof.Machine

/-! ## Leaves -/

theorem readByte_touchLeaf (s : State) (p va : Nat) (wr : Bool) (core : Option Nat) {a : Nat}
    (h : a ∉ (match findLeaf s p va core with | some l => (List.range 8).map (l.pa + ·) | none => [])) :
    readByte (touchLeaf s p va wr core).mem a = readByte s.mem a := by
  unfold touchLeaf
  cases hl : findLeaf s p va core with
  | none => rfl
  | some l =>
    rw [hl] at h
    refine readByte_writeBytes_other _ _ ?_
    have h8 : (toBytes (readNat s.mem l.pa 8 ||| if wr = true then 96 else 32) 8).length = 8 := rfl
    rw [h8]
    rcases Nat.lt_or_ge a l.pa with h1 | h1
    · exact .inl h1
    · rcases Nat.lt_or_ge a (l.pa + 8) with h2 | h2
      · exact absurd (List.mem_map.2 ⟨a - l.pa, List.mem_range.2 (by omega), by omega⟩) h
      · exact .inr h2
theorem readByte_touchedBy (c : Ctx) (wr : Bool) {a : Nat} : ∀ (accs : List Acc) (s : State), a ∉ touchBytes s c wr accs →
    readByte (touchedBy s c wr accs).mem a = readByte s.mem a
  | [], _, _ => rfl
  | x :: xs, s, h => by
    unfold touchBytes at h
    rw [List.mem_append, not_or] at h
    have ih := readByte_touchedBy c wr xs _ h.2
    unfold touchedBy at ih ⊢
    rw [List.foldl_cons, ih]
    by_cases hx : (x.space == .phys) = true
    · rw [if_pos hx] at h ⊢
      exact readByte_touchLeaf s _ x.va wr _ h.1
    · rw [if_neg hx]
/-- What the walk's bits leave: everything but memory and the translations held. -/
theorem touchLeaf_rest (s : State) (p va : Nat) (wr : Bool) (core : Option Nat) :
    ∃ m t, touchLeaf s p va wr core = { s with mem := m, tlb := t } := by
  unfold touchLeaf
  split
  · exact ⟨s.mem, s.tlb, rfl⟩
  · exact ⟨_, _, rfl⟩
theorem touchedBy_rest (c : Ctx) (wr : Bool) : ∀ (accs : List Acc) (s : State), ∃ m t, touchedBy s c wr accs = { s with mem := m, tlb := t }
  | [], s => ⟨s.mem, s.tlb, rfl⟩
  | x :: xs, s => by
    unfold touchedBy
    rw [List.foldl_cons]
    by_cases hx : (x.space == .phys) = true
    · rw [if_pos hx]
      obtain ⟨m, t, h⟩ := touchLeaf_rest s (partOf c.l.lk) x.va wr (some c.w.core)
      rw [h]
      obtain ⟨m2, t2, h2⟩ := touchedBy_rest c wr xs { s with mem := m, tlb := t }
      exact ⟨m2, t2, h2⟩
    · rw [if_neg hx]
      exact touchedBy_rest c wr xs s

/-! ## Records of the detector -/

/-- Records change the sectors and nothing else. -/
theorem recordAll_rest (c : Ctx) (kind : Nat) : ∀ (accs : List Acc) (s : State), ∃ x, recordAll s c kind accs = { s with sectors := x }
  | [], s => ⟨s.sectors, rfl⟩
  | a :: accs, s => by
    unfold recordAll
    rw [List.foldl_cons]
    split
    · obtain ⟨x, h⟩ := recordAll_rest c kind accs (raceRecord s (accRecord c kind a) (c.w.race.thread a.tid).clk a.space a.addr)
      exact ⟨x, h⟩
    · exact recordAll_rest c kind accs s

/-! ## Flags -/

theorem raiseFlag_step (w : Warp) (den : Option Nat) (k : Nat) : FrameStep w (raiseFlag w w.depth den k) ∧ places (raiseFlag w w.depth den k) = places w ∧
    (raiseFlag w w.depth den k).kept = w.kept := by
  unfold raiseFlag
  split
  · exact ⟨⟨rfl, .inl rfl⟩, rfl, rfl⟩
  split
  · exact ⟨.refl w, rfl, rfl⟩
  · cases den with
    | none =>
      refine ⟨⟨rfl, ?_⟩, rfl, rfl⟩
      simp only
      cases hf : w.frames with
      | nil => exact .inl (by simp [Warp.modFrame, hf])
      | cons fr frs =>
        refine .inr ⟨fr.incFlag k, ?_⟩
        show (Warp.modFrame w w.depth (fun fr => fr.incFlag k)).frames = _
        unfold Warp.modFrame
        simp only [hf, List.mapIdx_cons, Warp.depth, List.length_cons, List.tail_cons]
        congr 1
        · rw [if_pos (by omega)]
        · refine List.ext_getElem (by simp) fun i h1 h2 => ?_
          rw [List.getElem_mapIdx, if_neg]
          simp only [List.length_mapIdx] at h1
          omega
    | some t =>
      refine ⟨⟨rfl, .inl rfl⟩, ?_, rfl⟩
      unfold places
      show ((w.modThread t _).threads).map _ = _
      unfold Warp.modThread
      simp only [List.map_map]
      refine List.map_congr_left fun x _ => ?_
      simp only [Function.comp]
      split
      · unfold Thread.stance Thread.modDen; cases x.den <;> rfl
      · rfl
theorem foldl_keeps {α β : Type} (m : Warp → β) {g : Warp → α → Warp} (h : ∀ w a, m (g w a) = m w) : ∀ (xs : List α) (w : Warp),
    m (xs.foldl g w) = m w
  | [], _ => rfl
  | a :: xs, w => (foldl_keeps m h xs (g w a)).trans (h w a)
theorem applyMarks_threads (w : Warp) (u : Use) (f : FWord) (x : Option LExt) (r : Option RepWord) (rk : Nat) (ts : List Nat) :
    (applyMarks w u f x r rk ts).threads = w.threads :=
  foldl_keeps (·.threads) (fun w1 (fl : Fld) => foldl_keeps (·.threads) (fun w2 (t : Nat) => by unfold killGroup; split <;> rfl) ts w1) _ w
theorem FrameStep.depth {w v : Warp} (h : FrameStep w v) : v.depth = w.depth := by
  unfold Warp.depth
  rcases h.2 with h | ⟨g, h⟩ <;> rw [h]
  simp
theorem stepF_sig (f : FWord) (r : Option RepWord) (k : Nat) : (stepF f r k).sig = f.sig := by cases r <;> rfl
theorem stepF_sched (f : FWord) (r : Option RepWord) (k : Nat) : schedF (stepF f r k) = schedF f := by cases r <;> rfl

/-! ## The issue of a request -/

theorem firstFail_none {cs : List (Nat × Int × Option Nat)} (h : ∀ e ∈ cs, e.2.2 = none) : firstFail cs = none := by
  have hb : ∀ k : Nat, cs.filter (fun e => e.2.2 == some k) = [] := fun k => List.filter_eq_nil_iff.2 fun e he => by rw [h e he]; simp
  unfold firstFail
  simp only [hb, List.filterMap_cons, List.filterMap_nil, List.head?_nil]

theorem filterMap_park_nil {ε : Type} {outs : List (Nat × TOut)} {g : Nat × TOut → Option ε}
    (hg : ∀ e accs, e.2 = .perform accs → g e = none) (h : ∀ e ∈ outs, ∃ accs, e.2 = .perform accs) : outs.filterMap g = [] := by
  rw [List.filterMap_eq_nil_iff]
  intro e he
  obtain ⟨a, ha⟩ := h e he
  exact hg e a ha

theorem length_filterMap_all {α β : Type} {g : α → Option β} : ∀ {xs : List α}, (xs.filterMap g).length = xs.length → ∀ e ∈ xs, (g e).isSome = true
  | [], _ => by simp
  | a :: xs, h => by
    intro e he
    cases hg : g a with
    | none =>
      rw [List.filterMap_cons, hg] at h
      have := List.length_filterMap_le g xs
      simp only [List.length_cons] at h
      omega
    | some b =>
      rw [List.filterMap_cons, hg] at h
      simp only [List.length_cons, Nat.add_right_cancel_iff] at h
      rcases List.mem_cons.1 he with rfl | he
      · rw [hg]; rfl
      · exact length_filterMap_all h e he
/-- The threads that go on, and their accesses, where every one does. -/
theorem all_perform : ∀ {outs : List (Nat × TOut)}, (∀ e ∈ outs, ∃ a, e.2 = .perform a) →
    (outs.filterMap (fun e => e.2.accs.map (fun a => (e.1, a)))).map (·.1) = outs.map (·.1) ∧
    (outs.filterMap (fun e => e.2.accs.map (fun a => (e.1, a)))).map (·.2) =
      outs.filterMap (fun e => e.2.accs)
  | [], _ => ⟨rfl, rfl⟩
  | e :: es, h => by
    obtain ⟨a, ha⟩ := h e (List.mem_cons_self ..)
    have ih := all_perform (outs := es) fun x hx => h x (List.mem_cons_of_mem _ hx)
    have h1 : e.2.accs = some a := by rw [ha]; rfl
    simp only [List.filterMap_cons, h1, Option.map_some, List.map_cons, ih, and_self]
theorem filterMap_nil_of {α β : Type} {g : α → Option β} {xs : List α} (h : ∀ e ∈ xs, g e = none) : xs.filterMap g = [] :=
  List.filterMap_eq_nil_iff.2 h

/-! ## Requests -/

theorem routeUp_sectors (s : State) (z : List Sector) : ∀ r : List Nat, routeUp { s with sectors := z } r = routeUp s r
  | [] => rfl
  | [_] => rfl
  | a :: b :: rest => by
    unfold routeUp
    rw [routeUp_sectors s z (b :: rest)]
    rfl
theorem routeOf_sectors (s : State) (z : List Sector) (a b : Nat) : routeOf { s with sectors := z } a b = routeOf s a b := by
  unfold routeOf
  rw [show routeUp { s with sectors := z } = routeUp s from funext (routeUp_sectors s z)]
theorem post_sectors (s : State) (core : Nat) (r : Req) (z : List Sector) :
    post { s with sectors := z } core r = { post s core r with sectors := z } := by
  unfold post
  simp only [routeOf_sectors]
  cases awayOf (dieOf core) r.accs <;> rfl
theorem sends_sectors (core : Nat) (z : List Sector) {α : Type} (g : Nat → α → Req) : ∀ (xs : List α) (s : State),
    xs.foldl (fun acc x => post acc core (g acc.nextId x)) { s with sectors := z } =
      { xs.foldl (fun acc x => post acc core (g acc.nextId x)) s with sectors := z }
  | [], _ => rfl
  | x :: xs, s => by
    rw [List.foldl_cons, List.foldl_cons, post_sectors]
    exact sends_sectors core z g xs _
/-- What is sent does not depend on the detector's records. -/
theorem sendAll_sectors (s : State) (z : List Sector) (c : Ctx) (m : MemOp) (flag : Nat) (tids : List Nat) (one : Bool) (rels : List (Nat × RelSrc))
    (perf : List (Nat × List Acc)) (w : Warp) : sendAll { s with sectors := z } c m flag tids one rels perf w =
      ({ (sendAll s c m flag tids one rels perf w).1 with sectors := z }, (sendAll s c m flag tids one rels perf w).2) := by
  unfold sendAll
  refine Prod.ext ?_ rfl
  exact sends_sectors c.w.core z (fun id part =>
    { mkReq s c m id (sendFlag w c.den flag c.pc tids s.nextId (byHome perf).length (decide (repCount s.iss.rep > 1)) (!lastRep s c)).1
        (if one then tids else part.map (·.1)) (part.map (·.2)).flatten with
      rels := rels.filter (fun e => (if one then tids else part.map (·.1)).contains e.1) }) (byHome perf) s
/-- A request in flight is as it was made but for its number, its way and its number at its destination. -/
theorem post_reqs (s : State) (core : Nat) (r : Req) : ∃ q : Req, (post s core r).reqs = s.reqs ++ [q] ∧ q.w = r.w ∧ q.kind = r.kind ∧
    q.dcode = r.dcode ∧ q.dn = r.dn ∧ q.done = r.done ∧ q.order = r.order ∧ q.scope = r.scope ∧ q.tids = r.tids ∧ q.accs = r.accs := by
  unfold post
  cases awayOf (dieOf core) r.accs with
  | none => exact ⟨_, rfl, rfl, rfl, rfl, rfl, rfl, rfl, rfl, rfl, rfl⟩
  | some _ => exact ⟨_, rfl, rfl, rfl, rfl, rfl, rfl, rfl, rfl, rfl, rfl⟩
/-- Sending changes the requests, the next identifier and the sources' numbers only. -/
theorem post_rest (s : State) (core : Nat) (r : Req) : ∃ a b d, post s core r = { s with reqs := a, nextId := b, seqs := d } := by
  unfold post
  cases awayOf (dieOf core) r.accs with
  | none => exact ⟨_, _, s.seqs, rfl⟩
  | some _ => exact ⟨_, _, _, rfl⟩
theorem sends_rest (core : Nat) {α : Type} (g : Nat → α → Req) : ∀ (xs : List α) (s : State),
    ∃ a b d, xs.foldl (fun acc x => post acc core (g acc.nextId x)) s = { s with reqs := a, nextId := b, seqs := d }
  | [], s => ⟨s.reqs, s.nextId, s.seqs, rfl⟩
  | x :: xs, s => by
    rw [List.foldl_cons]
    obtain ⟨a, b, d, h⟩ := post_rest s core (g s.nextId x)
    obtain ⟨a2, b2, d2, h2⟩ := sends_rest core g xs (post s core (g s.nextId x))
    exact ⟨a2, b2, d2, by rw [h2, h]⟩
theorem sends_reqs (core : Nat) {α : Type} (g : Nat → α → Req) (P : Req → Prop) (acc : α → List Acc) (hA : ∀ id x, (g id x).accs = acc x) :
    ∀ (xs : List α) (_ : ∀ (id : Nat), ∀ x ∈ xs, ∀ (q : Req), q.w = (g id x).w → q.kind = (g id x).kind → q.dcode = (g id x).dcode → q.dn = (g id x).dn →
      q.done = (g id x).done → q.order = (g id x).order → q.scope = (g id x).scope → q.tids = (g id x).tids → P q) (s : State),
    ∃ rs, (xs.foldl (fun acc x => post acc core (g acc.nextId x)) s).reqs = s.reqs ++ rs ∧ rs.map (·.accs) = xs.map acc ∧ ∀ r ∈ rs, P r
  | [], _, s => ⟨[], by simp, rfl, by simp⟩
  | x :: xs, hP, s => by
    rw [List.foldl_cons]
    obtain ⟨q, h1, hw, hk, hd, hn, hdn, ho, hs, ht, ha⟩ := post_reqs s core (g s.nextId x)
    obtain ⟨rs, h2, h3, h4⟩ := sends_reqs core g P acc hA xs (fun id y hy => hP id y (List.mem_cons_of_mem _ hy)) (post s core (g s.nextId x))
    refine ⟨q :: rs, by rw [h2, h1]; simp, by rw [List.map_cons, h3, ha, hA]; rfl, fun r hr => ?_⟩
    rcases List.mem_cons.1 hr with rfl | hr
    · exact hP s.nextId x (List.mem_cons_self ..) _ hw hk hd hn hdn ho hs ht
    · exact h4 r hr

/-! ## What a warp counts on a flag -/

/-- The warp that counts what is sent. -/
theorem sendFlag_step (w : Warp) (den : Option Nat) (flag pc : Nat) (tids : List Nat) (id n : Nat) (reps more : Bool) :
    FrameStep w (sendFlag w den flag pc tids id n reps more).2 ∧ places (sendFlag w den flag pc tids id n reps more).2 = places w ∧
    (sendFlag w den flag pc tids id n reps more).2.kept = w.kept := by
  unfold sendFlag
  split
  · exact ⟨.refl w, rfl, rfl⟩
  · split
    · exact raiseFlag_step w den flag
    · have h := noteHold_spec w den flag pc tids (if more then tids else []) 0 id n
      exact ⟨⟨h.1.name, .inl h.2.1⟩, by unfold places; dsimp only; rw [h.2.2], h.1.kept⟩
theorem cur_raiseFlag (w : Warp) (k : Nat) (hf : w.frames ≠ []) (hk : k < 12) : (raiseFlag w w.depth none k).cur = w.cur.incFlag k := by
  unfold raiseFlag
  rw [if_neg (by omega), if_neg (by omega)]
  cases h : w.frames with
  | nil => exact absurd h hf
  | cons fr frs =>
    unfold Warp.modFrame Warp.cur
    simp only [h, List.mapIdx_cons, Warp.depth, List.length_cons, List.headD_cons]
    rw [if_pos (by omega)]
theorem getFlag_incFlag (fr : Frame) (k : Nat) : (fr.incFlag k).getFlag k = fr.getFlag k + 1 := by
  exact agetD_aput_same 0 fr.flags k (fr.getFlag k + 1)
theorem heldOn_pos {w : Warp} {d k : Nat} {h : SigHold} (hm : h ∈ w.holds) (h1 : h.flag = k) (h2 : h.depth = d) (h3 : h.den = none)
    (h4 : h.ended = false) : 0 < heldOn w d none k := by
  unfold heldOn
  refine List.length_pos_of_mem (a := h) (List.mem_filter.2 ⟨hm, ?_⟩)
  simp [h1, h2, h3, h4]
/-- An instruction with requests outstanding is counted. -/
theorem noteHold_counts {w : Warp} {flag pc : Nat} {tids : List Nat} (inside : List Nat) (id : Nat) {n : Nat} (hk : flag < 12) (ht : tids ≠ [])
    (hn : 0 < n) : 0 < heldOn (noteHold w none flag pc tids inside 0 id n) w.depth none flag := by
  unfold noteHold
  rw [if_neg (by simp only [Bool.or_eq_true, decide_eq_true_eq, List.isEmpty_iff]; intro h; rcases h with h | h; omega; exact ht h)]
  split
  · rename_i h
    obtain ⟨y, hy, hyn⟩ := List.any_eq_true.1 h
    have h2 := hyn
    unfold SigHold.names at h2
    simp only [Bool.and_eq_true, beq_iff_eq] at h2
    refine heldOn_pos (List.mem_map.2 ⟨y, hy, if_pos hyn⟩) h2.1.1.2 h2.1.1.1.1 h2.1.1.1.2 ?_
    unfold SigHold.ended
    simp only [Bool.and_eq_false_iff, beq_eq_false_iff_ne]
    exact .inl (.inr (show y.reqs + n ≠ 0 by omega))
  · rw [if_neg (by simp; omega)]
    refine heldOn_pos (List.mem_cons_self ..) rfl rfl rfl ?_
    unfold SigHold.ended
    simp only [Bool.and_eq_false_iff, beq_eq_false_iff_ne]
    exact .inl (.inr (show n ≠ 0 by omega))
/-- An instruction that has sent something counts on its flag (R33, R35). -/
theorem sendFlag_counts {w : Warp} {flag pc : Nat} {tids : List Nat} (id : Nat) {n : Nat} (reps more : Bool) (hf : w.frames ≠ []) (hk : flag < 12)
    (ht : tids ≠ []) (hn : 0 < n) : 0 < flagCount (sendFlag w none flag pc tids id n reps more).2 none flag := by
  unfold flagCount
  rw [(sendFlag_step w none flag pc tids id n reps more).1.depth]
  unfold sendFlag
  by_cases h1 : (decide (n = 1) && !reps) = true
  · rw [if_neg (by omega), if_pos h1]
    refine Nat.add_pos_left ?_ _
    dsimp only
    rw [cur_raiseFlag w flag hf hk, getFlag_incFlag]
    omega
  · rw [if_neg (by omega), if_neg h1]
    exact Nat.add_pos_right _ (noteHold_counts _ _ hk ht hn)
/-- The end of the issue of an instruction that has counted itself leaves what the warp counts. -/
theorem flagCount_finish_sent {s : State} {c : Ctx} {tids : List Nat} {q : Sched} {w old : Warp} (h : findWarp s c.w.name = some old)
    (hn : w.name = c.w.name) (hd : c.den = none) (k : Nat) :
    ∃ v, findWarp (finish s c tids q.sent w) c.w.name = some v ∧ flagCount v none k = flagCount w none k := by
  have hs := sameRest_stepThreads s c tids w
  have hold : ∀ v : Warp, ∀ (a b : List Nat) (l i n : Nat), noteHold v none q.sent.sig c.pc a b l i n = v := fun v a b l i n => by
    unfold noteHold; rw [if_pos (by simp [Sched.sent])]
  unfold finish finishAs
  dsimp only
  simp only [hd, Option.isSome_none, Bool.false_eq_true, if_false, findWarp_modQuad, hold]
  refine ⟨_, findWarp_modWarp h ?_, ?_⟩
  · exact (sameRest_passDone _ _ _ _ _).1.name.trans (hs.1.name.trans hn)
  · have hfr : ∀ d b, (passDone (stepThreads s c tids w) c.pc c.grp d b).frames = w.frames := fun d b =>
      (sameRest_passDone _ _ _ _ _).2.trans hs.2
    have hh : (stepThreads s c tids w).holds = w.holds := by unfold stepThreads; dsimp only; split <;> rfl
    unfold flagCount
    have hcur : ∀ d b, (passDone (stepThreads s c tids w) c.pc c.grp d b).cur = w.cur := fun d b => by unfold Warp.cur; rw [hfr]
    have hdep : ∀ d b, (passDone (stepThreads s c tids w) c.pc c.grp d b).depth = w.depth := fun d b => by unfold Warp.depth; rw [hfr]
    rw [hcur, hdep]
    congr 1
    unfold heldOn passDone
    dsimp only
    rw [hh, List.filter_filter]
    congr 1
    refine List.filter_congr fun x _ => ?_
    cases x.ended <;> simp

/-! ## The issue of a memory instruction -/

theorem byHome_pos {perf : List (Nat × List Acc)} (h : perf ≠ []) : 0 < (byHome perf).length := by
  unfold byHome
  rw [List.length_map]
  cases perf with
  | nil => exact absurd rfl h
  | cons e es =>
    rw [List.map_cons, List.eraseDups_cons]
    simp

/-- A home's part names threads whose accesses are sent. -/
theorem byHome_ids {perf : List (Nat × List Acc)} {tids : List Nat} {b : Bool} (hids : perf.map (·.1) = (if b then tids.take 1 else tids))
    {part : List (Nat × List Acc)} (h : part ∈ byHome perf) : ∀ t ∈ part.map (·.1), t ∈ tids := by
  intro t ht
  unfold byHome at h
  obtain ⟨k, -, rfl⟩ := List.mem_map.1 h
  obtain ⟨e, he, rfl⟩ := List.mem_map.1 ht
  have h2 : e.1 ∈ perf.map (·.1) := List.mem_map.2 ⟨e, (List.mem_filter.1 he).1, rfl⟩
  rw [hids] at h2
  cases b with
  | true => exact List.mem_of_mem_take h2
  | false => exact h2
/-- The requests of a launch without twins. -/
theorem memSend_run {m : MemOp} {marks : Use} {dataOf : Nat → List Byte} {opsOf : Nat → List Word} {f : FWord} {x : Option LExt} {s : State} {c : Ctx}
    {tids : List Nat} {y : MemTry} {perf : List (Nat × List Acc)} (htw : c.l.twin = false) (hwid : y.widen tids (perf.map (·.1)) = tids)
    (hne : ∀ e ∈ perf, e.2.isEmpty = false) :
    let wr := m.use == .store || m.use == .atomic
    let rr := if wr then writeRels s c tids else ([], c.w.race)
    let out := sendAll (touchedBy s c wr (perf.map (·.2)).flatten) c m f.sig.toNat tids y.one rr.1 perf
      (applyMarks { c.w with race := rr.2 } marks f x s.iss.rep c.rk tids)
    ∃ z, memSend m marks dataOf opsOf f x s c tids y perf = finish { out.1 with sectors := z } c tids (schedF f).sent out.2 := by
  intro wr rr out
  have hleft : tids.filter (fun t => !tids.contains t) = [] := List.filter_eq_nil_iff.2 fun t ht => by rw [List.contains_iff_mem.2 ht]; decide
  have hgrp : c.grp.filter (fun t => !([] : List Nat).contains t) = c.grp := List.filter_eq_self.2 fun _ _ => rfl
  have hlater : (perf.map (fun e => (e.1, e.2.filter (fun a => !((c.l.twin && m.use == .store) && a.space == .phys && !a.priv))))).filter
      (fun e => !e.2.isEmpty) = perf := by
    have : perf.map (fun e => (e.1, e.2.filter (fun a => !((c.l.twin && m.use == .store) && a.space == .phys && !a.priv)))) = perf := by
      refine (List.map_congr_left fun e _ => ?_).trans (List.map_id _)
      rw [htw, List.filter_eq_self.2 fun a _ => by rw [Bool.false_and, Bool.false_and, Bool.false_and]; rfl]; rfl
    rw [this]
    exact List.filter_eq_self.2 fun e he => by rw [hne e he]; rfl
  have htwin : ∀ a r w, twinSend m dataOf opsOf s c y perf a r w = w := fun a r w => by unfold twinSend; rw [htw]; rfl
  obtain ⟨z, hz⟩ := recordAll_rest c (raceKind s m.use)
    ((perf.map (·.2)).flatten.filter (fun a => !((c.l.twin && m.use == .store) && a.space == .phys))) (touchedBy s c wr (perf.map (·.2)).flatten)
  refine ⟨z, ?_⟩
  unfold memSend
  dsimp only
  rw [hwid, hleft, hgrp, htwin, hlater]
  rw [show (m.use == SegUse.store || m.use == SegUse.atomic) = wr from rfl, hz, sendAll_sectors]

/-- What follows translation, where every thread goes on and none races. -/
theorem memGo_run {m : MemOp} {marks : Use} {dataOf : Nat → List Byte} {opsOf : Nat → List Word} {f : FWord} {x : Option LExt} {s : State} {c : Ctx}
    {tids : List Nat} {y : MemTry} {outs : List (Nat × TOut)} {go : List (Nat × List Acc)}
    (hgo : outs.filterMap (fun e => e.2.accs.map (fun a => (e.1, a))) = go) (hne : go ≠ []) (hback : ¬ (findPart s (partOf c.l.lk)).backlog.length > 4096)
    (hparks : outs.filterMap (fun e => e.2.parked.map (fun p => (e.1, p))) = []) (ht4 : outs.filter (fun e => e.2 == .tier4) = [])
    (hraced : go.filterMap (fun e => (raceHit s c (raceKind s m.use) e.2).map (fun r => (e.1, r))) = []) :
    memGo m marks dataOf opsOf f x s c tids y outs = memSend m marks dataOf opsOf f x s c tids y go := by
  have hfilt : go.filter (fun e => !([] : List (Nat × AccRec)).any (fun r => r.1 == e.1)) = go := List.filter_eq_self.2 fun _ _ => rfl
  have hge : go.isEmpty = false := by cases go with | nil => exact absurd rfl hne | cons => rfl
  unfold memGo
  rw [hparks, ht4, hgo, show parkGroups [] = [] from rfl]
  dsimp only
  rw [hraced, hfilt]
  rw [if_neg (by simpa using hback), hge]
  rfl

/-- What `goesOut` says. -/
theorem goesOut_spec {m : MemOp} {one : Bool} {dataOf : Nat → List Byte} {opsOf : Nat → List Word} {f : FWord} {x : Option LExt}
    {s : State} {c : Ctx} {tids : List Nat} {perf : List (Nat × List Acc)} (h : goesOut m one dataOf opsOf f x s c tids = some perf) :
    c.l.twin = false ∧ acqHeld s c.w tids = false ∧ (∀ e ∈ perf, e.2.isEmpty = false) ∧
    perf.map (·.1) = (if one then tids.take 1 else tids) ∧
    ∀ marks, perf ≠ [] → ∃ y : MemTry, y.one = one ∧ memTry m marks one dataOf opsOf f x s c tids = memSend m marks dataOf opsOf f x s c tids y perf := by
  unfold goesOut at h
  dsimp only at h
  generalize hts : (if one = true then tids.take 1 else tids) = ts at h
  generalize hoffs : ts.map (fun t => (t, memOff s c f x m.unit ts t)) = offs at h
  generalize hpieces : offs.map (fun e => (e.1, segPieces c (c.l.segAt m.seg) m e.1 e.2 (dataOf e.1) (opsOf e.1) (ordFresh s))) = pieces at h
  generalize houts : pieces.map (fun e => (e.1, translate s c m e.2)) = outs at h
  generalize hgo : outs.filterMap (fun e => e.2.accs.map (fun a => (e.1, a))) = go at h
  split at h
  · exact absurd h (by simp)
  rename_i hc
  simp only [Bool.or_eq_true, decide_eq_true_eq, not_or, Bool.not_eq_true] at hc
  obtain ⟨⟨⟨⟨⟨⟨htw, hacq⟩, hseg⟩, hwatch⟩, hback⟩, hlen⟩, hrace⟩ := hc
  simp only [Option.some.injEq] at h
  subst h
  have hlen2 : (outs.filterMap (fun e => e.2.accs.map (fun a => (e.1, a)))).length = outs.length := by rw [hgo]; exact Decidable.not_not.1 hlen
  have hperf : ∀ e ∈ outs, ∃ a, e.2 = .perform a := fun e he => by
    have := length_filterMap_all hlen2 e he
    cases h2 : e.2 with
    | perform a => exact ⟨a, rfl⟩
    | park _ _ _ => rw [h2] at this; exact absurd this (by simp [TOut.accs])
    | tier4 => rw [h2] at this; exact absurd this (by simp [TOut.accs])
  have hall := all_perform hperf
  rw [hgo] at hall
  have hids : go.map (·.1) = ts := by
    rw [hall.1, ← houts, List.map_map, ← hpieces, List.map_map, ← hoffs, List.map_map]
    exact (List.map_congr_left fun _ _ => rfl).trans (List.map_id _)
  have hne : ∀ e ∈ go, e.2.isEmpty = false := fun e he => by
    have := List.any_eq_false.1 hrace e he
    simp only [Bool.or_eq_true, not_or, Bool.not_eq_true] at this
    exact this.1
  refine ⟨htw, hacq, hne, hids, fun marks hgn => ?_⟩
  have hff : firstFail (offs.map (fun e => (e.1, e.2, segCause c (c.l.segAt m.seg) m e.2))) = none := firstFail_none fun e he => by
    obtain ⟨o, ho, rfl⟩ := List.mem_map.1 he
    have := List.any_eq_false.1 hseg o ho
    simpa using this
  have hhits : pieces.filterMap (fun e => if skipped c e.1 then none
      else (e.2.filterMap (fun a => (watchOf s c m a).map (fun w => (e.1, w, a.va)))).head?) = [] := filterMap_nil_of fun e he => by
    have h1 := List.any_eq_false.1 hwatch e he
    cases hsk : skipped c e.1 with
    | true => rfl
    | false =>
      rw [hsk] at h1
      simp only [Bool.not_false, Bool.true_and, Bool.not_eq_true] at h1
      have : e.2.filterMap (fun a => (watchOf s c m a).map (fun w => (e.1, w, a.va))) = [] := filterMap_nil_of fun a ha => by
        have := List.any_eq_false.1 h1 a ha
        cases hw : watchOf s c m a with
        | none => rfl
        | some _ => rw [hw] at this; exact absurd this (by simp)
      rw [this]; rfl
  have hparks : outs.filterMap (fun e => e.2.parked.map (fun p => (e.1, p))) = [] := filterMap_nil_of fun e he => by
    obtain ⟨a, ha⟩ := hperf e he
    rw [ha]; rfl
  have ht4 : outs.filter (fun e => e.2 == .tier4) = [] := List.filter_eq_nil_iff.2 fun e he => by
    obtain ⟨a, ha⟩ := hperf e he
    rw [ha]; exact fun h => absurd h (by simp)
  have hraced : go.filterMap (fun e => (raceHit s c (raceKind s m.use) e.2).map (fun r => (e.1, r))) = [] := filterMap_nil_of fun e he => by
    have := List.any_eq_false.1 hrace e he
    simp only [Bool.or_eq_true, not_or, Bool.not_eq_true] at this
    cases hw : raceHit s c (raceKind s m.use) e.2 with
    | none => rfl
    | some _ => rw [hw] at this; exact absurd this.2 (by simp)
  have hmc : ∀ b : Bool, (b && mustCompare c) = false := fun b => by unfold mustCompare; rw [htw]; simp
  unfold memTry
  dsimp only
  rw [hts, hoffs, hff, hmc]
  dsimp only
  rw [hpieces, hhits]
  dsimp only
  rw [houts, memGo_run hgo hgn hback hparks ht4 hraced]
  exact ⟨_, rfl, rfl⟩
theorem acqHeld_one {s : State} {w : Warp} {ts : List Nat} (h : acqHeld s w ts = false) {t : Nat} (ht : t ∈ ts) : acqHeld s w [t] = false := by
  unfold acqHeld at h ⊢
  rw [List.any_eq_false] at h ⊢
  intro r hr
  have := h r hr
  simp only [Bool.and_eq_true, not_and, Bool.not_eq_true] at this ⊢
  intro h1
  have h2 := this h1
  rw [List.any_eq_false] at h2 ⊢
  intro x hx hc
  rw [List.contains_iff_mem] at hc
  obtain rfl := List.mem_singleton.1 hc
  exact h2 x hx (List.contains_iff_mem.2 ht)
/-- Threads that nothing in flight holds go on together. -/
theorem forFree_go {s : State} {c : Ctx} {tids : List Nat} {go : State → Ctx → List Nat → State} (h : acqHeld s c.w tids = false) :
    forFree s c tids go = go s c tids := by
  unfold forFree
  have : tids.filter (fun t => acqHeld s c.w [t]) = [] := List.filter_eq_nil_iff.2 fun t ht => by rw [acqHeld_one h ht]; decide
  rw [this]
  rfl

/-- Every memory instruction that `memBody` issues sends its requests where nothing hinders it. -/
theorem issue_sends {u : Use} {m : MemForm} {f : FWord} {x : Option LExt} {s : State} {o : Host.Outcome State Fault Refusal}
    (ho : o = issue u f x s (fun c f' tids => memBody (m.op f') m.marks (m.one f') (m.data s c tids f') (m.ops s c tids f') f' x s c tids)) :
    Sends u m f x s o := by
  intro c tids perf hst hgo
  subst ho
  obtain ⟨htw, hacq, hne, hids, hrun⟩ := goesOut_spec hgo
  obtain ⟨c0, hc0, hcc, htids, -, -, -, hte, -⟩ := starts_iff.1 hst
  have htn : tids ≠ [] := fun h => by rw [h] at hte; exact absurd hte (by decide)
  have hpn : perf ≠ [] := fun h => by
    rw [h] at hids
    cases tids with
    | nil => exact htn rfl
    | cons t ts => split at hids <;> simp at hids
  obtain ⟨y, hy, hmem⟩ := hrun m.marks hpn
  have hwid : y.widen tids (perf.map (·.1)) = tids := by
    unfold MemTry.widen
    rw [hy, hids]
    cases m.one (atRep s c f) with
    | false => rfl
    | true =>
      cases tids with
      | nil => exact absurd rfl htn
      | cons t ts => rfl
  have hsig : (atRep s c f).sig = f.sig := stepF_sig _ _ _
  obtain ⟨z, hz⟩ := memSend_run (m := m.op (atRep s c f)) (marks := m.marks) (dataOf := m.data s c tids (atRep s c f)) (opsOf := m.ops s c tids (atRep s c f))
    (f := atRep s c f) (x := x) (s := s) (y := y) htw hwid hne
  rw [hsig, hy] at hz
  have hout : memSend (m.op (atRep s c f)) m.marks (m.data s c tids (atRep s c f)) (m.ops s c tids (atRep s c f)) (atRep s c f) x s c tids y perf =
      finish { (outOf m f x s c tids perf).1 with sectors := z } c tids (schedF (atRep s c f)).sent (outOf m f x s c tids perf).2 := hz
  have hbody : memBody (m.op (atRep s c f)) m.marks (m.one (atRep s c f)) (m.data s c tids (atRep s c f)) (m.ops s c tids (atRep s c f)) (atRep s c f)
      x s c tids = finish { (outOf m f x s c tids perf).1 with sectors := z } c tids (schedF (atRep s c f)).sent (outOf m f x s c tids perf).2 := by
    unfold memBody
    rw [← hout, ← hmem]
    cases m.one (atRep s c f) with
    | true => rw [if_pos rfl, hacq]; rfl
    | false => rw [if_neg (by decide), forFree_go hacq]
  -- what is sent
  generalize hrr : (if ((m.op (atRep s c f)).use == SegUse.store || (m.op (atRep s c f)).use == SegUse.atomic) = true
    then writeRels s c tids else (([] : List (Nat × RelSrc)), c.w.race)) = rr at *
  obtain ⟨mm, tl, ht⟩ := touchedBy_rest c ((m.op (atRep s c f)).use == .store || (m.op (atRep s c f)).use == .atomic) (perf.map (·.2)).flatten s
  generalize hs0 : touchedBy s c ((m.op (atRep s c f)).use == .store || (m.op (atRep s c f)).use == .atomic) (perf.map (·.2)).flatten = s0 at *
  generalize hw1 : applyMarks { c.w with race := rr.2 } m.marks (atRep s c f) x s.iss.rep c.rk tids = w1 at *
  have hO : outOf m f x s c tids perf = sendAll s0 c (m.op (atRep s c f)) f.sig.toNat tids (m.one (atRep s c f)) rr.1 perf w1 := by
    unfold outOf; dsimp only; rw [hrr, hs0, hw1]
  let fl := sendFlag w1 c.den f.sig.toNat c.pc tids s0.nextId (byHome perf).length (decide (repCount s0.iss.rep > 1)) (!lastRep s0 c)
  have hO2 : (outOf m f x s c tids perf).2 = fl.2 := by rw [hO]; rfl
  obtain ⟨ra, rb, rd, hrest⟩ := sends_rest c.w.core (fun id (part : List (Nat × List Acc)) =>
    { mkReq s0 c (m.op (atRep s c f)) id fl.1 (if m.one (atRep s c f) then tids else part.map (·.1)) (part.map (·.2)).flatten with
      rels := rr.1.filter (fun e => (if m.one (atRep s c f) then tids else part.map (·.1)).contains e.1) }) (byHome perf) s0
  have hO1 : (outOf m f x s c tids perf).1 = { s0 with reqs := ra, nextId := rb, seqs := rd } := by rw [hO]; exact hrest
  obtain ⟨rs, hrs, hraccs, hrp⟩ := sends_reqs c.w.core (fun id (part : List (Nat × List Acc)) =>
    { mkReq s0 c (m.op (atRep s c f)) id fl.1 (if m.one (atRep s c f) then tids else part.map (·.1)) (part.map (·.2)).flatten with
      rels := rr.1.filter (fun e => (if m.one (atRep s c f) then tids else part.map (·.1)).contains e.1) })
    (fun r => r.w = c.w.name ∧ r.kind = (m.op (atRep s c f)).kind ∧ r.dcode = (m.op (atRep s c f)).dcode ∧ r.dn = (m.op (atRep s c f)).dn ∧
      r.done = false ∧ r.order = ordOrder s ∧ r.scope = ordScope s ∧ ∀ t ∈ r.tids, t ∈ tids)
    (fun part => (part.map (·.2)).flatten) (fun _ _ => rfl) (byHome perf)
    (fun id part hpart q a1 a2 a3 a4 a5 a6 a7 a8 => ⟨a1, a2, a3, a4, a5, a6.trans (by rw [ht]; rfl), a7.trans (by rw [ht]; rfl), by
      rw [a8]
      dsimp only [mkReq]
      split
      · exact fun _ h => h
      · exact byHome_ids hids hpart⟩) s0
  have hiss : s0.iss = s.iss := by rw [ht]
  have hmk := frameStep_applyMarks { c.w with race := rr.2 } m.marks (atRep s c f) x s.iss.rep c.rk tids
  have hmt := applyMarks_threads { c.w with race := rr.2 } m.marks (atRep s c f) x s.iss.rep c.rk tids
  have hmr := (sameRest_applyMarks { c.w with race := rr.2 } m.marks (atRep s c f) x s.iss.rep c.rk tids).kept
  rw [hw1] at hmk hmt hmr
  have hsf := sendFlag_step w1 c.den f.sig.toNat c.pc tids s0.nextId (byHome perf).length (decide (repCount s0.iss.rep > 1)) (!lastRep s0 c)
  have hfs : FrameStep c.w fl.2 := (hmk.trans hsf.1 : FrameStep { c.w with race := rr.2 } fl.2)
  have hsame : SameWarps s { (outOf m f x s c tids perf).1 with sectors := z } := sameWarps_of_eq (by rw [hO1, ht])
  have hfin : issue u f x s (fun c f' tids => memBody (m.op f') m.marks (m.one f') (m.data s c tids f') (m.ops s c tids f') f' x s c tids) =
      .next (finish { (outOf m f x s c tids perf).1 with sectors := z } c tids (schedF (atRep s c f)).sent (outOf m f x s c tids perf).2) := by
    rw [issue_of_starts hst, hbody]
  have hsh := finish_shows (tids := tids) (q := (schedF (atRep s c f)).sent) (k := c.w) (g := (outOf m f x s c tids perf).2.cur) hst hsame (by rw [hO1]; exact hiss)
    (by rw [hO2]; exact hfs) (by rw [hO2, show places fl.2 = places w1 from hsf.2.1]; unfold places; rw [hmt])
    (by rw [hO2, show fl.2.kept = w1.kept from hsf.2.2, hmr]; rfl) rfl
  obtain ⟨v0, old, ho1, ho2, -⟩ := hsh.warp
  obtain ⟨old1, hold⟩ := hsame _ _ ho1
  have hels := elsewhere_finish { (outOf m f x s c tids perf).1 with sectors := z } c tids (schedF (atRep s c f)).sent (outOf m f x s c tids perf).2
  refine ⟨_, old, rs, hfin, ho2, ⟨hsh.warp, hsh.warps, hsh.blocks, hsh.rest⟩, ?_, hraccs, hrp, fun hden hfr hsg => ?_, fun a ha => ?_⟩
  · refine (congrArg State.reqs hels).trans ?_
    refine Eq.trans (b := (outOf m f x s c tids perf).1.reqs) rfl ?_
    rw [hO, show s.reqs = s0.reqs by rw [ht]]
    exact hrs
  · obtain ⟨v, hv, hvc⟩ := flagCount_finish_sent (s := { (outOf m f x s c tids perf).1 with sectors := z }) (tids := tids) (q := schedF (atRep s c f))
      (w := (outOf m f x s c tids perf).2) hold (by rw [hO2]; exact hfs.1) hden f.sig.toNat
    rw [ho2] at hv
    obtain rfl := Option.some.inj hv
    rw [hvc, hO2]
    have hw1f : w1.frames ≠ [] := by
      rcases hmk.2 with h | ⟨g, h⟩
      · rw [h]; exact hfr
      · rw [h]; exact List.cons_ne_nil _ _
    have := sendFlag_counts (pc := c.pc) (tids := tids) s0.nextId (n := (byHome perf).length) (decide (repCount s0.iss.rep > 1)) (!lastRep s0 c)
      hw1f hsg htn (byHome_pos hpn)
    rw [← hden] at this ⊢
    exact this
  · have hmem2 : (finish { (outOf m f x s c tids perf).1 with sectors := z } c tids (schedF (atRep s c f)).sent (outOf m f x s c tids perf).2).mem =
        (outOf m f x s c tids perf).1.mem := (congrArg State.mem hels).trans rfl
    rw [hmem2, hO1, ← hs0]
    exact readByte_touchedBy c _ _ s ha

end Sys2Proof.Machine
end

