-- ==== Sys2Proof/Laws/Matrix.lean ====
section
/-! SUPPORT. Matrix instructions: their issue, and the steps of the engine. -/

namespace Sys2Proof.Machine

theorem applyMarks_mq (w : Warp) (u : Use) (f : FWord) (x : Option LExt) (r : Option RepWord) (rk : Nat) (ts : List Nat) :
    (applyMarks w u f x r rk ts).mq = w.mq :=
  foldl_keeps (·.mq) (fun w1 (fl : Fld) => foldl_keeps (·.mq) (fun w2 (t : Nat) => by unfold killGroup; split <;> rfl) ts w1) _ w

/-- The issue of a queued matrix instruction. -/
theorem enqueue_finishes {s : State} {c : Ctx} {tids : List Nat} {f : FWord} {marks : Use} {e : MEntry} (hd : c.den = none) :
    Finishes s c tids (enqueue s c tids f marks e) (withEntry s c tids f marks e) { s with nextId := s.nextId + 1 } := by
  have hm := frameStep_applyMarks c.w marks f none none 0 tids
  have hr := raiseFlag_step { applyMarks c.w marks f none none 0 tids with mq := c.w.mq ++ [queued s c f e] } c.den f.sig.toNat
  have hdep : ({ applyMarks c.w marks f none none 0 tids with mq := c.w.mq ++ [queued s c f e] } : Warp).depth = c.w.depth := hm.depth
  rw [hdep] at hr
  have heq : enqueue s c tids f marks e = finish { s with nextId := s.nextId + 1 } c tids (schedF f).sent (withEntry s c tids f marks e) := by
    unfold enqueue withEntry flagUp queued freshId
    rw [← applyMarks_mq c.w marks f none none 0 tids, hd]
  rw [heq]
  refine Finishes.of_eq (sameWarps_of_eq rfl) rfl ?_ ?_
  · exact FrameStep.trans (b := { applyMarks c.w marks f none none 0 tids with mq := c.w.mq ++ [queued s c f e] }) ⟨hm.1, hm.2⟩ hr.1
  · refine hr.2.1.trans ?_
    show List.map _ (applyMarks c.w marks f none none 0 tids).threads = _
    rw [applyMarks_threads]; rfl

end Sys2Proof.Machine
end

