-- ==== Sys2Proof/Laws/Home.lean ====
section
/-! SUPPORT. Requests at their home: what performing them changes, and how a reply ends them. -/

namespace Sys2Proof.Machine

/-! ## What the detector keeps -/

/-- A state that differs in what the race detector keeps only. -/
structure RaceOnly (s t : State) : Prop where
  rest : elsewhere t = elsewhere s
  blocks : t.blocks = s.blocks
  warps : ∃ g : Warp → RaceSt, t.warps = s.warps.map (fun w => { w with race := g w })

theorem RaceOnly.refl (s : State) : RaceOnly s s := ⟨rfl, rfl, (·.race), (List.map_id _).symm⟩
theorem RaceOnly.trans {a b c : State} (h : RaceOnly a b) (k : RaceOnly b c) : RaceOnly a c := by
  obtain ⟨g, hg⟩ := h.warps
  obtain ⟨g2, hg2⟩ := k.warps
  refine ⟨k.rest.trans h.rest, k.blocks.trans h.blocks, fun w => g2 { w with race := g w }, ?_⟩
  rw [hg2, hg, List.map_map]; rfl
theorem raceOnly_modRace (s : State) (n : WName) (f : RaceSt → RaceSt) : RaceOnly s (modRace s n f) := by
  refine ⟨rfl, rfl, fun w => if w.name = n then f w.race else w.race, ?_⟩
  show s.warps.map _ = _
  refine List.map_congr_left fun w _ => ?_
  by_cases h : w.name = n
  · simp only [if_pos h]
  · simp only [if_neg h]
theorem raceOnly_releases (s : State) (rs : List RelRec) : RaceOnly s { s with releases := rs } := ⟨rfl, rfl, (·.race), (List.map_id _).symm⟩
theorem raceOnly_foldl {α : Type} {g : State → α → State} (h : ∀ s a, RaceOnly s (g s a)) : ∀ (xs : List α) (s : State), RaceOnly s (xs.foldl g s)
  | [], s => .refl s
  | a :: xs, s => (h s a).trans (raceOnly_foldl h xs (g s a))
theorem RaceOnly.sameWarps {s t : State} (h : RaceOnly s t) : SameWarps s t := by
  intro n w hw
  obtain ⟨g, hg⟩ := h.warps
  refine ⟨g w, ?_⟩
  unfold findWarp at hw ⊢
  rw [hg, List.find?_map]
  have : ((fun w : Warp => decide (w.name = n)) ∘ fun w : Warp => { w with race := g w }) = fun w => decide (w.name = n) := rfl
  rw [this, hw]; rfl

/-- A warp's records changed where it is resident. -/
theorem raceOnly_modRaceAny {s : State} {n : WName} (h : (findWarp s n).isSome = true) (f : RaceSt → RaceSt) : RaceOnly s (modRaceAny s n f) := by
  have hany : s.warps.any (fun w => decide (w.name = n)) = true := by
    obtain ⟨w, hw⟩ := Option.isSome_iff_exists.1 h
    exact List.any_eq_true.2 ⟨w, List.mem_of_find?_eq_some hw, by simpa using List.find?_some hw⟩
  unfold modRaceAny modWarpAny
  rw [if_pos hany]
  exact raceOnly_modRace s n f
theorem RaceOnly.resident {s t : State} (h : RaceOnly s t) {n : WName} (hn : (findWarp s n).isSome = true) : (findWarp t n).isSome = true := by
  obtain ⟨w, hw⟩ := Option.isSome_iff_exists.1 hn
  obtain ⟨x, hx⟩ := h.sameWarps n w hw
  rw [hx]; rfl
theorem raceOnly_raceAcquire {s : State} {n : WName} (h : (findWarp s n).isSome = true) (p : Party) (t : Nat) (sp : Space) (a z k : Nat) :
    RaceOnly s (raceAcquire s p n t sp a z k) := by
  unfold raceAcquire
  dsimp only
  split
  · exact .refl s
  · exact raceOnly_modRaceAny h _
theorem raceOnly_acquires {n : WName} (p : Party) (sp : Space) (a z k : Nat) : ∀ (ts : List Nat) (s : State), (findWarp s n).isSome = true →
    RaceOnly s (ts.foldl (fun st t => raceAcquire st p n t sp a z k) s)
  | [], s, _ => .refl s
  | t :: ts, s, h => by
    have h1 := raceOnly_raceAcquire h p t sp a z k
    exact h1.trans (raceOnly_acquires p sp a z k ts _ (h1.resident h))
theorem raceOnly_raceRead {s : State} {r : Req} (h : (findWarp s r.w).isSome = true) (ts : List Nat) (a : Acc) :
    RaceOnly s (raceRead s r false ts a) := by
  unfold raceRead
  dsimp only
  split
  · exact .refl s
  · rw [runsOf, if_neg (by decide), List.foldl_cons, List.foldl_nil]
    have h1 := raceOnly_modRaceAny h (fun x => ts.foldl (fun y t => y.modThread t
      (fun z => { z with seen := (releasesAt s a.space a.addr a.size ++ z.seen).eraseDups })) x)
    split
    · exact h1.trans (raceOnly_acquires _ _ _ _ _ _ _ (h1.resident h))
    · exact h1
theorem raceOnly_raceWrite (s : State) (r : Req) (b : Bool) (met : List RelSrc) (a : Acc) : RaceOnly s (raceWrite s r b met a) := by
  unfold raceWrite
  dsimp only
  refine .trans (b := if b then s else raceOverwrite s a.space a.addr a.size) ?_ (raceOnly_foldl (fun _ _ => raceOnly_releases _ _) _ _)
  split
  · exact .refl s
  · exact raceOnly_releases s _

/-! ## The end of a request -/

theorem completeReq_resident {s : State} {r : Req} {w : Warp} (f : Warp → Warp) (h : findWarp s r.w = some w) :
    completeReq s r f = dropReq (modWarp s r.w (fun w => lowerFlag (f w) r.depth r.den r.sig)) r.id := by
  have hany : s.warps.any (fun v => decide (v.name = r.w)) = true := by
    have h1 : (s.warps.find? (fun v => decide (v.name = r.w))).isSome = true := by
      have : s.warps.find? (fun v => decide (v.name = r.w)) = _ := h
      rw [this]; rfl
    rw [List.find?_isSome] at h1
    exact List.any_eq_true.2 h1
  unfold completeReq modWarpAny
  rw [if_pos hany]
theorem completeReq_answered {s s1 : State} {r : Req} {w : Warp} {f : Warp → Warp} (hw : findWarp s r.w = some w) (hs : SameWarps s s1)
    (hr : s1.reqs = s.reqs) (hn : ∀ v, v.name = r.w → (f v).name = r.w)
    (hf : ∀ x, ∃ y, lowerFlag (f { w with race := x }) r.depth r.den r.sig = { lowerFlag (f w) r.depth r.den r.sig with race := y }) :
    Answered s (completeReq s1 r f) r f := by
  obtain ⟨x, hx⟩ := hs _ _ hw
  have hname : ∀ v d den k, (lowerFlag v d den k).name = v.name := fun v d den k => by
    unfold lowerFlag
    split
    · rfl
    · split
      · rfl
      · split <;> rfl
  rw [completeReq_resident f hx]
  refine ⟨?_, fun n w' hnn hw' => ?_, ?_⟩
  · obtain ⟨y, hy⟩ := hf x
    refine ⟨w, y, hw, ?_⟩
    have := findWarp_modWarp (f := fun w => lowerFlag (f w) r.depth r.den r.sig) hx
      (by rw [hname]; exact hn _ (findWarp_name hx))
    rw [← hy]; exact this
  · obtain ⟨y, hy⟩ := hs n w' hw'
    refine ⟨y, ?_⟩
    have := findWarp_modWarp_other (f := fun w => lowerFlag (f w) r.depth r.den r.sig) (s := s1) hnn
      (fun v hv => by rw [hname]; exact hn v hv)
    exact this.trans hy
  · show (s1.reqs.filter _) = _
    rw [hr]

/-! ## Reads and writes -/

theorem twinPatch_none {s : State} (h : s.warps.all (fun w => w.checked.isEmpty) = true) (n : WName) (a : Acc) (bs : List Byte) :
    twinPatch s n a bs = bs := by
  unfold twinPatch
  have : (((s.warps.filter (fun w => decide (w.name.launch = n.launch) && decide (w.name.shadow = n.shadow) && decide (w.name.blk = n.blk))).map
      (·.checked)).flatten) = [] := by
    rw [List.flatten_eq_nil_iff]
    intro l hl
    obtain ⟨w, hw, rfl⟩ := List.mem_map.1 hl
    have := List.all_eq_true.1 h w (List.mem_filter.1 hw).1
    exact List.isEmpty_iff.1 this
  rw [this]; rfl
theorem RaceOnly.checked {s t : State} (h : RaceOnly s t) (hc : s.warps.all (fun w => w.checked.isEmpty) = true) :
    t.warps.all (fun w => w.checked.isEmpty) = true := by
  obtain ⟨g, hg⟩ := h.warps
  rw [hg, List.all_map]
  exact hc
theorem RaceOnly.mem {s t : State} (h : RaceOnly s t) : t.mem = s.mem := (congrArg State.mem h.rest : (elsewhere t).mem = (elsewhere s).mem)
theorem RaceOnly.reqs {s t : State} (h : RaceOnly s t) : t.reqs = s.reqs := (congrArg State.reqs h.rest : (elsewhere t).reqs = (elsewhere s).reqs)
theorem RaceOnly.homeBytes {s t : State} (h : RaceOnly s t) (a : Acc) : homeBytes t a = homeBytes s a := by
  unfold Machine.homeBytes scratchBytes findBlock
  rw [h.mem, h.blocks]
theorem readAcc_home {s : State} (l : Launch) (core : Nat) (n : WName) {a : Acc} (h : s.warps.all (fun w => w.checked.isEmpty) = true)
    (ha : a.l1 = false) : readAcc s l core n a = (s, homeBytes s a) := by
  unfold readAcc homeBytes
  cases hsp : a.space with
  | scratch lk blk sh => rfl
  | phys =>
    simp only [ha, Bool.false_eq_true, if_false, Bool.false_and]
    rw [twinPatch_none h]
/-- The accesses of a load, one after the other. -/
theorem foldl_loads (l : Launch) (core : Nat) (r : Req) (q : Acc → List Nat) : ∀ (accs : List Acc) (s : State) (vs : List (Nat × List Byte)),
    (findWarp s r.w).isSome = true → s.warps.all (fun w => w.checked.isEmpty) = true → accs.all (fun a => !a.l1) = true →
    ∃ s', RaceOnly s s' ∧ accs.foldl (fun acc a =>
      let (st, bs) := readAcc acc.1 l core r.w a
      (raceRead st r false (q a) a, acc.2 ++ [(a.tid, bs)])) (s, vs) = (s', vs ++ accs.map (fun a => (a.tid, homeBytes s a)))
  | [], s, vs, _, _, _ => ⟨s, .refl s, by simp⟩
  | a :: accs, s, vs, hw, hc, hl => by
    simp only [List.all_cons, Bool.and_eq_true, Bool.not_eq_true'] at hl
    have h1 := raceOnly_raceRead hw (q a) a
    obtain ⟨s', h2, h3⟩ := foldl_loads l core r q accs (raceRead s r false (q a) a) (vs ++ [(a.tid, homeBytes s a)]) (h1.resident hw)
      (h1.checked hc) hl.2
    refine ⟨s', h1.trans h2, ?_⟩
    rw [List.foldl_cons]
    dsimp only
    rw [readAcc_home l core r.w hc hl.1]
    dsimp only at h3 ⊢
    rw [h3]
    simp only [h1.homeBytes, List.map_cons, List.append_assoc, List.cons_append, List.nil_append]

theorem offCore_resident {s : State} {r : Req} (h : (findWarp s r.w).isSome = true) : offCore s r = r := by unfold offCore; rw [if_pos h]

/-- What `atHome` says. -/
theorem atHome_spec {s : State} {r : Req} (h : atHome s r = true) :
    ∃ w l, findWarp s r.w = some w ∧ findLaunch s r.w.launch = some l ∧ l.twin = false ∧ mayPerform s r = true ∧ r.done = false ∧ r.seq = none ∧
      r.accs.any (accPoison s) = false ∧ s.warps.all (fun w => w.checked.isEmpty) = true ∧ reqHome s r = some (l, w.core) := by
  unfold atHome at h
  cases hw : findWarp s r.w with
  | none => rw [hw] at h; simp at h
  | some w =>
    cases hl : findLaunch s r.w.launch with
    | none => rw [hl] at h; simp at h
    | some l =>
      rw [hw, hl] at h
      simp only [Option.isSome_some, Bool.true_and, Bool.and_eq_true, Bool.not_eq_true', Option.isNone_iff_eq_none] at h
      obtain ⟨⟨⟨⟨⟨h1, h2⟩, h3⟩, h4⟩, h5⟩, h6⟩ := h
      exact ⟨w, l, rfl, rfl, h1, h2, h3, h4, h5, h6, by unfold reqHome; rw [hl, hw]; rfl⟩

theorem isOnce_plain {l : Launch} {r : Req} (h : l.twin = false) : isOnce l r = false := by unfold isOnce; rw [h]; rfl

theorem gather_map (accs : List Acc) (f : Acc → List Byte) (ts : List Nat) :
    gather (accs.map (fun a => (a.tid, f a))) ts = ts.map (fun t => (t, ((accs.filter (fun a => a.tid == t)).map f).flatten)) := by
  unfold gather
  refine List.map_congr_left fun t _ => ?_
  rw [List.filter_map, List.map_map]
  rfl
/-- A load that may perform and goes by no L1 line. -/
theorem performRead_load {s : State} {r : Req} {sg : Bool} (hk : r.kind = .load sg) (h : atHome s r = true) (ha : r.acquires = false)
    (hl1 : r.accs.all (fun a => !a.l1) = true) : ∃ s', RaceOnly s s' ∧ performRead s r = some (s', loadResult s r sg) := by
  obtain ⟨w, l, hw, hl, htw, hmay, hd, hseq, hp, hc, hh⟩ := atHome_spec h
  obtain ⟨s', h1, h2⟩ := foldl_loads l w.core r (accThreads r) r.accs s [] (by rw [hw]; rfl) hc hl1
  refine ⟨s', h1, ?_⟩
  have hload : perfLoad s l w.core r false sg = (s', loadResult s r sg) := by
    unfold perfLoad acquireDrop
    rw [ha]
    simp only [Bool.false_and, Bool.false_eq_true, if_false]
    dsimp only at h2
    rw [h2]
    dsimp only
    rw [List.nil_append, gather_map, List.map_map]
    rfl
  unfold performRead
  rw [hh]
  dsimp only
  rw [isOnce_plain htw, hmay, offCore_resident (by rw [hw]; rfl), hk]
  dsimp only
  rw [hload]
  rfl

/-- A state that differs in what the performance of writes may change. -/
structure WriteOnly (s t : State) : Prop where
  rest : unwritten t = unwritten s
  blocks : t.blocks = s.blocks
  reqs : t.reqs = s.reqs
  warps : ∃ g : Warp → RaceSt, t.warps = s.warps.map (fun w => { w with race := g w })
theorem WriteOnly.refl (s : State) : WriteOnly s s := ⟨rfl, rfl, rfl, (·.race), (List.map_id _).symm⟩
theorem WriteOnly.trans {a b c : State} (h : WriteOnly a b) (k : WriteOnly b c) : WriteOnly a c := by
  obtain ⟨g, hg⟩ := h.warps
  obtain ⟨g2, hg2⟩ := k.warps
  refine ⟨k.rest.trans h.rest, k.blocks.trans h.blocks, k.reqs.trans h.reqs, fun w => g2 { w with race := g w }, ?_⟩
  rw [hg2, hg, List.map_map]; rfl
theorem RaceOnly.writeOnly {s t : State} (h : RaceOnly s t) : WriteOnly s t := by
  refine ⟨?_, h.blocks, h.reqs, h.warps⟩
  unfold unwritten
  rw [h.rest]
theorem WriteOnly.sameWarps {s t : State} (h : WriteOnly s t) : SameWarps s t := by
  intro n w hw
  obtain ⟨g, hg⟩ := h.warps
  refine ⟨g w, ?_⟩
  unfold findWarp at hw ⊢
  rw [hg, List.find?_map]
  have : ((fun w : Warp => decide (w.name = n)) ∘ fun w : Warp => { w with race := g w }) = fun w => decide (w.name = n) := rfl
  rw [this, hw]; rfl
/-- A write to memory that is not private. -/
theorem writeAcc_phys {s : State} (l : Launch) (core : Nat) {a : Acc} (hsp : a.space = .phys) (hp : a.priv = false) :
    WriteOnly s (writeAcc s l core a) ∧ (writeAcc s l core a).mem = writeBytes s.mem a.addr a.data := by
  unfold writeAcc
  rw [hsp]
  simp only [hp, Bool.false_and, Bool.false_eq_true, if_false]
  unfold markGranule
  split
  · exact ⟨⟨rfl, rfl, rfl, (·.race), (List.map_id _).symm⟩, rfl⟩
  · exact ⟨⟨rfl, rfl, rfl, (·.race), (List.map_id _).symm⟩, rfl⟩
/-- The stores of a request, one after the other. -/
theorem foldl_stores (l : Launch) (core : Nat) (r : Req) : ∀ (accs : List Acc) (s : State),
    accs.all (fun a => a.space == .phys && !a.priv) = true →
    WriteOnly s (accs.foldl (fun acc a => raceWrite (writeAcc acc l core a) r false [] a) s) ∧
      (accs.foldl (fun acc a => raceWrite (writeAcc acc l core a) r false [] a) s).mem = storeMem s.mem accs
  | [], s, _ => ⟨.refl s, rfl⟩
  | a :: accs, s, h => by
    simp only [List.all_cons, Bool.and_eq_true, beq_iff_eq, Bool.not_eq_true'] at h
    have h1 := writeAcc_phys (s := s) l core h.1.1 h.1.2
    have h2 := raceOnly_raceWrite (writeAcc s l core a) r false [] a
    have h3 := foldl_stores l core r accs (raceWrite (writeAcc s l core a) r false [] a) (by simpa using h.2)
    rw [List.foldl_cons]
    refine ⟨(h1.1.trans h2.writeOnly).trans h3.1, ?_⟩
    rw [h3.2, h2.mem, h1.2]
    rfl
theorem performStore_phys {s : State} {r : Req} (h : atHome s r = true) (ha : r.accs.all (fun a => a.space == .phys && !a.priv) = true) :
    ∃ s', WriteOnly s s' ∧ s'.mem = storeMem s.mem r.accs ∧ performStore s r = some s' := by
  obtain ⟨w, l, hw, hl, htw, hmay, hd, hseq, hp, hc, hh⟩ := atHome_spec h
  have h1 := foldl_stores l w.core r r.accs s ha
  refine ⟨_, h1.1, h1.2, ?_⟩
  unfold performStore
  rw [hh]
  dsimp only
  rw [hmay, offCore_resident (by rw [hw]; rfl)]
  rfl
/-- The read-modify-writes of a request, one after the other. -/
theorem foldl_atoms (l : Launch) (core : Nat) (r : Req) (op ty : Nat) (q : Acc → List Nat) : ∀ (accs : List Acc) (s : State)
    (vs : List (Nat × List Word)), (findWarp s r.w).isSome = true → accs.all (fun a => a.space == .phys && !a.l1) = true →
    ∃ s', WriteOnly s s' ∧ s'.mem = (atomRun op ty s.mem accs).1 ∧ accs.foldl (fun acc a =>
      let old := match a.space with
        | .phys => readNat acc.1.mem a.addr (4 * valRegs ty)
        | .scratch lk blk sh => ofBytes (scratchBytes acc.1 lk blk sh a.addr (4 * valRegs ty))
      let (new, ok) := atomF op ty old (opNat (a.ops.take (valRegs ty))) (opNat (a.ops.drop (valRegs ty)))
      let st := writeAcc acc.1 l core { a with data := toBytes new (4 * valRegs ty), priv := false }
      let st1 := raceWrite (raceRead st r false (q a) a) r true (taken st r.party r.scope (releasesAt st a.space a.addr a.size)) a
      (st1, acc.2 ++ [(a.tid, split64 (BitVec.ofNat 64 old) |>.take (valRegs ty) |> (· ++ [bitWord ok]))])) (s, vs) =
        (s', vs ++ (atomRun op ty s.mem accs).2)
  | [], s, vs, _, _ => ⟨s, .refl s, rfl, by simp [atomRun]⟩
  | a :: accs, s, vs, hw, h => by
    simp only [List.all_cons, Bool.and_eq_true, beq_iff_eq, Bool.not_eq_true'] at h
    generalize hres : atomF op ty (readNat s.mem a.addr (4 * valRegs ty)) (opNat (a.ops.take (valRegs ty))) (opNat (a.ops.drop (valRegs ty))) = res
    obtain ⟨new, ok⟩ := res
    have h1 := writeAcc_phys (s := s) l core (a := { a with data := toBytes new (4 * valRegs ty), priv := false }) h.1.1 rfl
    generalize hst : writeAcc s l core { a with data := toBytes new (4 * valRegs ty), priv := false } = st at h1
    have hw1 : (findWarp st r.w).isSome = true := by
      obtain ⟨v, hv⟩ := Option.isSome_iff_exists.1 hw
      obtain ⟨x, hx⟩ := h1.1.sameWarps _ v hv
      rw [hx]; rfl
    have h2 := raceOnly_raceRead hw1 (q a) a
    have h3 := raceOnly_raceWrite (raceRead st r false (q a) a) r true (taken st r.party r.scope (releasesAt st a.space a.addr a.size)) a
    obtain ⟨s', h4, h5, h6⟩ := foldl_atoms l core r op ty q accs _ (vs ++ [(a.tid, (split64 (BitVec.ofNat 64 (readNat s.mem a.addr (4 * valRegs ty)))).take
      (valRegs ty) ++ [bitWord ok])]) (h3.resident (h2.resident hw1)) (by simpa using h.2)
    have hm : (raceWrite (raceRead st r false (q a) a) r true (taken st r.party r.scope (releasesAt st a.space a.addr a.size)) a).mem =
        writeBytes s.mem a.addr (toBytes new (4 * valRegs ty)) := by rw [h3.mem, h2.mem, h1.2]
    rw [hm] at h5 h6
    have hrun : atomRun op ty s.mem (a :: accs) = ((atomRun op ty (writeBytes s.mem a.addr (toBytes new (4 * valRegs ty))) accs).1,
        (a.tid, (split64 (BitVec.ofNat 64 (readNat s.mem a.addr (4 * valRegs ty)))).take (valRegs ty) ++ [bitWord ok]) ::
          (atomRun op ty (writeBytes s.mem a.addr (toBytes new (4 * valRegs ty))) accs).2) := by
      simp only [atomRun, hres]
    refine ⟨s', ((h1.1.trans h2.writeOnly).trans h3.writeOnly).trans h4, by rw [h5, hrun], ?_⟩
    rw [List.foldl_cons]
    dsimp only at h6 ⊢
    have hold : (match a.space with
        | .phys => readNat s.mem a.addr (4 * valRegs ty)
        | .scratch lk blk sh => ofBytes (scratchBytes s lk blk sh a.addr (4 * valRegs ty))) = readNat s.mem a.addr (4 * valRegs ty) := by rw [h.1.1]
    rw [hold, hres]
    dsimp only
    rw [hst, h6, hrun]
    simp only [List.append_assoc, List.cons_append, List.nil_append]
theorem performRead_atom {s : State} {r : Req} {op ty sp : Nat} (hk : r.kind = .atom op ty sp) (h : atHome s r = true) (ha : r.acquires = false)
    (hl1 : r.accs.all (fun a => a.space == .phys && !a.l1) = true) :
    ∃ s', WriteOnly s s' ∧ s'.mem = (atomRun op ty s.mem r.accs).1 ∧ performRead s r = some (s', (atomRun op ty s.mem r.accs).2) := by
  obtain ⟨w, l, hw, hl, htw, hmay, hd, hseq, hp, hc, hh⟩ := atHome_spec h
  obtain ⟨s', h1, h2, h3⟩ := foldl_atoms l w.core r op ty (accThreads r) r.accs s [] (by rw [hw]; rfl) hl1
  refine ⟨s', h1, h2, ?_⟩
  have hload : perfAtom s l w.core r false op ty = (s', (atomRun op ty s.mem r.accs).2) := by
    unfold perfAtom acquireDrop
    rw [ha]
    simp only [Bool.false_and, Bool.false_eq_true, if_false]
    rw [List.nil_append] at h3
    exact h3
  unfold performRead
  rw [hh]
  dsimp only
  rw [isOnce_plain htw, hmay, offCore_resident (by rw [hw]; rfl), hk]
  dsimp only
  rw [hload]
  rfl
/-- Bytes outside a run of stores. -/
theorem readByte_storeMem (b : Nat) : ∀ (accs : List Acc) (m : List Host.Cell), (∀ a ∈ accs, b < a.addr ∨ a.addr + a.data.length ≤ b) →
    readByte (storeMem m accs) b = readByte m b
  | [], _, _ => rfl
  | a :: accs, m, h => by
    show readByte (storeMem (writeBytes m a.addr a.data) accs) b = _
    rw [readByte_storeMem b accs _ fun x hx => h x (List.mem_cons_of_mem _ hx), readByte_writeBytes_other _ _ (h a (List.mem_cons_self ..))]
theorem length_toBytes : ∀ (n x : Nat), (toBytes x n).length = n
  | 0, _ => rfl
  | n + 1, x => by simp only [toBytes, List.length_cons, length_toBytes n]
theorem readByte_atomRun (op ty b : Nat) : ∀ (accs : List Acc) (m : List Host.Cell), (∀ a ∈ accs, b < a.addr ∨ a.addr + 4 * valRegs ty ≤ b) →
    readByte (atomRun op ty m accs).1 b = readByte m b
  | [], _, _ => rfl
  | a :: accs, m, h => by
    show readByte (atomRun op ty (writeBytes m a.addr _) accs).1 b = _
    rw [readByte_atomRun op ty b accs _ fun x hx => h x (List.mem_cons_of_mem _ hx), readByte_writeBytes_other _ _ (by
      rw [length_toBytes]; exact h a (List.mem_cons_self ..))]

theorem writeReply_race (r : Req) (res : List (Nat × List Word)) (w : Warp) (x : RaceSt) :
    writeReply r res { w with race := x } = { writeReply r res w with race := x } := by
  unfold writeReply
  dsimp only
  by_cases h1 : isS r.dcode = true
  · simp only [if_pos h1]
    cases r.kind <;> first | rfl | (dsimp only; split <;> rfl)
  · simp only [if_neg h1]
    by_cases h2 : isV r.dcode = true
    · simp only [if_pos h2]
      cases r.kind <;> first | rfl | (dsimp only; split <;> rfl)
    · simp only [if_neg h2]
      cases r.kind <;> first | rfl | (dsimp only; split <;> rfl)
theorem writeReply_name (r : Req) (res : List (Nat × List Word)) (w : Warp) : (writeReply r res w).name = w.name := by
  unfold writeReply
  dsimp only
  by_cases h1 : isS r.dcode = true
  · simp only [if_pos h1]
    cases r.kind <;> first | rfl | (dsimp only; split <;> rfl)
  · simp only [if_neg h1]
    by_cases h2 : isV r.dcode = true
    · simp only [if_pos h2]
      cases r.kind <;> first | rfl | (dsimp only; split <;> rfl)
    · simp only [if_neg h2]
      cases r.kind <;> first | rfl | (dsimp only; split <;> rfl)
theorem lowerFlag_race (w : Warp) (d : Nat) (den : Option Nat) (k : Nat) (x : RaceSt) :
    lowerFlag { w with race := x } d den k = { lowerFlag w d den k with race := x } := by
  unfold lowerFlag
  split
  · rfl
  · split
    · rfl
    · split <;> rfl

end Sys2Proof.Machine
end

