-- ==== Sys2Proof/Laws/PerInstr.lean ====
section
/-! SUPPORT. For every instruction, that its words are read back: one lemma for each constructor of Instr. -/

namespace Sys2Proof.Laws

/-- The last of the conditions of an encoding. -/
theorem last_cond {a : Bool} {p : Prop} [Decidable p] (h : (a && decide p) = true) : p := by simpa using (Bool.and_eq_true_iff.1 h).2
/-- The conditions of an encoding but for the last. -/
theorem but_last {a b : Bool} (h : (a && b) = true) : a = true := (Bool.and_eq_true_iff.1 h).1

/-- The KSLOT forms (R484). -/
def kslotOf (f : FWord) (x : LExt) : Option Instr :=
  if x.ksop = 0 then some (.kslotLoad f x) else if x.ksop = 1 then some (.kslotZero f x) else if x.ksop = 2 then some (.kslotQuery f x) else none
/-- What is said of every instruction: one that is well formed and has words is read back from them. -/
def RoundTrip.Statement (i : Instr) : Prop := WellFormed i → hasWords i = true → ReadsBack i

theorem RoundTrip.nop (f : FWord) : RoundTrip.Statement (.nop f) := fun h _ => reads_F (opc := 0x000) rfl h rfl
theorem RoundTrip.movF (f : FWord) : RoundTrip.Statement (.movF f) := fun h _ => reads_F (opc := 0x001) rfl h rfl
theorem RoundTrip.movL (f : FWord) (x : LExt) : RoundTrip.Statement (.movL f x) := fun h _ => reads_L (opc := 0x001) rfl h rfl
theorem RoundTrip.iaddF (f : FWord) : RoundTrip.Statement (.iaddF f) := fun h _ => reads_F (opc := 0x002) rfl h rfl
theorem RoundTrip.iaddL (f : FWord) (x : LExt) : RoundTrip.Statement (.iaddL f x) := fun h _ => reads_L (opc := 0x002) rfl h rfl
theorem RoundTrip.isubF (f : FWord) : RoundTrip.Statement (.isubF f) := fun h _ => reads_F (opc := 0x003) rfl h rfl
theorem RoundTrip.isubL (f : FWord) (x : LExt) : RoundTrip.Statement (.isubL f x) := fun h _ => reads_L (opc := 0x003) rfl h rfl
theorem RoundTrip.iaddt (f : FWord) (x : LExt) : RoundTrip.Statement (.iaddt f x) := fun h _ => reads_L (opc := 0x004) rfl h rfl
theorem RoundTrip.iadd64 (f : FWord) : RoundTrip.Statement (.iadd64 f) := fun h _ => reads_F (opc := 0x005) rfl h rfl
theorem RoundTrip.imulF (f : FWord) : RoundTrip.Statement (.imulF f) := fun h _ => reads_F (opc := 0x006) rfl h rfl
theorem RoundTrip.imulL (f : FWord) (x : LExt) : RoundTrip.Statement (.imulL f x) := fun h _ => reads_L (opc := 0x006) rfl h rfl
theorem RoundTrip.imulh (f : FWord) : RoundTrip.Statement (.imulh f) := fun h _ => reads_F (opc := 0x007) rfl h rfl
theorem RoundTrip.imulw (f : FWord) : RoundTrip.Statement (.imulw f) := fun h _ => reads_F (opc := 0x008) rfl h rfl
theorem RoundTrip.imad (f : FWord) (x : LExt) : RoundTrip.Statement (.imad f x) := fun h _ => reads_L (opc := 0x009) rfl h rfl
theorem RoundTrip.iminF (f : FWord) : RoundTrip.Statement (.iminF f) := fun h _ => reads_F (opc := 0x00A) rfl h rfl
theorem RoundTrip.iminL (f : FWord) (x : LExt) : RoundTrip.Statement (.iminL f x) := fun h _ => reads_L (opc := 0x00A) rfl h rfl
theorem RoundTrip.imaxF (f : FWord) : RoundTrip.Statement (.imaxF f) := fun h _ => reads_F (opc := 0x00B) rfl h rfl
theorem RoundTrip.imaxL (f : FWord) (x : LExt) : RoundTrip.Statement (.imaxL f x) := fun h _ => reads_L (opc := 0x00B) rfl h rfl
theorem RoundTrip.iabs (f : FWord) : RoundTrip.Statement (.iabs f) := fun h _ => reads_F (opc := 0x00C) rfl h rfl
theorem RoundTrip.ineg (f : FWord) : RoundTrip.Statement (.ineg f) := fun h _ => reads_F (opc := 0x00D) rfl h rfl
theorem RoundTrip.isetF (f : FWord) : RoundTrip.Statement (.isetF f) := fun h _ => reads_F (opc := 0x00E) rfl h rfl
theorem RoundTrip.isetL (f : FWord) (x : LExt) : RoundTrip.Statement (.isetL f x) := fun h _ => reads_L (opc := 0x00E) rfl h rfl
theorem RoundTrip.sel (f : FWord) (x : LExt) : RoundTrip.Statement (.sel f x) := fun h _ => reads_L (opc := 0x00F) rfl h rfl
theorem RoundTrip.andF (f : FWord) : RoundTrip.Statement (.andF f) := fun h _ => reads_F (opc := 0x010) rfl h rfl
theorem RoundTrip.andL (f : FWord) (x : LExt) : RoundTrip.Statement (.andL f x) := fun h _ => reads_L (opc := 0x010) rfl h rfl
theorem RoundTrip.orF (f : FWord) : RoundTrip.Statement (.orF f) := fun h _ => reads_F (opc := 0x011) rfl h rfl
theorem RoundTrip.orL (f : FWord) (x : LExt) : RoundTrip.Statement (.orL f x) := fun h _ => reads_L (opc := 0x011) rfl h rfl
theorem RoundTrip.xorF (f : FWord) : RoundTrip.Statement (.xorF f) := fun h _ => reads_F (opc := 0x012) rfl h rfl
theorem RoundTrip.xorL (f : FWord) (x : LExt) : RoundTrip.Statement (.xorL f x) := fun h _ => reads_L (opc := 0x012) rfl h rfl
theorem RoundTrip.andnF (f : FWord) : RoundTrip.Statement (.andnF f) := fun h _ => reads_F (opc := 0x013) rfl h rfl
theorem RoundTrip.andnL (f : FWord) (x : LExt) : RoundTrip.Statement (.andnL f x) := fun h _ => reads_L (opc := 0x013) rfl h rfl
theorem RoundTrip.not (f : FWord) : RoundTrip.Statement (.not f) := fun h _ => reads_F (opc := 0x014) rfl h rfl
theorem RoundTrip.blut (f : FWord) (x : LExt) : RoundTrip.Statement (.blut f x) := fun h _ => reads_L (opc := 0x015) rfl h rfl
theorem RoundTrip.shl (f : FWord) : RoundTrip.Statement (.shl f) := fun h _ => reads_F (opc := 0x016) rfl h rfl
theorem RoundTrip.shr (f : FWord) : RoundTrip.Statement (.shr f) := fun h _ => reads_F (opc := 0x017) rfl h rfl
theorem RoundTrip.sar (f : FWord) : RoundTrip.Statement (.sar f) := fun h _ => reads_F (opc := 0x018) rfl h rfl
theorem RoundTrip.rol (f : FWord) : RoundTrip.Statement (.rol f) := fun h _ => reads_F (opc := 0x019) rfl h rfl
theorem RoundTrip.funs (f : FWord) (x : LExt) : RoundTrip.Statement (.funs f x) := fun h _ => reads_L (opc := 0x01A) rfl h rfl
theorem RoundTrip.bfe (f : FWord) (x : LExt) : RoundTrip.Statement (.bfe f x) := fun h _ => reads_L (opc := 0x01B) rfl h rfl
theorem RoundTrip.bfi (f : FWord) (x : LExt) : RoundTrip.Statement (.bfi f x) := fun h _ => reads_L (opc := 0x01C) rfl h rfl
theorem RoundTrip.popc (f : FWord) : RoundTrip.Statement (.popc f) := fun h _ => reads_F (opc := 0x01D) rfl h rfl
theorem RoundTrip.clz (f : FWord) : RoundTrip.Statement (.clz f) := fun h _ => reads_F (opc := 0x01E) rfl h rfl
theorem RoundTrip.brev (f : FWord) : RoundTrip.Statement (.brev f) := fun h _ => reads_F (opc := 0x01F) rfl h rfl
theorem RoundTrip.bpick (f : FWord) (x : LExt) : RoundTrip.Statement (.bpick f x) := fun h _ => reads_L (opc := 0x020) rfl h rfl
theorem RoundTrip.lea (f : FWord) (x : LExt) : RoundTrip.Statement (.lea f x) := fun h _ => reads_L (opc := 0x021) rfl h rfl
theorem RoundTrip.pset (f : FWord) : RoundTrip.Statement (.pset f) := fun h _ => reads_F (opc := 0x022) rfl h rfl
theorem RoundTrip.pmov (f : FWord) : RoundTrip.Statement (.pmov f) := fun h _ => reads_F (opc := 0x023) rfl h rfl
theorem RoundTrip.faddF (f : FWord) : RoundTrip.Statement (.faddF f) := fun h _ => reads_F (opc := 0x040) rfl h rfl
theorem RoundTrip.faddL (f : FWord) (x : LExt) : RoundTrip.Statement (.faddL f x) := fun h _ => reads_L (opc := 0x040) rfl h rfl
theorem RoundTrip.fsubF (f : FWord) : RoundTrip.Statement (.fsubF f) := fun h _ => reads_F (opc := 0x041) rfl h rfl
theorem RoundTrip.fsubL (f : FWord) (x : LExt) : RoundTrip.Statement (.fsubL f x) := fun h _ => reads_L (opc := 0x041) rfl h rfl
theorem RoundTrip.fmulF (f : FWord) : RoundTrip.Statement (.fmulF f) := fun h _ => reads_F (opc := 0x042) rfl h rfl
theorem RoundTrip.fmulL (f : FWord) (x : LExt) : RoundTrip.Statement (.fmulL f x) := fun h _ => reads_L (opc := 0x042) rfl h rfl
theorem RoundTrip.ffmaF (f : FWord) : RoundTrip.Statement (.ffmaF f) := fun h _ => reads_F (opc := 0x043) rfl h rfl
theorem RoundTrip.ffmaL (f : FWord) (x : LExt) : RoundTrip.Statement (.ffmaL f x) := fun h _ => reads_L (opc := 0x043) rfl h rfl
theorem RoundTrip.fmin (f : FWord) : RoundTrip.Statement (.fmin f) := fun h _ => reads_F (opc := 0x044) rfl h rfl
theorem RoundTrip.fmax (f : FWord) : RoundTrip.Statement (.fmax f) := fun h _ => reads_F (opc := 0x045) rfl h rfl
theorem RoundTrip.fsetF (f : FWord) : RoundTrip.Statement (.fsetF f) := fun h _ => reads_F (opc := 0x046) rfl h rfl
theorem RoundTrip.fsetL (f : FWord) (x : LExt) : RoundTrip.Statement (.fsetL f x) := fun h _ => reads_L (opc := 0x046) rfl h rfl
theorem RoundTrip.fabs (f : FWord) : RoundTrip.Statement (.fabs f) := fun h _ => reads_F (opc := 0x047) rfl h rfl
theorem RoundTrip.fneg (f : FWord) : RoundTrip.Statement (.fneg f) := fun h _ => reads_F (opc := 0x048) rfl h rfl
theorem RoundTrip.fdivF (f : FWord) : RoundTrip.Statement (.fdivF f) := fun h _ => reads_F (opc := 0x049) rfl h rfl
theorem RoundTrip.fdivL (f : FWord) (x : LExt) : RoundTrip.Statement (.fdivL f x) := fun h _ => reads_L (opc := 0x049) rfl h rfl
theorem RoundTrip.frcp (f : FWord) : RoundTrip.Statement (.frcp f) := fun h _ => reads_F (opc := 0x04A) rfl h rfl
theorem RoundTrip.frsq (f : FWord) : RoundTrip.Statement (.frsq f) := fun h _ => reads_F (opc := 0x04B) rfl h rfl
theorem RoundTrip.fsqrt (f : FWord) : RoundTrip.Statement (.fsqrt f) := fun h _ => reads_F (opc := 0x04C) rfl h rfl
theorem RoundTrip.fex2 (f : FWord) : RoundTrip.Statement (.fex2 f) := fun h _ => reads_F (opc := 0x04D) rfl h rfl
theorem RoundTrip.flg2 (f : FWord) : RoundTrip.Statement (.flg2 f) := fun h _ => reads_F (opc := 0x04E) rfl h rfl
theorem RoundTrip.fsinp (f : FWord) : RoundTrip.Statement (.fsinp f) := fun h _ => reads_F (opc := 0x04F) rfl h rfl
theorem RoundTrip.fcosp (f : FWord) : RoundTrip.Statement (.fcosp f) := fun h _ => reads_F (opc := 0x050) rfl h rfl
theorem RoundTrip.frnd (f : FWord) : RoundTrip.Statement (.frnd f) := fun h _ => reads_F (opc := 0x051) rfl h rfl
theorem RoundTrip.fclass (f : FWord) : RoundTrip.Statement (.fclass f) := fun h _ => reads_F (opc := 0x052) rfl h rfl
theorem RoundTrip.fscl (f : FWord) : RoundTrip.Statement (.fscl f) := fun h _ => reads_F (opc := 0x053) rfl h rfl
theorem RoundTrip.pkadd (f : FWord) : RoundTrip.Statement (.pkadd f) := fun h _ => reads_F (opc := 0x054) rfl h rfl
theorem RoundTrip.pkmul (f : FWord) : RoundTrip.Statement (.pkmul f) := fun h _ => reads_F (opc := 0x055) rfl h rfl
theorem RoundTrip.pkfmaF (f : FWord) : RoundTrip.Statement (.pkfmaF f) := fun h _ => reads_F (opc := 0x056) rfl h rfl
theorem RoundTrip.pkfmaL (f : FWord) (x : LExt) : RoundTrip.Statement (.pkfmaL f x) := fun h _ => reads_L (opc := 0x056) rfl h rfl
theorem RoundTrip.pkmin (f : FWord) : RoundTrip.Statement (.pkmin f) := fun h _ => reads_F (opc := 0x057) rfl h rfl
theorem RoundTrip.pkmax (f : FWord) : RoundTrip.Statement (.pkmax f) := fun h _ => reads_F (opc := 0x058) rfl h rfl
theorem RoundTrip.dadd (f : FWord) : RoundTrip.Statement (.dadd f) := fun h _ => reads_F (opc := 0x059) rfl h rfl
theorem RoundTrip.dmul (f : FWord) : RoundTrip.Statement (.dmul f) := fun h _ => reads_F (opc := 0x05A) rfl h rfl
theorem RoundTrip.dfmaF (f : FWord) : RoundTrip.Statement (.dfmaF f) := fun h _ => reads_F (opc := 0x05B) rfl h rfl
theorem RoundTrip.dfmaL (f : FWord) (x : LExt) : RoundTrip.Statement (.dfmaL f x) := fun h _ => reads_L (opc := 0x05B) rfl h rfl
theorem RoundTrip.dmin (f : FWord) : RoundTrip.Statement (.dmin f) := fun h _ => reads_F (opc := 0x05C) rfl h rfl
theorem RoundTrip.dmax (f : FWord) : RoundTrip.Statement (.dmax f) := fun h _ => reads_F (opc := 0x05D) rfl h rfl
theorem RoundTrip.dset (f : FWord) : RoundTrip.Statement (.dset f) := fun h _ => reads_F (opc := 0x05E) rfl h rfl
theorem RoundTrip.cvtif (f : FWord) (x : LExt) : RoundTrip.Statement (.cvtif f x) := fun h _ => reads_L (opc := 0x05F) rfl h rfl
theorem RoundTrip.cvtfi (f : FWord) (x : LExt) : RoundTrip.Statement (.cvtfi f x) := fun h _ => reads_L (opc := 0x060) rfl h rfl
theorem RoundTrip.cvtff (f : FWord) (x : LExt) : RoundTrip.Statement (.cvtff f x) := fun h _ => reads_L (opc := 0x061) rfl h rfl
theorem RoundTrip.dp4i8 (f : FWord) : RoundTrip.Statement (.dp4i8 f) := fun h _ => reads_F (opc := 0x080) rfl h rfl
theorem RoundTrip.dp8i4 (f : FWord) : RoundTrip.Statement (.dp8i4 f) := fun h _ => reads_F (opc := 0x081) rfl h rfl
theorem RoundTrip.dp4f8 (f : FWord) : RoundTrip.Statement (.dp4f8 f) := fun h _ => reads_F (opc := 0x082) rfl h rfl
theorem RoundTrip.dp8f4 (f : FWord) : RoundTrip.Statement (.dp8f4 f) := fun h _ => reads_F (opc := 0x083) rfl h rfl
theorem RoundTrip.dp2bf (f : FWord) : RoundTrip.Statement (.dp2bf f) := fun h _ => reads_F (opc := 0x084) rfl h rfl
theorem RoundTrip.qnt8 (f : FWord) (x : LExt) : RoundTrip.Statement (.qnt8 f x) := fun h _ => reads_L (opc := 0x085) rfl h rfl
theorem RoundTrip.qnt4 (f : FWord) (x : LExt) : RoundTrip.Statement (.qnt4 f x) := fun h _ => reads_L (opc := 0x086) rfl h rfl
theorem RoundTrip.dq8 (f : FWord) (x : LExt) : RoundTrip.Statement (.dq8 f x) := fun h _ => reads_L (opc := 0x087) rfl h rfl
theorem RoundTrip.dq4 (f : FWord) (x : LExt) : RoundTrip.Statement (.dq4 f x) := fun h _ => reads_L (opc := 0x088) rfl h rfl
theorem RoundTrip.scle (f : FWord) (x : LExt) : RoundTrip.Statement (.scle f x) := fun h _ => reads_L (opc := 0x089) rfl h rfl
theorem RoundTrip.nrscl (f : FWord) (x : LExt) : RoundTrip.Statement (.nrscl f x) := fun h _ => reads_L (opc := 0x08A) rfl h rfl
theorem RoundTrip.nrsum (f : FWord) (x : LExt) : RoundTrip.Statement (.nrsum f x) := fun h _ => reads_L (opc := 0x08B) rfl h rfl
theorem RoundTrip.mma (f : FWord) (x : LExt) : RoundTrip.Statement (.mma f x) := fun h _ => reads_L (opc := 0x0A0) rfl h rfl
theorem RoundTrip.mmat (f : FWord) (x : LExt) : RoundTrip.Statement (.mmat f x) := fun h _ => reads_L (opc := 0x0A1) rfl h rfl
theorem RoundTrip.mzero (f : FWord) : RoundTrip.Statement (.mzero f) := fun h _ => reads_F (opc := 0x0A2) rfl h rfl
theorem RoundTrip.mrd (f : FWord) : RoundTrip.Statement (.mrd f) := fun h _ => reads_F (opc := 0x0A3) rfl h rfl
theorem RoundTrip.mwr (f : FWord) : RoundTrip.Statement (.mwr f) := fun h _ => reads_F (opc := 0x0A4) rfl h rfl
theorem RoundTrip.mdrain (f : FWord) (x : LExt) : RoundTrip.Statement (.mdrain f x) := fun h _ => reads_L (opc := 0x0A5) rfl h rfl
theorem RoundTrip.epld (f : FWord) (x : LExt) : RoundTrip.Statement (.epld f x) := fun h _ => reads_L (opc := 0x0A6) rfl h rfl
theorem RoundTrip.eparg (f : FWord) : RoundTrip.Statement (.eparg f) := fun h _ => reads_F (opc := 0x0A7) rfl h rfl
theorem RoundTrip.mstat (f : FWord) : RoundTrip.Statement (.mstat f) := fun h _ => reads_F (opc := 0x0A8) rfl h rfl
theorem RoundTrip.ld8F (f : FWord) : RoundTrip.Statement (.ld8F f) := fun h _ => reads_F (opc := 0x0C0) rfl h rfl
theorem RoundTrip.ld8L (f : FWord) (x : LExt) : RoundTrip.Statement (.ld8L f x) := fun h _ => reads_L (opc := 0x0C0) rfl h rfl
theorem RoundTrip.ld16F (f : FWord) : RoundTrip.Statement (.ld16F f) := fun h _ => reads_F (opc := 0x0C1) rfl h rfl
theorem RoundTrip.ld16L (f : FWord) (x : LExt) : RoundTrip.Statement (.ld16L f x) := fun h _ => reads_L (opc := 0x0C1) rfl h rfl
theorem RoundTrip.ld32F (f : FWord) : RoundTrip.Statement (.ld32F f) := fun h _ => reads_F (opc := 0x0C2) rfl h rfl
theorem RoundTrip.ld32L (f : FWord) (x : LExt) : RoundTrip.Statement (.ld32L f x) := fun h _ => reads_L (opc := 0x0C2) rfl h rfl
theorem RoundTrip.ld64F (f : FWord) : RoundTrip.Statement (.ld64F f) := fun h _ => reads_F (opc := 0x0C3) rfl h rfl
theorem RoundTrip.ld64L (f : FWord) (x : LExt) : RoundTrip.Statement (.ld64L f x) := fun h _ => reads_L (opc := 0x0C3) rfl h rfl
theorem RoundTrip.ld128F (f : FWord) : RoundTrip.Statement (.ld128F f) := fun h _ => reads_F (opc := 0x0C4) rfl h rfl
theorem RoundTrip.ld128L (f : FWord) (x : LExt) : RoundTrip.Statement (.ld128L f x) := fun h _ => reads_L (opc := 0x0C4) rfl h rfl
theorem RoundTrip.st8F (f : FWord) : RoundTrip.Statement (.st8F f) := fun h _ => reads_F (opc := 0x0C5) rfl h rfl
theorem RoundTrip.st8L (f : FWord) (x : LExt) : RoundTrip.Statement (.st8L f x) := fun h _ => reads_L (opc := 0x0C5) rfl h rfl
theorem RoundTrip.st16F (f : FWord) : RoundTrip.Statement (.st16F f) := fun h _ => reads_F (opc := 0x0C6) rfl h rfl
theorem RoundTrip.st16L (f : FWord) (x : LExt) : RoundTrip.Statement (.st16L f x) := fun h _ => reads_L (opc := 0x0C6) rfl h rfl
theorem RoundTrip.st32F (f : FWord) : RoundTrip.Statement (.st32F f) := fun h _ => reads_F (opc := 0x0C7) rfl h rfl
theorem RoundTrip.st32L (f : FWord) (x : LExt) : RoundTrip.Statement (.st32L f x) := fun h _ => reads_L (opc := 0x0C7) rfl h rfl
theorem RoundTrip.st64F (f : FWord) : RoundTrip.Statement (.st64F f) := fun h _ => reads_F (opc := 0x0C8) rfl h rfl
theorem RoundTrip.st64L (f : FWord) (x : LExt) : RoundTrip.Statement (.st64L f x) := fun h _ => reads_L (opc := 0x0C8) rfl h rfl
theorem RoundTrip.st128F (f : FWord) : RoundTrip.Statement (.st128F f) := fun h _ => reads_F (opc := 0x0C9) rfl h rfl
theorem RoundTrip.st128L (f : FWord) (x : LExt) : RoundTrip.Statement (.st128L f x) := fun h _ => reads_L (opc := 0x0C9) rfl h rfl
theorem RoundTrip.prf (f : FWord) : RoundTrip.Statement (.prf f) := fun h _ => reads_F (opc := 0x0CA) rfl h rfl
theorem RoundTrip.cctlWbl1 (f : FWord) : RoundTrip.Statement (.cctlWbl1 f) := fun h _ => by
  have e : f.d = 0 := last_cond h
  exact reads_F (opc := 0x0CB) (by cases f; obtain rfl : _ = _ := e; rfl) h rfl
theorem RoundTrip.cctlInvl1 (f : FWord) : RoundTrip.Statement (.cctlInvl1 f) := fun h _ => by
  have e : f.d = 1 := last_cond h
  exact reads_F (opc := 0x0CB) (by cases f; obtain rfl : _ = _ := e; rfl) h rfl
theorem RoundTrip.cctlInvl2 (f : FWord) : RoundTrip.Statement (.cctlInvl2 f) := fun h _ => by
  have e : f.d = 2 := last_cond h
  exact reads_F (opc := 0x0CB) (by cases f; obtain rfl : _ = _ := e; rfl) h rfl
theorem RoundTrip.cctlWball1 (f : FWord) : RoundTrip.Statement (.cctlWball1 f) := fun h _ => by
  have e : f.d = 3 := last_cond h
  exact reads_F (opc := 0x0CB) (by cases f; obtain rfl : _ = _ := e; rfl) h rfl
theorem RoundTrip.cctlInvall1 (f : FWord) : RoundTrip.Statement (.cctlInvall1 f) := fun h _ => by
  have e : f.d = 4 := last_cond h
  exact reads_F (opc := 0x0CB) (by cases f; obtain rfl : _ = _ := e; rfl) h rfl
theorem RoundTrip.cctlTlbinv (f : FWord) : RoundTrip.Statement (.cctlTlbinv f) := fun h _ => by
  have e : f.d = 5 := last_cond h
  exact reads_F (opc := 0x0CB) (by cases f; obtain rfl : _ = _ := e; rfl) h rfl
theorem RoundTrip.cctlTlbinvall (f : FWord) : RoundTrip.Statement (.cctlTlbinvall f) := fun h _ => by
  have e : f.d = 6 := last_cond h
  exact reads_F (opc := 0x0CB) (by cases f; obtain rfl : _ = _ := e; rfl) h rfl
theorem RoundTrip.ataddF (f : FWord) : RoundTrip.Statement (.ataddF f) := fun h _ => reads_F (opc := 0x0CC) rfl h rfl
theorem RoundTrip.ataddL (f : FWord) (x : LExt) : RoundTrip.Statement (.ataddL f x) := fun h _ => reads_L (opc := 0x0CC) rfl h rfl
theorem RoundTrip.atminF (f : FWord) : RoundTrip.Statement (.atminF f) := fun h _ => reads_F (opc := 0x0CD) rfl h rfl
theorem RoundTrip.atminL (f : FWord) (x : LExt) : RoundTrip.Statement (.atminL f x) := fun h _ => reads_L (opc := 0x0CD) rfl h rfl
theorem RoundTrip.atmaxF (f : FWord) : RoundTrip.Statement (.atmaxF f) := fun h _ => reads_F (opc := 0x0CE) rfl h rfl
theorem RoundTrip.atmaxL (f : FWord) (x : LExt) : RoundTrip.Statement (.atmaxL f x) := fun h _ => reads_L (opc := 0x0CE) rfl h rfl
theorem RoundTrip.atandF (f : FWord) : RoundTrip.Statement (.atandF f) := fun h _ => reads_F (opc := 0x0CF) rfl h rfl
theorem RoundTrip.atandL (f : FWord) (x : LExt) : RoundTrip.Statement (.atandL f x) := fun h _ => reads_L (opc := 0x0CF) rfl h rfl
theorem RoundTrip.atorF (f : FWord) : RoundTrip.Statement (.atorF f) := fun h _ => reads_F (opc := 0x0D0) rfl h rfl
theorem RoundTrip.atorL (f : FWord) (x : LExt) : RoundTrip.Statement (.atorL f x) := fun h _ => reads_L (opc := 0x0D0) rfl h rfl
theorem RoundTrip.atxorF (f : FWord) : RoundTrip.Statement (.atxorF f) := fun h _ => reads_F (opc := 0x0D1) rfl h rfl
theorem RoundTrip.atxorL (f : FWord) (x : LExt) : RoundTrip.Statement (.atxorL f x) := fun h _ => reads_L (opc := 0x0D1) rfl h rfl
theorem RoundTrip.atxchF (f : FWord) : RoundTrip.Statement (.atxchF f) := fun h _ => reads_F (opc := 0x0D2) rfl h rfl
theorem RoundTrip.atxchL (f : FWord) (x : LExt) : RoundTrip.Statement (.atxchL f x) := fun h _ => reads_L (opc := 0x0D2) rfl h rfl
theorem RoundTrip.atcas (f : FWord) (x : LExt) : RoundTrip.Statement (.atcas f x) := fun h _ => reads_L (opc := 0x0D3) rfl h rfl
theorem RoundTrip.atincw (f : FWord) (x : LExt) : RoundTrip.Statement (.atincw f x) := fun h _ => reads_L (opc := 0x0D4) rfl h rfl
theorem RoundTrip.atdecw (f : FWord) (x : LExt) : RoundTrip.Statement (.atdecw f x) := fun h _ => reads_L (opc := 0x0D5) rfl h rfl
theorem RoundTrip.atbadd (f : FWord) (x : LExt) : RoundTrip.Statement (.atbadd f x) := fun h _ => reads_L (opc := 0x0D6) rfl h rfl
theorem RoundTrip.atfaddF (f : FWord) : RoundTrip.Statement (.atfaddF f) := fun h _ => reads_F (opc := 0x0D7) rfl h rfl
theorem RoundTrip.atfaddL (f : FWord) (x : LExt) : RoundTrip.Statement (.atfaddL f x) := fun h _ => reads_L (opc := 0x0D7) rfl h rfl
theorem RoundTrip.red (f : FWord) (x : LExt) : RoundTrip.Statement (.red f x) := fun h _ => reads_L (opc := 0x0D8) rfl h rfl
theorem RoundTrip.fence (f : FWord) : RoundTrip.Statement (.fence f) := fun h _ => reads_F (opc := 0x0D9) rfl h rfl
theorem RoundTrip.raceq (f : FWord) : RoundTrip.Statement (.raceq f) := fun h _ => reads_F (opc := 0x0DA) rfl h rfl
theorem RoundTrip.cpy (f : FWord) (x : LExt) : RoundTrip.Statement (.cpy f x) := fun h _ => reads_L (opc := 0x100) rfl h rfl
theorem RoundTrip.cpyw (f : FWord) : RoundTrip.Statement (.cpyw f) := fun h _ => reads_F (opc := 0x101) rfl h rfl
theorem RoundTrip.cptr (f : FWord) : RoundTrip.Statement (.cptr f) := fun h _ => reads_F (opc := 0x102) rfl h rfl
theorem RoundTrip.cprst (f : FWord) : RoundTrip.Statement (.cprst f) := fun h _ => reads_F (opc := 0x103) rfl h rfl
theorem RoundTrip.qfence (f : FWord) : RoundTrip.Statement (.qfence f) := fun h _ => reads_F (opc := 0x104) rfl h rfl
theorem RoundTrip.bcpy (f : FWord) (x : LExt) : RoundTrip.Statement (.bcpy f x) := fun h _ => reads_L (opc := 0x105) rfl h rfl
theorem RoundTrip.tmove (f : FWord) (x : LExt) : RoundTrip.Statement (.tmove f x) := fun h _ => reads_L (opc := 0x106) rfl h rfl
theorem RoundTrip.tstat (f : FWord) (x : LExt) : RoundTrip.Statement (.tstat f x) := fun h _ => reads_L (opc := 0x107) rfl h rfl
theorem RoundTrip.tcncl (f : FWord) (x : LExt) : RoundTrip.Statement (.tcncl f x) := fun h _ => reads_L (opc := 0x108) rfl h rfl
theorem RoundTrip.cfetch (f : FWord) (x : LExt) : RoundTrip.Statement (.cfetch f x) := fun h _ => reads_L (opc := 0x109) rfl h rfl
theorem RoundTrip.cstat (f : FWord) : RoundTrip.Statement (.cstat f) := fun h _ => reads_F (opc := 0x10A) rfl h rfl
theorem RoundTrip.cevict (f : FWord) : RoundTrip.Statement (.cevict f) := fun h _ => reads_F (opc := 0x10B) rfl h rfl
theorem RoundTrip.braF (f : FWord) : RoundTrip.Statement (.braF f) := fun h _ => reads_F (opc := 0x120) rfl h rfl
theorem RoundTrip.braL (f : FWord) (x : LExt) : RoundTrip.Statement (.braL f x) := fun h _ => reads_L (opc := 0x120) rfl h rfl
theorem RoundTrip.brx (f : FWord) : RoundTrip.Statement (.brx f) := fun h _ => reads_F (opc := 0x121) rfl h rfl
theorem RoundTrip.jmpf (f : FWord) (x : LExt) : RoundTrip.Statement (.jmpf f x) := fun h _ => reads_L (opc := 0x122) rfl h rfl
theorem RoundTrip.callF (f : FWord) : RoundTrip.Statement (.callF f) := fun h _ => reads_F (opc := 0x123) rfl h rfl
theorem RoundTrip.callL (f : FWord) (x : LExt) : RoundTrip.Statement (.callL f x) := fun h _ => reads_L (opc := 0x123) rfl h rfl
theorem RoundTrip.ret (f : FWord) : RoundTrip.Statement (.ret f) := fun h _ => reads_F (opc := 0x124) rfl h rfl
theorem RoundTrip.join (f : FWord) : RoundTrip.Statement (.join f) := fun h _ => reads_F (opc := 0x125) rfl h rfl
theorem RoundTrip.exit (f : FWord) : RoundTrip.Statement (.exit f) := fun h _ => reads_F (opc := 0x126) rfl h rfl
theorem RoundTrip.poll (f : FWord) : RoundTrip.Statement (.poll f) := fun h _ => reads_F (opc := 0x127) rfl h rfl
theorem RoundTrip.wpermF (f : FWord) : RoundTrip.Statement (.wpermF f) := fun h _ => reads_F (opc := 0x128) rfl h rfl
theorem RoundTrip.wpermL (f : FWord) (x : LExt) : RoundTrip.Statement (.wpermL f x) := fun h _ => reads_L (opc := 0x128) rfl h rfl
theorem RoundTrip.matchWarp (f : FWord) : RoundTrip.Statement (.matchWarp f) := fun h _ => reads_F (opc := 0x129) rfl h rfl
theorem RoundTrip.elect (f : FWord) : RoundTrip.Statement (.elect f) := fun h _ => reads_F (opc := 0x12A) rfl h rfl
theorem RoundTrip.wred (f : FWord) : RoundTrip.Statement (.wred f) := fun h _ => reads_F (opc := 0x12B) rfl h rfl
theorem RoundTrip.wscan (f : FWord) : RoundTrip.Statement (.wscan f) := fun h _ => reads_F (opc := 0x12C) rfl h rfl
theorem RoundTrip.ejctl (f : FWord) : RoundTrip.Statement (.ejctl f) := fun h _ => reads_F (opc := 0x12D) rfl h rfl
theorem RoundTrip.recall (f : FWord) : RoundTrip.Statement (.recall f) := fun h _ => reads_F (opc := 0x12E) rfl h rfl
theorem RoundTrip.waitf (f : FWord) : RoundTrip.Statement (.waitf f) := fun h _ => reads_F (opc := 0x12F) rfl h rfl
theorem RoundTrip.yield (f : FWord) : RoundTrip.Statement (.yield f) := fun h _ => reads_F (opc := 0x130) rfl h rfl
theorem RoundTrip.sleep (f : FWord) : RoundTrip.Statement (.sleep f) := fun h _ => reads_F (opc := 0x131) rfl h rfl
theorem RoundTrip.bar (f : FWord) : RoundTrip.Statement (.bar f) := fun h _ => reads_F (opc := 0x140) rfl h rfl
theorem RoundTrip.bara (f : FWord) : RoundTrip.Statement (.bara f) := fun h _ => reads_F (opc := 0x141) rfl h rfl
theorem RoundTrip.barw (f : FWord) : RoundTrip.Statement (.barw f) := fun h _ => reads_F (opc := 0x142) rfl h rfl
theorem RoundTrip.gbar (f : FWord) : RoundTrip.Statement (.gbar f) := fun h _ => reads_F (opc := 0x143) rfl h rfl
theorem RoundTrip.gbara (f : FWord) : RoundTrip.Statement (.gbara f) := fun h _ => reads_F (opc := 0x144) rfl h rfl
theorem RoundTrip.gbarw (f : FWord) : RoundTrip.Statement (.gbarw f) := fun h _ => reads_F (opc := 0x145) rfl h rfl
theorem RoundTrip.qbind (f : FWord) (x : LExt) : RoundTrip.Statement (.qbind f x) := fun h _ => reads_L (opc := 0x146) rfl h rfl
theorem RoundTrip.qclose (f : FWord) : RoundTrip.Statement (.qclose f) := fun h _ => reads_F (opc := 0x147) rfl h rfl
theorem RoundTrip.qpopt (f : FWord) : RoundTrip.Statement (.qpopt f) := fun h _ => reads_F (opc := 0x148) rfl h rfl
theorem RoundTrip.qstat (f : FWord) : RoundTrip.Statement (.qstat f) := fun h _ => reads_F (opc := 0x149) rfl h rfl
theorem RoundTrip.qfree (f : FWord) : RoundTrip.Statement (.qfree f) := fun h _ => reads_F (opc := 0x14A) rfl h rfl
theorem RoundTrip.edgew (f : FWord) (x : LExt) : RoundTrip.Statement (.edgew f x) := fun h _ => reads_L (opc := 0x14B) rfl h rfl
theorem RoundTrip.edger (f : FWord) (x : LExt) : RoundTrip.Statement (.edger f x) := fun h _ => reads_L (opc := 0x14C) rfl h rfl
theorem RoundTrip.edgecl (f : FWord) : RoundTrip.Statement (.edgecl f) := fun h _ => reads_F (opc := 0x14D) rfl h rfl
theorem RoundTrip.launch (f : FWord) (x : LExt) : RoundTrip.Statement (.launch f x) := fun h _ => reads_L (opc := 0x160) rfl h rfl
theorem RoundTrip.lwait (f : FWord) : RoundTrip.Statement (.lwait f) := fun h _ => reads_F (opc := 0x161) rfl h rfl
theorem RoundTrip.grpq (f : FWord) : RoundTrip.Statement (.grpq f) := fun h _ => reads_F (opc := 0x162) rfl h rfl
theorem RoundTrip.lstat (f : FWord) : RoundTrip.Statement (.lstat f) := fun h _ => reads_F (opc := 0x163) rfl h rfl
theorem RoundTrip.trap (f : FWord) : RoundTrip.Statement (.trap f) := fun h _ => reads_F (opc := 0x170) rfl h rfl
theorem RoundTrip.eret (f : FWord) : RoundTrip.Statement (.eret f) := fun h _ => reads_F (opc := 0x171) rfl h rfl
theorem RoundTrip.owrd (f : FWord) : RoundTrip.Statement (.owrd f) := fun h _ => reads_F (opc := 0x172) rfl h rfl
theorem RoundTrip.owwr (f : FWord) : RoundTrip.Statement (.owwr f) := fun h _ => reads_F (opc := 0x173) rfl h rfl
theorem RoundTrip.srd (f : FWord) : RoundTrip.Statement (.srd f) := fun h _ => reads_F (opc := 0x174) rfl h rfl
theorem RoundTrip.swr (f : FWord) : RoundTrip.Statement (.swr f) := fun h _ => reads_F (opc := 0x175) rfl h rfl
theorem RoundTrip.wresumeRetry (f : FWord) (x : LExt) : RoundTrip.Statement (.wresumeRetry f x) := fun h _ => by
  have e : x.x24 = 0 := last_cond (but_last h)
  exact reads_L (opc := 0x176) (by cases x; obtain rfl : _ = _ := e; rfl) h rfl
theorem RoundTrip.wresumeDeliver (f : FWord) (x : LExt) : RoundTrip.Statement (.wresumeDeliver f x) := fun h _ => by
  have e : x.x24 = 1 := last_cond (but_last h)
  exact reads_L (opc := 0x176) (by cases x; obtain rfl : _ = _ := e; rfl) h rfl
theorem RoundTrip.wresumeKill (f : FWord) (x : LExt) : RoundTrip.Statement (.wresumeKill f x) := fun h _ => by
  have e : x.x24 = 2 := last_cond (but_last h)
  exact reads_L (opc := 0x176) (by cases x; obtain rfl : _ = _ := e; rfl) h rfl
theorem RoundTrip.wstop (f : FWord) (x : LExt) : RoundTrip.Statement (.wstop f x) := fun h _ => reads_L (opc := 0x177) rfl h rfl
theorem RoundTrip.ckpt (f : FWord) : RoundTrip.Statement (.ckpt f) := fun h _ => by
  have e : f.v = false := last_cond h
  exact reads_F (opc := 0x178) (by cases f; obtain rfl : _ = _ := e; rfl) h rfl
theorem RoundTrip.ckptQ (f : FWord) : RoundTrip.Statement (.ckptQ f) := fun h _ => by
  have e : f.v = true := last_cond h
  exact reads_F (opc := 0x178) (by cases f; obtain rfl : _ = _ := e; rfl) h rfl
theorem RoundTrip.ctxsv (f : FWord) (x : LExt) : RoundTrip.Statement (.ctxsv f x) := fun h _ => reads_L (opc := 0x179) rfl h rfl
theorem RoundTrip.ctxld (f : FWord) (x : LExt) : RoundTrip.Statement (.ctxld f x) := fun h _ => by
  have e : f.v = false := last_cond (but_last h)
  exact reads_L (opc := 0x17A) (by cases f; obtain rfl : _ = _ := e; rfl) h rfl
theorem RoundTrip.ctxldRoll (f : FWord) (x : LExt) : RoundTrip.Statement (.ctxldRoll f x) := fun h _ => by
  have e : f.v = true := last_cond (but_last (but_last (but_last h)))
  exact reads_L (opc := 0x17A) (by cases f; obtain rfl : _ = _ := e; rfl) h rfl
theorem RoundTrip.brk (f : FWord) : RoundTrip.Statement (.brk f) := fun h _ => reads_F (opc := 0x17B) rfl h rfl
theorem RoundTrip.trace (f : FWord) : RoundTrip.Statement (.trace f) := fun h _ => reads_F (opc := 0x17C) rfl h rfl
theorem RoundTrip.halt (f : FWord) : RoundTrip.Statement (.halt f) := fun h _ => reads_F (opc := 0x17D) rfl h rfl
theorem RoundTrip.kslotLoad (f : FWord) (x : LExt) : RoundTrip.Statement (.kslotLoad f x) := fun h _ => by
  have e : x.ksop = 0 := last_cond (but_last h)
  have o : opcodeL 0x17E f x = kslotOf f x := rfl
  exact reads_L (opc := 0x17E) (o.trans (by simp [kslotOf, e])) h rfl
theorem RoundTrip.kslotZero (f : FWord) (x : LExt) : RoundTrip.Statement (.kslotZero f x) := fun h _ => by
  have e : x.ksop = 1 := last_cond (but_last h)
  have o : opcodeL 0x17E f x = kslotOf f x := rfl
  exact reads_L (opc := 0x17E) (o.trans (by simp [kslotOf, e])) h rfl
theorem RoundTrip.kslotQuery (f : FWord) (x : LExt) : RoundTrip.Statement (.kslotQuery f x) := fun h _ => by
  have e : x.ksop = 2 := last_cond (but_last h)
  have o : opcodeL 0x17E f x = kslotOf f x := rfl
  exact reads_L (opc := 0x17E) (o.trans (by simp [kslotOf, e])) h rfl
theorem RoundTrip.scrubCores (f : FWord) (x : LExt) : RoundTrip.Statement (.scrubCores f x) := fun h _ => by
  have e : x.x24 = 0 := last_cond (but_last h)
  exact reads_L (opc := 0x17F) (by cases x; obtain rfl : _ = _ := e; rfl) h rfl
theorem RoundTrip.scrubPages (f : FWord) (x : LExt) : RoundTrip.Statement (.scrubPages f x) := fun h _ => by
  have e : x.x24 = 1 := last_cond h
  exact reads_L (opc := 0x17F) (by cases x; obtain rfl : _ = _ := e; rfl) h rfl
theorem RoundTrip.fwcall (f : FWord) (x : LExt) : RoundTrip.Statement (.fwcall f x) := fun h _ => reads_L (opc := 0x180) rfl h rfl
theorem RoundTrip.ord (o : OrdWord) : RoundTrip.Statement (.ord o) := fun h _ => reads_ord h
theorem RoundTrip.rep (r : RepWord) : RoundTrip.Statement (.rep r) := fun h _ => reads_rep h
theorem RoundTrip.pairWord (p : PWord) : RoundTrip.Statement (.pairWord p) := fun h _ => reads_P h
theorem RoundTrip.epilogueRow (core : Nat) (quad : Nat) : RoundTrip.Statement (.epilogueRow core quad) := fun _ h => Bool.noConfusion h
theorem RoundTrip.matrixStep (core : Nat) (quad : Nat) (upsets : Nat) : RoundTrip.Statement (.matrixStep core quad upsets) := fun _ h => Bool.noConfusion h
theorem RoundTrip.qtailWrite (part : Nat) (q : Nat) (val : BitVec 32) : RoundTrip.Statement (.qtailWrite part q val) := fun _ h => Bool.noConfusion h
theorem RoundTrip.queueEnable (part : Nat) (q : Nat) (val : BitVec 32) : RoundTrip.Statement (.queueEnable part q val) := fun _ h => Bool.noConfusion h
theorem RoundTrip.registerWrite (part : Nat) (off : Nat) (val : BitVec 64) (sup : Bool) : RoundTrip.Statement (.registerWrite part off val sup) := fun _ h => Bool.noConfusion h
theorem RoundTrip.launchAccept (part : Nat) (q : Nat) : RoundTrip.Statement (.launchAccept part q) := fun _ h => Bool.noConfusion h
theorem RoundTrip.gangStart (lk : Nat) (cluster : Nat) : RoundTrip.Statement (.gangStart lk cluster) := fun _ h => Bool.noConfusion h
theorem RoundTrip.completionRecordWrite (lk : Nat) : RoundTrip.Statement (.completionRecordWrite lk) := fun _ h => Bool.noConfusion h
theorem RoundTrip.gangKill (lk : Nat) (blk : Nat) (cause : KillMet) : RoundTrip.Statement (.gangKill lk blk cause) := fun _ h => Bool.noConfusion h
theorem RoundTrip.preemption (lk : Nat) (blk : Nat) : RoundTrip.Statement (.preemption lk blk) := fun _ h => Bool.noConfusion h
theorem RoundTrip.contextImageWritten (lk : Nat) (blk : Nat) : RoundTrip.Statement (.contextImageWritten lk blk) := fun _ h => Bool.noConfusion h
theorem RoundTrip.gangRestore (lk : Nat) (blk : Nat) (cluster : Nat) : RoundTrip.Statement (.gangRestore lk blk cluster) := fun _ h => Bool.noConfusion h
theorem RoundTrip.dispatcherBarrierSave (lk : Nat) (blk : Nat) : RoundTrip.Statement (.dispatcherBarrierSave lk blk) := fun _ h => Bool.noConfusion h
theorem RoundTrip.dispatcherEdgeSave (lk : Nat) (blk : Nat) : RoundTrip.Statement (.dispatcherEdgeSave lk blk) := fun _ h => Bool.noConfusion h
theorem RoundTrip.gangMigrate (lk : Nat) (blk : Nat) (package : Nat) : RoundTrip.Statement (.gangMigrate lk blk package) := fun _ h => Bool.noConfusion h
theorem RoundTrip.checkpointCut (lk : Nat) : RoundTrip.Statement (.checkpointCut lk) := fun _ h => Bool.noConfusion h
theorem RoundTrip.cowCopy (part : Nat) (gran : Nat) : RoundTrip.Statement (.cowCopy part gran) := fun _ h => Bool.noConfusion h
theorem RoundTrip.cutCommit (lk : Nat) : RoundTrip.Statement (.cutCommit lk) := fun _ h => Bool.noConfusion h
theorem RoundTrip.registerSwap (core : Nat) (quad : Nat) : RoundTrip.Statement (.registerSwap core quad) := fun _ h => Bool.noConfusion h
theorem RoundTrip.swapOutComplete (w : WName) : RoundTrip.Statement (.swapOutComplete w) := fun _ h => Bool.noConfusion h
theorem RoundTrip.registerReadmit (core : Nat) (quad : Nat) : RoundTrip.Statement (.registerReadmit core quad) := fun _ h => Bool.noConfusion h
theorem RoundTrip.groupPromotion (w : WName) (pc : Nat) : RoundTrip.Statement (.groupPromotion w pc) := fun _ h => Bool.noConfusion h
theorem RoundTrip.warpAging (w : WName) : RoundTrip.Statement (.warpAging w) := fun _ h => Bool.noConfusion h
theorem RoundTrip.denHandover (w : WName) (tid : Nat) : RoundTrip.Statement (.denHandover w tid) := fun _ h => Bool.noConfusion h
theorem RoundTrip.denRejoin (w : WName) (tid : Nat) : RoundTrip.Statement (.denRejoin w tid) := fun _ h => Bool.noConfusion h
theorem RoundTrip.denTimeoutRecall (w : WName) (tid : Nat) : RoundTrip.Statement (.denTimeoutRecall w tid) := fun _ h => Bool.noConfusion h
theorem RoundTrip.joinPassLimit (w : WName) : RoundTrip.Statement (.joinPassLimit w) := fun _ h => Bool.noConfusion h
theorem RoundTrip.queueWaitTimeout (w : WName) (pc : Nat) : RoundTrip.Statement (.queueWaitTimeout w pc) := fun _ h => Bool.noConfusion h
theorem RoundTrip.sleepExpiry (w : WName) (pc : Nat) : RoundTrip.Statement (.sleepExpiry w pc) := fun _ h => Bool.noConfusion h
theorem RoundTrip.haltTimeout (w : WName) (pc : Nat) : RoundTrip.Statement (.haltTimeout w pc) := fun _ h => Bool.noConfusion h
theorem RoundTrip.yieldTimeout (w : WName) (pc : Nat) : RoundTrip.Statement (.yieldTimeout w pc) := fun _ h => Bool.noConfusion h
theorem RoundTrip.parkedGroupRelease (w : WName) (pc : Nat) : RoundTrip.Statement (.parkedGroupRelease w pc) := fun _ h => Bool.noConfusion h
theorem RoundTrip.faultBacklogDrain (part : Nat) : RoundTrip.Statement (.faultBacklogDrain part) := fun _ h => Bool.noConfusion h
theorem RoundTrip.crerrRetry (part : Nat) : RoundTrip.Statement (.crerrRetry part) := fun _ h => Bool.noConfusion h
theorem RoundTrip.fqerrRetry (part : Nat) : RoundTrip.Statement (.fqerrRetry part) := fun _ h => Bool.noConfusion h
theorem RoundTrip.trerrClear (part : Nat) : RoundTrip.Statement (.trerrClear part) := fun _ h => Bool.noConfusion h
theorem RoundTrip.handlerEntry (cause : Nat) : RoundTrip.Statement (.handlerEntry cause) := fun _ h => Bool.noConfusion h
theorem RoundTrip.loadReply (id : Nat) : RoundTrip.Statement (.loadReply id) := fun _ h => Bool.noConfusion h
theorem RoundTrip.storePerform (id : Nat) : RoundTrip.Statement (.storePerform id) := fun _ h => Bool.noConfusion h
theorem RoundTrip.atomicPerform (id : Nat) : RoundTrip.Statement (.atomicPerform id) := fun _ h => Bool.noConfusion h
theorem RoundTrip.remoteRequestArrival (id : Nat) (good : Bool) : RoundTrip.Statement (.remoteRequestArrival id good) := fun _ h => Bool.noConfusion h
theorem RoundTrip.replayTimeout (id : Nat) : RoundTrip.Statement (.replayTimeout id) := fun _ h => Bool.noConfusion h
theorem RoundTrip.replyForward (id : Nat) : RoundTrip.Statement (.replyForward id) := fun _ h => Bool.noConfusion h
theorem RoundTrip.copyBeat (id : Nat) : RoundTrip.Statement (.copyBeat id) := fun _ h => Bool.noConfusion h
theorem RoundTrip.packageCopyBeat (id : Nat) : RoundTrip.Statement (.packageCopyBeat id) := fun _ h => Bool.noConfusion h
theorem RoundTrip.tierMoveStart (part : Nat) (page : Nat) : RoundTrip.Statement (.tierMoveStart part page) := fun _ h => Bool.noConfusion h
theorem RoundTrip.tierMoveLanding (part : Nat) (page : Nat) : RoundTrip.Statement (.tierMoveLanding part page) := fun _ h => Bool.noConfusion h
theorem RoundTrip.brickCheckComplete (core : Nat) (lk : Nat) (brick : Nat) : RoundTrip.Statement (.brickCheckComplete core lk brick) := fun _ h => Bool.noConfusion h
theorem RoundTrip.brickImplicitFetch (core : Nat) (lk : Nat) (brick : Nat) : RoundTrip.Statement (.brickImplicitFetch core lk brick) := fun _ h => Bool.noConfusion h
theorem RoundTrip.codeParityRefetch (core : Nat) (lk : Nat) (brick : Nat) : RoundTrip.Statement (.codeParityRefetch core lk brick) := fun _ h => Bool.noConfusion h
theorem RoundTrip.codeBreakpointHit (w : WName) (pc : Nat) : RoundTrip.Statement (.codeBreakpointHit w pc) := fun _ h => Bool.noConfusion h
theorem RoundTrip.swapOutModeRecord (lk : Nat) (blk : Nat) : RoundTrip.Statement (.swapOutModeRecord lk blk) := fun _ h => Bool.noConfusion h
theorem RoundTrip.singleStepHalt (w : WName) : RoundTrip.Statement (.singleStepHalt w) := fun _ h => Bool.noConfusion h
theorem RoundTrip.singleStepTimeout (w : WName) : RoundTrip.Statement (.singleStepTimeout w) := fun _ h => Bool.noConfusion h
theorem RoundTrip.traceEnable (part : Nat) (val : BitVec 32) : RoundTrip.Statement (.traceEnable part val) := fun _ h => Bool.noConfusion h
theorem RoundTrip.ckcostUpdate (lk : Nat) (blk : Nat) : RoundTrip.Statement (.ckcostUpdate lk blk) := fun _ h => Bool.noConfusion h
theorem RoundTrip.twinCompare (w : WName) : RoundTrip.Statement (.twinCompare w) := fun _ h => Bool.noConfusion h
theorem RoundTrip.collectiveContribution (id : Nat) : RoundTrip.Statement (.collectiveContribution id) := fun _ h => Bool.noConfusion h
theorem RoundTrip.groupBarrierArrival (id : Nat) : RoundTrip.Statement (.groupBarrierArrival id) := fun _ h => Bool.noConfusion h
theorem RoundTrip.clockStepRequest (die : Nat) (mult : ClockAsk) : RoundTrip.Statement (.clockStepRequest die mult) := fun _ h => Bool.noConfusion h
theorem RoundTrip.pllRelockComplete (die : Nat) : RoundTrip.Statement (.pllRelockComplete die) := fun _ h => Bool.noConfusion h
theorem RoundTrip.powerWindow (die : Nat) (watts : Nat) (degC : Nat) : RoundTrip.Statement (.powerWindow die watts degC) := fun _ h => Bool.noConfusion h
theorem RoundTrip.thermalTrip (die : Nat) : RoundTrip.Statement (.thermalTrip die) := fun _ h => Bool.noConfusion h
theorem RoundTrip.supplyDroop (die : Nat) : RoundTrip.Statement (.supplyDroop die) := fun _ h => Bool.noConfusion h
theorem RoundTrip.referenceClockLoss (lost : Bool) : RoundTrip.Statement (.referenceClockLoss lost) := fun _ h => Bool.noConfusion h
theorem RoundTrip.packageBoot : RoundTrip.Statement .packageBoot := fun _ h => Bool.noConfusion h
theorem RoundTrip.powerLoss : RoundTrip.Statement .powerLoss := fun _ h => Bool.noConfusion h
theorem RoundTrip.functionLevelReset (part : Nat) : RoundTrip.Statement (.functionLevelReset part) := fun _ h => Bool.noConfusion h
theorem RoundTrip.laneFailure (port : Nat) : RoundTrip.Statement (.laneFailure port) := fun _ h => Bool.noConfusion h
theorem RoundTrip.linkRetrain (port : Nat) (lanes : Nat) : RoundTrip.Statement (.linkRetrain port lanes) := fun _ h => Bool.noConfusion h
theorem RoundTrip.ucieModuleFailure (join : Nat) : RoundTrip.Statement (.ucieModuleFailure join) := fun _ h => Bool.noConfusion h
theorem RoundTrip.flitAuthFailure (port : Nat) : RoundTrip.Statement (.flitAuthFailure port) := fun _ h => Bool.noConfusion h
theorem RoundTrip.linkKeyRenewal (port : Nat) : RoundTrip.Statement (.linkKeyRenewal port) := fun _ h => Bool.noConfusion h
theorem RoundTrip.hostHdmAccess (part : Nat) (va : Nat) (size : Nat) (wdata : Option (List (BitVec 8))) : RoundTrip.Statement (.hostHdmAccess part va size wdata) := fun _ h => Bool.noConfusion h
theorem RoundTrip.patrolScrub (pa : Nat) : RoundTrip.Statement (.patrolScrub pa) := fun _ h => Bool.noConfusion h
theorem RoundTrip.correctedError (part : Nat) (ctr : Nat) : RoundTrip.Statement (.correctedError part ctr) := fun _ h => Bool.noConfusion h
theorem RoundTrip.scrubJobComplete (part : Nat) : RoundTrip.Statement (.scrubJobComplete part) := fun _ h => Bool.noConfusion h
theorem RoundTrip.fwUpdateLoad (version : Nat) (sigOk : Bool) : RoundTrip.Statement (.fwUpdateLoad version sigOk) := fun _ h => Bool.noConfusion h
theorem RoundTrip.fwUpdateSwitch : RoundTrip.Statement .fwUpdateSwitch := fun _ h => Bool.noConfusion h
theorem RoundTrip.fwUpdateCommit : RoundTrip.Statement .fwUpdateCommit := fun _ h => Bool.noConfusion h
theorem RoundTrip.fwUpdateRollback : RoundTrip.Statement .fwUpdateRollback := fun _ h => Bool.noConfusion h
theorem RoundTrip.pinfo (id : Nat) : RoundTrip.Statement (.pinfo id) := fun _ h => Bool.noConfusion h
theorem RoundTrip.fpooladd (id : Nat) : RoundTrip.Statement (.fpooladd id) := fun _ h => Bool.noConfusion h
theorem RoundTrip.fpooldel (id : Nat) : RoundTrip.Statement (.fpooldel id) := fun _ h => Bool.noConfusion h
theorem RoundTrip.kwrap (id : Nat) : RoundTrip.Statement (.kwrap id) := fun _ h => Bool.noConfusion h
theorem RoundTrip.attest (id : Nat) : RoundTrip.Statement (.attest id) := fun _ h => Bool.noConfusion h
theorem RoundTrip.linkst (id : Nat) : RoundTrip.Statement (.linkst id) := fun _ h => Bool.noConfusion h
theorem RoundTrip.pwrq (id : Nat) : RoundTrip.Statement (.pwrq id) := fun _ h => Bool.noConfusion h
theorem RoundTrip.coreCycle (die : Nat) : RoundTrip.Statement (.coreCycle die) := fun _ h => Bool.noConfusion h
theorem RoundTrip.referenceTick : RoundTrip.Statement .referenceTick := fun _ h => Bool.noConfusion h
theorem RoundTrip.recallComplete (w : WName) (tid : Nat) : RoundTrip.Statement (.recallComplete w tid) := fun _ h => Bool.noConfusion h
theorem RoundTrip.reloadComplete (w : WName) : RoundTrip.Statement (.reloadComplete w) := fun _ h => Bool.noConfusion h
theorem RoundTrip.zeroisationComplete (slot : Nat) : RoundTrip.Statement (.zeroisationComplete slot) := fun _ h => Bool.noConfusion h

end Sys2Proof.Laws
end

