-- ==== Sys2Proof/Laws/Values.lean ====
section
/-! SUPPORT. The integer functions of the model in other words: sums clamped to a type, products by sign extension, shifts as division, fields and
bytes bit by bit. -/

namespace Sys2Proof.Machine

theorem addSat_i (a b : Word) (ty : Nat) (h : ty ≠ 7): addSat true ty a b = satI32 (a.toInt + b.toInt) := by
  simp only [addSat, satI32, h, Bool.not_true, Bool.false_eq_true, if_false]
  congr 1
  unfold clampTo; split <;> (try split) <;> omega
theorem addSat_n (a b : Word) : addSat true 7 a b = satN32 (a.toNat + b.toNat) := by
  simp only [addSat, satN32, Bool.not_true, Bool.false_eq_true, if_false, if_true]
  rw [show BitVec.ofNat 32 (min (a.toNat + b.toNat) (2 ^ 32 - 1)) = BitVec.ofInt 32 ((min (a.toNat + b.toNat) (2 ^ 32 - 1) : Nat) : Int) from (BitVec.ofInt_natCast ..).symm]
  congr 1
  omega
theorem subSat_i (a b : Word) (ty : Nat) (h : ty ≠ 7): subSat true ty a b = satI32 (a.toInt - b.toInt) := by
  simp only [subSat, satI32, h, Bool.not_true, Bool.false_eq_true, if_false]
  congr 1
  unfold clampTo; split <;> (try split) <;> omega
theorem subSat_n (a b : Word) : subSat true 7 a b = satN32 (a.toNat - b.toNat : Int) := by
  simp only [subSat, satN32, Bool.not_true, Bool.false_eq_true, if_false, if_true]
  rw [show BitVec.ofNat 32 (a.toNat - b.toNat) = BitVec.ofInt 32 ((a.toNat - b.toNat : Nat) : Int) from (BitVec.ofInt_natCast ..).symm]
  congr 1
  have := a.isLt; have := b.isLt
  omega
theorem mul_i (a b : Word) : a * b = BitVec.ofInt 32 (a.toInt * b.toInt) := by
  apply BitVec.eq_of_toInt_eq; simp [BitVec.toInt_mul]
theorem extract_ofInt (y : Int) : (BitVec.ofInt 64 y).extractLsb' 32 32 = BitVec.ofInt 32 (y / 2 ^ 32) := by
  apply BitVec.eq_of_toNat_eq
  simp only [BitVec.extractLsb'_toNat, BitVec.toNat_ofInt, Nat.shiftRight_eq_div_pow]
  omega
theorem mulHigh_eq (v : Bool) (a b : Word) : mulHigh v a b =
  if v then (a.zeroExtend 64 * b.zeroExtend 64).extractLsb' 32 32 else (a.signExtend 64 * b.signExtend 64).extractLsb' 32 32 := by
  cases v
  · simp only [mulHigh, Bool.false_eq_true, if_false]
    rw [← extract_ofInt]
    congr 1
    apply BitVec.eq_of_toInt_eq
    rw [BitVec.toInt_mul, BitVec.toInt_signExtend_of_le (by decide), BitVec.toInt_signExtend_of_le (by decide), BitVec.toInt_ofInt]
  · simp only [mulHigh, if_true]
    apply BitVec.eq_of_toNat_eq
    simp only [BitVec.extractLsb'_toNat, BitVec.toNat_mul, BitVec.toNat_setWidth, Nat.shiftRight_eq_div_pow, BitVec.toNat_ofNat]
    have := a.isLt; have := b.isLt
    rw [Nat.mod_eq_of_lt (by omega : a.toNat < 2^64), Nat.mod_eq_of_lt (by omega : b.toNat < 2^64)]
    have : a.toNat * b.toNat < 2^64 := by nlinarith
    rw [Nat.mod_eq_of_lt this]
theorem minW_eq (v : Bool) (a b : Word) : minW v a b = if v then BitVec.ofNat 32 (min a.toNat b.toNat) else BitVec.ofInt 32 (min a.toInt b.toInt) := by
  cases v
  · simp only [minW, Bool.false_eq_true, if_false]
    split
    · rw [min_eq_left (by assumption)]; simp
    · rw [min_eq_right (by omega)]; simp
  · simp only [minW, if_true]
    split
    · rw [min_eq_left (by assumption)]; simp
    · rw [min_eq_right (by omega)]; simp
theorem maxW_eq (v : Bool) (a b : Word) : maxW v a b = if v then BitVec.ofNat 32 (max a.toNat b.toNat) else BitVec.ofInt 32 (max a.toInt b.toInt) := by
  cases v
  · simp only [maxW, Bool.false_eq_true, if_false]
    split
    · rw [max_eq_left (by assumption)]; simp
    · rw [max_eq_right (by omega)]; simp
  · simp only [maxW, if_true]
    split
    · rw [max_eq_left (by assumption)]; simp
    · rw [max_eq_right (by omega)]; simp
theorem shl_eq (a b : Word) : shlW a b = if b.toNat ≥ 32 then 0 else BitVec.ofNat 32 (a.toNat * 2 ^ b.toNat) := by
  unfold shlW; split
  · rfl
  · apply BitVec.eq_of_toNat_eq; simp [Nat.shiftLeft_eq]
theorem shr_eq (a b : Word) : shrW a b = if b.toNat ≥ 32 then 0 else BitVec.ofNat 32 (a.toNat / 2 ^ b.toNat) := by
  unfold shrW; split
  · rfl
  · apply BitVec.eq_of_toNat_eq; simp [Nat.shiftRight_eq_div_pow]
    rw [Nat.mod_eq_of_lt]; exact Nat.lt_of_le_of_lt (Nat.div_le_self _ _) a.isLt
theorem sar_eq (a b : Word) : sarW a b = BitVec.ofInt 32 (a.toInt / 2 ^ min b.toNat 31) := by
  unfold sarW
  rw [BitVec.sshiftRight_eq, Int.shiftRight_eq_div_pow]; norm_cast
theorem rol_eq (a b : Word) : rolW a b = (a <<< (b.toNat % 32)) ||| (a >>> (32 - b.toNat % 32)) := by
  unfold rolW
  rw [BitVec.rotateLeft_def, Nat.mod_eq_of_lt (Nat.mod_lt _ (by decide))]

theorem absW_eq (v : Bool) (a : Word) : absW v a = if a = 0x80000000 then (if v then 0x7FFFFFFF else 0x80000000) else BitVec.ofNat 32 a.toInt.natAbs := by
  unfold absW
  split
  · rename_i h; subst h; cases v <;> rfl
  · have h1 := BitVec.toInt_eq_msb_cond a
    have := a.isLt
    split
    · rename_i hm; rw [hm] at h1; simp only [if_true] at h1
      apply BitVec.eq_of_toNat_eq
      rw [BitVec.toNat_neg, BitVec.toNat_ofNat]
      omega
    · rename_i hm; simp only [hm, Bool.false_eq_true, if_false] at h1
      apply BitVec.eq_of_toNat_eq; rw [BitVec.toNat_ofNat]; omega
theorem negW_eq (v : Bool) (a : Word) : negW v a = if a = 0x80000000 then (if v then 0x7FFFFFFF else 0x80000000) else BitVec.ofInt 32 (-a.toInt) := by
  unfold negW
  by_cases h : a = 0x80000000
  · subst h; cases v <;> rfl
  · simp only [h, decide_false, Bool.false_and, Bool.false_eq_true, if_false]
    rw [BitVec.ofInt_neg, BitVec.ofInt_toInt]
theorem popc_eq (a : Word) : popcW a = BitVec.ofNat 32 ((List.range 32).countP a.getLsbD) := by
  unfold popcW; rw [List.countP_eq_length_filter]

theorem testBit_foldl_bits (f : Nat → Bool) : ∀ n, ((List.range n).foldl (fun n i => if f i then n + 2 ^ i else n) 0) < 2 ^ n ∧
   ∀ i, ((List.range n).foldl (fun n i => if f i then n + 2 ^ i else n) 0).testBit i = (decide (i < n) && f i)
  | 0 => by simp
  | n + 1 => by
    have ih := testBit_foldl_bits f n
    rw [List.range_succ, List.foldl_append]
    simp only [List.foldl_cons, List.foldl_nil]
    generalize (List.range n).foldl (fun n i => if f i then n + 2 ^ i else n) 0 = y at *
    constructor
    · split <;> rw [pow_succ] <;> omega
    · intro i
      split
      · rename_i hf
        rw [Nat.add_comm]
        rcases Nat.lt_trichotomy i n with h | h | h
        · rw [Nat.testBit_two_pow_add_gt h, ih.2]; simp [h, Nat.lt_succ_of_lt h]
        · subst h; rw [Nat.testBit_two_pow_add_eq, ih.2]; simp [hf]
        · rw [Nat.testBit_lt_two_pow]
          · simp; omega
          · have : 2 ^ (n+1) ≤ 2 ^ i := Nat.pow_le_pow_right (by decide) h
            rw [pow_succ] at this; omega
      · rename_i hf
        rw [ih.2]
        by_cases h : i = n
        · subst h; simp [hf]
        · congr 1; rw [decide_eq_decide]; omega
theorem getLsbD_wordOfBits (f : Nat → Bool) (i : Nat) : (wordOfBits f).getLsbD i = (decide (i < 32) && f i) := by
  unfold wordOfBits
  rw [BitVec.getLsbD_ofNat, (testBit_foldl_bits f 32).2]
  cases decide (i < 32) <;> simp
theorem reverse_eq (a : Word) : brevW a = a.reverse := by
  apply BitVec.eq_of_getLsbD_eq
  intro i hi
  unfold brevW
  rw [getLsbD_wordOfBits, BitVec.getLsbD_reverse, BitVec.getMsbD]
theorem length_takeWhile_reverse (p : Nat → Bool) (L : Nat) (hL : p L = false) : ∀ n, L < n → (∀ i, L < i → i < n → p i = true) → ((List.range n).reverse.takeWhile p).length = n - 1 - L
  | 0, h, _ => by omega
  | n + 1, h, hp => by
    rw [List.range_succ, List.reverse_append, List.reverse_singleton, List.singleton_append, List.takeWhile_cons]
    by_cases e : n = L
    · subst e; simp [hL]
    · rw [hp n (by omega) (by omega)]
      simp only [if_true, List.length_cons, length_takeWhile_reverse p L hL n (by omega) (fun i a b => hp i a (by omega))]; omega
theorem clz_eq (a : Word) : clzW a = if a = 0 then 32 else BitVec.ofNat 32 (31 - Nat.log2 a.toNat) := by
  by_cases h : a = 0
  · subst h; decide
  · rw [if_neg h]
    have h0 : a.toNat ≠ 0 := fun e => h (by simpa using congrArg (BitVec.ofNat 32) e)
    unfold clzW
    have hlt : a.toNat.log2 < 32 := (Nat.log2_lt h0).2 a.isLt
    rw [length_takeWhile_reverse _ a.toNat.log2 _ 32 hlt]
    · intro i hi _
      rw [BitVec.getLsbD]
      rw [Nat.testBit_lt_two_pow ((Nat.log2_lt h0).1 hi)]; rfl
    · rw [BitVec.getLsbD, Nat.testBit_log2 h0]; rfl

theorem funs_eq (v : Bool) (a b c : Word) : (if v then funsR else funsL) a b c =
   (let k := min c.toNat 32; if v then ((b ++ a) >>> k).extractLsb' 0 32 else ((b ++ a) <<< k).extractLsb' 32 32) := by
  have hx : (b ++ a : BitVec 64).toNat = b.toNat * 2 ^ 32 + a.toNat := by
    rw [BitVec.toNat_append, ← Nat.shiftLeft_add_eq_or_of_lt a.isLt, Nat.shiftLeft_eq]
  have hlt : (b ++ a : BitVec 64).toNat < 2^64 := (b ++ a : BitVec 64).isLt
  cases v
  · simp only [Bool.false_eq_true, if_false, funsL]
    apply BitVec.eq_of_toNat_eq
    simp only [BitVec.extractLsb'_toNat, BitVec.toNat_shiftLeft, BitVec.toNat_ofNat, Nat.shiftRight_eq_div_pow, Nat.shiftLeft_eq, hx]
    omega
  · simp only [if_true, funsR]
    apply BitVec.eq_of_toNat_eq
    simp only [BitVec.extractLsb'_toNat, BitVec.toNat_ushiftRight, BitVec.toNat_ofNat, Nat.shiftRight_eq_div_pow, hx]
    simp
theorem bfe_eq (v : Bool) (a b : Word) : bfeW v a b =
      (let pos := (b.extractLsb' 0 8).toNat
      let len := (b.extractLsb' 8 8).toNat
      if len = 0 then 0
      else if pos ≥ 32 then (if v && a.msb then 0xFFFFFFFF else 0)
      else
        let n := min len (32 - pos)
        let y := a.extractLsb' pos n
        if v then y.signExtend 32 else y.zeroExtend 32) := by
  have e1 : (b.extractLsb' 0 8).toNat = b.toNat % 256 := by simp
  have e2 : (b.extractLsb' 8 8).toNat = b.toNat / 256 % 256 := by simp [Nat.shiftRight_eq_div_pow]
  simp only [bfeW, ← e1, ← e2]
  clear e1 e2
  generalize (b.extractLsb' 0 8).toNat = pos at *
  generalize (b.extractLsb' 8 8).toNat = len at *
  split
  · rfl
  split
  · rfl
  rename_i h1 h2
  generalize hn : min len (32 - pos) = n
  have hn1 : 1 ≤ n := by omega
  have hn2 : n ≤ 32 := by omega
  have hy : (a.extractLsb' pos n).toNat = a.toNat / 2 ^ pos % 2 ^ n := by simp [Nat.shiftRight_eq_div_pow]
  have hyl : a.toNat / 2 ^ pos % 2 ^ n < 2 ^ n := Nat.mod_lt _ (by positivity)
  have hp : 2 ^ n ≤ 2 ^ 32 := Nat.pow_le_pow_right (by decide) hn2
  have hhalf : 2 ^ n = 2 * 2 ^ (n-1) := by rw [← pow_succ']; congr 1; omega
  cases v
  · simp only [Bool.false_and, Bool.false_eq_true, if_false]
    apply BitVec.eq_of_toNat_eq
    rw [BitVec.toNat_setWidth, hy, BitVec.toNat_ofNat]
  · simp only [Bool.true_and, if_true]
    apply BitVec.eq_of_toNat_eq
    rw [BitVec.toNat_signExtend, BitVec.toNat_setWidth, hy]
    have hm : (a.extractLsb' pos n).msb = decide (a.toNat / 2 ^ pos % 2 ^ n ≥ 2 ^ (n-1)) := by
      rw [BitVec.msb_eq_decide, hy]
    rw [hm]
    generalize a.toNat / 2 ^ pos % 2 ^ n = y at *
    by_cases h : y ≥ 2 ^ (n-1)
    · simp only [h, decide_true, if_true, BitVec.toNat_ofNat]
      rw [Nat.mod_eq_of_lt (by omega), Nat.mod_eq_of_lt (by omega)]; omega
    · simp [h]
theorem bfi_eq (a b c : Word) : bfiW a b c =
      (let pos := (b.extractLsb' 0 8).toNat
      let len := (b.extractLsb' 8 8).toNat
      if len = 0 ∨ pos ≥ 32 then c
      else wordOfBits fun i => if pos ≤ i ∧ i < pos + min len (32 - pos) then a.getLsbD (i - pos) else c.getLsbD i) := by
  have e1 : (b.extractLsb' 0 8).toNat = b.toNat % 256 := by simp
  have e2 : (b.extractLsb' 8 8).toNat = b.toNat / 256 % 256 := by simp [Nat.shiftRight_eq_div_pow]
  simp only [e1, e2, bfiW, Bool.or_eq_true, decide_eq_true_eq]
  split
  · rfl
  rename_i h
  generalize b.toNat % 256 = pos at *
  generalize hn : min (b.toNat / 256 % 256) (32 - pos) = n
  apply BitVec.eq_of_getLsbD_eq
  intro i hi
  rw [getLsbD_wordOfBits]
  simp only [hi, decide_true, Bool.true_and]
  have hm : (BitVec.ofNat 32 ((2 ^ n - 1) * 2 ^ pos)).getLsbD i = decide (pos ≤ i ∧ i < pos + n) := by
    rw [BitVec.getLsbD_ofNat, Nat.mul_comm, Nat.testBit_two_pow_mul, Nat.testBit_two_pow_sub_one]
    simp only [hi, decide_true, Bool.true_and, ge_iff_le]
    by_cases h1 : pos ≤ i
    · simp [h1]; omega
    · simp [h1]
  simp only [BitVec.getLsbD_or, BitVec.getLsbD_and, BitVec.getLsbD_not, hm, BitVec.getLsbD_shiftLeft, hi, decide_true, Bool.true_and]
  by_cases h1 : pos ≤ i ∧ i < pos + n
  · simp [h1]
  · simp [h1]
theorem bpick_eq (v : Bool) (a b c : Word) : bpickW v a b c = wordOfBits fun i =>
      let nib := (c.extractLsb' (4 * (i / 8)) 4)
      let j : BitVec 8 := (b ++ a).extractLsb' (8 * (nib.extractLsb' 0 3).toNat) 8
      if nib.getLsbD 3 then v && j.msb else j.getLsbD (i % 8) := by
  have hx : (b ++ a : BitVec 64).toNat = b.toNat * 2 ^ 32 + a.toNat := by
    rw [BitVec.toNat_append, ← Nat.shiftLeft_add_eq_or_of_lt a.isLt, Nat.shiftLeft_eq]
  apply BitVec.eq_of_getLsbD_eq
  intro i hi
  rw [getLsbD_wordOfBits]
  simp only [hi, decide_true, Bool.true_and, bpickW]
  generalize hB : (fun i => if bitsOf c.toNat (4 * i) 4 < 8 then bitsOf (b.toNat * 2 ^ 32 + a.toNat) (8 * (bitsOf c.toNat (4 * i) 4 % 8)) 8
    else if (v && decide (bitsOf (b.toNat * 2 ^ 32 + a.toNat) (8 * (bitsOf c.toNat (4 * i) 4 % 8)) 8 ≥ 128)) = true then 255 else 0) = B
  have hlt : ∀ k, B k < 256 := by
    intro k; subst hB; dsimp only
    split
    · exact Nat.mod_lt _ (by decide)
    · split <;> decide
  have h0 := hlt 0; have h1 := hlt 1; have h2 := hlt 2; have h3 := hlt 3
  have hbit : (BitVec.ofNat 32 (B 0 + B 1 * 256 + B 2 * 65536 + B 3 * 16777216)).getLsbD i = (B (i / 8)).testBit (i % 8) := by
    rw [BitVec.getLsbD_ofNat]
    simp only [hi, decide_true, Bool.true_and]
    have hk : (B 0 + B 1 * 256 + B 2 * 65536 + B 3 * 16777216) / 2 ^ (8 * (i / 8)) % 2 ^ 8 = B (i / 8) := by
      have : i / 8 = 0 ∨ i / 8 = 1 ∨ i / 8 = 2 ∨ i / 8 = 3 := by omega
      rcases this with h | h | h | h <;> rw [h] <;> norm_num <;> omega
    rw [← hk, Nat.testBit_mod_two_pow, Nat.testBit_div_two_pow]
    have : i % 8 < 8 := Nat.mod_lt _ (by decide)
    simp only [this, decide_true, Bool.true_and]
    congr 1; omega
  refine Eq.trans (congrArg (fun w : BitVec 32 => w.getLsbD i) (?_ : _ = BitVec.ofNat 32 (B 0 + B 1 * 256 + B 2 * 65536 + B 3 * 16777216))) (hbit.trans ?_)
  · subst hB; rfl
  · generalize i / 8 = k
    have hr : i % 8 < 8 := Nat.mod_lt _ (by decide)
    generalize i % 8 = r at *
    have hn : bitsOf c.toNat (4 * k) 4 = (c.extractLsb' (4 * k) 4).toNat := by simp [bitsOf, Nat.shiftRight_eq_div_pow]
    subst hB
    simp only [hn, ← hx]
    generalize c.extractLsb' (4 * k) 4 = nib
    have e3 : nib.toNat % 8 = (nib.extractLsb' 0 3).toNat := by simp
    have ej : bitsOf (b ++ a : BitVec 64).toNat (8 * (nib.extractLsb' 0 3).toNat) 8 = ((b ++ a : BitVec 64).extractLsb' (8 * (nib.extractLsb' 0 3).toNat) 8).toNat := by
      simp [bitsOf, Nat.shiftRight_eq_div_pow]
    rw [e3, ej]
    generalize (b ++ a : BitVec 64).extractLsb' (8 * (nib.extractLsb' 0 3).toNat) 8 = j
    have h8 : nib.getLsbD 3 = decide (¬ nib.toNat < 8) := by
      clear e3 ej; revert nib; clear * -; decide
    rw [h8]
    by_cases hh : nib.toNat < 8
    · simp only [hh, if_true, not_true, decide_false, Bool.false_eq_true, if_false]; rfl
    · simp only [hh, if_false, not_false_iff, decide_true, if_true]
      have hm : j.msb = decide (j.toNat ≥ 128) := by rw [BitVec.msb_eq_decide]
      rw [hm]
      split
      · rename_i h; rw [h]
        have : r = 0 ∨ r = 1 ∨ r = 2 ∨ r = 3 ∨ r = 4 ∨ r = 5 ∨ r = 6 ∨ r = 7 := by omega
        rcases this with h | h | h | h | h | h | h | h <;> subst h <;> decide
      · rename_i h; simp only [Bool.and_eq_true, not_and, Bool.not_eq_true] at h
        cases hv : v
        · simp
        · simp [h hv]

theorem gives_two {u f x s o} {g g' : Word → Word → Word} (h : ∀ a b, g a b = g' a b) (hg : Gives u f x s o (two g)) : Gives u f x s o (two g') := by
  have : g = g' := by funext a b; exact h a b
  rw [← this]; exact hg
theorem gives_one {u f x s o} {g g' : Word → Word} (h : ∀ a, g a = g' a) (hg : Gives u f x s o (one g)) : Gives u f x s o (one g') := by
  have : g = g' := by funext a; exact h a
  rw [← this]; exact hg
theorem gives_three {u f x s o} {g g' : Word → Word → Word → Word} (h : ∀ a b c, g a b c = g' a b c) (hg : Gives u f x s o (three g)) : Gives u f x s o (three g') := by
  have : g = g' := by funext a b c; exact h a b c
  rw [← this]; exact hg

theorem signed_toNat {n : Nat} (x : BitVec n) : signed n x.toNat = x.toInt := by
  unfold signed
  rw [BitVec.toInt_eq_toNat_cond]
  have := x.isLt
  rw [Nat.mod_eq_of_lt x.isLt]
  rcases n with _ | n
  · simp at this ⊢
  · simp only [Nat.add_sub_cancel]
    have h2 : 2 ^ (n + 1) = 2 * 2 ^ n := by rw [pow_succ]; ring
    by_cases h : x.toNat < 2 ^ n
    · rw [if_pos h, if_pos (by omega)]
    · rw [if_neg h, if_neg (by omega)]
theorem foldl_add_sum (g : Nat → Int) : ∀ (xs : List Nat) (a : Int), xs.foldl (fun acc i => acc + g i) a = a + (xs.map g).sum
  | [], a => by simp
  | x :: xs, a => by simp [foldl_add_sum g xs, add_assoc]
theorem dotInt_eq (ty n w : Nat) (hw : narrowBits ty = w) (sat : Bool) (d a b : Word) : dotInt ty n sat d a b =
   (let y := d.toInt + ((List.range n).map fun k => (a.extractLsb' (w * k) w).toInt * (b.extractLsb' (w * k) w).toInt).sum
    { vals := [if sat then satI32 y else BitVec.ofInt 32 y], novf := !sat && (BitVec.ofInt 32 y).toInt != y }) := by
  unfold dotInt
  subst hw
  have e : ∀ (z : Word) k, signed (narrowBits ty) (bitsOf z.toNat (narrowBits ty * k) (narrowBits ty)) = (z.extractLsb' (narrowBits ty * k) (narrowBits ty)).toInt := by
    intro z k; rw [← signed_toNat]; simp [bitsOf, Nat.shiftRight_eq_div_pow]
  simp only [foldl_add_sum, e]
  generalize d.toInt + _ = y
  congr 1
  · congr 1
    cases sat
    · rfl
    · simp only [if_true, satI32]; congr 1; unfold clampTo; split <;> (try split) <;> omega
  · congr 1
    rw [BitVec.toInt_ofInt, Int.bmod_def]
    have : ∀ p q : Bool, (p = true ↔ q = true) → p = q := by decide
    apply this
    simp only [Bool.or_eq_true, decide_eq_true_eq, bne_iff_ne, ne_eq]
    omega
theorem wpermOuts_eq (mode w : Nat) (ins : List AluIn) : wpermOuts mode w ins = ins.map (fun i => { vals := [((ins.find? fun j => j.t = wpermSrc mode w i.t (w32 i.b).toNat).map fun j => w32 j.a).getD (w32 i.a)] }) := by
  unfold wpermOuts
  refine List.map_congr_left fun i _ => ?_
  cases ins.find? fun j => decide (j.t = wpermSrc mode w i.t (w32 i.b).toNat) <;> rfl

end Sys2Proof.Machine
end

