-- ==== Sys2Proof/Tests/Slice0.lean ====
section
/-! SUPPORT. Tests: ill-formed terms that the check refuses, words that the manual writes out or its tables give, and, for every statement, states
and operands that meet its hypotheses. -/

namespace Sys2Proof.Tests

open Sys2Proof.Machine

set_option Elab.async false

/-! ## Ill-formed instructions, one for each check -/

/-- D 2, A 4, B 6, STALL 1, no guard, no flag. -/
def f0 : FWord := { stall := 1, wait := 0, sig := 15, gn := false, gp := 15, lr := 0, v := false, i := false, d := 2, a := 4, b := 6 }
/-- A word 1 with C 8 and nothing else. -/
def x0 : LExt := { c := 8, x24 := 0, imm32 := 0 }
/-- The check refuses an instruction. -/
def illFormed (i : Instr) : Bool := !encOk i
/-- V or I where an opcode defines none (R38). -/
theorem test_ill_variant : [.nop { f0 with v := true }, .ld32F { f0 with v := true }, .exit { f0 with i := true }, .not { f0 with i := true },
    .movF { f0 with v := true }].all illFormed = true := by decide
/-- Bits of word 1 that the entry leaves zero (R45). -/
theorem test_ill_word1 : [.movL f0 { x0 with x24 := 1 }, .movL f0 { x0 with imm32 := 1 }, .ld32L f0 { x0 with x24 := 4 },
    .wstop f0 { x0 with x24 := 0x20 }].all illFormed = true := by decide
/-- Reserved types, conditions, operations and modes (R45, R96, R106, R123, R124, R131, R144, R227, R240, R245, R274, R359, R391). -/
theorem test_ill_codes : [.iaddL f0 x0, .isetF { f0 with d := 0xA0 }, .fsetF { f0 with d := 0xE0 }, .frnd { f0 with b := 4 }, .cvtif f0 x0,
    .qnt4 f0 x0, .atmaxL f0 { x0 with x24 := 0x0C }, .red f0 { x0 with x24 := 0x0E7 }, .tmove f0 { x0 with x24 := 2 }, .grpq { f0 with a := 3 },
    .owrd { f0 with b := 5 }, .cctlWbl1 { f0 with d := 7 }, .st32L f0 { x0 with x24 := 1 }].all illFormed = true := by decide
/-- Pair codes that are undefined, or outside the simple subset in the Y half (R49). -/
theorem test_ill_pair : [.pairWord { stall := 1, wait := 0, gp := 15, gn := false, xop := 0x1B, xd := 2, xs := 4, yop := 0x7F, yd := 1, ys := 3 },
    .pairWord { stall := 1, wait := 0, gp := 15, gn := false, xop := 0, xd := 2, xs := 4, yop := 3, yd := 1, ys := 3 }].all illFormed = true := by decide
/-- Orders, scopes and bits that a prefix leaves undefined (R52, R54). -/
theorem test_ill_prefix : [.ord { order := 5, scope := 0, colour := 0, low := 0 }, .ord { order := 0, scope := 6, colour := 0, low := 0 },
    .ord { order := 0, scope := 0, colour := 0, low := 1 }, .rep { count1 := 0, dstep := 0, astep := 0, bstep := 0, low := 1 }].all illFormed = true := by
  decide

/-! ## Words -/

/-- A word decodes to an instruction: the first 64 bits are word 0, the next word 1. -/
def decodes (w : Nat) (i : Instr) : Bool := decodeTableWord 128 w = some i
/-- The words that the manual prints with their fields, by chapter. -/
theorem test_decode_examples : ([(0x01C4003DE1220364, .isetF { f0 with i := true, d := 0x22, a := 3, b := 0x64 }),
      (0x0804003DE0030102, .faddF { f0 with d := 3, a := 1, b := 2 }),
      (0x0900000100000000C864003DE0080203, .ffmaL { f0 with d := 8, a := 2, b := 3 } { c := 9, x24 := 1, imm32 := 0 }),
      (0x1044003DE00A0405, .dp4f8 { f0 with d := 10, a := 4, b := 5 }),
      (0xC8000E0000000000D0A4003DE2140884, .qnt8 { f0 with v := true, d := 0x14, a := 8, b := 0x84 } { c := 0xC8, x24 := 0x0E00, imm32 := 0 }),
      (0x0200C8C800000000D404003DF8000001, .mma { f0 with lr := 6, d := 0, a := 0, b := 1 } { c := 2, x24 := 0xC8C8, imm32 := 0 }),
      (0x14E4003DE101C801, .eparg { f0 with i := true, d := 1, a := 0xC8, b := 1 }),
      (0x1844000DE0040524, .ld32F { f0 with sig := 3, d := 4, a := 5, b := 0x24 }),
      (0x18E40015E0040524, .st32F { f0 with sig := 5, d := 4, a := 5, b := 0x24 }),
      (0xC830000300010000D8240009E20682C8, .ld16L { f0 with sig := 2, v := true, d := 6, a := 0x82, b := 0xC8 } { c := 0xC8, x24 := 0x300003, imm32 := 0x10000 }),
      (0x1B24003DE0020305, .fence { f0 with d := 2, a := 3, b := 5 }),
      (0x0720060700000000DAC40005E0040506, .atbadd { f0 with sig := 1, d := 4, a := 5, b := 6 } { c := 7, x24 := 0x200607, imm32 := 0 })] ++
    [(0xC800001300000000E0040009E00188C8, .cpy { f0 with sig := 2, d := 1, a := 0x88, b := 0xC8 } { c := 0xC8, x24 := 0x13, imm32 := 0 }),
      (0xC800000800000020E404003C42C8C8C8, .braL { f0 with gp := 2, v := true, d := 0xC8, a := 0xC8, b := 0xC8 } { c := 0xC8, x24 := 8, imm32 := 0x20 }),
      (0x2404003DE0000005, .braF { f0 with d := 0, a := 0, b := 5 }),
      (0x2404003C60FFFFFD, .braF { f0 with gp := 3, d := 0xFF, a := 0xFF, b := 0xFD }),
      (0x2804003DE013C8C8, .bar { f0 with d := 0x13, a := 0xC8, b := 0xC8 }),
      (0x2864003DE005C8C8, .gbar { f0 with d := 5, a := 0xC8, b := 0xC8 }),
      (0xC800001200000800E8C4003DE0C0C8C8, .qbind { f0 with d := 0xC0, a := 0xC8, b := 0xC8 } { c := 0xC8, x24 := 0x12, imm32 := 0x800 }),
      (0xC800000100000000E9640009E004C8C8, .edgew { f0 with sig := 2, d := 4, a := 0xC8, b := 0xC8 } { c := 0xC8, x24 := 1, imm32 := 0 }),
      (0xC800000000000003E444003DE0C8C8C8, .jmpf { f0 with d := 0xC8, a := 0xC8, b := 0xC8 } { c := 0xC8, x24 := 0, imm32 := 3 }),
      (0x2E44003DE000C801, .owrd { f0 with d := 0, a := 0xC8, b := 1 }),
      (0x2F04003DE084C8C8, .ckpt { f0 with d := 0x84, a := 0xC8, b := 0xC8 }),
      (0x2EA4003DE0000E80, .swr { f0 with d := 0, a := 0x0E, b := 0x80 })] ++
    [(0x2564003DE0191408, .wred { f0 with d := 0x19, a := 0x14, b := 8 }),
      (0xC8000E0000000000D130003DE2918CC8, .scle { f0 with stall := 4, v := true, d := 0x91, a := 0x8C, b := 0xC8 } { c := 0xC8, x24 := 0x0E00, imm32 := 0 }),
      (0xC8000000000000A1C030003DE180C8C8, .movL { f0 with stall := 4, i := true, d := 0x80, a := 0xC8, b := 0xC8 } { c := 0xC8, x24 := 0, imm32 := 0xA1 }),
      (0x24A4003DE0C8C8C8, .join { f0 with d := 0xC8, a := 0xC8, b := 0xC8 }),
      (0x0024003C88C0C802, .movF { f0 with gp := 4, lr := 2, d := 0xC0, a := 0xC8, b := 2 }),
      (0x2904003DE003C005, .qpopt { f0 with d := 3, a := 0xC0, b := 5 }),
      (0x4800780820C18187, .pairWord { stall := 1, wait := 0, gp := 15, gn := false, xop := 1, xd := 2, xs := 6, yop := 6, yd := 3, ys := 7 }),
      (0x8136000000000000, .ord { order := 2, scope := 3, colour := 3, low := 0 }),
      (0x84D4000000000000, .rep { count1 := 3, dstep := 1, astep := 1, bstep := 0, low := 0 })] : List (Nat × Instr)).all (fun e => decodes e.1 e.2) = true := by
  decide +kernel
/-- Words that encode nothing (R72): SEL in F form, opcodes 0x024 and 0x1FF, a reserved pair code, a prefix of type 4, ORD before IADD. -/
theorem test_decode_refused : [0x01E4003DE0020406, 0x0484003DE0020406, 0xFFFFFFFFFFFFFFFF, 0x4800780820C0C187, 0x9000000000000000,
    0x0044003DE00204068136000000000000].all (fun w => decodeTableWord 128 w = none || fmtOf (BitVec.ofNat 64 w) = 2 &&
      decodeGroup (tableWords 128 w) ≠ .ok none none (.nop f0) 1) = true := by decide +kernel
/-- The opcodes of the map of R69: integer, logic and address. -/
theorem test_decode_integer : (
    [(0x4003DE0020406, .nop f0),
      (0x244003DE0020406, .xorF f0),
      (0x800000000000000C244003DE0020406, .xorL f0 x0),
      (0x24003DE0020406, .movF f0),
      (0x800000000000000C024003DE0020406, .movL f0 x0),
      (0x264003DE0020406, .andnF f0),
      (0x800000000000000C264003DE0020406, .andnL f0 x0),
      (0x44003DE0020406, .iaddF f0),
      (0x800000200000000C044003DE0020406, .iaddL f0 { x0 with x24 := 0x2 }),
      (0x284003DE0020406, .not f0),
      (0x64003DE0020406, .isubF f0),
      (0x800000200000000C064003DE0020406, .isubL f0 { x0 with x24 := 0x2 }),
      (0x800000000000000C2A4003DE0020406, .blut f0 x0),
      (0x800000000000000C084003DE0020406, .iaddt f0 x0),
      (0x2C4003DE0020406, .shl f0),
      (0xA4003DE0020406, .iadd64 f0),
      (0x2E4003DE0020406, .shr f0),
      (0xC4003DE0020406, .imulF f0),
      (0x800000000000000C0C4003DE0020406, .imulL f0 x0),
      (0x304003DE0020406, .sar f0),
      (0xE4003DE0020406, .imulh f0),
      (0x324003DE0020406, .rol f0),
      (0x104003DE0020406, .imulw f0),
      (0x800000000000000C344003DE0020406, .funs f0 x0)] ++
    [(0x800000000000000C124003DE0020406, .imad f0 x0),
      (0x800000000000000C364003DE0020406, .bfe f0 x0),
      (0x144003DE0020406, .iminF f0),
      (0x800000000000000C144003DE0020406, .iminL f0 x0),
      (0x800000000000000C384003DE0020406, .bfi f0 x0),
      (0x164003DE0020406, .imaxF f0),
      (0x800000000000000C164003DE0020406, .imaxL f0 x0),
      (0x3A4003DE0020406, .popc f0),
      (0x184003DE0020406, .iabs f0),
      (0x3C4003DE0020406, .clz f0),
      (0x1A4003DE0020406, .ineg f0),
      (0x3E4003DE0020406, .brev f0),
      (0x1C4003DE0020406, .isetF f0),
      (0x800000000000000C1C4003DE0020406, .isetL f0 x0),
      (0x800000000000000C404003DE0020406, .bpick f0 x0),
      (0x800000000000000C1E4003DE0020406, .sel f0 x0),
      (0x800000000000000C424003DE0020406, .lea f0 x0),
      (0x204003DE0020406, .andF f0),
      (0x800000000000000C204003DE0020406, .andL f0 x0),
      (0x444003DE0020406, .pset f0),
      (0x224003DE0020406, .orF f0),
      (0x800000000000000C224003DE0020406, .orL f0 x0),
      (0x464003DE0020406, .pmov f0)] : List (Nat × Instr)).all (fun e => decodes e.1 e.2) = true := by decide +kernel

/-- The opcodes of the map of R69: floating point and conversion. -/
theorem test_decode_float : (
    [(0x804003DE0020406, .faddF f0),
      (0x800000000000000C804003DE0020406, .faddL f0 x0),
      (0xA24003DE0020401, .frnd { f0 with b := 1 }),
      (0x824003DE0020406, .fsubF f0),
      (0x800000000000000C824003DE0020406, .fsubL f0 x0),
      (0xA44003DE0020406, .fclass f0),
      (0x844003DE0020406, .fmulF f0),
      (0x800000000000000C844003DE0020406, .fmulL f0 x0),
      (0xA64003DE0020406, .fscl f0),
      (0x864003DE0020406, .ffmaF f0),
      (0x800000000000000C864003DE0020406, .ffmaL f0 x0),
      (0xA84003DE0020406, .pkadd f0),
      (0x884003DE0020406, .fmin f0),
      (0xAA4003DE0020406, .pkmul f0),
      (0x8A4003DE0020406, .fmax f0),
      (0xAC4003DE0020406, .pkfmaF f0),
      (0x800000000000000CAC4003DE0020406, .pkfmaL f0 x0),
      (0x8C4003DE0020406, .fsetF f0),
      (0x800000000000000C8C4003DE0020406, .fsetL f0 x0),
      (0xAE4003DE0020406, .pkmin f0),
      (0x8E4003DE0020406, .fabs f0),
      (0xB04003DE0020406, .pkmax f0),
      (0x904003DE0020406, .fneg f0),
      (0xB24003DE0020406, .dadd f0)] ++
    [(0x924003DE0020406, .fdivF f0),
      (0x800000000000000C924003DE0020406, .fdivL f0 x0),
      (0xB44003DE0020406, .dmul f0),
      (0x944003DE0020406, .frcp f0),
      (0xB64003DE0020406, .dfmaF f0),
      (0x800000000000000CB64003DE0020406, .dfmaL f0 x0),
      (0x964003DE0020406, .frsq f0),
      (0xB84003DE0020406, .dmin f0),
      (0x984003DE0020406, .fsqrt f0),
      (0xBA4003DE0020406, .dmax f0),
      (0x9A4003DE0020406, .fex2 f0),
      (0xBC4003DE0020406, .dset f0),
      (0x9C4003DE0020406, .flg2 f0),
      (0x8020C0000000000CBE4003DE0020406, .cvtif f0 { x0 with x24 := 0x20C00 }),
      (0x9E4003DE0020406, .fsinp f0),
      (0x80C020000000000CC04003DE0020406, .cvtfi f0 { x0 with x24 := 0xC0200 }),
      (0xA04003DE0020406, .fcosp f0),
      (0x80C0D0000000000CC24003DE0020406, .cvtff f0 { x0 with x24 := 0xC0D00 })] : List (Nat × Instr)).all (fun e => decodes e.1 e.2) = true := by decide +kernel

/-- The opcodes of the map of R69: narrow formats. -/
theorem test_decode_narrow : (
    [(0x1004003DE0020406, .dp4i8 f0),
      (0x800000000000000D404003DE0020406, .mma f0 x0),
      (0x1024003DE0020406, .dp8i4 f0),
      (0x800000000000000D424003DE0020406, .mmat f0 x0),
      (0x1044003DE0020406, .dp4f8 f0),
      (0x1444003DE0020406, .mzero f0),
      (0x1064003DE0020406, .dp8f4 f0),
      (0x1464003DE0020406, .mrd f0),
      (0x1084003DE0020406, .dp2bf f0),
      (0x1484003DE0020406, .mwr f0),
      (0x800000000000000D0A4003DE0020406, .qnt8 f0 x0),
      (0x800000000000000D4A4003DE0020406, .mdrain f0 x0),
      (0x800040000000000D0C4003DE0020406, .qnt4 f0 { x0 with x24 := 0x400 }),
      (0x800000000000000D4C4003DE0020406, .epld f0 x0),
      (0x800000000000000D0E4003DE0020406, .dq8 f0 x0),
      (0x14E4003DE0020406, .eparg f0),
      (0x804000000000000D104003DE0020406, .dq4 f0 { x0 with x24 := 0x40000 }),
      (0x1504003DE0020406, .mstat f0),
      (0x800000000000000D124003DE0020406, .scle f0 x0),
      (0x800000000000000D144003DE0020406, .nrscl f0 x0),
      (0x800000000000000D164003DE0020406, .nrsum f0 x0)] : List (Nat × Instr)).all (fun e => decodes e.1 e.2) = true := by decide +kernel

/-- The opcodes of the map of R69: memory and atomics. -/
theorem test_decode_memory : (
    [(0x1804003DE0020406, .ld8F f0),
      (0x800000000000000D804003DE0020406, .ld8L f0 x0),
      (0x19C4003DE0020406, .atmaxF f0),
      (0x800000700000000D9C4003DE0020406, .atmaxL f0 { x0 with x24 := 0x7 }),
      (0x1824003DE0020406, .ld16F f0),
      (0x800000000000000D824003DE0020406, .ld16L f0 x0),
      (0x19E4003DE0020406, .atandF f0),
      (0x800000700000000D9E4003DE0020406, .atandL f0 { x0 with x24 := 0x7 }),
      (0x1844003DE0020406, .ld32F f0),
      (0x800000000000000D844003DE0020406, .ld32L f0 x0),
      (0x1A04003DE0020406, .atorF f0),
      (0x800000700000000DA04003DE0020406, .atorL f0 { x0 with x24 := 0x7 }),
      (0x1864003DE0020406, .ld64F f0),
      (0x800000000000000D864003DE0020406, .ld64L f0 x0),
      (0x1A24003DE0020406, .atxorF f0),
      (0x800000700000000DA24003DE0020406, .atxorL f0 { x0 with x24 := 0x7 }),
      (0x1884003DE0020406, .ld128F f0),
      (0x800000000000000D884003DE0020406, .ld128L f0 x0),
      (0x1A44003DE0020406, .atxchF f0),
      (0x800000700000000DA44003DE0020406, .atxchL f0 { x0 with x24 := 0x7 }),
      (0x18A4003DE0020406, .st8F f0),
      (0x800000000000000D8A4003DE0020406, .st8L f0 x0),
      (0x800000700000000DA64003DE0020406, .atcas f0 { x0 with x24 := 0x7 }),
      (0x18C4003DE0020406, .st16F f0)] ++
    [(0x800000000000000D8C4003DE0020406, .st16L f0 x0),
      (0x800000700000000DA84003DE0020406, .atincw f0 { x0 with x24 := 0x7 }),
      (0x18E4003DE0020406, .st32F f0),
      (0x800000000000000D8E4003DE0020406, .st32L f0 x0),
      (0x800000700000000DAA4003DE0020406, .atdecw f0 { x0 with x24 := 0x7 }),
      (0x1904003DE0020406, .st64F f0),
      (0x800000000000000D904003DE0020406, .st64L f0 x0),
      (0x800000700000000DAC4003DE0020406, .atbadd f0 { x0 with x24 := 0x7 }),
      (0x1924003DE0020406, .st128F f0),
      (0x800000000000000D924003DE0020406, .st128L f0 x0),
      (0x1AE4003DE0020406, .atfaddF f0),
      (0x800000C00000000DAE4003DE0020406, .atfaddL f0 { x0 with x24 := 0xC }),
      (0x1944003DE0020406, .prf f0),
      (0x800000700000000DB04003DE0020406, .red f0 { x0 with x24 := 0x7 }),
      (0x1964003DE0000406, .cctlWbl1 { f0 with d := 0 }),
      (0x1964003DE0010406, .cctlInvl1 { f0 with d := 1 }),
      (0x1964003DE0020406, .cctlInvl2 f0),
      (0x1964003DE0030406, .cctlWball1 { f0 with d := 3 }),
      (0x1964003DE0040406, .cctlInvall1 { f0 with d := 4 }),
      (0x1964003DE0050406, .cctlTlbinv { f0 with d := 5 }),
      (0x1964003DE0060406, .cctlTlbinvall { f0 with d := 6 }),
      (0x1B24003DE0020406, .fence f0),
      (0x1984003DE0020406, .ataddF f0),
      (0x800000700000000D984003DE0020406, .ataddL f0 { x0 with x24 := 0x7 })] ++
    [(0x1B44003DE0020406, .raceq f0),
      (0x19A4003DE0020406, .atminF f0),
      (0x800000700000000D9A4003DE0020406, .atminL f0 { x0 with x24 := 0x7 })] : List (Nat × Instr)).all (fun e => decodes e.1 e.2) = true := by decide +kernel

/-- The opcodes of the map of R69: asynchronous engines, tiers and code. -/
theorem test_decode_engines : (
    [(0x800000000000000E004003DE0020406, .cpy f0 x0),
      (0x800000100000000E0C4003DE0020406, .tmove f0 { x0 with x24 := 0x1 }),
      (0x2024003DE0020406, .cpyw f0),
      (0x800000000000000E0E4003DE0020406, .tstat f0 x0),
      (0x2044003DE0020406, .cptr f0),
      (0x800000000000000E104003DE0020406, .tcncl f0 x0),
      (0x2064003DE0020406, .cprst f0),
      (0x800000000000000E124003DE0020406, .cfetch f0 x0),
      (0x2084003DE0020406, .qfence f0),
      (0x2144003DE0020406, .cstat f0),
      (0x800000000000000E0A4003DE0020406, .bcpy f0 x0),
      (0x2164003DE0020406, .cevict f0)] : List (Nat × Instr)).all (fun e => decodes e.1 e.2) = true := by decide +kernel

/-- The opcodes of the map of R69: control flow and issue. -/
theorem test_decode_control : (
    [(0x2404003DE0020406, .braF f0),
      (0x800000000000000E404003DE0020406, .braL f0 x0),
      (0x2524003DE0020406, .matchWarp f0),
      (0x2424003DE0020406, .brx f0),
      (0x2544003DE0020406, .elect f0),
      (0x800000000000000E444003DE0020406, .jmpf f0 x0),
      (0x2564003DE0020406, .wred f0),
      (0x2464003DE0020406, .callF f0),
      (0x800000000000000E464003DE0020406, .callL f0 x0),
      (0x2584003DE0020406, .wscan f0),
      (0x2484003DE0020406, .ret f0),
      (0x25A4003DE0020406, .ejctl f0),
      (0x24A4003DE0020406, .join f0),
      (0x25C4003DE0020406, .recall f0),
      (0x24C4003DE0020406, .exit f0),
      (0x25E4003DE0020406, .waitf f0),
      (0x24E4003DE0020406, .poll f0),
      (0x2604003DE0020406, .yield f0),
      (0x2504003DE0020406, .wpermF f0),
      (0x800000000000000E504003DE0020406, .wpermL f0 x0),
      (0x2624003DE0020406, .sleep f0)] : List (Nat × Instr)).all (fun e => decodes e.1 e.2) = true := by decide +kernel

/-- The opcodes of the map of R69: synchronisation, burrows, edges and launch. -/
theorem test_decode_sync : (
    [(0x2804003DE0020406, .bar f0),
      (0x2904003DE0020406, .qpopt f0),
      (0x2824003DE0020406, .bara f0),
      (0x2924003DE0020406, .qstat f0),
      (0x2844003DE0020406, .barw f0),
      (0x2944003DE0020406, .qfree f0),
      (0x2864003DE0020406, .gbar f0),
      (0x800000000000000E964003DE0020406, .edgew f0 x0),
      (0x2884003DE0020406, .gbara f0),
      (0x800000000000000E984003DE0020406, .edger f0 x0),
      (0x28A4003DE0020406, .gbarw f0),
      (0x29A4003DE0020406, .edgecl f0),
      (0x800000000000000E8C4003DE0020406, .qbind f0 x0),
      (0x800000000000000EC04003DE0020406, .launch f0 x0),
      (0x28E4003DE0020406, .qclose f0),
      (0x2C24003DE0020406, .lwait f0),
      (0x2C44003DE0020006, .grpq { f0 with a := 0 }),
      (0x2C64003DE0020406, .lstat f0)] : List (Nat × Instr)).all (fun e => decodes e.1 e.2) = true := by decide +kernel

/-- The opcodes of the map of R69: system, trap, emulation and debug. -/
theorem test_decode_system : (
    [(0x2E04003DE0020406, .trap f0),
      (0x800000000000000EF24003DE0020406, .ctxsv f0 x0),
      (0x2E24003DE0020406, .eret f0),
      (0x800000000000000EF44003DE0020406, .ctxld f0 x0),
      (0xC800000000000000EF44003DE2020406, .ctxldRoll { f0 with v := true } { x0 with c := 0xC8 }),
      (0x2E44003DE0020401, .owrd { f0 with b := 1 }),
      (0x2F64003DE0020406, .brk f0),
      (0x2E64003DE0020406, .owwr f0),
      (0x2F84003DE0020406, .trace f0),
      (0x2E84003DE0020406, .srd f0),
      (0x2FA4003DE0020406, .halt f0),
      (0x2EA4003DE0020406, .swr f0),
      (0x800000000000000EFC4003DE0020406, .kslotLoad f0 x0),
      (0x800010000000000EFC4003DE0020406, .kslotZero f0 { x0 with x24 := 0x100 }),
      (0x800020000000000EFC4003DE0020406, .kslotQuery f0 { x0 with x24 := 0x200 }),
      (0x800000000000000EEC4003DE0020406, .wresumeRetry f0 x0),
      (0x800000100000000EEC4003DE0020406, .wresumeDeliver f0 { x0 with x24 := 0x1 }),
      (0x800000200000000EEC4003DE0020406, .wresumeKill f0 { x0 with x24 := 0x2 }),
      (0x800000000000000EFE4003DE0020406, .scrubCores f0 x0),
      (0x800000100000000EFE4003DE0020406, .scrubPages f0 { x0 with x24 := 0x1 }),
      (0x800000000000000EEE4003DE0020406, .wstop f0 x0),
      (0x800000000000000F004003DE0020406, .fwcall f0 x0),
      (0x2F04003DE0020406, .ckpt f0),
      (0x2F04003DE2020406, .ckptQ { f0 with v := true })] : List (Nat × Instr)).all (fun e => decodes e.1 e.2) = true := by decide +kernel

/-! ## States -/

/-- The warp of the placed launch. -/
def n0 : WName := { launch := 0, blk := 0, shadow := false, w := 0 }
/-- The launch that `placed` puts there, with 4 KiB of scratchpad and segments g0 scratch, g1 global with 2^30 bytes at address 0, g2 private. -/
def l0 : Launch :=
  { placedLaunch with
    pkt := { placedLaunch.pkt with smem := 4096 }
    segs := [{ atm := true, wr := true, rd := true, kind := 1, limit := 4096, base := 0 },
             { atm := true, wr := true, rd := true, kind := 0, limit := 2 ^ 30, base := 0 },
             { wr := true, rd := true, kind := 3, limit := 2 ^ 20, base := 0 }] }
/-- A booted package whose one thread stands at a group of `n` words. -/
def at_ (n : Nat) : State :=
  let ws := List.replicate n (0 : Code)
  { placed State.reset ws with launches := [l0], iss := { w := some n0, words := ws } }
/-- The warp changed. -/
def warpIs (f : Warp → Warp) (s : State) : State := modWarp s n0 f
/-- Its frame changed. -/
def frameIs (f : Frame → Frame) : State → State := warpIs (fun w => { w with frames := [f w.cur] })
/-- v registers of its thread. -/
def regs (xs : List (Nat × Word)) : State → State := frameIs (fun fr => xs.foldl (fun g e => g.setV 0 e.1 e.2) fr)
/-- s registers. -/
def sregs (xs : List (Nat × Word)) : State → State := frameIs (fun fr => xs.foldl (fun g e => g.setS e.1 e.2) fr)
/-- The launch changed. -/
def launchIs (f : Launch → Launch) (s : State) : State := modLaunch s 0 f
/-- The launch is the partition's service context. -/
def sup (s : State) : State := modPart s 0 (fun q => { q with service := some 0 })
/-- One thread at a one-word group, and at a two-word group. -/
def s1 : State := at_ 1
def s2 : State := at_ 2
/-- Operand fields for quads and octets. -/
def f8 : FWord := { f0 with d := 8, a := 16, b := 24 }
/-- The start of an instruction meets a condition. -/
def startOk (o : Option (Ctx × List Nat)) (p : Ctx → List Nat → Bool) : Bool := match o with | some (c, ts) => p c ts | none => false
/-- An instruction computes here, with no exception enabled. -/
def runs (u : Use) (f : FWord) (x : Option LExt) (s : State) : Bool :=
  match args u f x s with | some (c, _, ins) => decide (c.w.fpm = 0) && !ins.isEmpty | none => false
theorem trapOf_zero (outs : List (Nat × AluOut)) : trapOf 0 outs = none := by
  have h : excEnabled 0 (allExc outs) = 0 := by simp [excEnabled, fpmTe]
  unfold trapOf
  rw [h]
  rfl
/-- Where it computes, the hypotheses of `Gives` hold, whatever the function. -/
theorem runs_meets {u : Use} {f : FWord} {x : Option LExt} {s : State} (h : runs u f x s = true) :
    ∃ c tids ins, args u f x s = some (c, tids, ins) ∧ ∀ fn : AluIn → AluOut, trapOf c.w.fpm (ins.map (fun i => (i.t, fn i))) = none := by
  unfold runs at h
  cases ha : args u f x s with
  | none => rw [ha] at h; exact absurd h (by simp)
  | some p =>
    obtain ⟨c, tids, ins⟩ := p
    rw [ha] at h
    simp only [Bool.and_eq_true, decide_eq_true_eq] at h
    exact ⟨c, tids, ins, rfl, fun fn => by rw [h.1]; exact trapOf_zero _⟩
/-- An enabled exception is among the results. -/
def trapsWith (u : Use) (f : FWord) (x : Option LExt) (s : State) (fn : AluIn → AluOut) : Bool :=
  match args u f x s with | some (c, _, ins) => (trapOf c.w.fpm (ins.map (fun i => (i.t, fn i)))).isSome | none => false
/-- Every exception enabled, v4 = ∞ and v6 = −∞. -/
def sTrap : State := warpIs (fun w => { w with fpm := 0x73F }) (regs [(4, 0x7F800000), (6, 0xFF800000)] s1)

/-! ## Instructions that compute -/

theorem witness_IntegerTwoSource : (runs useAB f0 none s1 && runs useAB f0 (some x0) s2) = true := by decide +kernel
theorem witness_IntegerOneSourceAndWide : (runs useA f0 none s1 && runs { d := 2, a := 2, b := 2, den := true } f0 none s1 &&
    runs { d := 2, a := 1, b := 1, den := true } f0 none s1 && runs useABC f0 (some x0) s2 && runs useAB f0 (some x0) s2 &&
    runs { d := 2, a := 2, b := 1, den := true } { f0 with v := true } (some x0) s2) = true := by decide +kernel
theorem witness_FieldOperations : (runs useABC f0 (some x0) s2 && runs useAB f0 (some x0) s2) = true := by decide +kernel
theorem witness_MovesAndPredicates : (runs { den := true } f0 none s1 && runs useB f0 none s1 && runs useB f0 (some x0) s2 &&
    runs (useCmp f0) f0 none s1 && runs (useCmp f0) f0 (some x0) s2 &&
    runs { d := 1, a := 1, b := 1, den := true, bad := decide (x0.xbits 0 4 ≥ 12), preds := [x0.xbits 0 4] } f0 (some x0) s2 &&
    runs { den := true
           bad := decide (f0.dLo ≥ 12) || (decide (f0.dHi ≤ 3) && decide (f0.aLo ≥ 12)) || (decide (f0.dHi ≤ 5) && decide (f0.bLo ≥ 12))
           preds := [f0.dLo] ++ (if decide (f0.dHi ≤ 3) then [f0.aLo] else []) ++ (if decide (f0.dHi ≤ 5) then [f0.bLo] else []) } f0 none s1 &&
    runs { d := 1, s := false, den := true, preds := List.range 12 } f0 none s1 &&
    runs { a := 1, b := 1, den := true, bad := false, preds := List.range 12 } { f0 with v := true, d := 0xC8 } none s1) = true := by decide +kernel
theorem witness_FloatRounding : decide ((-1 : Int) < 3) && (match unpackF fmt32 0x3F800000 with | .fin _ m _ => decide (m ≠ 0) | _ => false) = true := by
  decide
theorem witness_SinglePrecision : (runs useAB f0 none s1 && runs useAB f0 (some x0) s2 && runs useABD f0 none s1 && runs useABC f0 (some x0) s2 &&
    runs (useCmp f0) f0 none s1 && runs useA f0 none s1 && runs { useAB with lock := true } f0 none s1 && runs { useA with lock := true } f0 none s1 &&
    trapsWith useAB f0 none sTrap (fpTwo f0 none (addV fmt32)) && trapsWith useA { f0 with a := 6 } none sTrap (fpOne (sqrtV fmt32))) = true := by
  decide +kernel
theorem witness_PackedAndDouble : (runs useAB f0 none s1 && runs useABD f0 none s1 && runs useABC f0 (some x0) s2 && runs useDD f0 none s1 &&
    runs { useDD with dr := 2 } f0 none s1 && runs { useDD with c := 2 } f0 (some x0) s2 &&
    runs { useCmp f0 with a := 2, b := 2, feat := some 0, lock := true } f0 none s1) = true := by decide +kernel
theorem witness_ConversionsAndNarrow : (runs (cvtUse { x0 with x24 := 0x020C00 }) f0 (some { x0 with x24 := 0x020C00 }) s2 &&
    runs (cvtUse { x0 with x24 := 0x0C0200 }) f0 (some { x0 with x24 := 0x0C0200 }) s2 &&
    runs (cvtUse { x0 with x24 := 0x0C0D00 }) f0 (some { x0 with x24 := 0x0C0D00 }) s2 && runs useABD f0 none s1 &&
    runs (useQnt 1 4) f8 (some x0) s2 && runs (useQnt 1 8) f8 (some x0) s2 && runs (useQnt 4 1) f8 (some x0) s2 && runs (useQnt 8 1) f8 (some x0) s2 &&
    runs useA f0 (some x0) s2 &&
    trapsWith useABD f0 none (warpIs (fun w => { w with fpm := 0x20 }) (regs [(2, 0x7FFFFFFF), (4, 1), (6, 1)] s1)) (fun i =>
      let y := (w32 i.d).toInt + ((List.range 4).map fun k => ((w32 i.a).extractLsb' (8 * k) 8).toInt * ((w32 i.b).extractLsb' (8 * k) 8).toInt).sum
      { vals := [if f0.v then satI32 y else BitVec.ofInt 32 y], novf := !f0.v && (BitVec.ofInt 32 y).toInt != y })) = true := by decide +kernel
theorem witness_WarpCollectives : (runs { lock := true, bad := decide (f0.aLo ≥ 12) || decide (f0.dLo ≥ 12), preds := [f0.aLo, f0.dLo] } f0 none s1 &&
    runs { d := 4, s := false, lock := true, zero := false, bad := decide (f8.aLo ≥ 12), preds := [f8.aLo] } { f8 with v := true } none s1 &&
    runs (collUse 1 1) f0 none s1 && runs (collUse 1 1) f0 (some x0) s2 && runs (collUse 4) f8 none s1 &&
    runs { lock := true, bad := decide (f0.dLo ≥ 12), preds := [f0.dLo] } f0 none s1 && runs (collUse 1) f0 none s1) = true := by decide +kernel
/-- SRD of special register 0, of numbers that are refused, and MSTAT of tile 4. -/
theorem witness_SpecialReads : (srListed (srdNum { f0 with a := 0, b := 0 }) &&
    (match argsOf (fun s c => { specOf s c { d := 1, den := true } { f0 with a := 0, b := 0 } none with
        cause := if !srListed (srdNum { f0 with a := 0, b := 0 }) then some 0x01
          else if !srReadable (isSup s c.l.lk) (srdNum { f0 with a := 0, b := 0 }) then some 0x0E
          else (specOf s c { d := 1, den := true } { f0 with a := 0, b := 0 } none).cause }) { d := 1, den := true } { f0 with a := 0, b := 0 } none s1 with
      | some (c, _, _) => decide (c.w.fpm = 0) | none => false) &&
    runs { d := 1, q := false, den := true, bad := decide (f0.a.toNat ≥ 8) } f0 none s1 &&
    startOk (starts s1 (fun c => { specOf s1 c { d := 1, den := true } f0 none with cause := none, dests := [] })) (fun c _ =>
      !srListed 0xFFF && srListed 0xF00 && !isSup s1 c.l.lk) &&
    ({ (newWarp l0 n0 0 0 0 0) with tiles := [zeroTile] } : Warp).tiles[0]? == some zeroTile && decide (zeroTile.reruns < 256) && decide (zeroTile.accf < 16)) =
    true := by decide +kernel
/-- IADD beside AND: v2 + v6 and v3 AND v7. -/
def p0 : PWord := { stall := 1, wait := 0, gp := 15, gn := false, xop := 1, xd := 2, xs := 6, yop := 6, yd := 3, ys := 7 }
theorem witness_PairWords : ((starts s1 (pairSpec p0)).isSome &&
    startOk (starts sTrap (pairSpec { p0 with xop := 0x0D, xd := 4 })) (fun c ts =>
      (excCause (excEnabled c.w.fpm (ts.foldl (fun e τ => e ||| halfExc (halfOut sTrap c ts (halfX { p0 with xop := 0x0D, xd := 4 }) τ)) 0))).isSome)) = true := by
  decide +kernel
/-- A page table at 0x10000: one path maps the 2 MiB of virtual memory at 0 to physical 0x200000, readable, writable and executable, in HBM4. -/
def mapped (s : State) : State :=
  let put (m : List Host.Cell) (a x : Nat) : List Host.Cell := writeBytes m a (toBytes x 8)
  { modPart s 0 (fun q => { q with troot := 0x10000, ranges := [(1, 0, 2 ^ 40)] }) with
    mem := put (put (put (put [] 0x10000 0x11001) 0x11000 0x12001) 0x12000 0x13001) 0x13000 (0x200000 + 0x8F + 2 ^ 53) }

/-! ## The matrix engine -/

/-- Descriptors in s0:s1 and s2:s3: rows of 128 bytes at offsets 0 and 2048, RP in bits 31:16. -/
def sDesc : State := sregs [(0, 0), (1, 0x00800000), (2, 2048), (3, 0x00800000)] s2
def fDesc : FWord := { f0 with a := 0x80, b := 0x82 }
def fZero : FWord := { f0 with a := 0xC8, b := 0xC8 }
theorem witness_MatrixIssue :
    (startOk (startsAll true s1 fun c _ => matSpec f0 (decide (f0.d.toNat ≥ 8)) [] [] c) (fun c _ => (tileCause c.w c.l.pkt.accum [f0.d.toNat]).isNone) &&
     startOk (startsAll true s1 fun c _ => matSpec f0 (decide (f0.d.toNat ≥ 8) || !isVPair f0.a.toNat) [f0.a.toNat, f0.a.toNat + 1] [] c)
       (fun c _ => (tileCause c.w c.l.pkt.accum [f0.d.toNat]).isNone) &&
     startOk (startsAll true s1 fun c _ => matSpec f0 (decide (f0.a.toNat ≥ 8) || !isVPair f0.d.toNat) [f0.d.toNat, f0.d.toNat + 1] [] c)
       (fun c _ => (tileCause c.w c.l.pkt.accum [f0.a.toNat]).isNone) &&
     startOk (startsAll true s2 (mmaSpec s2 f0 x0)) (fun c ts => mmaClear s2 c ts f0 x0 false [2] 1 1 1 &&
       (badExps (scaleExps s2 c (fwASC (fmtWord s2 c 8 ts) == 1) 0 ts)).isEmpty && (badExps (scaleExps s2 c (fwBSC (fmtWord s2 c 8 ts) == 1) 0 ts)).isEmpty) &&
     startOk (startsAll true sDesc (fun c _ => mmatSpec fDesc x0 c)) (fun c ts => mmaClear sDesc c ts fDesc x0 true (codesFrom 2 1) 1 1 1) &&
     startOk (startsAll true s2 (fun c _ => mdrainSpec fZero x0 c)) (fun c ts => drainClear s2 c ts fZero x0) &&
     (startsAll false s1 fun c _ => matSpec { f0 with i := true } (decide (f0.d.toNat ≥ 4) || !(true || isUniCode f0.b.toNat)) [] [] c).isSome) = true := by
  decide +kernel

/-! ## Memory -/

/-- A memory instruction has accesses that nothing hinders. -/
def sends (u : Use) (m : MemForm) (f : FWord) (x : Option LExt) (s : State) : Bool :=
  startOk (startsF u f x s) (fun c ts =>
    (goesOut (m.op (atRep s c f)) (m.one (atRep s c f)) (m.data s c ts (atRep s c f)) (m.ops s c ts (atRep s c f)) (atRep s c f) x s c ts).isSome)
/-- Segment g0, displacement 0, offset register zero; the last word of the segment, by v4. -/
def fm : FWord := { f0 with d := 8, a := 0xC8, b := 0 }
def fm1 : FWord := { f0 with d := 8, a := 4, b := 0 }
/-- C 8, segment g0, type .n32. -/
def xm : LExt := { c := 8, x24 := 7, imm32 := 0 }
theorem witness_LoadsIssue : ([1, 2, 4, 8, 16].all (fun n => sends (ldUse fm none n) (loadForm fm none n false) fm none s1 &&
    sends (ldUse fm (some x0) n) (loadForm fm (some x0) n false) fm (some x0) s2 &&
    sends (ldUse fm1 none n) (loadForm fm1 none n true) fm1 none (regs [(4, BitVec.ofNat 32 (4096 - n))] s1))) = true := by decide +kernel
theorem witness_StoresIssue : ([1, 2, 4, 8, 16].all (fun n => sends (stUse fm none n) (storeForm fm none n) fm none s1 &&
    sends (stUse fm (some x0) n) (storeForm fm (some x0) n) fm (some x0) s2 &&
    sends (stUse fm1 none n) (storeForm fm1 none n) fm1 none (regs [(4, BitVec.ofNat 32 (4096 - n))] s1))) = true := by decide +kernel
theorem witness_AtomicsIssue : ([0, 1, 2, 3, 4, 5, 6, 11].all (fun op => sends (atUse fm none 1 false) (atomForm fm none op 7 false) fm none s1 &&
      sends (atUse fm (some xm) 1 false) (atomForm fm (some xm) op 7 false) fm (some xm) s2) &&
    sends (atUse fm (some xm) 1 true) (atomForm fm (some xm) 7 7 true) fm (some xm) s2 &&
    sends (atUse fm (some xm) 1 false) (atomForm fm (some xm) 8 7 false) fm (some xm) s2 &&
    sends (atUse fm (some xm) 1 true) (atomForm fm (some xm) 10 7 true) fm (some xm) s2 &&
    sends (redUse { fm with d := 0xC8 } xm) (redForm xm) { fm with d := 0xC8 } (some xm) s2) = true := by decide +kernel
/-- An access of thread 0 to the word at 64 of memory. -/
def acc0 : Acc :=
  { tid := 0, space := .phys, addr := 64, va := 64, off := 64, size := 4, data := [1, 2, 3, 4], ops := [5], priv := false, l1 := false, alloc := false, tracked := false }
/-- A request of the warp in flight. -/
def req0 (k : ReqKind) : Req :=
  { id := 7, w := n0, depth := 0, den := none, kind := k, tids := [0], accs := [acc0], dcode := 2, dn := 1, order := 0, scope := 0, colour := 0, sig := 3
    once := 0, seq := none, src := 0, route := [], replays := 0, lost := false, done := false, result := [], rels := [], party := .warp n0, serial := false }
/-- With requests in flight. -/
def sent (rs : List Req) (s : State) : State := { s with reqs := rs, nextId := s.nextId + 8 }
theorem witness_LoadsAnswer : (match findReq (sent [req0 (.load false)] s1) 7 with
    | some r => decide (r.kind = .load false) && atHome (sent [req0 (.load false)] s1) r && !r.acquires && r.accs.all (fun a => !a.l1) | none => false) = true := by
  decide +kernel
theorem witness_StoresPerform : (match findReq (sent [req0 .store] s1) 7 with
    | some r => decide (r.kind = .store) && atHome (sent [req0 .store] s1) r && r.accs.all (fun a => a.space == .phys && !a.priv && decide (a.data.length = a.size))
    | none => false) = true := by decide +kernel
theorem witness_AtomicsPerform : (match findReq (sent [req0 (.atom 0 7 15)] s1) 7 with
    | some r => decide (r.kind = .atom 0 7 15) && atHome (sent [req0 (.atom 0 7 15)] s1) r && !r.acquires && r.accs.all (fun a => a.space == .phys && !a.l1)
    | none => false) = true := by decide +kernel
/-- Segment g1 with offset zero: a global line. -/
def fg : FWord := { f0 with d := 0, a := 0xC8, b := 0x10 }
/-- Two lines of the core, one dirty. -/
def lines (s : State) : State :=
  { s with l1 := [{ core := 0, line := 0, bytes := List.replicate 128 1, priv := true, dirty := true, key := 0 },
                  { core := 0, line := 5, bytes := List.replicate 128 2, priv := false, dirty := false, key := 0 }] }
theorem witness_CacheControl :
    (let u : Use := { a := 1, q := false, den := true, bad := !offOk fg none }
     let m (us : SegUse) (n : Nat) : MemOp := { seg := 1, unit := n, size := 1, align := 1, use := us, kind := .inval }
     let s := sup (lines s1)
     startOk (startsF u fg none s) (fun c ts => !acqHeld s c.w ts &&
       ts.all (fun t => (segCause c (c.l.segAt 1) (m .cache 1) (memOff s c fg none 1 ts t)).isNone)) &&
     (startsF { den := true } fg none s).isSome && s.l1.any (fun ln => ln.dirty) &&
     [(s, false), (sent [{ req0 (.load false) with id := 0 }] s, true)].all (fun e =>
       startOk (startsF { u with sup := true } fg none e.1) (fun c ts => !acqHeld e.1 c.w ts &&
         ts.all (fun t => (segCause c (c.l.segAt 1) (m .unmap 1) (memOff e.1 c fg none 1 ts t)).isNone) &&
         usesPage e.1 (mkReq e.1 c (m .unmap 1) e.1.nextId 15 ts (ts.map (fun t => pageAcc e.1 0 c.w.core t 0))) == e.2) &&
       startOk (startsF { sup := true, den := true } fg none e.1) (fun c ts => usesPage e.1 (mkReq e.1 c (m .unmap 1) e.1.nextId 15 ts []) == e.2)) &&
     startOk (startsF u { fg with v := true } none (mapped s1)) (fun c ts => ts.all (fun t =>
       (quietAcc (mapped s1) c (m .prefetch 128) t (memOff (mapped s1) c { fg with v := true } none 128 ts t)).any (fun a => isHbm a.addr))) &&
     [1, 7].all (fun n => decide ((List.replicate n (0 : Nat)).length < 8))) = true := by
  decide +kernel
/-- FENCE.acqrel at device scope: d 3, a 3; and with a store of the warp in flight. -/
def ff : FWord := { f0 with d := 3, a := 3, b := 0xFF }
/-- A fence in flight, before and after a store that it follows. -/
def rFence : Req := { req0 (.fence true true 255 0) with accs := [] }
theorem witness_Fence : ([(s1, false), (sent [{ req0 .store with id := 0 }] s1, true)].all (fun e =>
      startOk (startsF { den := true } ff none e.1) (fun c ts => !acqHeld e.1 c.w ts && !mustCompare c &&
        fenceWaits e.1 c.w.name e.1.nextId ts (decide (ff.d.toNat ≥ 2)) (ff.d.toNat != 2) ff.b == e.2)) &&
    startOk (startsF { den := true } ff none (launchIs (fun l => { l with pkt := { l.pkt with flags := 2 } }) s1)) (fun c ts => mustCompare c && !acqHeld s1 c.w ts) &&
    [(sent [rFence] s1, false), (sent [{ req0 .store with id := 0 }, rFence] s1, true)].all (fun e =>
      (findWarp e.1 rFence.w).isSome && fenceWaits e.1 rFence.w rFence.id rFence.tids true true (BitVec.ofNat 8 255) == e.2)) = true := by decide +kernel

/-! ## Control flow and issue -/

/-- Every target can be reached: `reaches`, decided. -/
def reachesB (s : State) (c : Ctx) (ts : List (Nat × Int)) : Bool :=
  ts.all (fun e => decide (0 ≤ e.2) && decide (e.2 < codeLimit c.l) &&
    (match findBrick s c.w.core c.l.lk (e.2.toNat / 4096) with | some b => b.st == .landed | none => false))
theorem reaches_of {s : State} {c : Ctx} {ts : List (Nat × Int)} (h : reachesB s c ts = true) : reaches s c ts := by
  intro e he
  have h1 := List.all_eq_true.mp h e he
  simp only [Bool.and_eq_true, decide_eq_true_eq] at h1
  refine ⟨h1.1.1, h1.1.2, ?_⟩
  cases hb : findBrick s c.w.core c.l.lk (e.2.toNat / 4096) with
  | none => rw [hb] at h1; exact absurd h1.2 (by simp)
  | some b => rw [hb] at h1; exact ⟨b, rfl, eq_of_beq h1.2⟩
/-- Threads 0, 1 and 2 stand at a group; p0 is set in 0 and 1. -/
def three (s : State) : State :=
  frameIs (fun fr => { fr with p := [(0, 1), (1, 1)] }) (warpIs (fun w => { w with threads := (List.range 3).map (newThread 0 3) }) s)
/-- BRA to the end of the code segment and one group short of it, for a code segment of two bricks. -/
def fHere : FWord := { f0 with d := 0, a := 0, b := 0 }
def fEnd : FWord := { f0 with d := 0, a := 4, b := 0 }
def fLast : FWord := { f0 with d := 0, a := 3, b := 0xFF }
def fBack : FWord := { f0 with d := 0xFF, a := 0xFF, b := 0xFF }
/-- A code segment of two bricks of which the second stands as given. -/
def second (st : Option BrickSt) (s : State) : State :=
  { launchIs (fun l => { l with obj := { l.obj with nbrick := 2 } }) s with
    bricks := s.bricks ++ (match st with
      | some b => [{ core := 0, lk := 0, num := 1, slot := 1, st := b, words := [], used := 0, waiters := [] }] | none => []) }
/-- A call may push, and a return may pop the word that the mapped private page holds. -/
def sStack : State := mapped s2
theorem witness_ControlTransfers :
    (startOk (startsF plainUse fLast none (second (some .landed) s1)) (fun c ts =>
        reachesB (second (some .landed) s1) c (allTo ts ((c.pc : Int) + 8 * fLast.off24.toInt))) &&
     startOk (startsF plainUse { f0 with gp := 0, v := true } (some x0) (three s2)) (fun c ts => reachesB (three s2) c (allTo ts ((c.pc : Int) + x0.imm32.toInt))) &&
     startOk (startsF plainUse { f0 with v := true } (some x0) s2) (fun c ts =>
        reachesB s2 c (allTo ts ((c.pc : Int) + x0.imm32.toInt)) && (ejects s2 c ts).isEmpty) &&
     startOk (startsF { a := 1, q := false, den := true, bad := !(isV f0.a.toNat || isSZ f0.a.toNat) } f0 none (regs [(4, 4088)] s1)) (fun c ts =>
        let tgt := ts.map (fun t => (t, ((readCode (regs [(4, 4088)] s1) c c.w ts t (atRep (regs [(4, 4088)] s1) c f0).a.toNat).toNat : Int)))
        reachesB (regs [(4, 4088)] s1) c tgt && tgt.all (fun e => decide (e.2 % 8 = 0))) &&
     startOk (startsF {} f0 (some x0) s2) (fun c ts => decide (c.l.obj.entries[x0.imm32.toNat % 65536]? = some (some 0)) && reachesB s2 c (allTo ts 0)) &&
     startOk (startsF plainUse fHere none (mapped s1)) (fun c ts =>
        (stackOut (mapped s1) c true ts).isSome && reachesB (mapped s1) c (allTo ts ((c.pc : Int) + 8 * fHere.off24.toInt))) &&
     startOk (startsF plainUse f0 (some x0) sStack) (fun c ts =>
        (stackOut sStack c true ts).isSome && reachesB sStack c (allTo ts ((c.pc : Int) + x0.imm32.toInt))) &&
     startOk (startsF plainUse f0 none (warpIs (fun w => { w with threads := w.threads.map (fun t => { t with retd := 1 }) }) (mapped s1))) (fun c ts =>
        let s := warpIs (fun w => { w with threads := w.threads.map (fun t => { t with retd := 1 }) }) (mapped s1)
        match stackOut s c false ts with
        | some accs => reachesB s c (stackLoad s c accs).2 && (stackLoad s c accs).2.all (fun e => decide (e.2 % 8 = 0))
        | none => false)) = true := by
  decide +kernel
/-- The five outcomes, at the limits of the code segment. -/
theorem witness_TransfersRefused :
    ((startsF plainUse fBack none (second none s1)).isSome && decide (8 * fBack.off24.toInt < 0) &&
     startOk (startsF plainUse fEnd none (second none s1)) (fun c _ => decide ((c.pc : Int) + 8 * fEnd.off24.toInt = codeLimit c.l)) &&
     [none, some (.failed 1 2), some (.fetching 3)].all (fun st => startOk (startsF plainUse fLast none (second st s1)) (fun c _ =>
       decide ((c.pc : Int) + 8 * fLast.off24.toInt = codeLimit c.l - 8) &&
       decide ((findBrick (second st s1) c.w.core c.l.lk (((c.pc : Int) + 8 * fLast.off24.toInt).toNat / 4096)).map (·.st) = st)))) = true := by
  decide +kernel
theorem witness_Ejection : startOk (startsF plainUse { f0 with gp := 0, v := true } (some x0) (three s2)) (fun c ts =>
    decide (ejects (three s2) c ts = [2]) && reachesB (three s2) c (allTo ts ((c.pc : Int) + x0.imm32.toInt))) = true := by decide +kernel
/-- Thread 1 ejected, and thread 1 elsewhere. -/
def away (s : State) : State :=
  warpIs (fun w => { w with threads := w.threads ++ [{ newThread 64 2 1 with
    st := .ejected, den := some { party := 1, joinPt := 0, s := [], flags := [], running := true, recalled := false, cycles := 0, core := 0 } }] }) s
def ahead (pc : Nat) (s : State) : State := warpIs (fun w => { w with threads := w.threads ++ [newThread pc 2 1] }) s
theorem witness_IssueControl :
    ((startsF {} f0 none s1).isSome && (startsF (uniUse fZero) fZero none s1).isSome &&
     startOk (startsF {} f0 none s1) (fun c ts => (ejectedTids c.w).isEmpty && (c.w.threads.filter (fun t => !ts.contains t.tid && t.st != .exited)).isEmpty &&
       flagsClear c.w none (waitfMask f0) && !accessBefore s1 c.w.name (waitfUpTo s1 c ts)) &&
     startOk (startsF {} f0 none (away s1)) (fun c _ => decide (ejectedTids c.w = [1])) &&
     startOk (startsF {} f0 none (at_ 1 |> ahead 64)) (fun c ts =>
       (c.w.threads.filter (fun t => !ts.contains t.tid)).all (fun t => t.isReady && decide (c.pc ≤ t.pc))) &&
     startOk (startsF (uniUse fZero) fZero none s1) (fun c _ => decide (uniformB s1 c (atRep s1 c fZero) = 0)) &&
     startOk (startsF (uniUse { fZero with b := 0x80 }) { fZero with b := 0x80 } none (sregs [(0, 1)] s1)) (fun c _ =>
       decide (uniformB (sregs [(0, 1)] s1) c (atRep (sregs [(0, 1)] s1) c { fZero with b := 0x80 }) ≠ 0)) &&
     startOk (startsF {} { f0 with v := true, a := 0xFF, b := 0x0F } none s1) (fun c ts =>
       flagsClear c.w none (waitfMask { f0 with v := true, a := 0xFF, b := 0x0F }) && !accessBefore s1 c.w.name (waitfUpTo s1 c ts))) = true := by
  decide +kernel
theorem witness_Exit : (startOk (startsF plainUse f0 none s1) (fun c _ => !c.l.twin) && startOk (startsF plainUse f0 none (ahead 64 s1)) (fun c _ => !c.l.twin)) =
    true := by decide +kernel

/-! ## Barriers, burrows and engines -/

/-- `mayJoin`, decided. -/
def mayJoinB (s : State) (c : Ctx) (tids : List Nat) (level idx : Nat) (count : Int) : Bool :=
  let b := findBar s c.w.name level idx
  decide (idx < barLimit level) && !mustCompare c && (barCause b count tids.length).isNone &&
    tids.all (fun t => match c.w.thread t with | some x => decide (x.lastArr level idx ≠ some b.phase) | none => true) &&
    s.reqs.all (fun r => !(decide (r.w = c.w.name) && r.writes && !r.done) || r.tids.all (fun t => !tids.contains t)) &&
    (decide (level < 3) || tids.all (fun t => decide (credit c.g c.w.name t level idx = 0)))
theorem mayJoin_of {s : State} {c : Ctx} {tids : List Nat} {level idx : Nat} {count : Int} (h : mayJoinB s c tids level idx count = true) :
    mayJoin s c tids level idx count := by
  simp only [mayJoinB, Bool.and_eq_true, Bool.or_eq_true, decide_eq_true_eq, Bool.not_eq_true', Option.isNone_iff_eq_none, List.all_eq_true] at h
  obtain ⟨⟨⟨⟨⟨h1, h2⟩, h3⟩, h4⟩, h5⟩, h6⟩ := h
  refine ⟨h1, h2, h3, fun t ht x hx => ?_, fun r hr hw hwr hd t ht hm => ?_, fun hl t ht => ?_⟩
  · have := h4 t ht
    rw [hx] at this
    exact decide_eq_true_eq.mp this
  · rcases h5 r hr with hn | ha
    · rw [decide_eq_true hw, hwr, hd] at hn
      exact absurd hn (by decide)
    · have := ha t ht
      simp only [List.contains_eq_mem, decide_eq_false_iff_not] at this
      exact this hm
  · rcases h6 with hn | he
    · exact absurd hl (Nat.not_le.mpr hn)
    · exact he t ht
/-- BAR forms: D names level and index, B is an immediate count. -/
def fBar (level idx count : Nat) : FWord := { f0 with i := true, d := BitVec.ofNat 8 (level * 16 + idx), a := 0, b := BitVec.ofNat 8 count }
/-- A group of one rank, and a warp whose thread has arrived at barrier 0 of every level and group in the open phase. -/
def grouped (s : State) : State := launchIs (fun l => { l with groups := [{ mode := 0, first := 0, stride := 1, count := 1, list := [] }] }) s
def arrived (s : State) : State :=
  warpIs (fun w => { w with threads := w.threads.map (fun t => (List.range 5).foldl (fun u lv => u.setArr lv 0 0) t) }) s
theorem witness_BarrierInstructions :
    ([(0, 0, 1), (0, 3, 0), (1, 0, 0), (1, 15, 1), (2, 0, 0), (2, 7, 0), (3, 0, 0), (3, 7, 0)].all (fun e =>
       let f := fBar e.1 e.2.1 e.2.2
       decide (barLevel f = e.1) && startOk (startsF (barUse f true) f none s1) (fun c ts => mayJoinB s1 c ts e.1 f.dLo (uniformB s1 c (atRep s1 c f)).toInt) &&
       (startsF (barUse f false) f none s1).isSome) &&
     startOk (startsF (barUse (fBar 2 0 0) false) (fBar 2 0 0) none (arrived s1)) (fun c ts => ts.all (mustWait (arrived s1) c 2 0)) &&
     startOk (startsF {} { f0 with d := 0 } none (grouped s1)) (fun c ts => (memberGroup c 0).isSome && mayJoinB (grouped s1) c ts 4 0 0) &&
     startOk (startsF {} { f0 with d := 0 } none (arrived (grouped s1))) (fun c ts => ts.all (mustWait (arrived (grouped s1)) c 4 0))) = true := by
  decide +kernel
/-- Levels 0 to 4 have an instance; a barrier may be open with this level, index and owner. -/
theorem witness_BarrierPhases : (List.range 5).all (fun lv => hasInstance s1 n0 lv &&
    (let b := findBar s1 n0 lv 0; decide (b.level = lv) && decide (b.idx = 0) && decide (b.owner = barOwner n0 lv))) = true := by decide +kernel
/-- Burrow q5 of the block, bound at 0 with 16 elements, with `n` elements in it, and closed or open. -/
def burrow5 (n : Nat) (closed : Bool) : Burrow :=
  { bound := true, base := 0, sz := 0, head := 0, tail := BitVec.ofNat 32 n, prod := if closed then 0 else 1, cons := 1, pmark := [], cmark := [], closedw := if closed then [0] else [] }
def bound5 (n : Nat) (closed : Bool) (s : State) : State := modBlock s 0 0 false (fun b => b.setBurrow 5 (burrow5 n closed))
/-- q5 is named by code 0xC5. -/
def fq : FWord := { f0 with d := 2, a := 0xC5, b := 0 }
def uQpopt (f : FWord) : Use := { d := 1, s := false, q := false, lock := true, bad := !isQ f.a.toNat || decide (f.bLo ≥ 12), preds := [f.bLo] }
theorem witness_BurrowInstructions :
    (startOk (startsF { a := 1, q := false, bad := !isQ (0xC5 : BitVec 8).toNat || !isSZ (0xC8 : BitVec 8).toNat } { f0 with d := 0xC5, a := 0xC8 } (some x0) s2)
       (fun c _ => (qbindCause c.b c.l.pkt.smem (qNum 0xC5) 0 x0.szc).isNone) &&
     startOk (startsF (qNameUse fq) fq none (bound5 0 false s1)) (fun c _ => (c.b.burrow (qNum fq.a)).bound) &&
     [(1, false), (0, true)].all (fun e => startOk (startsF (uQpopt fq) fq none (bound5 e.1 e.2 s1)) (fun c ts =>
       let q := c.b.burrow (qNum fq.a)
       q.bound && (decide (ts.length ≤ q.occ) || q.closed) && decide (q.occ = e.1) && decide (q.closed = e.2) &&
         !popsPoison c.b [(1, qNum fq.a)] (ts.take q.occ).length)) &&
     (match argsOf (fun s c => specOf s c { qNameUse fq with d := 1, lock := true } fq none) { qNameUse fq with d := 1, lock := true } fq none s1 with
       | some (c, _, ins) => decide (c.w.fpm = 0) && !ins.isEmpty | none => false) &&
     startOk (startsF (qNameUse fq) fq none s1) (fun c _ => (blockWarps s1 c.l.lk c.b.blk c.b.shadow).all (fun w => w.threads.all (fun t => t.st == .ready)))) =
    true := by decide +kernel
/-- A full ring at its last index, so that its indices wrap. -/
def bOrder : Block := (newBlock l0 0 0 0 0 false).setBurrow 5 { burrow5 0 false with head := 0xFFFFFFFF, tail := 0xFFFFFFFF }
theorem witness_BurrowOrder : decide ((bOrder.burrow 5).bound = true ∧ (bOrder.burrow 5).occ = 0 ∧ (bOrder.burrow 5).sz ≤ 16 ∧
    ((List.range 16).map (BitVec.ofNat 32)).length ≤ (bOrder.burrow 5).cap ∧ (List.range 16).length = ((List.range 16).map (BitVec.ofNat 32)).length) = true := by
  decide +kernel
/-- A descriptor in s0:s7 of `rows` rows of `rb` bytes, from offset 0 to offset `dst`, with pitch `rb`. -/
def sCopy (rb rows dst : Nat) (s : State) : State :=
  sregs [(0, 0), (1, 0), (2, BitVec.ofNat 32 dst), (3, 0), (4, BitVec.ofNat 32 rb), (5, BitVec.ofNat 32 rows), (6, BitVec.ofNat 32 rb), (7, BitVec.ofNat 32 rb)] s
def fCopy : FWord := { f0 with d := 0, a := 0x80, b := 0 }
/-- From g1 to g0, and within g1. -/
def xCopy : LExt := { c := 8, x24 := 0x01, imm32 := 0 }
def xCopyG : LExt := { c := 8, x24 := 0x11, imm32 := 0 }
/-- Sixteen copies of the block in a channel, which it fills. -/
def ent (i ch : Nat) : CopyEnt :=
  { id := i, core := 0, ch := ch, w := n0, tid := 0, depth := 0, ssrc := 1, sdst := 1, soff := 0x4000, doff := 0x8000, rb := 64, rows := 1, sp := 0, dp := 0, ptr0 := none
    done := 0, sig := 15, pc := 0, token := none, party := .warp n0, ivl := 1, clk := [] }
def copies16 (ch : Nat) (s : State) : State := { s with copies := (List.range 16).map (fun i => ent i ch), nextId := s.nextId + 16 }
theorem witness_CopyInstructions :
    (let use (lim : Nat) (f : FWord) : Use := { a := 8, q := false, zero := false, solo := true, bad := !descBase f.a.toNat || decide (f.d.toNat ≥ lim) }
     startOk (startsF (use 4 fCopy) fCopy (some xCopy) (sCopy 64 64 0 s2)) (fun c ts => (copyEntry true fCopy xCopy (sCopy 64 64 0 s2) c ts).isSome) &&
     startOk (startsF (use 4 { fCopy with d := 3 }) { fCopy with d := 3 } (some xCopy) (sCopy 4 1 4092 s2)) (fun c ts =>
       (copyEntry true { fCopy with d := 3 } xCopy (sCopy 4 1 4092 s2) c ts).isSome) &&
     startOk (startsF (use 16 { fCopy with d := 15 }) { fCopy with d := 15 } (some xCopyG) (sCopy 64 64 8192 s2)) (fun c ts =>
       (copyEntry false { fCopy with d := 15 } xCopyG (sCopy 64 64 8192 s2) c ts).isSome) &&
     startOk (startsF { b := 1, q := false, solo := true, bad := decide (fCopy.d.toNat ≥ 4) || (!true && !isSZ fCopy.b.toNat) } { fCopy with i := true } none s1) (fun c ts =>
       !acqHeld s1 c.w ts && decide (({ fCopy with i := true } : FWord).b.toNat * 64 ≤ c.b.ptr 0)) &&
     startOk (startsF { b := 1, q := false, solo := true, bad := decide (fCopy.d.toNat ≥ 4) || (!false && !isSZ (0x88 : BitVec 8).toNat) } { fCopy with b := 0x88 } none s1) (fun c ts =>
       !acqHeld s1 c.w ts && decide ((readCode s1 c c.w ts (ts.headD 0) 0x88).toNat ≤ c.b.ptr 0)) &&
     startOk (startsF { d := 1, q := false, bad := decide ((3 : Nat) ≥ 4) } { f0 with a := 3 } none s1) (fun c ts => !acqHeld s1 c.w ts) &&
     [(s1, true), (copies16 0 s1, false)].all (fun e => startOk (startsF { bad := decide (fCopy.d.toNat ≥ 4), solo := true } fCopy none e.1) (fun c ts =>
       !acqHeld e.1 c.w ts && (blockEnts e.1 c.l.lk c.b.blk c.b.shadow 0).isEmpty == e.2)) &&
     startOk (startsF (use 4 fCopy) fCopy (some xCopy) (sCopy 64 64 0 (copies16 0 s2))) (fun c ts => copyFull (copies16 0 s2) c.w.core 0 && !acqHeld (copies16 0 s2) c.w ts) &&
     startOk (startsF { b := 1, q := false, solo := true, bad := false } { fCopy with i := true, b := 1 } none s1) (fun c _ => decide (c.b.ptr 0 < 64)) &&
     [(0x00, s1, true), (0x1F, s1, true), (0x01, copies16 0 s1, false), (0x10, sent [{ req0 (.tmove 1) with id := 0, accs := [] }] s1, false)].all (fun e =>
       let f : FWord := { f0 with d := BitVec.ofNat 8 e.1, a := 0xFF, b := 0xFF }
       startOk (startsF { bad := decide (f.d.toNat ≥ 32), solo := true } f none e.2.1) (fun c ts =>
         let k := qfenceUpTo e.2.1 c ts
         !acqHeld e.2.1 c.w ts && (((fenceQueues f).all (fun ch => (blockEnts e.2.1 c.l.lk c.b.blk c.b.shadow ch).all (fun y => decide (k ≤ y.id))) &&
           !(f.d.getLsbD 4 && blockTier e.2.1 c.l.lk c.b.blk c.b.shadow k)) == e.2.2))) &&
     (ctxOf s1).any (fun c => c.den.isNone && !c.w.frames.isEmpty)) = true := by
  decide +kernel
/-- TMOVE, TSTAT and TCNCL of the page of g1's offset 0: segment 1 in SEG, threads' offsets zero. -/
def fTier : FWord := { f0 with d := 2, a := 0xC8, b := 0x10 }
def xTier : LExt := { c := 8, x24 := 0x100000, imm32 := 0 }
/-- The mapped page's partition with a free frame of tier 4, quotas, and with a request queued or in flight. -/
def pools (s : State) : State := modPart (mapped s) 0 (fun q => { q with qcxl := 4, pool := [(4, 0, 0x40000000)], ranges := [(1, 0, 2 ^ 30), (4, 0x40000000, 0x200000)] })
def tierReq (moving : Bool) : TierReq :=
  { part := 0, page := 0, target := 4, place := 0, frame := 0x40000000, lk := 0, reqId := 7, moving := moving, srcTier := 1, srcFrame := 0x200000 }
def tierIs (moving : Bool) (s : State) : State := { pools s with tier := [tierReq moving] }
theorem witness_TierInstructions :
    (startOk (startsF (tierUse fTier xTier) fTier (some xTier) (pools s2)) (fun c ts => !c.l.twin &&
       decide (tierPages true fTier xTier (pools s2) c ts = some [(0, 0)]) && decide (tierPages false fTier xTier (pools s2) c ts = some [(0, 0)])) &&
     (pools s2).reqs.all (fun r => decide (r.id < (pools s2).nextId)) && (tierQueued (pools s2) 0 0).isEmpty &&
     startOk (startsF (tierUse fTier xTier) fTier (some xTier) (pools s2)) (fun c _ => [0].all (fun e => (tierQueued (pools s2) (partOf c.l.lk) e).all (fun r =>
       !isSup (pools s2) c.l.lk && decide (r.lk ≠ c.l.lk)))) &&
     startOk (startsF (tierUse fTier xTier) fTier (some xTier) (tierIs false s2)) (fun c ts => decide (tierPages false fTier xTier (tierIs false s2) c ts = some [(0, 0)]) &&
       (findWarp (tierCancelAll (tierIs false s2) c [0]).1 c.w.name).isSome)) = true := by decide +kernel
/-- The context of the group at s2. -/
def theCtx (s : State) (p : Ctx → Bool) : Bool := match ctxOf s with | some c => p c | none => false
theorem witness_TierRequests :
    (theCtx (pools s2) (fun c => decide (partOf c.l.lk = 0)) &&
     (match pageLeaf (pools s2) 0 0 with | some l => l.is2M && !l.pte.getLsbD 4 && decide (pteTier l.pte = 1) | none => false) &&
     decide (tierUsed (pools s2) 0 4 < tierQuota (pools s2) 0 4) && (poolFrame (pools s2) 0 4 0).isSome && (tierQueued (pools s2) 0 0).isEmpty &&
     (tierMoving (pools s2) 0 0).isNone && decide ((tierQueued (tierIs false s2) 0 0).length = 1) && (tierMoving (tierIs true s2) 0 0).isSome &&
     decide (tierUsed (modPart (pools s2) 0 (fun q => { q with qcxl := 0 })) 0 4 ≥ tierQuota (modPart (pools s2) 0 (fun q => { q with qcxl := 0 })) 0 4) &&
     (poolFrame (modPart (pools s2) 0 (fun q => { q with pool := [] })) 0 4 0).isNone &&
     decide ((tierQueued { pools s2 with tier := List.replicate 16 (tierReq false) } 0 0).length = 16) &&
     decide ((tierQueued { pools s2 with tier := List.replicate 15 (tierReq false) } 0 0).length = 15)) = true := by decide +kernel
theorem witness_TierMoves :
    ((match pageLeaf (tierIs false s2) 0 0 with
       | some l => (tierMoving (tierIs false s2) 0 0).isNone && decide ((tierQueued (tierIs false s2) 0 0).head? = some (tierReq false)) && l.is2M &&
         decide (pteTier l.pte = 1) && !frameBusy (tierIs false s2) (pteFrame l.pte) true
       | none => false) &&
     (pageLeaf (tierIs true s2) 0 0).isSome && decide (tierMoving (tierIs true s2) 0 0 = some (tierReq true)) &&
     !frameBusy (tierIs true s2) 0x200000 false && memWf (tierIs true s2).mem && decide (0x200000 + pageBytes ≤ frameAddr 4 0x40000000)) = true := by
  decide +kernel
/-- NRSCL and NRSUM of group 0 with value or exponent at a bound. -/
def xColl : LExt := { c := 8, x24 := 0, imm32 := 0 }
theorem witness_ContributionsIssue :
    ([false, true].all (fun sum => [(0x7FFF : Word), 0xFFFF8001].all (fun y =>
      let s := regs [(4, y), (8, y)] (grouped s2)
      match args { d := if sum then 2 else 1, a := 1, c := if sum then 1 else 0, feat := some 1 } f0 (some xColl) s with
      | some (c, _, ins) => !ins.isEmpty && (match memberGroup c (xColl.xbits 0 8) with | some g => decide (g.count ≤ 65536) | none => false) &&
          ins.all (fun i => decide (-32767 ≤ (w32 (if sum then i.c else i.a)).toInt) && decide ((w32 (if sum then i.c else i.a)).toInt ≤ 32767))
      | none => false))) = true := by decide +kernel
/-- A contribution in flight: of a group of one rank it completes its chunk, of a group of two it does not. -/
def rColl : Req := { req0 (.coll true 0 0 0) with accs := [{ acc0 with addr := 0, ops := [5, 0] }] }
def collIs (n : Nat) (s : State) : State :=
  sent [rColl] (launchIs (fun l => { l with groups := [{ mode := 0, first := 0, stride := 1, count := n, list := [] }] }) s)
/-- The state after the contribution of rColl. -/
def afterColl (s : State) : State :=
  match findReq s 7, findLaunch s 0 with
  | some r, some l => r.accs.foldl (fun acc a => contribute acc l.lk true 0 0 (chunkIdx 0 a) (l.groups.headD { mode := 0, first := 0, stride := 1, count := 1, list := [] }) l 0
      (dieOf 0) (a.ops.getD 0 0).toInt (a.ops.getD 1 0).toInt) s
  | _, _ => s
/-- Its result waits for room in burrow q5, of which `k` places are taken; and one of two threads has its result. -/
def qColl (bound : Bool) (k : Nat) (s : State) : State :=
  sent [{ rColl with accs := [], dcode := 0xC5, result := [(0, [9])] }] (if bound then bound5 k false s else s)
theorem witness_ContributionsArrive :
    ([1, 2].all (fun n => (findReq (collIs n s1) 7).any (fun r => !r.accs.isEmpty &&
       (findLaunch (collIs n s1) r.w.launch).any (fun l => (l.groups[0]?).isSome) && decide (isQ r.dcode = false) &&
       r.accs.all (fun a => match findChunk (afterColl (collIs n s1)) 0 true 0 0 (chunkIdx 0 a) with | some k => k.complete == decide (n = 1) | none => false))) &&
     [(false, 0, true), (true, 15, true), (true, 16, false)].all (fun (e : Bool × Nat × Bool) => let s := qColl e.1 e.2.1 s1
       (findReq s 7).any (fun r => r.accs.isEmpty && (findWarp s r.w).isSome && (findBlock s r.w.launch r.w.blk r.w.shadow).any (fun b =>
         let q := b.burrow (r.dcode - 0xC0)
         (q.bound == e.1) && (!q.bound || ((q.occ + 1).ble q.cap == e.2.2)) && !accessesLeft s r.w r.id r.tids))) &&
     (findChunk s1 0 true 0 0 0).isNone && decide (engineEntries s1 0 < 8192) && s1.chunks.isEmpty &&
     (let s := afterColl (collIs 1 s1)
      let q : Req := { rColl with accs := [{ acc0 with addr := 0 }, { acc0 with tid := 1, addr := 1 }] }
      q.accs.map (fun a => (findChunk s 0 true 0 0 (chunkIdx 0 a)).any (·.complete)) == [true, false])) = true := by decide +kernel

/-! ## Race detector, program store and edges -/

/-- RACEQ at offset zero of g0, and at an offset beyond its end. -/
theorem witness_RaceQuestion :
    (let u : Use := { d := 1, a := 1, q := false, den := true, bad := !offOk fm none }
     let m : MemOp := { seg := fm.bHi, unit := 32, size := 1, align := 1, use := .load, kind := .load false }
     let u1 : Use := { u with bad := !offOk fm1 none }
     startOk (startsF u { fm with d := 2 } none s1) (fun c ts => !acqHeld s1 c.w ts && ts.all (fun t => (segCause c (c.l.segAt fm.bHi) m (memOff s1 c fm none 32 ts t)).isNone)) &&
     startOk (startsF u1 { fm1 with d := 2 } none (regs [(4, 4096)] s1)) (fun c ts => !acqHeld s1 c.w ts &&
       (firstFail (ts.map (fun t => let o := memOff (regs [(4, 4096)] s1) c fm1 none 32 ts t; (t, o, segCause c (c.l.segAt fm1.bHi) m o)))).isSome)) = true := by
  decide +kernel
/-- EPLD of `n` words from slot `ix` on, of segment 0. -/
def xEp (ix n : Nat) : LExt := { c := 8, x24 := BitVec.ofNat 24 (ix + 64 * (n - 1)), imm32 := 0 }
def opEp (ix n : Nat) : MemOp := { seg := 0, unit := 4, size := 4 * n, align := 4, use := .load, kind := .epld ix n }
def epReq : Req := { req0 (.epld 60 4) with accs := [{ acc0 with size := 16 }] }
theorem witness_ProgramLoad :
    ([(0, 64), (63, 1)].all (fun e => startOk (startsAll false s2 (fun c _ => matSpec fZero (!isSZ fZero.a.toNat) [fZero.a.toNat] [] c)) (fun c ts =>
       let off := memOff s2 c fZero (some (xEp e.1 e.2)) 4 ts (ts.headD 0)
       let ps := segPieces c (c.l.segAt (xEp e.1 e.2).seg) (opEp e.1 e.2) (ts.headD 0) off [] [] false
       decide ((xEp e.1 e.2).xbits 0 6 + (xEp e.1 e.2).xbits 6 6 + 1 ≤ 64) && !acqHeld s2 c.w ts && (segCause c (c.l.segAt (xEp e.1 e.2).seg) (opEp e.1 e.2) off).isNone &&
         ps.all (fun p => (watchOf s2 c (opEp e.1 e.2) p).isNone) &&
         (match translate s2 c (opEp e.1 e.2) ps with | .perform accs => (raceHit s2 c 0 accs).isNone | _ => false))) &&
     (findReq (sent [epReq] s1) 7).any (fun r => decide (r.kind = .epld 60 4) && atHome (sent [epReq] s1) r && !r.acquires && r.accs.all (fun a => !a.l1) &&
       !r.accs.isEmpty && r.accs.all (fun b => b.tid == (r.accs.head?.map (·.tid)).getD 0) &&
       (let ws := loadWords false 64 ((r.accs.map (homeBytes (sent [epReq] s1))).flatten); (List.range 4).all (fun i => epValid (ws.getD i 0))))) = true := by
  decide +kernel
/-- Numbers put into the mapped 2 MiB, each at its virtual address with its length. -/
def fill (xs : List (Nat × Nat × Nat)) (s : State) : State :=
  { s with mem := xs.foldl (fun m e => writeBytes m (0x200000 + e.1) (toBytes e.2.2 e.2.1)) s.mem }
/-- Two edges of four slots of one word: binding 0 of a producer, with `free` free slots, and binding 1 of a consumer, with `avail` filled ones. -/
def edges (free avail closed : Nat) (s : State) : State :=
  fill [(0x8000, 4, 2), (0x8004, 4, 4), (0x8008, 4, free), (0x8010, 4, 3), (0x9000, 4, 2), (0x9004, 4, 6 + closed), (0x900C, 4, avail), (0x9014, 4, 0xFFFFFFFF)]
    (launchIs (fun l => { l with
      segs := l.segs ++ [{ atm := true, wr := true, rd := true, kind := 5, limit := 0x2000, base := 0x8000 }]
      edges := [{ off := 0, seg := 3, role := 1 }, { off := 0x1000, seg := 3, role := 2 }] }) (mapped s))
def uPut : Use := { dr := 1, q := false, bad := false }
def uTake (k : Nat) : Use :=
  { d := 1, s := false, q := false, preds := if k < 12 then [k] else [], bad := (decide (12 ≤ k) && decide (k ≤ 14)) || !(isV f0.d.toNat || f0.d.toNat == opZero) }
/-- The gate of an edge instruction lets it by, with so many free and filled slots. -/
def gateOk (s : State) (l : Launch) (e role n free avail : Nat) : Bool :=
  match edgeGate s l e 0 role n with | .ok h => decide (h.free = free) && decide (h.avail = avail) | _ => false
def slotsOk (s : State) (l : Launch) (e role : Nat) (store : Bool) (ts : List Nat) : Bool :=
  match edgeGate s l e 0 role ts.length with
  | .ok h => (match slotAccs s l h store (if store then h.wpos else h.rpos) (fun _ => toBytes 0 4) ts 0 with | .perform _ => true | _ => false)
  | _ => false
theorem witness_EdgeInstructions :
    (startOk (startsF uPut f0 (some x0) (edges 1 0 0 s2)) (fun c ts => !acqHeld (edges 1 0 0 s2) c.w ts && !c.l.twin && gateOk (edges 1 0 0 s2) c.l 0 1 ts.length 1 0 &&
       decide (ts.length = 1) && slotsOk (edges 1 0 0 s2) c.l 0 1 true ts) &&
     [(1, 0, 15), (1, 0, 11), (0, 1, 0)].all (fun e => startOk (startsF (uTake e.2.2) f0 (some x0) (edges 0 e.1 e.2.1 s2)) (fun c ts =>
       !acqHeld (edges 0 e.1 e.2.1 s2) c.w ts && gateOk (edges 0 e.1 e.2.1 s2) c.l 1 2 ts.length 0 e.1 &&
         slotsOk (edges 0 e.1 e.2.1 s2) c.l 1 2 false (ts.take (min ts.length e.1)))) &&
     startOk (startsF { solo := true } { f0 with d := 0 } none (edges 1 0 0 s1)) (fun c _ => gateOk (edges 1 0 0 s1) c.l 0 1 0 1 0) &&
     startOk (startsF { solo := true } { f0 with d := 0 } none (launchIs (fun l => { l with edgeClosed := [(0, 1)] }) (edges 1 0 0 s1))) (fun c _ =>
       (match edgeGate (edges 1 0 0 s1) c.l 0 0 1 0 with | .misuse k => decide (k = 4) | _ => false))) = true := by decide +kernel
/-- An EDGEW and an EDGER in flight, each with one slot. -/
def edgeAcc (pa n : Nat) : Acc := { acc0 with addr := 0x200000 + pa, va := pa, off := pa, size := n }
def putReq : Req := { req0 (.edgePut 0) with accs := [edgeAcc 0x8000 64, edgeAcc 0x804C 4] }
def takeReq (k : Nat) : Req := { req0 (.edgeTake k) with accs := [edgeAcc 0x9000 64, edgeAcc 0x904C 4] }
theorem witness_EdgeTransfers :
    ([putReq, takeReq 15, takeReq 0].all (fun r => let s := sent [r] (edges 1 1 0 s1)
      decide (findReq s 7 = some r) && atHome s r && decide ((reqHome s r).map (·.2) = some 0) && decide (r.accs.length = 2) &&
      s.reqs.all (fun q => decide (r.id ≤ q.id)) && (r.accs.drop 1).all (fun a => a.space == .phys && !a.priv)) &&
     (findLaunch (edges 1 1 0 s1) 0).any (fun l => l.edgeClosed.isEmpty)) = true := by decide +kernel

/-! ## Code pages and launches -/

def fuCode (f : FWord) : Use := { d := 1, a := 1, q := false, lock := true, solo := true, bad := !isSZ f.a.toNat }
/-- Every slot of the core's store taken. -/
def storeFull (s : State) : State :=
  { s with bricks := s.bricks ++ (List.range 31).map (fun k =>
      { core := 0, lk := 0, num := k + 2, slot := k + 1, st := .landed, words := [], used := 0, waiters := [] }) }
/-- The register of A names brick 1. -/
def xB1 : LExt := { c := 8, x24 := 0, imm32 := 4096 }
theorem witness_CodeInstructions :
    ([none, some .landed, some (.failed 9 0), some (.fetching 0)].all (fun st => let s := second st s2
       startOk (startsF (fuCode fZero) { fZero with d := 2 } (some xB1) s) (fun c _ => decide (xB1.imm32.toNat < codeLimit c.l) &&
         decide ((findBrick s c.w.core c.l.lk 1).map (·.st) = st) && (freeSlot s c.w.core).isSome)) &&
     startOk (startsF (fuCode fZero) { fZero with d := 2 } (some xB1) (storeFull (second none s2))) (fun c _ =>
       (findBrick (storeFull (second none s2)) c.w.core c.l.lk 1).isNone && (freeSlot (storeFull (second none s2)) c.w.core).isNone) &&
     (match argsOf (fun s c => specOf s c { d := 1, a := 1, q := false, lock := true, bad := false } f0 none) { d := 1, a := 1, q := false, lock := true, bad := false } f0 none s1 with
       | some (c, _, ins) => decide (c.w.fpm = 0) && !ins.isEmpty | none => false) &&
     [none, some .landed, some (.failed 9 0), some (.fetching 0)].all (fun st => let s := sregs [(0, 4096)] (second st s1)
       startOk (startsF (fuCode { f0 with a := 0x80 }) { f0 with a := 0x80 } none s) (fun c ts =>
         decide ((readCode s c c.w ts (ts.headD 0) 0x80).toNat / 4096 = 1) && decide ((findBrick s c.w.core c.l.lk 1).map (·.st) = st) &&
         !brickHeld s c.w.core c.l.lk 1)) &&
     startOk (startsF (fuCode fZero) { fZero with d := 2 } none s1) (fun c _ => (findBrick s1 c.w.core c.l.lk 0).any (fun b => decide (b.st = .landed)) &&
       brickHeld s1 c.w.core c.l.lk 0)) = true := by decide +kernel
/-- The code object of the launch at address 0 of the mapped page, its brick 0 fetching; one whose words are all padding fails. -/
def fetching0 (s : State) : State := { mapped s with bricks := s.bricks.map (fun b => { b with st := .fetching 0, words := [] }) }
theorem witness_BrickEvents :
    ((findBrick (fetching0 s1) 0 0 0).any (fun b => decide (b.st = .fetching 0)) &&
     (findLaunch (fetching0 s1) 0).any (fun l => match readVirtBy (some 0) (fetching0 s1) (partOf l.lk) .code l.bound 3 (brickVa l 0) 4096 with
       | .ok _ runs => runs.all (fun r => !isPoisoned (fetching0 s1) r.1 r.2) | _ => false) &&
     (let s : State := { s1 with bricks := [] }
      brickNeeded s 0 0 0 && !fetchBehind s 0 0 0 && (freeSlot s 0).isSome && (findBrick s 0 0 0).isNone) &&
     (let s : State := { s1 with warps := [], bricks := [] }; (findBrick s 0 0 0).isNone && !brickNeeded s 0 0 0 && (fetchLine s).isEmpty) &&
     (let full (lk : Nat) : State := { s1 with bricks := (List.range 32).map (fun k =>
        { core := 0, lk := lk, num := k + 2, slot := k, st := .landed, words := [], used := 0, waiters := [] }) }
      [(full 9, true), ({ full 0 with bricks := (full 0).bricks.map (fun b => { b with st := .fetching 0 }) }, false)].all (fun e =>
        brickNeeded e.1 0 0 0 && !fetchBehind e.1 0 0 0 && (freeSlot e.1 0).isNone && (evictable e.1 0).isSome == e.2)) &&
     (let s : State := { warpIs (fun w => { w with threads := [newThread 0 2 0, newThread 4096 2 1] }) (launchIs (fun l => { l with obj := { l.obj with nbrick := 2 } }) s1) with
        bricks := [], fetchq := [{ core := 0, lk := 0, num := 1, waiters := [] }] }
      brickNeeded s 0 0 0 && fetchBehind s 0 0 0 && (findBrick s 0 0 0).isNone) &&
     (findBrick s1 0 0 0).any (fun b => decide (b.st = .landed))) = true := by decide +kernel
/-- Queue 0 enabled with its slots at 0x1000, and with packets from 0 to the tail. -/
def queue0 (tail : Word) (s : State) : State :=
  modPart (mapped s) 0 (fun p => { p with queues := [(0, { qbase := 0x1000, qtail := tail, en := true, devl := true })] })
def xQ : LExt := { c := 8, x24 := 0, imm32 := 0 }
/-- Launch 5 has ended, and launch 4 was appended before the tail 6. -/
def ended (s : State) : State := { modPart s 0 (fun p => { p with queues := [(1, { qtail := 6, qhead := 6, en := true })] }) with completed := [(2 ^ 28 + 5, 7)] }
def uLwait (f : FWord) : Use := { d := 1, a := 1, q := false, lock := true, solo := true, bad := !isSZ f.a.toNat }
theorem witness_LaunchInstructions :
    (startOk (startsF (launchUse f0 xQ) { f0 with a := 0xC8 } (some xQ) (queue0 15 s2)) (fun c ts =>
       (launchOut { f0 with a := 0xC8 } xQ (queue0 15 s2) c ts).isSome && hasPart (queue0 15 s2) (partOf c.l.lk)) &&
     [(0x10000005, 7), (0x10000004, 0xFF000000)].all (fun e =>
       let s := sregs [(0, e.1)] (ended s1)
       startOk (startsF (uLwait { f0 with a := 0x80 }) { f0 with a := 0x80 } none s) (fun c ts =>
         let n := (readCode s c c.w ts (ts.headD 0) 0x80).toNat
         decide (n ≠ c.l.lid) && ((findPart s 0).queue (n / 2 ^ 28)).en && decide (lwaitWord s 0 n = some e.2))) &&
     [0, 1, 2].all (fun a => match argsOf (fun s c => specOf s c { d := 1, b := 1, q := false, bad := false } { f0 with i := true, a := a } none)
         { d := 1, b := 1, q := false, bad := false } { f0 with i := true, a := a } none (grouped s1) with
       | some (c, _, ins) => decide (c.w.fpm = 0) && !ins.isEmpty | none => false) &&
     (match argsOf (fun s c => specOf s c { d := 1, q := false } f0 none) { d := 1, q := false } f0 none s1 with
       | some (c, _, ins) => decide (c.w.fpm = 0) && !ins.isEmpty | none => false)) = true := by decide +kernel
/-- A packet in slot 0 of queue 0: one block of one thread of an unsigned code object of one brick; and a packet of zeros. -/
def packet (s : State) : State :=
  fill [(0x1000, 8, 0x2000), (0x100A, 1, 1), (0x100E, 1, 4), (0x100F, 1, 4), (0x1010, 4, 1), (0x1014, 4, 1), (0x1018, 4, 1), (0x101C, 2, 1), (0x101E, 2, 1),
      (0x1020, 2, 1), (0x1030, 8, 0x4000),
      (0x2000, 4, 0x4E4B4C4A), (0x2004, 2, 1), (0x2007, 1, 1), (0x2014, 2, 1), (0x2018, 8, 0x80), (0x2020, 8, 0x100), (0x2028, 8, 0x1000), (0x2030, 4, 1),
      (0x208C, 1, 4), (0x208D, 1, 4), (0x2098, 8, 0xFFFFFFFFFFFFFFFF)] (queue0 1 { s with launches := [] })
/-- The packet, or the reason for which it is refused. -/
def accepted (s : State) : Option (Except (Option (Nat × Nat)) Unit) :=
  match readVirt s 0 .load none 2 (slotVa ((findPart s 0).queue 0) 0) 256 with
  | .ok bs _ => some (match checkLaunch s 0 (lkOf 0 (lidFor 0 0)) bs with | .ok _ => .ok () | .error e => .error e)
  | _ => none
/-- A launch of which nothing runs yet, on a partition with cluster 0; and one that is over. -/
def toStart (s : State) : State :=
  { modPart s 0 (fun p => { p with clusters := [0] }) with launches := [{ l0 with nextGang := 0, started := false }], gangs := [], warps := [], blocks := [] }
def allDone (s : State) : State :=
  { mapped s with launches := [{ l0 with complDue := true, pkt := { l0.pkt with compl := 0x1000 } }], gangs := [], warps := [], blocks := [], reqs := [] }
theorem witness_LaunchEvents :
    (hasPart s1 0 && ((findPart (queue0 0 s1) 0).queue 0).devl && !((findPart s1 0).queue 0).en &&
     (let s := modPart s1 0 (fun p => { p with queues := [(0, { qtail := 3, qhead := 3, en := true })] })
      hasPart s 0 && ((findPart s 0).queue 0).en && !((findPart s 0).queue 0).devl && decide (((19 : Word) - ((findPart s 0).queue 0).qhead).toNat = 16) &&
        decide (((20 : Word) - ((findPart s 0).queue 0).qhead).toNat = 17)) &&
     mayAccept (packet s1) 0 0 && (match accepted (packet s1) with | some (.ok _) => true | _ => false) &&
     mayAccept (queue0 1 { s1 with launches := [] }) 0 0 && (match accepted (queue0 1 { s1 with launches := [] }) with | some (.error (some _)) => true | _ => false) &&
     (findLaunch (toStart s1) 0).any (fun l => startsGang (toStart s1) l 0 && (startGang (toStart s1) l 0).isSome) &&
     [mapped s1, s1].all (fun s0 => let s := allDone s0
       (findLaunch s 0).any (fun l => l.complDue && decide (l.pkt.compl ≠ 0) && decide (l.pkt.compl % 16 = 0) && !(l.started && edgesMoving s l) && !launchBusy s l.lk &&
         l.edges.isEmpty)) &&
     (match xlate (allDone (mapped s1)) 0 0x1000 .record none with | .ok _ => true | _ => false) &&
     (let s : State := { allDone s1 with mem := [] }
      hasPart s 0 && (match xlate s 0 0x1000 .record none with | .park _ (some _) => true | _ => false))) = true := by
  decide +kernel

/-! ## Exceptions -/

/-- A handler's frame over frame 0 with the window of a group whose fields D, A, B, C name these codes; the format and B's immediate bit as in `op`. -/
def inHandler (op d a b c : Word) (s : State) : State :=
  warpIs (fun w => { w with frames := { w.cur with win := { ewop := op, ewd := d, ewa := a, ewb := b, ewc := c } } :: w.frames }) s
def winIs (o : Except Nat WinOp) (p : WinOp → Bool) : Bool := match o with | .ok x => p x | .error _ => false
def isVSP (o : WinOp) : Bool := match o with | .v _ => true | .s _ => true | .pw => true | _ => false
def isImm (o : WinOp) : Bool := match o with | .imm => true | _ => false
def isZeroOp (o : WinOp) : Bool := match o with | .special c => c == opZero | _ => false
/-- OWRD of field k and offset j; OWWR of field dk and offset dj. -/
def fOw (k j : Nat) : FWord := { f0 with d := 2, b := BitVec.ofNat 8 (k + 8 * j) }
def fOww (k j : Nat) : FWord := { f0 with i := true, d := BitVec.ofNat 8 (k + 8 * j), a := 0, b := 1 }
def sWin : State := inHandler 0x1600 4 0x80 6 0xC8 s1
def sWinZ : State := inHandler 0x0600 0xC8 0x80 6 0xC8 s1
def uOw (f : FWord) : Use := { b := 1, q := false, bad := !f.i && !(isV f.b.toNat || isUniCode f.b.toNat) }
/-- At a word with an opcode of no instruction. -/
def sNone : State := { s1 with iss := { w := some n0, words := [packF 0 0x1FF f0] } }
/-- Four more warps of the quadrant, each with every even register. -/
def crowded (s : State) : State :=
  { s with warps := s.warps ++ (List.range 4).map (fun i =>
      { newWarp l0 { n0 with w := i + 1 } 0 0 0 0 with threads := [newThread 0 1 0], frames := [{ v := (List.range 64).map (fun k => (2 * k, 1)) }] }) }
theorem witness_TrapInstructions :
    ((startsF { a := 1 } f0 none s1).isSome && (starts sNone (fun _ => entrySpec sNone)).isSome &&
     startOk (startsF {} f0 none s1) (fun c _ => decide (c.w.depth = 0)) &&
     startOk (startsF {} f0 none sWin) (fun c ts => decide (c.w.depth ≠ 0) && (findWarp (hold sWin c ts (schedF f0) (.eret f0.v)) c.w.name).isSome) &&
     [(0, 15), (1, 0), (2, 0), (4, 0)].all (fun e => startOk (startsF { d := 1 } (fOw e.1 e.2) none sWin) (fun c _ =>
       !isQ (atRep sWin c (fOw e.1 e.2)).d.toNat && winIs (winOp c.w.cur.win c.w.depth c.l.pkt.regmax e.1 e.2) (fun o => isVSP o || isImm o))) &&
     theCtx sWin (fun c => c.w.cur.conv.isNone) &&
     [(0, 15), (1, 0), (4, 0)].all (fun e => startOk (startsF (uOw (fOww e.1 e.2)) (fOww e.1 e.2) none sWin) (fun c _ =>
       winIs (winOp c.w.cur.win c.w.depth c.l.pkt.regmax e.1 e.2) isVSP)) &&
     (let fits (s : State) (p : Bool) : Bool := startOk (startsF (uOw (fOww 0 0)) (fOww 0 0) none s) (fun c _ =>
        match winOp c.w.cur.win c.w.depth c.l.pkt.regmax 0 0 with | .ok (.v r) => poolFits s c.w (c.w.depth - 1) [r] == p | _ => false)
      fits sWin true && fits (crowded sWin) false) &&
     startOk (startsF (uOw (fOww 0 0)) (fOww 0 0) none sWinZ) (fun c _ => winIs (winOp c.w.cur.win c.w.depth c.l.pkt.regmax 0 0) isZeroOp) &&
     startOk (startsF (uOw (fOww 2 0)) (fOww 2 0) none sWin) (fun c _ => winIs (winOp c.w.cur.win c.w.depth c.l.pkt.regmax 2 0) isImm) &&
     [(0, 0x0B, false), (2, 0x10, true), (15, 0x00, true)].all (fun e =>
       let f : FWord := { f0 with i := true, d := BitVec.ofNat 8 e.1, a := BitVec.ofNat 8 e.2.1, b := 1 }
       (starts (if e.2.2 then sup s1 else s1) (swrSpec (if e.2.2 then sup s1 else s1) f)).isSome) &&
     (let s := modPart (sup s1) 0 (fun p => { p with fqtail := 1 })
      startOk (startsF { uniUse fZero with sup := true } fZero none s) (fun c _ => decide ((findPart s (partOf c.l.lk)).fqtail ≠ (findPart s (partOf c.l.lk)).fqhead)))) =
    true := by decide +kernel
/-- The warp has its trap vector enabled at 64. -/
def trapOn (s : State) : State := warpIs (fun w => { w with trapvec := 65 }) s
/-- The partition has as many records waiting as it may. -/
def fqFull (s : State) : State :=
  let r : FRec := { code := 1, orig := 0, kind := 0, depth := 0, token := 1, lid := 0, blk := 0, unit := 0, core := 0, warp := 0, pc := 0, addr := 0, mask := 0 }
  modPart s 0 (fun p => { p with backlog := List.replicate 4096 r })
/-- A frame deeper. -/
def deeper (s : State) : State := warpIs (fun w => { w with frames := {} :: w.frames }) s
theorem witness_TakingAnException :
    ([trapOn s1, deeper (trapOn s1)].all (fun s => (findWarp s n0).any (fun w => !w.frames.isEmpty && vecOn w.trapvec && decide (w.depth < 2) && decide (pathOf 7 = 1))) &&
     (findWarp (deeper (deeper (trapOn s1))) n0).any (fun w => decide (w.depth = 2)) && (findWarp s1 n0).any (fun w => !vecOn w.trapvec && !vecOn w.emuvec) &&
     decide (pathOf 0 = 0) && decide (pathOf 0x0E = 2) && fqRoom s1 0 && hasPart s1 (partOf n0.launch) && !fqRoom (fqFull s1) 0 &&
     theCtx s1 (fun c => c.den.isNone && decide (c.w.name = n0) && decide (c.pc = 0) && decide (c.rk = 0)) &&
     (findWarp (deeper s1) n0).any (fun w => match w.frames with | fr :: _ :: _ => fr.conv.isNone | _ => false)) = true := by decide +kernel

/-! ## The supervisor and firmware -/

/-- An F word of the supervisor: D is v2, A is s0. -/
def fSup : FWord := { f0 with d := 2, a := 0x80, b := 0 }
def xI (x24 : Nat) (imm : Word) : LExt := { c := 8, x24 := BitVec.ofNat 24 x24, imm32 := imm }
def uStop : Use := { d := 1, a := 2, q := false, zero := false, sup := true, lock := true, solo := true, bad := !isS fSup.a.toNat }
def uAns : Use := { d := 1, a := 1, q := false, sup := true, lock := true, solo := true, bad := !isS fSup.a.toNat }
/-- Record 5 of a kind waits for an answer, and s0 names it. -/
def token5 (kind : Nat) (s : State) : State :=
  sregs [(0, 5)] (modPart (sup s) 0 (fun p => { p with tokens := [{ token := 5, kind := kind, code := 7, w := n0, mask := 1, pc := 0, addr := 0, ref := 0, core := 0 }] }))
/-- Slot 1 is the partition's, in a state, with handle 9 for it; s0 holds the handle. -/
def slot1 (k : KeySt) (s : State) : State :=
  { sregs [(0, 9)] (modPart (sup s) 0 (fun p => { p with kmask := 2 })) with
    keys := [(0, .loaded), (1, k)], handles := [{ handle := 9, slot := 1, used := false }] }
/-- The partition has cluster 1 besides the cluster of the warp; s0 and s1 as given. -/
def scrubs (a b : Word) (s : State) : State := sregs [(0, a), (1, b)] (modPart (sup (mapped s)) 0 (fun p => { p with clusters := [0, 1] }))
theorem witness_SupervisorInstructions :
    ((startsF uStop fSup (some (xI 0 0)) (sup s2)).isSome &&
     startOk (startsF uAns fSup (some (xI 0 0)) (sup s2)) (fun c ts => (findToken (sup s2) (partOf c.l.lk) (readCode (sup s2) c c.w ts (ts.headD 0) 0x80).toNat).isNone) &&
     [(0, 0), (5, 7), (1, 0), (0, 1)].all (fun e => let s := token5 e.1 s2
       startOk (startsF uAns fSup (some (xI 0 (BitVec.ofNat 32 e.2))) s) (fun c ts =>
         (findToken s (partOf c.l.lk) (readCode s c c.w ts (ts.headD 0) 0x80).toNat).any (fun k => decide (k.kind = e.1)) &&
           (findWarp (resumeRetry (dropToken s 0 5) 0 ((findToken s 0 5).getD { token := 5, kind := 0, code := 7, w := n0, mask := 1, pc := 0, addr := 0, ref := 0, core := 0 }))
             c.w.name).isSome)) && deliverable 7 && !deliverable 1 &&
     !fwKnown 0 && fwKnown 0x30 && (startsF { uStop with a := 4, solo := false } fSup (some (xI 0 0x30)) (sup s2)).isSome &&
     [KeySt.empty, .loaded].all (fun k => let s := slot1 k s2
       startOk (startsF (kslotUse fSup) fSup (some (xI 1 0)) s) (fun c ts => (findPart s (partOf c.l.lk)).kmask.getLsbD 1 && decide (keyState s 1 = k) &&
         findHandle s (readCode s c c.w (ts.take 1) (ts.headD 0) 0x80) 1 && !findHandle s 0 1 && !slotBound s (partOf c.l.lk) 1)) &&
     startOk (startsF (kslotUse fSup) fSup (some (xI 2 0)) (slot1 .loaded s2)) (fun c _ => !(findPart (slot1 .loaded s2) (partOf c.l.lk)).kmask.getLsbD 2) &&
     slotBound (launchIs (fun l => { l with key := 1, pkt := { l.pkt with flags := 16 } }) (slot1 .loaded s2)) 0 1 &&
     (let s := scrubs 4 4 s2
      startOk (startsF (scrubUse fSup) fSup (some (xI 0 0)) s) (fun c ts =>
        decide ((readGroup s c c.w (ts.take 1) (ts.headD 0) 0x80 2).map (·.toNat) = [4, 4]) && [4, 5, 6, 7].all (fun k => (coresOf (findPart s (partOf c.l.lk))).contains k) &&
          s.blocks.all (fun b => decide (b.core = 0)) && decide (openJobs s < 16))) &&
     [(0, 0), (0, 961)].all (fun e => startOk (startsF (scrubUse fSup) fSup (some (xI 0 0)) (scrubs e.1 e.2 s2)) (fun c ts =>
       decide ((readGroup (scrubs e.1 e.2 s2) c c.w (ts.take 1) (ts.headD 0) 0x80 2).getD 1 0 = e.2))) &&
     startOk (startsF (scrubUse fSup) fSup (some (xI 0 2)) (scrubs 0x1FE000 0 s2)) (fun c _ =>
       (match scrubFrames (scrubs 0x1FE000 0 s2) (partOf c.l.lk) 2 0x1FE000 with | .ok fs => decide (fs.length = 2) | .error _ => false))) = true := by decide +kernel
/-- A call of management firmware in flight. -/
def call (fn : Nat) (args : List Word) (s : State) : State := sent [{ req0 (.fwcall fn args) with accs := [] }] s
def called (fn : Nat) (args : List Word) (s : State) : Bool := (callOf (call fn args s) 7 fn).isSome
/-- The launch is protected. -/
def guarded (s : State) : State := launchIs (fun l => { l with pkt := { l.pkt with flags := 16 } }) s
theorem witness_FirmwareEvents :
    (called 1 [] s1 && called 0x30 [3] s1 && called 0x20 [0] s1 && (s1.ports.find? (fun y => decide (y.id = 0))).isSome &&
     (findWarp (call 1 [] s1) n0).isSome &&
     [([0x200000, 0, 1, 1], true), ([0, 1, 1, 1], false)].all (fun e =>
       let s := pools s1
       called 2 e.1 s && (match poolArgs s e.1 with | some fs => !fs.isEmpty && fs.all (fun x => ownsFrame s 0 x && !frameHeld s x) == e.2 | none => false)) &&
     (match poolArgs (pools s1) [0x40000000, 0, 1, 4] with | some fs => called 3 [0x40000000, 0, 1, 4] (pools s1) && fs.all (fun e => (findPart (pools s1) 0).pool.contains e) | none => false) &&
     (poolArgs (pools s1) [1, 0, 1, 1]).isNone && called 2 [1, 0, 1, 1] s1 && called 3 [1, 0, 1, 1] s1 &&
     called 0x10 [0, 0, 255, 0] s1 && !(findPart s1 0).kmask.getLsbD 255 &&
     (let s := modPart (mapped s1) 0 (fun p => { p with kmask := 2 })
      called 0x10 [0, 0, 1, 0] s && (findPart s 0).kmask.getLsbD 1 && (match xlate s 0 0 .load none with | .ok _ => true | _ => false)) &&
     (let s := guarded (mapped s1)
      called 0x11 [0, 0, 0, 0] s && (findLaunch s (lkOf 0 0)).any (fun l => l.protected_ && s.gangs.any (fun g => decide (g.launch = l.lk) && g.st != .finished && g.st != .killed) &&
        (match readVirt s 0 .load none (pagesFor 64) 0 64 with
         | .ok nonce _ => (match writeRun s 0 0 (quoteBytes s l nonce) with | .done _ => true | _ => false)
         | _ => false))) &&
     called 0x11 [0, 0, 9, 0] s1 && (findLaunch s1 (lkOf 0 9)).isNone &&
     fwRuns s1 && decide (({ s1 with keys := [(3, .zeroising)] } : State).keys = [(3, .zeroising)]) && decide (keyState { s1 with keys := [(3, .zeroising)] } 3 = .zeroising) &&
     [0, 1].all (fun k =>
       let j : ScrubJob := { id := 3, part := 0, kind := k, units := [4, 5], done := 1, resumed := false, reqId := 7 }
       let s : State := { s1 with scrub := [j] }
       decide (jobsOf s 0 = [j]) && (j.units.drop j.done).all (fun u => !unitWaits s 1 u)) &&
     decide (({ s1 with fw := { s1.fw with phase := .loaded 2 } } : State).fw.phase = .loaded 2)) = true := by decide +kernel

/-! ## Waits -/

/-- The thread's state and counter. -/
def threadIs (f : Thread → Thread) (s : State) : State := warpIs (fun w => { w with threads := w.threads.map f }) s
/-- Ejected, with its den slot as given. -/
def slotIs (running recalled : Bool) (cycles : Nat) (s : State) : State :=
  threadIs (fun t => { t with st := .ejected, den := some { party := 1, joinPt := 0, s := [], flags := [], running := running, recalled := recalled, cycles := cycles, core := 0 } }) s
def swapIs (k : SwapSt) (s : State) : State := warpIs (fun w => { w with swap := k }) s
/-- An MRD in the matrix queue. -/
def swapEntry : MEntry :=
  { id := 3, op := 3, tile := 0, a := .zero, b := .zero, fmtw := 0, sa := [], sb := [], z := false, m := 1, n := 1, ks := 1, step := 0, dreg := 2, depth := 0, prog := []
    k := [], eregs := [], raw := [0], pc := 0, len := 1, sig := 15 }
theorem witness_WaitsEnd :
    ((findLaunch s1 n0.launch).isSome && (findLaunch { s1 with launches := [] } n0.launch).isNone && (findWarp s1 n0).isSome &&
     [(slotIs false false 0 s1, false, false), (slotIs true true 0x100000 s1, true, true), (slotIs true false 0 s1, false, false)].all (fun e =>
       (findWarp e.1 n0).any (fun v => v.halt.isNone && (v.thread 0).any (fun y => y.den.any (fun d => (d.recalled == e.2.1) && (v.ejto.toNat.ble d.cycles == e.2.2))))) &&
     [(slotIs true false 0 s1, true), (slotIs false false 0 s1, false)].all (fun e =>
       (findWarp e.1 n0).any (fun v => (v.thread 0).any (fun y => y.den.any (fun d => (d.running && y.st == .ejected && decide (y.pc = d.joinPt)) == e.2))) && e.1.reqs.isEmpty) &&
     (denThread s1 n0 0).isNone &&
     (let s := threadIs (fun t => { t with st := .burrow true 5, cnt := 0x1000001 }) s1
      (findWarp s n0).any (fun v => !(lateThreads v 0).isEmpty) && (findBlock s 0 0 false).isSome && fqRoom s (partOf n0.launch)) &&
     (findWarp s1 n0).any (fun v => (lateThreads v 0).isEmpty) &&
     [(swapIs .swappingOut s1, true), (swapIs .resident s1, false), (warpIs (fun w => { w with mq := [swapEntry] }) (swapIs .swappingOut s1), false)].all (fun e =>
       (findWarp e.1 n0).any (fun v => (v.swap == .swappingOut && v.mq.all (fun y => y.op != 3 && y.op != 6)) == e.2)) &&
     [(s1, true), (crowded s1, false)].all (fun e =>
       let q : Quad := { core := 0, quad := 0, swapOrder := [n0] }
       let s := { swapIs .swapped (regs [(4, 1)] e.1) with quads := [q] }
       decide ((findQuad s 0 0).swapOrder = [n0]) &&
         (findWarp s n0).any (fun v => [0, 1].all (fun odd => decide (bankUsed s 0 0 odd + heldInBank s v odd ≤ 256)) == e.2)) &&
     (let s := { threadIs (fun t => { t with st := .retry 3 }) (regs [(4, 1)] s1) with quads := [{ core := 0, quad := 0, poolIdle := 128 }] }
      (swapVictim s 0 0).any (fun v => (findWarp s v.name).isSome && gangRuns s v.name) && decide ((findQuad s 0 0).poolIdle ≥ 128) &&
        s.warps.any (fun w => decide (w.core = 0) && decide (w.quad = 0) && poolStalled w)) &&
     decide ((findQuad s1 0 0).poolIdle < 128)) = true := by
  decide +kernel

/-! ## Contexts and checkpoints -/

/-- A second launch of two blocks, its first gang running with a warp on core 1. -/
def n1 : WName := { launch := 1, blk := 0, shadow := false, w := 0 }
def l1 : Launch := { l0 with lk := 1, lid := 1, pkt := { l0.pkt with gridx := 2, flags := 8 } }
def g1 (st : GangSt) : Gang := { freshGang { State.reset with gangs := [] } l1 0 0 false with st := st }
def w1 : Warp := { newWarp l1 n1 1 0 0 0 with threads := [newThread 0 1 0], frames := [{ v := [(5, 7)] }] }
def two (st : GangSt) (s : State) : State :=
  { modPart (sup (mapped s)) 0 (fun p => { p with clusters := [0] }) with
    launches := s.launches ++ [l1], gangs := s.gangs ++ [g1 st], warps := s.warps ++ [w1], blocks := s.blocks ++ [newBlock l1 0 0 1 1 false] }
/-- Its threads in a state; the launches changed. -/
def w1Is (f : Warp → Warp) (s : State) : State := modWarp s n1 f
def l1Is (f : Launch → Launch) (s : State) : State := modLaunch s 1 f
/-- No cluster for a launch to start on. -/
def noRoom (s : State) : State := modPart s 0 (fun p => { p with clusters := [] })
/-- The second gang saved, in an image that a change is made to. -/
def saved (f : Image → Image) (s : State) : State :=
  match saveToArea (two (.stopping 0) s) l1 (g1 (.stopping 0)) 0 with
  | some t => { t with images := t.images.map f }
  | none => s
/-- The gang of launch 1. -/
def gang1 (s : State) (p : Launch → Gang → Bool) : Bool := match launchGang s 1 0 with | some (l, g) => decide (g.launch = 1) && p l g | none => false
def xCtx : LExt := { c := 0xC8, x24 := 0x100000, imm32 := 0 }
/-- The header of an image of the second gang without sections, with its checksum, at offset 0 of the mapped page. -/
def withHeader (s : State) : State :=
  fill [(0, 4, 0x47435846), (4, 2, 1), (8, 4, 1), (0x30, 8, 17275225457653420477), (0x3C, 4, 1)] s
/-- A cut of launch 1: due, or taken, and committed. -/
def cut1 (due committed : Bool) : Cut :=
  { seq := 4, part := 0, lks := [1], due := due, images := [], gangs := [], launches := [l1], chunks := [], mem := [], poison := [], troot := 0, saved := [0]
    copies := [], reqs := [], committed := committed, taker := none }
def cuts (due committed : Bool) (s : State) : State := { s with cuts := [cut1 due committed] }
theorem witness_ContextInstructions :
    (gang1 (two .running s1) (fun l g => decide (g.st = .running) && !cutDue (two .running s1) 1 && (saveToArea (two .running s1) l g 0).isSome && !(gangWarps (two .running s1) l g).isEmpty) &&
     gang1 (two (.stopping 0) s1) (fun l g => decide (g.st = .stopping 0) && !cutDue (two (.stopping 0) s1) 1 && (saveToArea (two (.stopping 0) s1) l g 0).isSome) &&
     (let s := cuts true false (two (.stopping 1) s1)
      gang1 s (fun l g => decide (g.st = .stopping 1) && cutDue s 1 && (saveToArea s l g 0).isSome)) &&
     (let s := noRoom (w1Is (fun w => { w with threads := [{ newThread 0 1 0 with st := .barrier 3 0 0 }] }) (two .running s1))
      gang1 s (fun l g => decide (g.st = .running) && !cutDue s 1 && cannotStart s l && allWait s l g (fun w y => atWideBarrier s w.name y) && (saveToArea s l g 1).isSome)) &&
     (let e : List EdgeBind := [{ off := 0, seg := 1, role := 1 }]
      let s := noRoom (w1Is (fun w => { w with threads := [{ newThread 0 1 0 with st := .retry 8 }] }) (l1Is (fun l => { l with edges := e }) (launchIs (fun l =>
        { l with edges := e, pkt := { l.pkt with gridx := 2 } }) (two .running s1))))
      gang1 s (fun l g => decide (g.st = .running) && !cutDue s 1 && s.launches.any (fun m => joined l m && cannotStart s m) && allWait s l g (fun _ y => atEdge y) && (saveToArea s l g 2).isSome)) &&
     (let s := modPart (saved id s1) 0 (fun p => { p with fabric := [(3, 0)] })
      gang1 s (fun l g => (gangImage s g).any (fun im => movable s g im && !spaceHeld s l 0 && !edgeHeld s l im 0 && (imageRefused s l im).isNone && (restoreImage s l im 0).isSome && !im.warps.isEmpty && !im.blocks.isEmpty) &&
        (findPart s l.part).clusters.contains 0 && !(findPart s l.part).fabric.isEmpty)) &&
     (let s := { saved (fun im => { im with live := 2 ^ 11 }) s1 with feat := 0 }
      gang1 s (fun l g => (gangImage s g).any (fun im => movable s g im && !spaceHeld s l 0 && !edgeHeld s l im 0 && (imageRefused s l im).isSome))) &&
     (let s := sregs [(0, 1), (1, 0)] (two .running s2)
      startOk (startsF (ctxUse fSup xCtx true) fSup (some xCtx) s) (fun c ts =>
        let g := c.l.segAt xCtx.seg
        let off := ctxOff s c (atRep s c fSup) xCtx ts
        let pair := readGroup s c c.w (ts.take 1) (ts.headD 0) 0x80 2
        decide (g.kind = 0) && g.wr && decide (off % 4096 = 0) && (launchGang s (lkOf (partOf c.l.lk) (pair.getD 0 0).toNat) (pair.getD 1 0).toNat).any (fun e =>
          decide (e.2.st = .running) && !cutDue s 1 &&
            (match stopGang (finish (modRuns s e.1.lk e.2.rank0 (fun y => { y with st := .running })) c ts (schedF fSup) (told (ctxUse fSup xCtx true) fSup s 0 c ts)) e.1 e.2 with
             | some s3 => let r := saveGang s3 e.1 e.2 4
               let m : MemOp := { seg := xCtx.seg, unit := 1, size := r.2.size, align := 4096, use := .store, kind := .store }
               (segCause c g m off).isNone &&
                 (match reachImage s c m ts off (imageBytes r.1 e.1 r.2 (repliesDue s3 (inGang e.1 e.2))) with | .go _ => true | .not _ => false)
             | none => false)))) &&
     (let s := sregs [(0, 9), (1, 0)] (two .running s2)
      startOk (startsF (ctxUse fSup xCtx true) fSup (some xCtx) s) (fun c ts =>
        let pair := readGroup s c c.w (ts.take 1) (ts.headD 0) 0x80 2
        (launchGang s (lkOf (partOf c.l.lk) (pair.getD 0 0).toNat) (pair.getD 1 0).toNat).isNone)) &&
     (let s := withHeader (sregs [(0, 0)] (saved id s2))
      startOk (startsF (ctxUse fSup xCtx false) fSup (some xCtx) s) (fun c ts =>
        match imageRead fSup xCtx s c ts with
        | some (accs, bs) => (imageReason s (partOf c.l.lk) bs).isNone &&
            (match ctxldImage s (partOf c.l.lk) (ctxRead s c accs) with
             | some (m, im) => !cutDue s m.lk && (imageRefused (touchedBy s c false accs) m im).isNone &&
                 decide ((readCode s c c.w (ts.take 1) (ts.headD 0) 0x80).toNat = 0) && decide ((findPart s m.part).clusters.filter (· == 0) = [0]) &&
                 (restoreImage (finish (touchedBy s c false accs) c ts (schedF fSup) (told (ctxUse fSup xCtx false) fSup s (BitVec.ofNat 32 0) c ts)) m im 0).isSome
             | none => false)
        | none => false))) = true := by decide +kernel
/-- A twin whose two runs wait at a compare point, the second at another where `apart`. -/
def twins (apart : Bool) (s : State) : State :=
  let w : Warp := { w1 with compare := 1, threads := [{ newThread 0 1 0 with st := .retry 2 }] }
  let s1 := l1Is (fun l => { l with pkt := { l.pkt with flags := 10 } }) (two .running s)
  { s1 with
    warps := s.warps ++ [w, { w with name := { n1 with shadow := true }, core := 4, threads := w.threads.map (fun t => { t with pc := if apart then 8 else 0 }) }]
    gangs := s1.gangs ++ [{ g1 .running with shadow := true, cluster := 1 }] }
def marked0 (s : State) : State := launchIs (fun l => { l with pkt := { l.pkt with flags := 8 } }) s
/-- The warp is a twin's run, the primary's or the shadow's, that has matched, with a result of the primary or without. -/
def twinRun (shadow : Bool) (cmp : Nat) (res : List (Nat × List (Nat × List Word))) (s : State) : State :=
  let m := { n0 with shadow := shadow }
  let s1 := launchIs (fun l => { l with pkt := { l.pkt with flags := 2 } }) (warpIs (fun w => { w with name := m, compare := cmp, twinRes := res }) s)
  { s1 with gangs := s1.gangs.map (fun g => { g with shadow := shadow }), blocks := s1.blocks.map (fun b => { b with shadow := shadow }), iss := { s1.iss with w := some m } }
def uRoll : Use := { d := 1, a := 2, q := false, sup := true, lock := true, bad := !isS fSup.a.toNat }
theorem witness_Checkpoints :
    ((startsF ckptUse f0 none s1).isSome &&
     [(false, 0, [], true), (false, 2, [], false), (true, 2, [], false), (true, 2, [(0, [(0, [5])])], false)].all (fun (e : Bool × Nat × List (Nat × List (Nat × List Word)) × Bool) =>
       startOk (startsF ckptUse f0 none (twinRun e.1 e.2.1 e.2.2.1 s1)) (fun c _ => (mustCompare c == e.2.2.2) && ((c.l.twin && c.w.name.shadow) == e.1) &&
         (aget c.w.twinRes c.w.once == if e.2.2.1.isEmpty then none else some [(0, [5])]))) &&
     startOk (startsF ckptUse f0 none s1) (fun c _ => !mustCompare c && !c.l.twin && (ckptRefusal s1 (cutGroup s1 c.l.lk)).isSome) &&
     startOk (startsF ckptUse f0 none (marked0 s1)) (fun c _ => !mustCompare c && !c.l.twin && (ckptRefusal (marked0 s1) (cutGroup (marked0 s1) c.l.lk)).isNone) &&
     [(false, true), (true, true), (false, false)].all (fun e => decide ((cutsOf (cuts e.1 e.2 (two .running s1)) [1]) = [cut1 e.1 e.2])) &&
     (findLaunch s1 0).any (fun l => !l.flag 3) &&
     (findLaunch (two .running s1) 1).any (fun l => l.isRunning && (ckptRefusal (two .running s1) (cutGroup (two .running s1) 1)).isNone) &&
     (findLaunch s1 0).any (fun _ => (s1.cuts.find? (fun k => k.due && k.lks.contains 0)).isNone && (ckptRefusal s1 (cutGroup s1 0)).isSome) &&
     (let s := cuts true false (two (.stopping 1) s1)
      decide ((s.cuts.find? (fun k => k.due && k.lks.contains 1)) = some (cut1 true false)) && (stopGroup s [1]).2 && (stopGroup s [1]).1.reqs.isEmpty &&
        (stopGroup s [1]).1.cuts.contains (cut1 true false)) &&
     (let s := sent [{ req0 .store with w := n1 }] (cuts true false (two (.stopping 1) s1))
      !(stopGroup s [1]).2 || (stopGroup s [1]).1.reqs.any (fun r => decide (r.w.launch = 1) && !cutKeeps (stopGroup s [1]).1 r)) &&
     [(cuts false true (two .running s2), some (cut1 false true)), (cuts true false (two .running s2), some (cut1 true false)), (two .running s2, none)].all (fun e =>
       let s := sregs [(0, 1), (1, 4)] e.1
       startOk (startsF uRoll fSup (some x0) s) (fun c ts =>
         let pair := readGroup s c c.w (ts.take 1) (ts.headD 0) 0x80 2
         decide ((cutsOf s [lkOf (partOf c.l.lk) (pair.getD 0 0).toNat]).find? (fun k => decide (k.seq = (pair.getD 1 0).toNat)) = e.2) && (findLaunch s 1).isSome)) &&
     (let s := sregs [(0, 9), (1, 4)] (sup s2)
      startOk (startsF uRoll fSup (some x0) s) (fun _ _ => s.cuts.isEmpty && (findLaunch s (lkOf 0 9)).isNone)) &&
     !anyMoving (cuts false true (two .running s2)) 0 (writtenSince (cuts false true (two .running s2)) (cut1 false true)) &&
     (let k := cut1 false true
      let s : State := { cuts false true (two .running s2) with granules := [{ part := 0, num := 0, cow := false }], tier := [tierReq true] }
      anyMoving s 0 (writtenSince s k)) &&
     (let s := mapped s1
      let k : Cut := { cut1 false true with mem := s.mem, troot := 0x10000 }
      memWf k.mem && ((walkFrom k.mem 0 k.troot 5).bind (fun l => leafBytes l 0)).isSome && ((walkFrom s.mem 0 (findPart s k.part).troot 5).bind (fun l => leafBytes l 0)).isSome) &&
     [(false, false), (false, true), (true, false)].all (fun e =>
       let s0 := twins e.1 s1
       let kept : CheckStore := { addr := 0x200000, va := 0, tid := 0, tracked := false, marked := false, order := 0, scope := 0, bytes := [1], party := .warp n1, ivl := 1, rels := [] }
       let s : State := if e.2 then { w1Is (fun w => { w with checked := [kept] }) s0 with granules := [{ part := 0, num := 0, cow := true }] } else s0
       match findWarp s { n1 with shadow := false }, findWarp s { n1 with shadow := true } with
       | some a, some b => decide (a.compare = 1) && decide (b.compare = 1) && gangRuns s a.name && decide (a.sig = b.sig) && (decide (comparePoint a = comparePoint b) == !e.1) &&
           (checkedHeld s a == e.2) && (findLaunch s 1).isSome
       | _, _ => false) &&
     (findWarp s1 { n0 with shadow := true }).isNone) = true := by decide +kernel

/-! ## Debug -/

/-- The group at the warp's place is a NOP; comparator 3 names its address. -/
def nopHere (s : State) : State :=
  modPart { s with bricks := s.bricks.map (fun b => { b with words := [packF 0 0 f0] }) } 0 (fun p => { p with brk := [(3, { lid := 0, off := 0, val := true })] })
def traced (types : Nat) (s : State) : State := modPart s 0 (fun p => { p with trace := { p.trace with en := true, types := types } })
theorem witness_DebugInstructions :
    (startOk (startsF {} f0 none s1) (fun c _ => c.w.threads.all (fun y => y.den.isNone)) &&
     startOk (startsF { a := 1 } f0 none s1) (fun c _ => !(findPart s1 (partOf c.l.lk)).trace.en) &&
     startOk (startsF { a := 1 } f0 none (traced 2 s1)) (fun c _ => !bitOf (findPart (traced 2 s1) (partOf c.l.lk)).trace.types 0) &&
     startOk (startsF { a := 1 } f0 none (traced 1 s1)) (fun c _ => bitOf (findPart (traced 1 s1) (partOf c.l.lk)).trace.types 0 && !isQ (atRep (traced 1 s1) c f0).a.toNat) &&
     (let s := nopHere s1
      (findWarp s n0).any (fun v => decide (brkAt s n0 0 = some 3) && gangRuns s n0 && v.halt.isNone &&
        (let s3 : State := { s with iss := { w := some n0, pc := 0, words := groupWordsOf s v 0 } }
         theCtx s3 (fun c => !(brkTids s3 c).isEmpty)))) &&
     (let s := w1Is (fun w => { w with pend := [{ cause := 0x70, tids := [0], faddr := 0 }] }) (two (.stopping 2) s1)
      gang1 s (fun l g => decide (g.st = .stopping 2) && s.gangs.contains g && !cutDue s 1 && decide ((findPart s l.part).backlog.length + (hitsOf (gangWarps s l g)).length ≤ 4096) &&
        decide ((hitsOf (gangWarps s l g)).length = 1) && (saveToArea s l g 3).isSome)) &&
     [(true, 0), (false, 1023), (false, 1024)].all (fun e => let s := warpIs (fun w => { w with stepArm := some e.2, stepped := e.1 }) s1
       (findWarp s n0).any (fun v => v.halt.isNone && fqRoom s (partOf n0.launch) && decide (v.stepArm = some e.2) && decide (v.stepped = e.1))) && hasPart s1 0) = true := by
  decide +kernel

/-! ## Engines -/

/-- A matrix entry: operands from registers, FP8 formats of code 0 and K-step `step`. -/
def entry (op step : Nat) : MEntry :=
  { id := 3, op := op, tile := 0, a := .regs (List.replicate 256 0), b := .regs (List.replicate 256 0), fmtw := 0, sa := [], sb := [], z := false, m := 1, n := 1, ks := 1
    step := step, dreg := 2, depth := 0, prog := [], k := [], eregs := [], raw := [0], pc := 0, len := 1, sig := 15 }
def queuedEntry (e : MEntry) (s : State) : State := warpIs (fun w => { w with tiles := [zeroTile], mq := [e] }) s
/-- A copy entry of `rb` bytes from 0x4000 to 0x8000 of g1, on a channel. -/
def copyOf (ch rb : Nat) : CopyEnt :=
  { id := 3, core := 0, ch := ch, w := n0, tid := 0, depth := 0, ssrc := 1, sdst := 1, soff := 0x4000, doff := 0x8000, rb := rb, rows := 1, sp := 0, dp := 0, ptr0 := none
    done := 0, sig := 15, pc := 0, token := none, party := .warp n0, ivl := 1, clk := [] }
def copying (ch rb : Nat) (s : State) : State := { mapped s with copies := [copyOf ch rb] }
/-- A request that leaves its die, `n` replays made. -/
def remote (k : ReqKind) (n : Nat) (done : Bool) : Req := { req0 k with seq := some 4, replays := n, done := done, result := if done then [(0, [1])] else [] }
theorem witness_EngineSteps :
    ([(1, 0), (2, 0), (3, 0), (4, 0), (4, 3), (6, 0), (6, 15)].all (fun p => let s := queuedEntry (entry p.1 p.2) s1
       match engineHead s 0 0 with
       | some (w, e) => (findWarp s w.name == some w) && decide (e = entry p.1 p.2) && decide (e.tile < w.tiles.length) && scratchQuiet s w e.id &&
           (findBlock s w.name.launch w.name.blk w.name.shadow).any (fun b =>
             !slabPoison b e.a (mfmtBits (fwAF e.fmtw)) (fwAT e.fmtw) 0 0 e.step && !slabPoison b e.b (mfmtBits (fwBF e.fmtw)) (fwBT e.fmtw) 0 0 e.step &&
             !(e.prog.foldl (epWord e [] e.step) { eregs := e.eregs, blk := b }).poison)
       | none => false) &&
     [(16, 64), (16, 68)].all (fun p => let s := copying p.1 p.2 s1
       (s.copies.find? (fun y => decide (y.id = 3))).any (fun e => copyHead s e && gangRuns s e.w && (findBlock s 0 0 false).isSome &&
         (findLaunch s 0).any (fun l => let ends := beatEnds s l 0 e
           decide (ends.length = 16) && beatClear s e (beatFar e ends) && ends.all (fun w => match w.2 with | (.ok .phys _ _ _, .ok .phys _ _ _) => true | _ => false)))) &&
     (let s := { mapped s1 with copies := [{ copyOf 0 64 with sdst := 0, doff := 0 }] }
      (findLaunch s 0).any (fun l => s.copies.all (fun e => copyHead s e && (beatEnds s l 0 e).all (fun w => match w.2 with | (.ok _ _ _ _, .ok (.scratch _ _ _) _ _ _) => true | _ => false)))) &&
     [0, 16].all (fun ch => let s := { s1 with copies := [copyOf ch 64] }
       s.copies.all (fun e => copyHead s e && gangRuns s e.w && (findLaunch s 0).any (fun l => (beatEnds s l 0 e).any (fun w => match w.2 with | (.stop _ _, _) => true | _ => false)))) &&
     (let far : Req := { req0 (.arrive 3 0 0) with accs := [], src := 96 }
      let s := sent [far] s1
      let down : State := { s with dies := s.dies.map (fun d => if d.id = 1 then { d with relock := some 9 } else d) }
      [(sent [{ far with src := 0 }] s1, true), (s, true), (down, false)].all (fun e => (findReq e.1 7).any (fun r => decide (r.kind = .arrive 3 0 0) &&
        (findLaunch e.1 r.w.launch).any (fun l =>
          (routeOf e.1 (r.src / 96) (barDie l 3 0)).all (fun d => decide (r.src / 96 = barDie l 3 0) || (findDie e.1 d).relock.isNone) == e.2)))) &&
     (let s := sent [remote .store 0 false] s1
      (findReq s 7).any (fun r => r.accesses && mayArrive s r && mayPerform s r && (retainedFor s r).isNone && !consumes s r && (arriveOnce s r).isSome &&
        (retainedFor { s with retained := [{ src := r.src, slice := reqSlice r, seq := 4, result := [] }] } r).isSome)) &&
     (let s := sent [{ remote .store 0 false with lost := true }] s1; (findReq s 7).any (fun r => r.accesses && !r.done && !mayArrive s r)) &&
     (let s := sent [{ remote .store 0 false with order := 2 }, { req0 .store with id := 6 }] s1
      (findReq s 7).any (fun r => !r.done && !mayPerform s r)) &&
     [7, 8].all (fun n => let s := sent [remote (.load false) n true] s1
       (findReq s 7).any (fun r => r.done && decide (r.replays = n) && (findWarp s r.w).any (fun w => w.halt.isNone) && fqRoom s (partOf r.w.launch))) &&
     [ReqKind.store, .load true, .atom 0 7 15, .edgeTake 15, .tstat].all (fun k => (findReq (sent [remote k 0 true] s1) 7).any (fun r => r.done && (findWarp s1 r.w).isSome))) =
    true := by decide +kernel

/-! ## Kills, records, clocks, boot and the step -/

def rec0 : FRec := { code := 1, orig := 0, kind := 0, depth := 0, token := 1, lid := 0, blk := 0, unit := 0, core := 0, warp := 0, pc := 0, addr := 0, mask := 0 }
/-- The fault ring at 0x4000 of the mapped page, with records waiting. -/
def ring (rs : List FRec) (tail : Word) (s : State) : State :=
  modPart (mapped s) 0 (fun p => { p with fqbase := 0x4000, fqtail := tail, backlog := rs })
def compl0 : ComplRec := { lk := 0, launch := l0, addr := 0x5000, bytes := List.replicate 16 1, vec := none }
theorem witness_KillsAndRecords :
    ([0, 1].all (fun fl => [0, 2, 3].all (fun k => let s := l1Is (fun l => { l with pkt := { l.pkt with flags := fl } }) { two .running s1 with
        gangs := s1.gangs ++ [{ g1 .running with relaunches := k }] }
       let hit := w1Is (fun w => { w with pend := [{ cause := 0x80, tids := [0] }] }) s
       [(s, false), (hit, true)].all (fun e => gang1 e.1 (fun l g => killing 0x80 && !killing 0x0E && decide (g.st = .running) && decide (g.relaunches = k) &&
         (findWarp e.1 { launch := 1, blk := 0, shadow := false, w := 0 }).isSome && ((gangWarps e.1 l g).any (fun v => v.pend.any CauseRec.kills) == e.2) &&
         decide (findGang e.1 1 0 false = some g) && (!ofGang l.lk g.rank0 (max 1 l.pkt.gang) { launch := 1, blk := 1, shadow := false, w := 0 }))))) &&
     [(0, false), (1, true)].all (fun e => let s := launchIs (fun l => { l with nextGang := e.1 }) { toStart s1 with gangs := if e.2 then s1.gangs.map (fun g => { g with st := .killed }) else [] }
       (findLaunch s 0).any (fun l => (nextGangOf s l).any (fun r => decide (r < l.nextGang * l.pkt.gang) == e.2) && (startGang s l 0).isSome)) &&
     hasPart s1 0 && (findPart s1 0).backlog.isEmpty && (findPart s1 0).heldCompl.isEmpty && !(findPart s1 0).fqretry &&
     (findPart (modPart s1 0 (fun p => { p with fqretry := true })) 0).fqretry &&
     (let q := findPart (modPart (ring [rec0] 0 s1) 0 (fun p => { p with fqerr := true })) 0; !q.backlog.isEmpty && q.fqerr && !q.fqretry) &&
     [(0, true), (15, true), (16, false)].all (fun e => let q := findPart (ring [rec0] (BitVec.ofNat 32 e.1) s1) 0
       decide (q.backlog = [rec0]) && !q.fqerr && (decide ((q.fqtail - q.fqhead).toNat < 2 ^ q.fqsize) == e.2) &&
         (match xlate (ring [rec0] (BitVec.ofNat 32 e.1) s1) 0 (q.fqbase + 64 * (q.fqtail.toNat % 2 ^ q.fqsize)) .record none with | .ok _ => true | _ => false)) &&
     (let s := { ring [rec0] 0 s1 with mem := [] }
      (match xlate s 0 0x4000 .record none with | .park _ (some _) => true | _ => false)) &&
     (let s := modPart (mapped s1) 0 (fun p => { p with heldCompl := [compl0] })
      decide ((findPart s 0).heldCompl = [compl0]) && compl0.launch.edges.isEmpty && (match writeRun s 0 compl0.addr compl0.bytes with | .done _ => true | _ => false))) =
    true := by decide +kernel
theorem witness_ClocksAndPower :
    (fwRuns s1 && !fwRuns State.reset && !s1.refLost && decide ((findDie s1 0).relock = none) && !(findDie s1 0).tripped &&
     ({ s1 with refLost := true } : State).refLost && s1.warps.all (fun w => decide (dieOf w.core = 0) && decide (w.name.blk < 2 ^ 31) &&
       (launchGang s1 w.name.launch w.name.blk).any (fun e => decide (e.2.st = .running))) && (findWarp s1 n0).isSome && decide ((0 : Nat) < 8)) = true := by decide +kernel
theorem witness_BootResetsAndHost :
    (!State.reset.booted && !State.reset.refLost && cfgOk State.reset && s1.booted && fwRuns s1 && hasPart s1 0 &&
     (findPart (two .running s1) 0).clusters == [0] && hdmPa [(1, 0x200000, 0x1000)] 0xFFF == some 0x200FFF && hdmPa [(1, 0x200000, 0x1000)] 0x1000 == none &&
     !heldFrame s1 0x200FFF && (mapsTo s1.mem 0x200FFF 5 0 0).isEmpty &&
     heldFrame { s1 with scrub := [{ id := 3, part := 0, kind := 1, units := [0x200], done := 0, resumed := false, reqId := 7 }] } 0x200FFF) = true := by decide +kernel
theorem witness_RoundTrip : ([.iaddF f0, .ld32L f0 x0, .movL f0 { x0 with c := 0 }, .pairWord p0].all (fun i => encOk i && hasWords i)) = true := by decide
/-- The lanes' turn, with the one thread at these words. -/
def standing (ws : List Code) : State := { placed State.reset ws with launches := [l0] }
/-- Every condition before a group issues. -/
def issuesNow (s : State) : Bool :=
  s.booted && (killFirst s).isNone && s.agenda.isEmpty && decide (s.turn % 4 = 0) && (s.warps.findSome? (giveDue s)).isNone &&
    (match laneOrder s with
     | c :: _ => (match findWarp s c.n with
       | some w => mayPass s w && (match gateOf s w.core c with | .go _ => true | _ => false) && (breakAt s w c).isNone
       | none => false)
     | [] => false)
/-- The thread at the last word of its brick, which holds word 0 of an L pair. -/
def brickEnd : State := threadIs (fun t => { t with pc := 4088 }) (standing (List.replicate 511 0 ++ [0xC024003DE1020406]))
theorem witness_StepRunsDecoded :
    ([[packF 0 0 f0], [packF 0 0 { f0 with wait := 1 }], [packF 0 0x1FF f0]].all (fun ws => issuesNow (standing ws)) &&
     (match decodeGroup [packF 0 0 f0] with | .ok _ _ _ n => n == 1 | .bad _ _ => false) &&
     (match decodeGroup [packF 0 0x1FF f0] with | .bad k _ => k == 1 | .ok _ _ _ _ => false) &&
     issuesNow brickEnd && brickEnd.bricks.all (fun b => decide ((b.words.drop (4088 % 4096 / 8)).length = 1) &&
       (match decodeGroup (codeAt brickEnd b 4088) with | .ok _ _ _ n => n == 2 | .bad _ _ => false)) &&
     (let s := { s1 with agenda := [.trace f0] }; s.booted && (killFirst s).isNone && s.agenda.length == 1)) = true := by decide +kernel
/-- A step of the machine at a NOP, and one at a store to the private page, answer a next state; memory has its form before. -/
theorem witness_MemoryCanonical :
    ([standing [packF 0 0 f0], mapped (standing [packF 0 0 f0])].all (fun s => memWf s.mem && (match step s with | .next _ => true | _ => false))) = true := by decide +kernel
/-- After a step the thread stands past the NOP, and the group that waits for a flag stays. -/
def pcAfter (s : State) : Option Nat :=
  match step s with | .next t => (findWarp t n0).bind (fun w => (w.thread 0).map (·.pc)) | _ => none
theorem test_step_nop : pcAfter (standing [packF 0 0 f0]) = some 8 := by decide +kernel
/-- A pair that crosses its brick's end raises 0x06 (R31, R72). -/
theorem test_step_brick_end : (match step brickEnd with | .next t => (findPart t 0).tokens.map (·.code) | _ => []) = [6] := by decide +kernel
theorem test_step_waits : pcAfter (frameIs (fun fr => { fr with flags := [(0, 1)] }) (standing [packF 0 0 { f0 with wait := 1 }])) = some 0 := by decide +kernel

/-! ## Results that the manual works out (03_integer.md after R97, R98, R99, R103, R104; 04_float.md, worked bit patterns; 05_narrow.md after R146) -/

/-- v2 of the thread after an instruction on v4 = a, v6 = b, v8 = c, and the accrued exceptions that it leaves (bits 20:16 of %fpm). -/
def out (i : Instr) (fpm a b c : Word) : Option (Word × Nat) :=
  match exec i (warpIs (fun w => { w with fpm := fpm }) (regs [(4, a), (6, b), (8, c)] s2)) with
  | .next t => (findWarp t n0).map (fun w => (w.cur.getV 0 2, (w.fpm.extractLsb' 16 5).toNat))
  | _ => none
def gives (i : Instr) (a b c y : Word) : Bool := out i 0 a b c == some (y, 0)
def fv : FWord := { f0 with v := true }
/-- Word 1 with these 24 bits. -/
def xt (n : Nat) : LExt := { c := 8, x24 := BitVec.ofNat 24 n, imm32 := 0 }
theorem test_shifts : (gives (.sar f0) 0x80000010 4 0 0xF8000001 && gives (.shr f0) 0x80000010 4 0 0x08000001 && gives (.rol f0) 0x80000010 36 0 0x00000108 &&
    gives (.shl f0) 0x80000010 40 0 0) = true := by decide +kernel
theorem test_saturate : (gives (.iaddF fv) 0x7FFFFFF0 0x20 0 0x7FFFFFFF && gives (.iabs fv) 0x80000000 0 0 0x7FFFFFFF && gives (.iabs f0) 0x80000000 0 0 0x80000000 &&
    gives (.ineg f0) 0x80000000 0 0 0x80000000) = true := by decide +kernel
theorem test_iaddt : gives (.iaddt f0 (xt 2)) 10 5 20 0xFFFFFFFB = true := by decide +kernel
theorem test_fields : (gives (.bfe fv (xt 0)) 0xABC 0x804 0 0xFFFFFFAB && gives (.bfi f0 (xt 0)) 5 0x410 0xFFFFFFFF 0xFFF5FFFF &&
    gives (.bpick f0 (xt 0)) 0x44332211 0x88776655 0x123 0x11223344 && gives (.bpick f0 (xt 0)) 0x44332211 0x88776655 0x8F47 0x00005588 &&
    gives (.bpick fv (xt 0)) 0x44332211 0x88776655 0x8F47 0x00FF5588) = true := by decide +kernel
/-- Exceptions: 1 invalid, 2 division by zero, 4 overflow, 8 underflow, 16 inexact. -/
theorem test_float_add : (out (.faddF f0) 0 0x3F800000 0x33800000 0 == some (0x3F800000, 16) && out (.faddL f0 (xt 2)) 0 0x3F800000 0x33800000 0 == some (0x3F800001, 16) &&
    out (.faddF f0) 0 0x7F800001 0x3F800000 0 == some (0x7FC00000, 1)) = true := by decide +kernel
theorem test_float_mul : (out (.fmulF f0) 0 0x00800000 0x3F000000 0 == some (0x00400000, 0) && out (.fmulF f0) 0 0x00000001 0x3F000000 0 == some (0, 24)) = true := by
  decide +kernel
theorem test_float_minmax : (out (.fmin f0) 0 0 0x80000000 0 == some (0x80000000, 0) && out (.fmax f0) 0 0x7FC00001 0x3F800000 0 == some (0x3F800000, 0)) = true := by
  decide +kernel
theorem test_float_special : (out (.frsq f0) 0 0x80000000 0 0 == some (0xFF800000, 2) && out (.fex2 f0) 0 0x43000000 0 0 == some (0x7F800000, 20) &&
    out (.flg2 f0) 0 0x41000000 0 0 == some (0x40400000, 0) && out (.fsinp f0) 0 0x3F000000 0 0 == some (0x3F800000, 0) &&
    out (.fsinp f0) 0 0xBF800000 0 0 == some (0x80000000, 0)) = true := by decide +kernel
theorem test_convert : (out (.cvtff f0 (xt 0x0C0B00)) 0 0x3F818000 0 0 == some (0x3F82, 16) && out (.cvtff f0 (xt 0x0C0A00)) 0 0x477FF000 0 0 == some (0x7C00, 20) &&
    out (.cvtff f0 (xt 0x0C0A01)) 0 0x477FF000 0 0 == some (0x7BFF, 16) && out (.cvtfi f0 (xt 0x0C0203)) 0 0xC0200000 0 0 == some (0xFFFFFFFD, 16) &&
    out (.cvtfi f0 (xt 0x0C0200)) 0 0x4F32D05E 0 0 == some (0x7FFFFFFF, 1)) = true := by decide +kernel
/-- QNT8.f8a.sat of 1.0, 500, −0.001 and a quiet NaN. -/
theorem test_quantise : (match exec (.qnt8 { fv with d := 2, a := 8, b := 0xC8 } (xt 0x0E00)) (regs [(8, 0x3F800000), (9, 0x43FA0000), (10, 0xBA83126F), (11, 0x7FC00000)] s2) with
    | .next t => (findWarp t n0).map (fun w => (w.cur.getV 0 2, (w.fpm.extractLsb' 16 5).toNat)) | _ => none) = some (0x7F817E38, 24) := by decide +kernel
/-- One step of the worked product (06_matrix.md): four products of 0.25 added to 2^24, and to 2^23. -/
theorem test_matrix_step : ((stepTile 0 [] [] [0x4B800000] [List.replicate 4 0x3F80] [List.replicate 4 0x3E80]).head? = some 0x4B800000 ∧
    (stepTile 0 [] [] [0x4B000000] [List.replicate 4 0x3F80] [List.replicate 4 0x3E80]).head? = some 0x4B000001) := by decide +kernel

end Sys2Proof.Tests
end

/-! PROOFS. The integer instructions of 03_integer.md with one source, with three sources and with 64-bit results (R97 to R99, R105), and the bit
and field instructions (R100 to R104). -/

namespace Sys2Proof.Machine

/-! ## Encodings: one equivalence for each test of `encOk` that an L form makes, one lemma for the word -/

@[simp] theorem noV_iff (f : FWord) : noV f = true ↔ f.v = false := by simp [noV]
@[simp] theorem noI_iff (f : FWord) : noI f = true ↔ f.i = false := by simp [noI]
@[simp] theorem immIfI_iff (f : FWord) (x : LExt) : immIfI f x = true ↔ immIsB f x := by
  cases hi : f.i <;> simp [immIfI, immIsB, hi]

/-- An instruction in L form carries format 3 and its opcode, so that its encoding rests on the tests of its fields alone (R33, R44). -/
theorem encodes_L {i : Instr} {opc : BitVec 9} {f : FWord} {x : LExt} {fields : Prop} (hw : encode i = encL opc f x)
    (hok : encOk i = true ↔ fields) : Encodes i 3 opc fields := by
  have hhead : (encode i).headD 0 = packF 3 opc f := by rw [hw]; rfl
  refine ⟨?_, ?_, hok⟩
  · rw [hhead, fmtOf_packF]
  · rw [hhead, opcOf_packF]

/-- L forms whose V selects a variant, with no field in X24. -/
theorem encodes_L_variant {i : Instr} {opc : BitVec 9} {f : FWord} {x : LExt} (hw : encode i = encL opc f x)
    (hok : encOk i = (xMask x 0 && immIfI f x)) : Encodes i 3 opc (x.x24 = 0 ∧ immIsB f x) :=
  encodes_L hw (by rw [hok, Bool.and_eq_true, xMask_zero, immIfI_iff])
/-- L forms with no variant and no field in X24. -/
theorem encodes_L_plain {i : Instr} {opc : BitVec 9} {f : FWord} {x : LExt} (hw : encode i = encL opc f x)
    (hok : encOk i = (noV f && xMask x 0 && immIfI f x)) : Encodes i 3 opc (f.v = false ∧ x.x24 = 0 ∧ immIsB f x) :=
  encodes_L hw (by rw [hok, Bool.and_eq_true, Bool.and_eq_true, noV_iff, xMask_zero, immIfI_iff, and_assoc])

theorem encodes_iaddt (f : FWord) (x : LExt) :
    Encodes (.iaddt f x) 3 0x004 (f.v = false ∧ (∀ k, 2 ≤ k → x.x24.getLsbD k = false) ∧ immIsB f x) := by
  have hok : encOk (.iaddt f x) = (noV f && xMask x (2 ^ 2 - 1) && immIfI f x) := rfl
  exact encodes_L rfl (by
    rw [hok, Bool.and_eq_true, Bool.and_eq_true, noV_iff, xMask_low x 2 (by decide), immIfI_iff, and_assoc])
theorem encodes_lea (f : FWord) (x : LExt) :
    Encodes (.lea f x) 3 0x021 ((∀ k, 5 ≤ k → x.x24.getLsbD k = false) ∧ immIsB f x) := by
  have hok : encOk (.lea f x) = (xMask x (2 ^ 5 - 1) && immIfI f x) := rfl
  exact encodes_L rfl (by rw [hok, Bool.and_eq_true, xMask_low x 5 (by decide), immIfI_iff])
theorem encodes_blut (f : FWord) (x : LExt) :
    Encodes (.blut f x) 3 0x015 (f.v = false ∧ f.i = false ∧ x.x24 = 0 ∧ x.imm32.toNat < 256) := by
  have hok : encOk (.blut f x) = (noV f && noI f && xMask x 0 && decide (x.imm32.toNat < 256)) := rfl
  exact encodes_L rfl (by simp only [hok, Bool.and_eq_true, noV_iff, noI_iff, xMask_zero, decide_eq_true_eq, and_assoc])

/-! ## Values: the functions of the model in the words of the rules -/

/-- A one-bit field of X24 is that bit. -/
theorem decide_xbits_one (x : LExt) (k : Nat) : decide (x.xbits k 1 = 1) = x.x24.getLsbD k := by
  rw [LExt.xbits, pow_one, BitVec.getLsbD, Nat.testBit_eq_decide_div_mod_eq]

/-- A bit of a number is that bit of the word with the number. -/
theorem bitOf_toNat {n : Nat} (a : BitVec n) (k : Nat) : bitOf a.toNat k = a.getLsbD k := by
  rw [bitOf, BitVec.getLsbD, Nat.testBit_eq_decide_div_mod_eq]

/-- The wrapped value of a sum is the sum of the wrapped values. -/
theorem ofInt_add_toInt (a : Word) (y : Int) : BitVec.ofInt 32 (a.toInt + y) = a + BitVec.ofInt 32 y := by
  rw [BitVec.ofInt_add, BitVec.ofInt_toInt]

/-- Both factors fit in half of the product's width, so that it is exact in either reading (R98). -/
theorem mulWide_eq (v : Bool) (a b : Word) : mulWide v a b =
    if v then a.zeroExtend 64 * b.zeroExtend 64 else a.signExtend 64 * b.signExtend 64 := by
  cases v with
  | false =>
    apply BitVec.eq_of_toInt_eq
    simp only [mulWide, Bool.false_eq_true, if_false]
    rw [BitVec.toInt_mul, BitVec.toInt_signExtend_of_le (by decide), BitVec.toInt_signExtend_of_le (by decide), BitVec.toInt_ofInt]
  | true =>
    apply BitVec.eq_of_toNat_eq
    have hwide (c : Word) : (c.zeroExtend 64).toNat = c.toNat := BitVec.toNat_setWidth_of_le (by decide)
    simp only [mulWide, if_true]
    rw [BitVec.toNat_mul, hwide, hwide, BitVec.toNat_ofNat]

theorem cond_neg_eq_ofInt (n : Bool) (b : Word) : (if n then -b else b) = BitVec.ofInt 32 (if n then -b.toInt else b.toInt) := by
  cases n with
  | false => exact (BitVec.ofInt_toInt).symm
  | true => simp only [if_true, BitVec.ofInt_neg, BitVec.ofInt_toInt]
theorem addtW_eq (nb nc : Bool) (a b c : Word) : addtW nb nc a b c =
    BitVec.ofInt 32 (a.toInt + (if nb then -b.toInt else b.toInt) + (if nc then -c.toInt else c.toInt)) := by
  rw [BitVec.ofInt_add, ofInt_add_toInt, ← cond_neg_eq_ofInt, ← cond_neg_eq_ofInt]; rfl
theorem mul_add_i (a b c : Word) : a * b + c = BitVec.ofInt 32 (a.toInt * b.toInt + c.toInt) := by
  rw [BitVec.ofInt_add, BitVec.ofInt_toInt, mul_i]

/-- An address of any width: the scaled index is added to the base and the sum wraps (R105). -/
theorem add_ofNat_eq_ofNat {n : Nat} (a : BitVec n) (y : Nat) : a + BitVec.ofNat n y = BitVec.ofNat n (a.toNat + y) := by
  rw [BitVec.ofNat_add, BitVec.ofNat_toNat, BitVec.setWidth_eq]

theorem ite_eq_mul_toNat (b : Bool) (n : Nat) : (if b then n else 0) = n * b.toNat := by cases b <;> simp
theorem blutW_eq (tt a b c : Word) : blutW tt.toNat a b c = wordOfBits fun i =>
    tt.getLsbD ((a.getLsbD i).toNat + 2 * (b.getLsbD i).toNat + 4 * (c.getLsbD i).toNat) := by
  simp only [blutW, bitOf_toNat, ite_eq_mul_toNat, one_mul]

/-! ## Completion of the three shapes of integer instructions -/

theorem alu1_gives (f : FWord) (s : State) (g : Word → Word) : Gives useA f none s (alu1 f s g) (one g) := alu_gives useA f none s _
theorem alu2_gives (f : FWord) (x : Option LExt) (s : State) (g : Word → Word → Word) : Gives useAB f x s (alu2 f x s g) (two g) :=
  alu_gives useAB f x s _
theorem alu3_gives (f : FWord) (x : LExt) (s : State) (g : Word → Word → Word → Word) :
    Gives useABC f (some x) s (alu3 f x s g) (three g) := alu_gives useABC f (some x) s _

theorem iadd64_gives (f : FWord) (s : State) : Gives { d := 2, a := 2, b := 2, den := true } f none s (exec (.iadd64 f) s) (fun i =>
    { vals := split64 (w64 i.a + w64 i.b) }) := by
  have he : exec (.iadd64 f) s = execIadd64 f s := rfl
  rw [he]
  exact alu_gives _ f none s _
theorem imulw_gives (f : FWord) (s : State) : Gives { d := 2, a := 1, b := 1, den := true } f none s (exec (.imulw f) s) (fun i =>
    { vals := split64 (if f.v then (w32 i.a).zeroExtend 64 * (w32 i.b).zeroExtend 64 else (w32 i.a).signExtend 64 * (w32 i.b).signExtend 64) }) := by
  have he : exec (.imulw f) s = execImulw f s := rfl
  simp only [he, ← mulWide_eq]
  exact alu_gives _ f none s _
theorem iaddt_gives (f : FWord) (x : LExt) (s : State) : Gives useABC f (some x) s (exec (.iaddt f x) s) (three fun a b c =>
    BitVec.ofInt 32 (a.toInt + (if x.x24.getLsbD 0 then -b.toInt else b.toInt) + (if x.x24.getLsbD 1 then -c.toInt else c.toInt))) := by
  simp only [← decide_xbits_one]
  exact gives_three (addtW_eq _ _) (alu3_gives f x s _)
theorem imad_gives (f : FWord) (x : LExt) (s : State) : Gives useABC f (some x) s (exec (.imad f x) s)
    (three fun a b c => BitVec.ofInt 32 (a.toInt * b.toInt + c.toInt)) := by
  have he : exec (.imad f x) s = alu3 f x s (fun a b c => a * b + c) := rfl
  rw [he]
  exact gives_three mul_add_i (alu3_gives f x s _)
/-- LEA with V = 0 is a sum of words. -/
theorem lea_gives {f : FWord} (hv : f.v = false) (x : LExt) (s : State) : Gives useAB f (some x) s (exec (.lea f x) s)
    (two fun a b => BitVec.ofNat 32 (a.toNat + b.toNat * 2 ^ x.xbits 0 5)) := by
  have he : exec (.lea f x) s = alu2 f (some x) s (fun a b => a + BitVec.ofNat 32 (b.toNat * 2 ^ x.xbits 0 5)) :=
    if_neg (by rw [hv]; decide)
  rw [he]
  exact gives_two (fun _ _ => add_ofNat_eq_ofNat _ _) (alu2_gives f (some x) s _)
/-- LEA with V = 1 is a sum of a pair and a word. -/
theorem lea64_gives {f : FWord} (hv : f.v = true) (x : LExt) (s : State) :
    Gives { d := 2, a := 2, b := 1, den := true } f (some x) s (exec (.lea f x) s) (fun i =>
      { vals := split64 (BitVec.ofNat 64 ((w64 i.a).toNat + (w32 i.b).toNat * 2 ^ x.xbits 0 5)) }) := by
  have he : exec (.lea f x) s = alu { d := 2, a := 2, b := 1, den := true } f (some x) s (fun i =>
      { vals := split64 (w64 i.a + BitVec.ofNat 64 ((w32 i.b).toNat * 2 ^ x.xbits 0 5)) }) := if_pos hv
  rw [he]
  simp only [← add_ofNat_eq_ofNat]
  exact alu_gives _ f (some x) s _

/-! ## The obligations -/

/-- Settles O2: every instruction completes as its shape does (`alu_gives`) with a value that a lemma above or in Laws/Values.lean puts in the
words of R97 to R99 and R105; the encodings by `encodes_L`. -/
theorem integerOneSourceAndWide : Obligations.IntegerOneSourceAndWide := by
  intro f x s
  refine ⟨?iabs, ?ineg, ?not, ?popc, ?clz, ?brev, iadd64_gives f s, imulw_gives f s, iaddt_gives f x s, imad_gives f x s,
    fun hv => lea_gives hv x s, fun hv => lea64_gives hv x s, encodes_iaddt f x, encodes_L_plain rfl rfl, encodes_lea f x⟩
  case iabs => exact gives_one (absW_eq f.v) (alu1_gives f s _)
  case ineg => exact gives_one (negW_eq f.v) (alu1_gives f s _)
  case not => exact alu1_gives f s _
  case popc => exact gives_one popc_eq (alu1_gives f s _)
  case clz => exact gives_one clz_eq (alu1_gives f s _)
  case brev => exact gives_one reverse_eq (alu1_gives f s _)

/-- Settles O3: every instruction completes as a function of two or three words (`alu2_gives`, `alu3_gives`) whose bits `blutW_eq` and the lemmas
of Laws/Values.lean give as R100 to R104 do; the encodings by `encodes_L`. -/
theorem fieldOperations : Obligations.FieldOperations := by
  intro f x s
  refine ⟨?blut, ?funs, ?bfe, ?bfi, ?bpick, encodes_blut f x, encodes_L_variant rfl rfl, encodes_L_variant rfl rfl,
    encodes_L_plain rfl rfl, encodes_L_variant rfl rfl⟩
  case blut => exact gives_three (blutW_eq x.imm32) (alu3_gives f x s _)
  case funs => exact gives_three (funs_eq f.v) (alu3_gives f x s _)
  case bfe => exact gives_two (bfe_eq f.v) (alu2_gives f (some x) s _)
  case bfi => exact gives_three bfi_eq (alu3_gives f x s _)
  case bpick => exact gives_three (bpick_eq f.v) (alu3_gives f x s _)

end Sys2Proof.Machine

/-! PROOFS. The FP32 instructions of 04_float.md (R119 to R128). -/

namespace Sys2Proof.Machine

/-! ## Encodings in F form -/

/-- An instruction in F form carries format 0 and its opcode, so that its encoding rests on the tests of its fields alone (R33). -/
theorem encodes_F {i : Instr} {opc : BitVec 9} {f : FWord} {fields : Prop} (hw : encode i = encF opc f)
    (hok : encOk i = true ↔ fields) : Encodes i 0 opc fields := by
  have hhead : (encode i).headD 0 = packF 0 opc f := by rw [hw]; rfl
  refine ⟨?_, ?_, hok⟩
  · rw [hhead, fmtOf_packF]
  · rw [hhead, opcOf_packF]
/-- F forms with no variant and no immediate. -/
theorem encodes_F_plain {i : Instr} {opc : BitVec 9} {f : FWord} (hw : encode i = encF opc f)
    (hok : encOk i = (noV f && noI f)) : Encodes i 0 opc (f.v = false ∧ f.i = false) :=
  encodes_F hw (by rw [hok, Bool.and_eq_true, noV_iff, noI_iff])

/-! ## Values: the sign operations in the words of R122 -/

/-- The canonical NaN of FP32 (R112). -/
theorem nanBits_fmt32 : BitVec.ofNat 32 fmt32.nanBits = 0x7FC00000 := by decide
theorem signW_false : signW false = fun a => if (unpackF fmt32 a.toNat).isNan then 0x7FC00000 else a &&& 0x7FFFFFFF := by
  funext a
  rw [signW, nanBits_fmt32, if_neg Bool.false_ne_true]
theorem signW_true : signW true = fun a => if (unpackF fmt32 a.toNat).isNan then 0x7FC00000 else a ^^^ 0x80000000 := by
  funext a
  rw [signW, nanBits_fmt32, if_pos rfl]

/-! ## Completion and trap of the shapes of FP32 instructions -/

theorem alu1_computes (f : FWord) (s : State) (g : Word → Word) : Computes useA f none s (alu1 f s g) (one g) := alu_computes useA f none s _
theorem fp1_computes (f : FWord) (s : State) (g : Bool → FVal → Nat × Exc) (lock : Bool) :
    Computes { useA with lock := lock } f none s (fp1 f s g lock) (fpOne g) := alu_computes _ f none s _
theorem fp2_computes (f : FWord) (x : Option LExt) (s : State) (g : Nat → Bool → FVal → FVal → Nat × Exc) (lock : Bool) :
    Computes { useAB with lock := lock } f x s (fp2 f x s g lock) (fpTwo f x g) := alu_computes _ f x s _

/-- FABS clears the sign bit, but for a NaN (R122). -/
theorem fabs_computes (f : FWord) (s : State) : Computes useA f none s (exec (.fabs f) s)
    (one fun a => if (unpackF fmt32 a.toNat).isNan then 0x7FC00000 else a &&& 0x7FFFFFFF) := by
  rw [← signW_false]
  exact alu1_computes f s _
/-- FNEG inverts the sign bit, but for a NaN (R122). -/
theorem fneg_computes (f : FWord) (s : State) : Computes useA f none s (exec (.fneg f) s)
    (one fun a => if (unpackF fmt32 a.toNat).isNan then 0x7FC00000 else a ^^^ 0x80000000) := by
  rw [← signW_true]
  exact alu1_computes f s _

/-! ## The obligation -/

/-- Settles O6: an instruction of two FP32 sources completes or traps as `fp2_computes` says, one of one source as `fp1_computes`, and those of
another shape as `alu_computes`; the interlocked ones (R127) are those with `lock`. FABS and FNEG are functions of a word (`alu1_computes`) that
`signW_false` and `signW_true` give as R122 does. -/
theorem singlePrecision : Obligations.SinglePrecision := by
  intro f x s
  refine ⟨?faddF, ?faddL, ?fsubF, ?fsubL, ?fmulF, ?fmulL, ?ffmaF, ?ffmaL, ?fmin, ?fmax, ?fsetF, ?fsetL, fabs_computes f s, fneg_computes f s,
    ?frnd, ?fclass, ?fscl, ?fdivF, ?fdivL, ?frcp, ?frsq, ?fsqrt, ?fex2, ?flg2, ?fsinp, ?fcosp, encodes_F_plain rfl rfl, encodes_F_plain rfl rfl⟩
  case faddF => exact fp2_computes f none s (addV fmt32) false
  case faddL => exact fp2_computes f (some x) s (addV fmt32) false
  case fsubF => exact fp2_computes f none s (subV fmt32) false
  case fsubL => exact fp2_computes f (some x) s (subV fmt32) false
  case fmulF => exact fp2_computes f none s (mulV fmt32) false
  case fmulL => exact fp2_computes f (some x) s (mulV fmt32) false
  case ffmaF => exact alu_computes useABD f none s _
  case ffmaL => exact alu_computes useABC f (some x) s _
  case fmin => exact fp2_computes f none s (fun _ ftz => minMaxV fmt32 ftz false) false
  case fmax => exact fp2_computes f none s (fun _ ftz => minMaxV fmt32 ftz true) false
  case fsetF => exact alu_computes (useCmp f) f none s (fsetOut f none)
  case fsetL => exact alu_computes (useCmp f) f (some x) s (fsetOut f (some x))
  case frnd => exact fp1_computes f s (frndV fmt32 (f.b.toNat % 4)) false
  case fclass => exact alu1_computes f s (fun a => BitVec.ofNat 32 (classV fmt32 a.toNat))
  case fscl => exact alu_computes useAB f none s _
  case fdivF => exact fp2_computes f none s (divV fmt32) true
  case fdivL => exact fp2_computes f (some x) s (divV fmt32) true
  case frcp => exact fp1_computes f s (fun ftz a => divV fmt32 0 ftz (.fin false 1 0) a) true
  case frsq => exact fp1_computes f s (rsqrtV fmt32) true
  case fsqrt => exact fp1_computes f s (sqrtV fmt32) true
  case fex2 => exact fp1_computes f s (exp2V fmt32) true
  case flg2 => exact fp1_computes f s (log2V fmt32) true
  case fsinp => exact fp1_computes f s (sinpV fmt32) true
  case fcosp => exact fp1_computes f s (cospV fmt32) true

end Sys2Proof.Machine

/-! PROOFS. The warp collectives of 11_control.md (R304 to R309). -/

namespace Sys2Proof.Machine

/-! ## Completion and trap of a collective -/

/-- A collective that gives each participant a function of what all of them read (R304). -/
theorem collective_collects (u : Use) (f : FWord) (x : Option LExt) (s : State) (fn : List AluIn → AluIn → AluOut) :
    Collects u f x s (collective u f x s fun ins => ins.map (fn ins)) fn :=
  aluAll_collects u f x s fn

/-! ## POLL -/

/-- The predicate form gives every participant the vote (R305). -/
theorem poll_vote_collects {f : FWord} (hv : f.v = false) (s : State) :
    Collects { lock := true, bad := decide (f.aLo ≥ 12) || decide (f.dLo ≥ 12), preds := [f.aLo, f.dLo] } f none s (exec (.poll f) s)
      (fun ins _ =>
        let val (i : AluIn) : Bool := i.p.getLsbD f.aLo != f.a.getLsbD 4
        { preds := [(f.dLo, match f.dHi with | 0 => ins.all val | 1 => ins.any val | _ => ins.all val || ins.all (!val ·))] }) := by
  have he : exec (.poll f) s = execPoll f s := rfl
  rw [he, execPoll, if_neg (by rw [hv]; decide)]
  exact collective_collects _ f none s _
/-- The mask form gives every participant the mask (R305). -/
theorem poll_mask_collects {f : FWord} (hv : f.v = true) (s : State) :
    Collects { d := 4, s := false, lock := true, zero := false, bad := decide (f.aLo ≥ 12), preds := [f.aLo] } f none s (exec (.poll f) s)
      (fun ins _ => { vals := maskWords (maskOf ((ins.filter fun i => i.p.getLsbD f.aLo != f.a.getLsbD 4).map (·.t))) }) := by
  have he : exec (.poll f) s = execPoll f s := rfl
  rw [he, execPoll, if_pos hv]
  exact collective_collects _ f none s _

/-! ## WPERM -/

/-- In the F form's window of 128 the source is read off the place of the thread in the window: .swap and .from (R306). -/
theorem wpermSrc_window128 (swap : Bool) (t k : Nat) : wpermSrc (if swap then 3 else 0) 128 t k =
    if swap then t - t % 128 + ((t % 128) ^^^ (k % 128)) else t - t % 128 + k % 128 := by
  cases swap with
  | false => rfl
  | true =>
    have hplace : t - (t - t % 128) = t % 128 := Nat.sub_sub_self (Nat.mod_le t 128)
    simp only [wpermSrc, if_true, hplace]
/-- WPERM of any mode and window gives each participant what its source holds, where that is a participant (R306). -/
theorem wperm_collects (f : FWord) (x : Option LExt) (s : State) (mode w : Nat) :
    Collects (collUse 1 1) f x s (collective (collUse 1 1) f x s (wpermOuts mode w)) (fun ins i =>
      { vals := [((ins.find? fun j => j.t = wpermSrc mode w i.t (w32 i.b).toNat).map fun j => w32 j.a).getD (w32 i.a)] }) := by
  rw [funext (wpermOuts_eq mode w)]
  exact collective_collects _ f x s _
theorem wpermF_collects (f : FWord) (s : State) : Collects (collUse 1 1) f none s (exec (.wpermF f) s) (fun ins i =>
    let k := (w32 i.b).toNat % 128
    { vals := [((ins.find? fun j => j.t = if f.v then i.t - i.t % 128 + ((i.t % 128) ^^^ k) else i.t - i.t % 128 + k).map fun j => w32 j.a).getD (w32 i.a)] }) := by
  simp only [← wpermSrc_window128]
  exact wperm_collects f none s _ 128

/-! ## The obligation -/

/-- Settles O10: every collective gives each participant a function of what all of them read (`collective_collects`). The two forms of POLL are
told apart by V, the source of WPERM is `wpermSrc`, in the F form over a window of 128 (`wpermSrc_window128`), and the functions of MATCH,
ELECT, WRED and WSCAN are the statement's own. The encoding of MATCH by `encodes_F_plain`. -/
theorem warpCollectives : Obligations.WarpCollectives := by
  intro f x s
  refine ⟨fun hv => poll_vote_collects hv s, fun hv => poll_mask_collects hv s, wpermF_collects f s, ?wpermL, ?matchWarp, ?elect, ?wred, ?wscan,
    encodes_F_plain rfl rfl⟩
  case wpermL => exact wperm_collects f (some x) s (x.xbits 0 2) (2 ^ x.xbits 2 3)
  case matchWarp => exact collective_collects (collUse 4) f none s _
  case elect => exact collective_collects _ f none s _
  case wred => exact collective_collects (collUse 1) f none s _
  case wscan => exact collective_collects (collUse 1) f none s _

end Sys2Proof.Machine
